-- ==== Sys2Proof/Word.lean ====
section
/-!
DEFINITION. The word types of the CN4 and their plainest arithmetic (spec/00_scope.md R3; spec/03_encoding_and_assembly.md R49).
-/

namespace Sys2Proof

/-- One byte (R3). -/
abbrev Byte := BitVec 8

/-- A 32-bit register or operand word (R80). -/
abbrev W32 := BitVec 32

/-- A 64-bit value (R108). -/
abbrev W64 := BitVec 64

/-- Bits `lo + n - 1` down to `lo` of a natural number, as a number (R8's `x[h:l]`). -/
def bitsAt (x lo n : Nat) : Nat := x / 2 ^ lo % 2 ^ n

/-- One bit of a natural number. -/
def bitAt (x i : Nat) : Bool := x / 2 ^ i % 2 == 1

/-- The value of `x`, an `n`-bit pattern, read as two's complement (R108). -/
def signedOf (n x : Nat) : Int :=
  if x % 2 ^ n < 2 ^ (n - 1) then (x % 2 ^ n : Nat) else (x % 2 ^ n : Nat) - (2 ^ n : Nat)

/-- The `n`-bit pattern of an integer, which wraps modulo 2^n (R108). -/
def patternOf (n : Nat) (x : Int) : Nat := (x % (2 ^ n : Nat)).toNat

/-- Floor of the base-2 logarithm, with 0 for 0. -/
def log2 (n : Nat) : Nat := Nat.log2 n

/-- Ceiling of `a / b`. -/
def ceilDiv (a b : Nat) : Nat := (a + b - 1) / b

end Sys2Proof
end

