-- ==== Sys2Proof/Config.lean ====
section
/-!
DEFINITION. What the part fixes (its figures and latencies), and the free values: opaque constants of which nothing can be
proved beyond their type (spec/01_organisation.md, spec/03_encoding_and_assembly.md R66, notes/assumptions).
-/

namespace Sys2Proof.Config

/-- Compute dies (R11). -/
def dies : Nat := 4
/-- Enabled cores of one die (R15). -/
def coresPerDie : Nat := 40
/-- Physical cores of one die (R11). -/
def physCoresPerDie : Nat := 42
/-- Zuzin Link ports of the hub (R11). -/
def zuzinPorts : Nat := 16
/-- Enabled cores of the module (R18). -/
def cores : Nat := 160
/-- Bays of one core (R13). -/
def baysPerCore : Nat := 4
/-- Groups a bay can hold (R14). -/
def slotsPerBay : Nat := 16
/-- Live strands of one group (R14). -/
def strandsPerGroup : Nat := 4
/-- Pool registers of one bay (R26). -/
def poolPerBay : Nat := 1024
/-- Scratchpad bytes of one core (R13). -/
def scratchBytes : Nat := 1048576
/-- Stack-cache bytes of one core (R13). -/
def stackCacheBytes : Nat := 131072
/-- Instruction-cache lines of one core: 128 KiB of 64-byte lines (R13). -/
def icacheLines : Nat := 2048
/-- Lines of one die cache: 64 MiB of 128-byte lines (R146). -/
def dieCacheLines : Nat := 524288
/-- Entries of one copy channel (R222). -/
def channelEntries : Nat := 12
/-- Entries of a continuation's held queue (R103). -/
def heldEntries : Nat := 32
/-- Open frames of one group (R97). -/
def maxFrames : Nat := 8
/-- Instructions of one run (R64). -/
def runLimit : Nat := 24
/-- Arbitrations a strand may lose in a row (R281). -/
def lossLimit : Nat := 64
/-- Core-level harness units of one core (R13). -/
def coreHarnessUnits : Nat := 64
/-- Die-level harness units of one die (R11). -/
def dieHarnessUnits : Nat := 512
/-- Hub-level harness units (R11). -/
def hubHarnessUnits : Nat := 256
/-- Live harness ids of the module (R18). -/
def harnessIds : Nat := 4096
/-- Watch entries of one die (R285). -/
def watchEntries : Nat := 1024
/-- Pages of one fault batch (R156). -/
def batchPages : Nat := 17
/-- Instructions of one run-ahead (R155). -/
def runAheadLimit : Nat := 64
/-- Outstanding trap record ids of one save area (R310). -/
def trapIds : Nat := 4096
/-- Admitted jobs that are not complete (R273). -/
def admittedJobs : Nat := 4096
/-- Entries of the inbound fault log (R340). -/
def faultLogEntries : Nat := 256
/-- Entries of the Sorser event FIFO (R331). -/
def sorserFifo : Nat := 64
/-- Straggler entries that one harness unit holds for writing (R291). -/
def stragglerWaiting : Nat := 16
/-- Claim attempts of one offer (R299). -/
def stealAttempts : Nat := 16
/-- Cycles after issue at which a scoreboarded result that an instruction knows at issue is written; the spec gives no figure
(DESIGN CHOICE, notes/assumptions/14.md). -/
def shortResult : Nat := 4
/-- Cycles of 1 ms at 1.4 GHz (R294, R339). -/
def msCycles : Nat := 1400000

/-- The free part of a special function's result: by how many representable steps it lies above or below the
correctly rounded value; the machine keeps it within the bound R384 states (DESIGN CHOICE, notes/assumptions/6.md). -/
opaque frsqStep : Nat → Int
/-- As `frsqStep`, for FEXP2 (R384, DESIGN CHOICE, notes/assumptions/6.md). -/
opaque fexp2Step : Nat → Int
/-- As `frsqStep`, for FLOG2 (R384, DESIGN CHOICE, notes/assumptions/6.md). -/
opaque flog2Step : Nat → Int
/-- As `frsqStep`, for FSIN, in units of 2^-60 (R384, DESIGN CHOICE, notes/assumptions/6.md). -/
opaque fsinStep : Nat → Int
/-- As `frsqStep`, for FCOS, in units of 2^-60 (R384, DESIGN CHOICE, notes/assumptions/6.md). -/
opaque fcosStep : Nat → Int
/-- The private bytes of a context image, by image number and offset (R316, DESIGN CHOICE, notes/assumptions/8.md). -/
opaque imageByte : Nat → Nat → Byte
/-- The attestation signature over a report, as bytes of its number (R344, DESIGN CHOICE, notes/assumptions/7.md). -/
opaque signature : List Byte → List Byte
/-- SHA-256, left uninterpreted (R78, R344, DESIGN CHOICE, notes/assumptions/7.md). -/
opaque sha256 : List Byte → BitVec 256
/-- Whether a signature of a message verifies under a public key, by SLH-DSA-SHA2-192s (R78, R343, DESIGN CHOICE, notes/assumptions/7.md). -/
opaque slhVerify : Nat → List Byte → List Byte → Bool
/-- The fused root key (R343, DESIGN CHOICE, notes/assumptions/7.md). -/
opaque rootKey : Nat
/-- The firmware that the controller loads (R343, R344, DESIGN CHOICE, notes/assumptions/7.md). -/
opaque firmware : List Byte
/-- The signature that comes with the firmware (R343, DESIGN CHOICE, notes/assumptions/7.md). -/
opaque firmwareSig : List Byte
/-- The bytes of an image as its source's controller seals it again for a target chip (R348, DESIGN CHOICE, notes/assumptions/8.md). -/
opaque reseal : Nat → List Byte → List Byte
/-- A free value, for a value on which the spec is silent, by the next number at the time (or the number of the sample) and by which value it
is (DESIGN CHOICE, notes/assumptions/16.md). -/
opaque freeValue : Nat → Nat → W32

end Sys2Proof.Config
end

