-- ==== Sys2Proof/Syntax.lean ====
section
/-!
DEFINITION. The steps of the machine as syntax: the 129 instructions of the 96-bit word (spec/03_encoding_and_assembly.md,
spec/17 to spec/19) and the 98 events of spec/95_what_each_step_holds.md, one constructor per row of spec/opcode_table.json.
-/

namespace Sys2Proof

/-- The guard of an instruction (R50): the scope, whether it is negated, and the predicate index 0 to 7. -/
inductive Guard where
  | lane (neg : Bool) (p : Nat)
  | group (neg : Bool) (p : Nat)
deriving DecidableEq, Repr, Inhabited

/-- What every instruction word holds beside its operation: STALL, END and the guard (R49). -/
structure Hdr where
  stall : Nat
  endRun : Bool
  guard : Guard
deriving DecidableEq, Repr, Inhabited

/-- The integer types of R56. -/
inductive IntTy where
  | s32 | n32 | s16 | n16 | s8 | n8 | s64 | n64
deriving DecidableEq, Repr, Inhabited

/-- The floating types of R56. -/
inductive FloatTy where
  | f32 | f16 | bf16 | e4m3 | e5m2
deriving DecidableEq, Repr, Inhabited

/-- The rounding modes of R54 and R119. -/
inductive Rm where
  | rne | rz | rdn | rup
deriving DecidableEq, Repr, Inhabited

/-- A source operand: a vector register, a group register, or an immediate (R54). -/
inductive Src where
  | v (n : Nat)
  | g (n : Nat)
  | imm (w : W32)
deriving DecidableEq, Repr, Inhabited

/-- A predicate operand: a lane or group predicate, and whether it is inverted (R431, R444). -/
structure PredRef where
  grp : Bool
  idx : Nat
  neg : Bool
deriving DecidableEq, Repr, Inhabited

/-- Comparisons of ISETP and FSETP (R388, R409). -/
inductive Cmp where
  | eq | ne | lt | le | gt | ge | num | nan
deriving DecidableEq, Repr, Inhabited

/-- A type of CVT: an integer or a floating type (R377). -/
inductive CvtTy where
  | int (t : IntTy)
  | flt (t : FloatTy)
deriving DecidableEq, Repr, Inhabited

/-- Operations of LRED, LSCAN (R419). -/
inductive RedOp where
  | add | min | max | and | or | xor
deriving DecidableEq, Repr, Inhabited

/-- SHFL modes (R439). -/
inductive ShflMode where
  | idx | up | down | xor
deriving DecidableEq, Repr, Inhabited

/-- VOTE functions (R454). -/
inductive VoteFn where
  | any | all | ballot | cnt
deriving DecidableEq, Repr, Inhabited

/-- PLOG operations (R431). -/
inductive PlogOp where
  | and | or | xor | mov
deriving DecidableEq, Repr, Inhabited

/-- The two forms of PMOV (R432). -/
inductive PmovForm where
  | toReg (d p : Nat)
  | toPred (p : Nat) (a : Src)
deriving DecidableEq, Repr, Inhabited

/-- The lane that GMOV reads (R391). -/
inductive GmovLane where
  | imm (n : Nat)
  | reg (g : Nat)
  | first
deriving DecidableEq, Repr, Inhabited

/-- A transfer target in IMM: a signed line offset from the instruction's line, and a slot (R57). -/
structure Target where
  line : Int
  slot : Nat
deriving DecidableEq, Repr, Inhabited

/-- Ordering scopes (R161). -/
inductive Scope where
  | group | core | die | dev | sys
deriving DecidableEq, Repr, Inhabited

/-- Ordering qualifiers of format M (R55, R165). -/
structure MemOrd where
  acq : Bool
  rel : Bool
  scope : Scope
  rp : Bool
deriving DecidableEq, Repr, Inhabited

/-- Types of loads and stores: the integer types, and `.b128` (R413). -/
inductive MemTy where
  | int (t : IntTy)
  | b128
deriving DecidableEq, Repr, Inhabited

/-- Atomic operations (R357). -/
inductive AtomOp where
  | add | min | max | and | or | exch | cas | fadd
deriving DecidableEq, Repr, Inhabited

/-- Access paths (R160). -/
inductive Path where
  | ls | cp | mx | cl
deriving DecidableEq, Repr, Inhabited

/-- Matrix and drain formats by their code of R119, with code 4 meaning f32 (R211); `reserved` is a code of 5 to 7 or 15,
which an instruction meets with cause 280 when it issues. -/
inductive MFmt where
  | e4m3 | e5m2 | bf16 | f16 | f32 | bfp (w : Nat) | reserved (code : Nat)
deriving DecidableEq, Repr, Inhabited

/-- Source kinds of the matrix instructions (R203). -/
inductive MKind where
  | regs | sx | g | ws
deriving DecidableEq, Repr, Inhabited

/-- Spans of a harness (R243). -/
inductive Span where
  | core | die | dev | sys
deriving DecidableEq, Repr, Inhabited

/-- Vote functions of HVOTE (R248). -/
inductive HVoteFn where
  | any | all | cnt
deriving DecidableEq, Repr, Inhabited

/-- Reduction operations of HRED (R248). -/
inductive HRedOp where
  | add | min | max
deriving DecidableEq, Repr, Inhabited

/-- Reduction types of HRED (R248). -/
inductive HRedTy where
  | s32 | n32 | f32
deriving DecidableEq, Repr, Inhabited

/-- What MOVS reads (R425). -/
inductive MovsSrc where
  | sr (n : Nat)
  | sc (n : Nat)
  | am (n : Nat)
  | fmt
deriving DecidableEq, Repr, Inhabited

/-- A storage side of a copy: a buffer record or the scratchpad (R223). -/
inductive CopySide where
  | buf (b : Nat)
  | sx
deriving DecidableEq, Repr, Inhabited

/-- The kind of a phase, fixed by its first arrival (R246, R373). -/
inductive HKind where
  | barrier
  | vote (f : HVoteFn)
  | red (op : HRedOp) (ty : HRedTy)
  | coll (n blocks : Nat)
deriving DecidableEq, Repr, Inhabited

/-- A group named by its slice (the model's own slice number) and its index in the slice. -/
structure GroupRef where
  sid : Nat
  gi : Nat
deriving DecidableEq, Repr, Inhabited

/-- A strand named by its group and its strand number (R27). -/
structure StrandRef where
  sid : Nat
  gi : Nat
  sn : Nat
deriving DecidableEq, Repr, Inhabited

/-- A member of a harness: a group of this module, or a group of another module by its chip id and a number that module
gives it (R243). -/
inductive Member where
  | here (g : GroupRef)
  | there (chip num : Nat)
deriving DecidableEq, Repr, Inhabited

/-- Which harness a message names (R242, R244): a created one by INDEX, a slice's h0, or a job's h1. -/
inductive HKey where
  | made (index : Nat)
  | slice (sid : Nat)
  | job (jn : Nat)
deriving DecidableEq, Repr, Inhabited

/-- What an instruction asks of the module that holds a harness (R246 to R256, R401): a join, an arrival with its kind, count and contribution, a leave, a
release, a query with its selector, a wait for the phase that a token names, a straggler record to bind with its slots and their size, no more than its checks, or no
more than the checks of another request. -/
inductive HAsk where
  | join
  | arrive (kind : HKind) (count : Option Nat) (value : Option W32)
  | leave
  | free
  | query (sel : Nat)
  | wait (token : W32)
  | strag (buf : BitVec 128) (slots slotsz : Nat)
  | check
  | only (op : HAsk)
deriving DecidableEq, Repr, Inhabited

/-- What reaches a harness unit (R247, R338): an instruction's request with its number, the handle that it names, and its fabric tenant and region; a rank's
blocks for a collective, with how many of them count as zero (their exponents and mantissas, R341); a leave or a loss; each with its fabric tenant and region (R337); or the
taking of the arrivals that have reached it. -/
inductive HMsg where
  | ask (id : Nat) (handle : W32) (ftid tag : Nat) (op : HAsk)
  | blocks (ftid tag w bad : Nat) (l : List (Nat × List Nat))
  | leave (ftid tag : Nat)
  | loss (ftid tag : Nat)
  | take
deriving DecidableEq, Repr, Inhabited

/-- What the module that holds a harness answers (R250, R338): a phase that has completed; a collective that has, with its status and its
result, or that has failed with a cause; a request granted, with the member's index, the phase, whether a join
took effect at once, and a query's value; a request refused with its cause and detail; the checks of a request passed; or that the harness has failed (R315). -/
inductive HReply where
  | phase (phase : Nat) (lost : Bool) (value : W32)
  | collective (phase : Nat) (cause : Option Nat) (status : W32) (blocks : List (List W32))
  | grant (id idx phase : Nat) (now : Bool) (value : W32)
  | refuse (id cause detail : Nat)
  | passed (id : Nat)
  | failed
deriving DecidableEq, Repr, Inhabited

/-- What a message of the module that holds a harness says (R247, R250, R315, R338): a phase has completed, whether with a loss; a collective has
completed, or has failed with a cause; a request, by its number, is granted to a
member of some index, with whether a join took effect at once, refused with a cause and detail, or has passed its checks; or the harness has failed. -/
inductive HNews where
  | completed (lost : Bool)
  | collective (cause : Option Nat)
  | granted (id idx : Nat) (now : Bool)
  | refused (id cause detail : Nat)
  | passed (id : Nat)
  | failed
deriving DecidableEq, Repr, Inhabited

/-- A message of the module that holds a harness, with its fabric tenant and the region of the harness (R337). -/
structure HSent where
  ftid : Nat
  tag : Nat
  news : HNews
deriving DecidableEq, Repr, Inhabited

/-- What the unit that writes a straggler entry learns of a record that another module holds (R291): whether it takes the write, and the bytes of READ there, or none where it
refuses the read or does not answer. -/
structure StragSeen where
  ok : Bool
  read : Option Nat
deriving DecidableEq, Repr, Inhabited

/-- The answer that a message with its phase, its value and the blocks of a collective makes. -/
def HNews.reply (phase : Nat) (value : W32) (blocks : List (List W32)) : HNews → HReply
  | .completed lost => .phase phase lost value
  | .collective cause => .collective phase cause value blocks
  | .granted id idx now => .grant id idx phase now value
  | .refused id cause detail => .refuse id cause detail
  | .passed id => .passed id
  | .failed => .failed

/-- The answer to a remote access (R153, R340): an acknowledgement or data, each with the granules that have failed by their offsets from the access's address, or a
refusal with its kind. -/
inductive RemoteAnswer where
  | ack (bad : List Nat)
  | data (bytes : List Byte) (bad : List Nat)
  | nack (kind : Nat)
deriving DecidableEq, Repr, Inhabited

/-- The kind of a fabric access (R144, R174, R338): a load of the 32-byte sectors of a line that a mask names, a store of pieces of a line by
their offsets from the access's address, or the one request for an element that a pass of an atomic sends, with each lane's operand and compare value; or, of the control type, a
reachability probe (R339), or the entry of a module that a critical limit has reset (R349). -/
inductive InKind where
  | load (sectors : Nat)
  | store (pieces : List (Nat × List Byte))
  | atom (op : AtomOp) (ty : IntTy) (lanes : List (Nat × Nat))
  | probe
  | limit
deriving DecidableEq, Repr, Inhabited

/-- An inbound fabric access (R340): the initiator, its tenant and region, the address and size, and for how many cycles this module has not been able to complete it. -/
structure InAccess where
  chip : Nat
  ftid : Nat
  tag : Nat
  va : Nat
  size : Nat
  kind : InKind
  waited : Nat
deriving DecidableEq, Repr, Inhabited

/-- The arguments of a queue command (R276): the command queue it came from, if any, its REGION, ARGA, ARGB and ARGC. -/
structure Cmd where
  queue : Option Nat
  tag : Nat
  a : Nat
  b : Nat
  c : Nat
deriving DecidableEq, Repr, Inhabited

/-- A job key across modules: the owner's chip id, the fabric tenant id and the job id (R295). -/
structure JobKey where
  chip : Nat
  ftid : Nat
  jid : Nat
deriving DecidableEq, Repr, Inhabited

/-- A step of the transfer of a Swapped slice's image between modules (R338, R348): this module sends the image of a slice; one comes in, with its bytes as they are sealed for this
module, under a fabric tenant and a region; or the target tells whether it has restored a slice that this module has sent. -/
inductive ImageMove where
  | send (sid : Nat)
  | receive (ftid tag : Nat) (bytes : List Byte)
  | restored (job : JobKey) (index : Nat) (ok : Bool)
deriving DecidableEq, Repr, Inhabited

/-- A steal offer (R295, R300): the job, its region tag, its 128-byte entry, the ownership table, the highest Queued index,
slice 0's deadline, the per-slice step and the owner's budget. -/
structure Offer where
  job : JobKey
  tag : Nat
  entry : List Byte
  table : Nat
  top : Nat
  deadline : Nat
  budget : Nat
  set : List Nat
deriving DecidableEq, Repr, Inhabited

/-- What a host has changed in its tables (R138): the size of the range, and the pages of it that are present from then on with their permissions R, W and A. -/
structure HostChange where
  size : Nat
  leaves : List (Nat × Bool × Bool × Bool)
deriving DecidableEq, Repr, Inhabited

/-- Kinds of unit that have spares (R16), and the whole module, which has none: service makes it sound again (R17). -/
inductive UnitKind where
  | core | arrayRow | arrayCol | dramRow | dramBank | linkLane | coreHarness | dieHarness | hubHarness | module
deriving DecidableEq, Repr, Inhabited

/-- A unit by the place that its spares serve and its number there (R16). -/
structure UnitPlace where
  place : Nat
  unit : Nat
deriving DecidableEq, Repr, Inhabited

/-- A route of a Zuzin port to a chip (R338, R339). -/
structure PortRoute where
  port : Nat
  chip : Nat
deriving DecidableEq, Repr, Inhabited

/-- What the Sorser port's RESUME and KILL name (R312, R313, R333): a record id of its FIFO, and the flag that ARGB[0] is for the commands. -/
structure SorserId where
  id : Nat
  flag : Bool
deriving DecidableEq, Repr, Inhabited

/-- Register classes of R51. -/
inductive Cls where
  | v | g | p | gp | b | th | k | h | j | sc | am
deriving DecidableEq, Repr, Inhabited

/-- A word of group or strand state that carries ECC (R315): a register (of a lane, for a v register), a strand's lane predicate, FMT, stack pointer and
limit, or its mask, window and program counter, the replay record, a join slot of a frame, or a word that every instruction of the group reads. -/
inductive EccWord where
  | vreg (n lane : Nat)
  | reg (c : Cls) (n : Nat)
  | pred (sn n : Nat)
  | fmt (sn : Nat)
  | stack (sn : Nat)
  | strand (sn : Nat)
  | replay
  | slot (frame n : Nat)
  | group
deriving DecidableEq, Repr, Inhabited

/-- Which unit level holds a harness (R243). -/
inductive HUnit where
  | core (core unit : Nat)
  | die (die unit : Nat)
  | hub (unit : Nat)
deriving DecidableEq, Repr, Inhabited

/-- A storage error (R46, R153, R314, R315): an uncorrectable error of a harness unit or of group and strand state, a single-bit error that was corrected, in a group's state or in a harness unit,
an uncorrectable error in a granule of main memory or weight store, the scratchpad, the stack, a tile or a plane row, an error in a sector of the die
cache, or bytes of a line that an instruction cache holds. -/
inductive StorageError where
  | unit (u : HUnit)
  | corrected (g : Option GroupRef)
  | word (g : GroupRef) (w : EccWord)
  | granule (pa : Nat)
  | scratch (sid off : Nat)
  | stack (g : GroupRef) (granule : Nat)
  | tile (sid granule : Nat)
  | plane (sid arr plane row : Nat)
  | sector (pa : Nat)
  | line (core vf va : Nat) (bytes : List Byte)
deriving DecidableEq, Repr, Inhabited

/-- A management or debug register by name (R319, R335, R337, R339). -/
inductive MgmtReg where
  | tsize (core : Nat) | trp (core : Nat) | dctl (core : Nat) | dsel (core : Nat)
  | ibp (core n : Nat) | wpa (core n : Nat) | wpl (core n : Nat) | counter (core n : Nat)
  | tenantKey (vf n : Nat) | tenantRcb (vf : Nat) | tenantRoot (vf : Nat) | tenantTmo (vf : Nat) | tenantFtid (vf : Nat)
  | tenantPasid (vf : Nat) | tenantAts (vf : Nat) | tenantSys (vf : Nat) | tenantValid (vf : Nat)
  | aperture (fn n : Nat)
  | readOnly (offset : Nat)
deriving DecidableEq, Repr, Inhabited

/-- One constructor per row of spec/opcode_table.json: the instructions, then the events. `uni` marks the uniform form at
MAJ + 0x40 (R59); `wide` marks the n64 or `.b64` form. -/
inductive Instr where
  -- integer ALU
  | iadd (h : Hdr) (uni : Bool) (ty : IntTy) (sat : Bool) (d : Nat) (a b : Src)
  | isub (h : Hdr) (uni : Bool) (ty : IntTy) (sat : Bool) (d : Nat) (a b : Src)
  | imin (h : Hdr) (uni : Bool) (ty : IntTy) (d : Nat) (a b : Src)
  | imax (h : Hdr) (uni : Bool) (ty : IntTy) (d : Nat) (a b : Src)
  | imul (h : Hdr) (uni : Bool) (ty : IntTy) (sat : Bool) (d : Nat) (a b : Src)
  | imad (h : Hdr) (uni : Bool) (ty : IntTy) (sat : Bool) (d : Nat) (a b c : Src)
  | imulh (h : Hdr) (uni : Bool) (ty : IntTy) (d : Nat) (a b : Src)
  | idiv (h : Hdr) (uni : Bool) (ty : IntTy) (d : Nat) (a b : Src)
  | irem (h : Hdr) (uni : Bool) (ty : IntTy) (d : Nat) (a b : Src)
  | ineg (h : Hdr) (uni : Bool) (ty : IntTy) (sat : Bool) (d : Nat) (a : Src)
  | iabs (h : Hdr) (uni : Bool) (ty : IntTy) (sat : Bool) (d : Nat) (a : Src)
  | and (h : Hdr) (uni wide : Bool) (d : Nat) (a b : Src)
  | or (h : Hdr) (uni wide : Bool) (d : Nat) (a b : Src)
  | xor (h : Hdr) (uni wide : Bool) (d : Nat) (a b : Src)
  | andn (h : Hdr) (uni wide : Bool) (d : Nat) (a b : Src)
  | not (h : Hdr) (uni wide : Bool) (d : Nat) (a : Src)
  | shl (h : Hdr) (uni : Bool) (ty : IntTy) (d : Nat) (a b : Src)
  | shr (h : Hdr) (uni : Bool) (ty : IntTy) (d : Nat) (a b : Src)
  | sar (h : Hdr) (uni : Bool) (ty : IntTy) (d : Nat) (a b : Src)
  | bfe (h : Hdr) (uni : Bool) (ty : IntTy) (d : Nat) (a b : Src)
  | bfi (h : Hdr) (uni wide : Bool) (d : Nat) (a b c : Src)
  | brev (h : Hdr) (uni wide : Bool) (d : Nat) (a : Src)
  | clz (h : Hdr) (uni wide : Bool) (d : Nat) (a : Src)
  | popc (h : Hdr) (uni wide : Bool) (d : Nat) (a : Src)
  | isetp (h : Hdr) (uni : Bool) (cmp : Cmp) (ty : IntTy) (d : Nat) (a b : Src)
  | sel (h : Hdr) (uni wide : Bool) (d : Nat) (a b : Src) (p : PredRef)
  | idp4 (h : Hdr) (uni sgn sat : Bool) (d : Nat) (a b c : Src)
  | ishrq (h : Hdr) (uni : Bool) (ty : IntTy) (d : Nat) (a b : Src)
  | mov (h : Hdr) (uni wide : Bool) (d : Nat) (a : Src)
  | movi (h : Hdr) (uni : Bool) (d : Nat) (imm : W32)
  -- floating ALU
  | fadd (h : Hdr) (rm : Option Rm) (ty : FloatTy) (d : Nat) (a b : Src)
  | fsub (h : Hdr) (rm : Option Rm) (ty : FloatTy) (d : Nat) (a b : Src)
  | fmul (h : Hdr) (rm : Option Rm) (ty : FloatTy) (d : Nat) (a b : Src)
  | fmin (h : Hdr) (ty : FloatTy) (d : Nat) (a b : Src)
  | fmax (h : Hdr) (ty : FloatTy) (d : Nat) (a b : Src)
  | ffma (h : Hdr) (rm : Option Rm) (ty : FloatTy) (d : Nat) (a b c : Src)
  | fsetp (h : Hdr) (cmp : Cmp) (ty : FloatTy) (d : Nat) (a b : Src)
  | fclass (h : Hdr) (ty : FloatTy) (d : Nat) (a : Src)
  | frcp (h : Hdr) (rm : Option Rm) (d : Nat) (a : Src)
  | frsq (h : Hdr) (d : Nat) (a : Src)
  | fsqrt (h : Hdr) (rm : Option Rm) (d : Nat) (a : Src)
  | fexp2 (h : Hdr) (d : Nat) (a : Src)
  | flog2 (h : Hdr) (d : Nat) (a : Src)
  | fsin (h : Hdr) (d : Nat) (a : Src)
  | fcos (h : Hdr) (d : Nat) (a : Src)
  | hfma2 (h : Hdr) (rm : Option Rm) (ty : FloatTy) (d : Nat) (a b c : Src)
  | cvt (h : Hdr) (rm : Option Rm) (sat : Bool) (dst src : CvtTy) (d : Nat) (a : Src)
  | bpack (h : Hdr) (rm : Option Rm) (w d a : Nat)
  | bunpack (h : Hdr) (rm : Option Rm) (w d a : Nat)
  | amax (h : Hdr) (ty : FloatTy) (d : Nat) (a : Src)
  -- lane operations
  | shfl (h : Hdr) (mode : ShflMode) (d a : Nat) (b : Src)
  | rot (h : Hdr) (d a : Nat) (b : Src)
  | vote (h : Hdr) (fn : VoteFn) (d : Nat) (neg : Bool) (p : Nat)
  | lred (h : Hdr) (toG : Bool) (rm : Option Rm) (op : RedOp) (ty : CvtTy) (d a : Nat)
  | lscan (h : Hdr) (excl : Bool) (rm : Option Rm) (op : RedOp) (ty : CvtTy) (d a : Nat)
  | plog (h : Hdr) (op : PlogOp) (d : Nat) (a b : PredRef)
  | pmov (h : Hdr) (form : PmovForm)
  | gmov (h : Hdr) (d a : Nat) (lane : GmovLane)
  -- control, fork and join
  | bra (h : Hdr) (t : Target)
  | jmpx (h : Hdr) (a : Nat)
  | call (h : Hdr) (n : Nat) (t : Target)
  | ret (h : Hdr)
  | exit (h : Hdr)
  | fork (h : Hdr) (neg : Bool) (p split gap : Nat) (cont taken : Target)
  | armend (h : Hdr)
  | jset (h : Hdr) (j v : Nat)
  | join (h : Hdr) (v j : Nat)
  | jwait (h : Hdr)
  | nop (h : Hdr)
  -- memory
  | ld (h : Hdr) (ty : MemTy) (o : MemOrd) (x : Src) (b d : Nat) (imm : W32)
  | st (h : Hdr) (ty : MemTy) (o : MemOrd) (x : Src) (b d : Nat) (imm : W32)
  | atom (h : Hdr) (op : AtomOp) (ty : IntTy) (o : MemOrd) (x : Src) (b d c : Nat) (imm : W32)
  | atoms (h : Hdr) (op : AtomOp) (ty : IntTy) (o : MemOrd) (x : Src) (d c : Nat) (imm : W32)
  | lds (h : Hdr) (ty : MemTy) (o : MemOrd) (x : Src) (d : Nat) (imm : W32)
  | sts (h : Hdr) (ty : MemTy) (o : MemOrd) (x : Src) (d : Nat) (imm : W32)
  | ldk (h : Hdr) (ty : IntTy) (d : Nat) (imm : W32)
  | stk (h : Hdr) (ty : IntTy) (d : Nat) (imm : W32)
  | ldw (h : Hdr) (ty : MemTy) (x : Src) (b d : Nat) (imm : W32)
  | pref (h : Hdr) (x : Src) (b : Nat) (imm : W32)
  | fence (h : Hdr) (acq rel : Bool) (scope : Scope)
  | fenceCounting (h : Hdr) (acq rel : Bool) (d : Nat)
  | xfence (h : Hdr) (p1 p2 : Path) (scope : Scope)
  | mwatch (h : Hdr) (wide : Bool) (d x b : Nat) (imm : W32)
  | mwait (h : Hdr) (d t : Nat)
  | brset (h : Hdr) (d s : Nat)
  -- copy, update and collective engines
  | cpy (h : Hdr) (esz ch d : Nat) (dst src : CopySide) (l : Nat) (pv : Option Nat)
  | cpyt (h : Hdr) (esz ch d : Nat) (dst src : CopySide) (l : Nat) (pv : Option Nat)
  | cpkill (h : Hdr) (ch d : Nat)
  | optstep (h : Hdr) (bf : Bool) (d bW bG p bM bV : Nat)
  | thset (h : Hdr) (d t s : Nat)
  | coll (h : Hdr) (w d bDst bSrc l hH : Nat)
  -- matrix arrays
  | mma (h : Hdr) (kind : MKind) (d a s row0 : Nat)
  | mmat (h : Hdr) (kind : MKind) (d a s row0 : Nat)
  | mmad (h : Hdr) (kind : MKind) (kX kW thW thX s c0 : Nat)
  | mldw (h : Hdr) (kind : MKind) (m a s : Nat)
  | mswap (h : Hdr) (kind : MKind) (m s : Nat)
  | mdrain (h : Hdr) (fmt : MFmt) (kind : MKind) (amx clr : Bool) (k a s sc am row0 : Nat)
  | mzero (h : Hdr) (kind : MKind) (k s row0 count : Nat)
  | mfill (h : Hdr) (fmt : MFmt) (kind : MKind) (k a s row0 : Nat)
  -- formats and scales
  | setfmt (h : Hdr) (a : Nat)
  | setfmtSc (h : Hdr) (d a : Nat)
  | setfmtClr (h : Hdr) (d : Nat)
  | screc (h : Hdr) (x b : Nat) (imm : W32)
  | scload (h : Hdr) (x b : Nat) (imm : W32)
  | scloadEnd (h : Hdr)
  -- harnesses
  | hcreate (h : Hdr) (cnt : Option Nat) (span : Span) (d gp : Nat)
  | hfree (h : Hdr) (n : Nat)
  | hquery (h : Hdr) (sel d n : Nat)
  | hstrag (h : Hdr) (n b : Nat)
  | hjoin (h : Hdr) (d s : Nat)
  | hleave (h : Hdr) (n : Nat)
  | harr (h : Hdr) (d n : Nat) (k : Option Nat)
  | hbar (h : Hdr) (d n : Nat) (k : Option Nat)
  | hvote (h : Hdr) (fn : HVoteFn) (d n s : Nat) (k : Option Nat)
  | hred (h : Hdr) (op : HRedOp) (ty : HRedTy) (d n s : Nat) (k : Option Nat)
  | hwait (h : Hdr) (d n t : Nat)
  -- queues and the register pool
  | spawn (h : Hdr) (d gp q e k : Nat)
  | qpush (h : Hdr) (d gp q s : Nat)
  | qpop (h : Hdr) (d gp q : Nat)
  | yield (h : Hdr)
  | rclaim (h : Hdr) (d : Nat) (m : W32)
  | rclaimTry (h : Hdr) (d : Nat) (m : W32)
  | rgive (h : Hdr) (d : Nat) (m : W32)
  -- system
  | movs (h : Hdr) (vd : Bool) (src : MovsSrc) (d : Nat)
  | sets (h : Hdr) (n a : Nat)
  | svc (h : Hdr) (n : W32)
  | trap (h : Hdr) (n : W32)
  | bkpt (h : Hdr)
  | icinv (h : Hdr) (d s : Nat)
  -- events: issue, traps, results
  | issueArbitration (bay : Nat)
  | trapRecordPush (region : Nat)
  | budgetExhausted (sid : Nat)
  | scoreboardResultWrite (id : Nat)
  | loadDataReturn (id : Nat)
  | pageFaultRunAhead (st : StrandRef)
  | priResponse (batch : Nat) (ok : Bool) (leaves : List (Nat × Bool × Bool × Bool))
  | atsInvalidation (vf va : Nat) (change : HostChange)
  | codePageVerified (vf jn page : Nat)
  | fenceConditionMet (st : StrandRef)
  | heldQueueRelease (st : StrandRef)
  | groupRetire (g : GroupRef)
  -- events: queue engine and dispatcher
  | completionEntryWrite (jn : Nat)
  | jobAdmission (vf va ticket : Nat)
  | qpushPublish (queue : Nat)
  | htailWrite (queue : Nat) (value : Nat)
  | hheadWrite (queue : Nat) (value : Nat)
  | sliceDispatch
  | contextSave (sid : Nat)
  | contextRestore (sid : Nat)
  | claimDeadlock (sid bay : Nat)
  -- events: harnesses
  | harnessArrivalReceive (key : HKey) (who : Member) (msg : HMsg)
  | stragglerEntryWrite (key : HKey) (seen : StragSeen)
  | lagNotice (ftid tag : Nat) (on : Bool)
  | harnessUnitFailure (err : StorageError)
  | watchFire (g : GroupRef)
  | mwaitTimeout (g : GroupRef)
  | watchEviction (die : Nat)
  -- events: engines
  | copyEntryFree (core ch : Nat)
  | copyByteProgress (core ch count : Nat)
  | copyComplete (core ch : Nat)
  | arrayCommand (sid arr : Nat)
  | matrixOperandFetch (sid arr : Nat)
  | planeSwapEffect (sid arr : Nat)
  | shadowPlaneWrite (sid arr : Nat)
  | matrixCommandComplete (sid arr : Nat)
  | updateSpan (core : Nat)
  | updateComplete (core : Nat)
  | collectiveComplete (key : HKey)
  | collectiveTimeout (key : HKey) (g : GroupRef)
  | shutterWindow (die group : Nat)
  -- events: fabric and stealing
  | inboundRemoteAccess (acc : InAccess)
  | remoteResponse (id : Nat) (ans : RemoteAnswer)
  | remoteTimeout (id : Nat)
  | flitReplay (port : Nat)
  | chipUnreachable (chip : Nat)
  | reachabilityProbe (chip : Nat) (ok : Bool)
  | stealOffer (jn : Nat)
  | offerWithdrawal (jn : Nat)
  | offerReceive (o : Offer)
  | offerExpiry (job : JobKey) (withdrawn : Bool)
  | stealClaim (job : JobKey) (index word : Nat) (won : Bool)
  | ownershipWordCas (jn index expect new : Nat)
  | stealDeferralExpiry (jn : Nat)
  | stolenSliceDone (sid : Nat) (won : Bool)
  | stolenCompletionReceive (jn index chip : Nat) (failed late : Bool) (cause : Nat)
  | stealKill (job : JobKey) (index : Nat)
  -- events: queue commands (R276)
  | resume (c : Cmd)
  | kill (c : Cmd)
  | killJob (c : Cmd)
  | failDomain (c : Cmd)
  | batchResume (c : Cmd)
  | batchFail (c : Cmd)
  | translationInvalidate (c : Cmd)
  | preempt (c : Cmd)
  | regionReload (c : Cmd)
  | queueWatch (c : Cmd)
  | weightLoad (c : Cmd)
  | weightLoadComplete (id : Nat)
  -- events: host, management and service
  | regionCreate (vf va : Nat)
  | moduleReset
  | hostLinkReset
  | powerThermalLimit
  | limitRecovery
  | criticalLimitReset
  | unitFailure (kind : UnitKind) (at_ : UnitPlace) (cause : Nat) (slices : List Nat)
  | spareReplacement (kind : UnitKind) (die : Nat) (unit : Nat)
  | imageTransfer (move : ImageMove) (chip : Nat)
  | attestationRequest (vf : Nat) (nonce : List Byte)
  | barWindowWrite (fn aperture offset : Nat) (bytes : List Byte)
  | barWindowRead (fn aperture offset size : Nat)
  -- events: trace and debug
  | tctlWrite (core : Nat) (value : W32)
  | tbaseWrite (core : Nat) (value : W64)
  | tlostRead (core : Nat)
  | dctlHalt (core : Nat) (value : W32)
  | registerWrite (reg : MgmtReg) (value : Nat)
  | tracePacketCommit (core : Nat)
  | samplePacket (core id : Nat)
  | sorserUnlock (ok : Bool)
  | sorserRead (core offset : Nat)
  | sorserWrite (core offset : Nat) (value : W64)
  | sorserPop
  | sorserResume (named : SorserId)
  | sorserKill (named : SorserId)
  | sorserDump (id cls first count : Nat)
  -- events: acknowledgements and routes
  | storeAcknowledgement (core id : Nat)
  | routeUpdate (route : PortRoute) (up : Bool)
  | harnessCompletionMessage (key : HKey) (phase : Nat) (sent : HSent) (value : W32) (blocks : List (List W32))
deriving DecidableEq, Repr, Inhabited

end Sys2Proof
end

