-- ==== Sys2Proof/Machine/Operands.lean ====
section
/-!
DEFINITION. The register operands an instruction names, its issue unit, its guard and its place in the rules that run over
all instructions (spec/03_encoding_and_assembly.md R50 to R60; spec/02_execution_model.md R23).
-/

namespace Sys2Proof

/-- One register operand: `cnt` registers of class `cls` from `num`, whose number must be a multiple of `align`, written
when `wr` and read otherwise. -/
structure Opnd where
  cls : Cls
  num : Nat
  cnt : Nat
  align : Nat
  wr : Bool
deriving DecidableEq, Repr, Inhabited

/-- How many registers a class has (R51). -/
def Cls.limit : Cls → Nat
  | .v => 256 | .g => 64 | .p => 8 | .gp => 8 | .b => 16 | .th => 8 | .k => 192 | .h => 8 | .j => 8 | .sc => 8 | .am => 8

/-- One register read. -/
def Opnd.rd (c : Cls) (n : Nat) : Opnd := ⟨c, n, 1, 1, false⟩
/-- One register written. -/
def Opnd.wt (c : Cls) (n : Nat) : Opnd := ⟨c, n, 1, 1, true⟩
/-- `cnt` registers read, aligned. -/
def Opnd.rds (c : Cls) (n cnt align : Nat) : Opnd := ⟨c, n, cnt, align, false⟩
/-- `cnt` registers written, aligned. -/
def Opnd.wts (c : Cls) (n cnt align : Nat) : Opnd := ⟨c, n, cnt, align, true⟩
/-- One register, or an even pair of a 64-bit form (R51, R108). -/
def Opnd.pair (wide : Bool) (c : Cls) (n : Nat) (wr : Bool) : Opnd := if wide then ⟨c, n, 2, 2, wr⟩ else ⟨c, n, 1, 1, wr⟩

/-- The class limits of R51: inside the class range, and p7 and gp7 never written (cause 7). -/
def Opnd.inClass (o : Opnd) : Bool :=
  decide (o.num + o.cnt ≤ o.cls.limit) && !(o.wr && (o.cls == .p || o.cls == .gp) && o.num == 7)

/-- The alignment of R51 (cause 15). -/
def Opnd.aligned (o : Opnd) : Bool := o.num % o.align == 0

/-- Width in bits of an integer type (R108). -/
def IntTy.width : IntTy → Nat
  | .s32 => 32 | .n32 => 32 | .s16 => 16 | .n16 => 16 | .s8 => 8 | .n8 => 8 | .s64 => 64 | .n64 => 64
/-- Whether the type is signed (R108). -/
def IntTy.signed : IntTy → Bool
  | .s32 => true | .s16 => true | .s8 => true | .s64 => true | .n32 => false | .n16 => false | .n8 => false | .n64 => false
/-- Whether the type takes an even-odd pair (R108). -/
def IntTy.wide (t : IntTy) : Bool := t.width == 64
/-- The code of R56. -/
def IntTy.code : IntTy → Nat
  | .s32 => 0 | .n32 => 1 | .s16 => 2 | .n16 => 3 | .s8 => 4 | .n8 => 5 | .s64 => 6 | .n64 => 7
/-- The code of R56. -/
def FloatTy.code : FloatTy → Nat
  | .f32 => 0 | .f16 => 1 | .bf16 => 2 | .e4m3 => 3 | .e5m2 => 4
/-- Width in bits of a floating type (R110). -/
def FloatTy.width : FloatTy → Nat
  | .f32 => 32 | .f16 => 16 | .bf16 => 16 | .e4m3 => 8 | .e5m2 => 8
/-- Whether a conversion type takes a pair. -/
def CvtTy.wide : CvtTy → Bool
  | .int t => t.wide
  | .flt _ => false
/-- Access size in bytes (R413). -/
def MemTy.size : MemTy → Nat
  | .int t => t.width / 8
  | .b128 => 16
/-- Registers of one access: one, an even pair, or four (R413). -/
def MemTy.regs : MemTy → Nat
  | .int t => if t.wide then 2 else 1
  | .b128 => 4

/-- The operand a source reads: nothing for an immediate. -/
def Src.ops (wide : Bool) : Src → List Opnd
  | .v n => [.pair wide .v n false]
  | .g n => [.pair wide .g n false]
  | .imm _ => []
/-- A destination of an integer instruction: a g register in the uniform form (R59). -/
def dstOp (uni wide : Bool) (d : Nat) : Opnd := .pair wide (if uni then .g else .v) d true
/-- A lane or group predicate read. -/
def PredRef.op (p : PredRef) : Opnd := .rd (if p.grp then .gp else .p) p.idx
/-- The predicate the guard reads. -/
def Guard.op : Guard → Opnd
  | .lane _ p => .rd .p p
  | .group _ p => .rd .gp p
/-- A record operand of a copy side. -/
def CopySide.ops : CopySide → List Opnd
  | .buf b => [.rd .b b]
  | .sx => []
/-- An optional count register (R248's `.k`, `.cnt`). -/
def optG : Option Nat → List Opnd
  | some k => [.rd .g k]
  | none => []
/-- The activation, weight or destination operand of a matrix instruction: `r` v registers for kind 0, a tile handle for
kinds 1 to 3 (R204, R211). -/
def mxOp (kind : MKind) (r a : Nat) (wr : Bool) : Opnd :=
  match kind with
  | .regs => ⟨.v, a, r, 1, wr⟩
  | _ => .rd .th a
/-- Registers per row quarter of a kind-0 operand: 2, 4 or 8 (R204). -/
def MFmt.quarterRegs : MFmt → Nat
  | .e4m3 => 2 | .e5m2 => 2 | .bf16 => 4 | .f16 => 4 | .f32 => 8 | .bfp _ => 1 | .reserved _ => 1
/-- The floating type of a matrix format that is no BFP format. -/
def MFmt.float? : MFmt → Option FloatTy
  | .e4m3 => some .e4m3 | .e5m2 => some .e5m2 | .bf16 => some .bf16 | .f16 => some .f16 | .f32 => some .f32
  | .bfp _ => none | .reserved _ => none
/-- Whether a format is a BFP format. -/
def MFmt.isBfp : MFmt → Bool
  | .bfp _ => true
  | _ => false
/-- Whether a format code is reserved (R211). -/
def MFmt.isReserved : MFmt → Bool
  | .reserved _ => true
  | _ => false
/-- Bits of one element; a BFP element is its mantissa. -/
def MFmt.bits : MFmt → Nat
  | .e4m3 => 8 | .e5m2 => 8 | .bf16 => 16 | .f16 => 16 | .f32 => 32 | .bfp w => w | .reserved _ => 8
/-- Whether passes over a format sum by the tree of R123 (R125). -/
def MFmt.is16 : MFmt → Bool
  | .bf16 => true | .f16 => true | _ => false
/-- Special registers of 64 bits (R82). -/
def srWide (n : Nat) : Bool :=
  n == 2 || n == 3 || n == 8 || n == 9 || n == 10 || n == 11 || n == 18 || n == 19
/-- What a MOVS source reads beside the special registers. -/
def MovsSrc.ops : MovsSrc → List Opnd
  | .sr _ => []
  | .sc n => [.rd .sc n]
  | .am n => [.rd .am n]
  | .fmt => []
/-- Whether a MOVS source has 64 bits. -/
def MovsSrc.wide : MovsSrc → Bool
  | .sr n => srWide n
  | _ => false

/-- Every register operand of an instruction beside its guard. `r` is the number of v registers of a kind-0 activation row
under the strand's AFMT (R204), and `w` the words of a ballot, one for each 32 lanes of the width (R454). Events have none. -/
def Instr.ops (r w : Nat) : Instr → List Opnd
  | .iadd _ u t _ d a b | .isub _ u t _ d a b | .imul _ u t _ d a b => dstOp u t.wide d :: (a.ops t.wide ++ b.ops t.wide)
  | .imin _ u t d a b | .imax _ u t d a b | .imulh _ u t d a b | .idiv _ u t d a b | .irem _ u t d a b =>
    dstOp u t.wide d :: (a.ops t.wide ++ b.ops t.wide)
  | .imad _ u t _ d a b c => dstOp u t.wide d :: (a.ops t.wide ++ b.ops t.wide ++ c.ops t.wide)
  | .ineg _ u t _ d a | .iabs _ u t _ d a => dstOp u t.wide d :: a.ops t.wide
  | .and _ u wd d a b | .or _ u wd d a b | .xor _ u wd d a b | .andn _ u wd d a b => dstOp u wd d :: (a.ops wd ++ b.ops wd)
  | .not _ u wd d a | .brev _ u wd d a | .mov _ u wd d a => dstOp u wd d :: a.ops wd
  | .shl _ u t d a b | .shr _ u t d a b | .sar _ u t d a b | .bfe _ u t d a b => dstOp u t.wide d :: (a.ops t.wide ++ b.ops false)
  | .bfi _ u wd d a b c => dstOp u wd d :: (a.ops wd ++ b.ops false ++ c.ops wd)
  | .clz _ u wd d a | .popc _ u wd d a => dstOp u false d :: a.ops wd
  | .isetp _ u _ t d a b => .wt (if u then .gp else .p) d :: (a.ops t.wide ++ b.ops t.wide)
  | .sel _ u wd d a b p => dstOp u wd d :: p.op :: (a.ops wd ++ b.ops wd)
  | .idp4 _ u _ _ d a b c => dstOp u false d :: (a.ops false ++ b.ops false ++ c.ops false)
  | .ishrq _ u _ d a b => dstOp u false d :: (a.ops false ++ b.ops false)
  | .movi _ u d _ => [dstOp u false d]
  | .fadd _ _ _ d a b | .fsub _ _ _ d a b | .fmul _ _ _ d a b | .fmin _ _ d a b | .fmax _ _ d a b =>
    .wt .v d :: (a.ops false ++ b.ops false)
  | .ffma _ _ _ d a b c | .hfma2 _ _ _ d a b c => .wt .v d :: (a.ops false ++ b.ops false ++ c.ops false)
  | .fsetp _ _ _ d a b => .wt .p d :: (a.ops false ++ b.ops false)
  | .fclass _ _ d a | .frcp _ _ d a | .frsq _ d a | .fsqrt _ _ d a | .fexp2 _ d a | .flog2 _ d a | .fsin _ d a | .fcos _ d a =>
    .wt .v d :: a.ops false
  | .cvt _ _ _ tD tS d a => .pair tD.wide .v d true :: a.ops tS.wide
  | .bpack _ _ _ d a | .bunpack _ _ _ d a => [.wt .v d, .rd .v a]
  | .amax _ _ d a => .wt .am d :: a.ops false
  | .shfl _ _ d a b | .rot _ d a b => .wt .v d :: .rd .v a :: b.ops false
  | .vote _ fn d _ p =>
    [match fn with | .any => .wt .gp d | .all => .wt .gp d | .ballot => .wts .g d w w | .cnt => .wt .g d, .rd .p p]
  | .lred _ toG _ _ t d a => [.pair t.wide (if toG then .g else .v) d true, .pair t.wide .v a false]
  | .lscan _ _ _ _ t d a => [.pair t.wide .v d true, .pair t.wide .v a false]
  | .plog _ op d a b => .wt .p d :: a.op :: (match op with | .mov => [] | _ => [b.op])
  | .pmov _ f =>
    match f with
    | .toReg d p => [.wt .v d, .rd .p p]
    | .toPred p a => .wt .p p :: a.ops false
  | .gmov _ d a l => .wt .g d :: .rd .v a :: (match l with | .reg g => [.rd .g g] | _ => [])
  | .bra _ _ | .call _ _ _ | .ret _ | .exit _ | .armend _ | .jwait _ | .nop _ => []
  | .jmpx _ a => [.rd .g a]
  | .fork _ _ p _ _ _ _ => [.rd .p p]
  | .jset _ j v => [.rd .j j, .rd .v v]
  | .join _ v j => [.wt .v v, .rd .j j]
  | .ld _ t _ x b d _ | .ldw _ t x b d _ => .wts .v d t.regs t.regs :: .rd .b b :: x.ops false
  | .st _ t _ x b d _ => .rds .v d t.regs t.regs :: .rd .b b :: x.ops false
  | .atom _ op t _ x b d c _ =>
    .pair t.wide .v d true :: .rds .v c ((if op == .cas then 2 else 1) * (if t.wide then 2 else 1)) (if t.wide then 2 else 1)
      :: .rd .b b :: x.ops false
  | .atoms _ op t _ x d c _ =>
    .pair t.wide .v d true :: .rds .v c ((if op == .cas then 2 else 1) * (if t.wide then 2 else 1)) (if t.wide then 2 else 1)
      :: x.ops false
  | .lds _ t _ x d _ => .wts .v d t.regs t.regs :: x.ops false
  | .sts _ t _ x d _ => .rds .v d t.regs t.regs :: x.ops false
  | .ldk _ t d _ => [.pair t.wide .v d true]
  | .stk _ t d _ => [.pair t.wide .v d false]
  | .pref _ x b _ => .rd .b b :: x.ops false
  | .fence _ _ _ _ | .xfence _ _ _ _ => []
  | .fenceCounting _ _ _ d => [.wt .g d]
  | .mwatch _ wd d x b _ => [.pair wd .g d true, .rd .g x, .rd .b b]
  | .mwait _ d t => [.wt .g d, .rd .g t]
  | .brset _ d s => [.wt .b d, .rds .g s 4 4]
  | .cpy _ _ _ d dst src l pv =>
    .wts .g d 2 1 :: .rds .g l 3 1 :: (dst.ops ++ src.ops ++ (match pv with | some p => [.wt .gp p] | none => []))
  | .cpyt _ _ _ d dst src l pv =>
    .wts .g d 2 1 :: .rds .g l 8 8 :: (dst.ops ++ src.ops ++ (match pv with | some p => [.wt .gp p] | none => []))
  | .cpkill _ _ d => [.wt .g d]
  | .optstep _ _ d bW bG p bM bV => [.wts .g d 2 1, .rd .b bW, .rd .b bG, .rds .g p 8 8, .rd .b bM, .rd .b bV]
  | .thset _ d t s => [.wt .g d, .wt .th t, .rds .g s 8 8]
  | .coll _ _ d bDst bSrc l hH => [.wts .g d 2 1, .rd .b bDst, .rd .b bSrc, .rds .g l 4 4, .rd .h hH]
  | .mma _ kd d a s _ | .mmat _ kd d a s _ => [.rd .k d, mxOp kd r a false, .wt .g s]
  | .mmad _ kd kX kW thW thX s _ => [.rd .k kX, .rd .k kW, mxOp kd 1 thW false, .rd .th thX, .wt .g s]
  | .mldw _ kd _ a s => [mxOp kd 1 a false, .wt .g s]
  | .mswap _ _ _ s => [.wt .g s]
  | .mdrain _ f kd amx _ k a s sc am _ =>
    [.rd .k k, mxOp kd f.quarterRegs a true, .wt .g s, .rd .sc sc, ⟨.am, am, 1, 1, amx⟩]
  | .mzero _ _ k s _ _ => [.rd .k k, .wt .g s]
  | .mfill _ f kd k a s _ => [.rd .k k, mxOp kd f.quarterRegs a false, .wt .g s]
  | .setfmt _ a => [.rd .g a]
  | .setfmtSc _ d a => [.wt .sc d, .rd .g a]
  | .setfmtClr _ d => [.wt .am d]
  | .screc _ x b _ | .scload _ x b _ => [.rd .g x, .rd .b b]
  | .scloadEnd _ => []
  | .hcreate _ c _ d gp => .wt .h d :: .wt .gp gp :: optG c
  | .hfree _ n | .hleave _ n => [.wt .h n]
  | .hquery _ _ d n => [.wt .g d, .rd .h n]
  | .hstrag _ n b => [.rd .h n, .rd .b b]
  | .hjoin _ d s => [.wt .h d, .rds .g s 2 2]
  | .harr _ d n k | .hbar _ d n k => .wt .g d :: .rd .h n :: optG k
  | .hvote _ _ d n s k | .hred _ _ _ d n s k => .wts .g d 2 1 :: .rd .h n :: .rd .g s :: optG k
  | .hwait _ d n t => [.wt .g d, .rd .h n, .rd .g t]
  | .spawn _ d gp q e k => [.wt .g d, .wt .gp gp, .rd .b q, .rd .b e, .rd .g k]
  | .qpush _ d gp q s => [.wt .g d, .wt .gp gp, .rd .b q, .rds .g s 8 8]
  | .qpop _ d gp q => [.wts .g d 8 8, .wt .gp gp, .rd .b q]
  | .yield _ | .svc _ _ | .trap _ _ | .bkpt _ => []
  | .rclaim _ d _ | .rclaimTry _ d _ | .rgive _ d _ => [.wt .g d]
  | .movs _ vd s d => .pair s.wide (if vd then .v else .g) d true :: s.ops
  | .sets _ _ a => [.rd .g a]
  | .icinv _ d s => [.wt .g d, .rds .g s 2 2]
  | _ => []

/-- The header of an instruction; events have none. -/
def Instr.hdr : Instr → Option Hdr
  | .iadd h .. | .isub h .. | .imin h .. | .imax h .. | .imul h .. | .imad h .. | .imulh h .. | .idiv h .. | .irem h ..
  | .ineg h .. | .iabs h .. | .and h .. | .or h .. | .xor h .. | .andn h .. | .not h .. | .shl h .. | .shr h .. | .sar h ..
  | .bfe h .. | .bfi h .. | .brev h .. | .clz h .. | .popc h .. | .isetp h .. | .sel h .. | .idp4 h .. | .ishrq h ..
  | .mov h .. | .movi h .. => some h
  | .fadd h .. | .fsub h .. | .fmul h .. | .fmin h .. | .fmax h .. | .ffma h .. | .fsetp h .. | .fclass h .. | .frcp h ..
  | .frsq h .. | .fsqrt h .. | .fexp2 h .. | .flog2 h .. | .fsin h .. | .fcos h .. | .hfma2 h .. | .cvt h .. | .bpack h ..
  | .bunpack h .. | .amax h .. => some h
  | .shfl h .. | .rot h .. | .vote h .. | .lred h .. | .lscan h .. | .plog h .. | .pmov h .. | .gmov h .. => some h
  | .bra h .. | .jmpx h .. | .call h .. | .ret h .. | .exit h .. | .fork h .. | .armend h .. | .jset h .. | .join h ..
  | .jwait h .. | .nop h .. => some h
  | .ld h .. | .st h .. | .atom h .. | .atoms h .. | .lds h .. | .sts h .. | .ldk h .. | .stk h .. | .ldw h .. | .pref h ..
  | .fence h .. | .fenceCounting h .. | .xfence h .. | .mwatch h .. | .mwait h .. | .brset h .. => some h
  | .cpy h .. | .cpyt h .. | .cpkill h .. | .optstep h .. | .thset h .. | .coll h .. => some h
  | .mma h .. | .mmat h .. | .mmad h .. | .mldw h .. | .mswap h .. | .mdrain h .. | .mzero h .. | .mfill h .. => some h
  | .setfmt h .. | .setfmtSc h .. | .setfmtClr h .. | .screc h .. | .scload h .. | .scloadEnd h .. => some h
  | .hcreate h .. | .hfree h .. | .hquery h .. | .hstrag h .. | .hjoin h .. | .hleave h .. | .harr h .. | .hbar h ..
  | .hvote h .. | .hred h .. | .hwait h .. => some h
  | .spawn h .. | .qpush h .. | .qpop h .. | .yield h .. | .rclaim h .. | .rclaimTry h .. | .rgive h .. => some h
  | .movs h .. | .sets h .. | .svc h .. | .trap h .. | .bkpt h .. | .icinv h .. => some h
  | _ => none

/-- Whether only a group-scope guard or p7 is accepted (R50 and the entries; cause 9 otherwise). -/
def Instr.groupGuardOnly : Instr → Bool
  | .iadd _ u .. | .isub _ u .. | .imin _ u .. | .imax _ u .. | .imul _ u .. | .imad _ u .. | .imulh _ u .. | .idiv _ u ..
  | .irem _ u .. | .ineg _ u .. | .iabs _ u .. | .and _ u .. | .or _ u .. | .xor _ u .. | .andn _ u .. | .not _ u ..
  | .shl _ u .. | .shr _ u .. | .sar _ u .. | .bfe _ u .. | .bfi _ u .. | .brev _ u .. | .clz _ u .. | .popc _ u ..
  | .isetp _ u .. | .sel _ u .. | .idp4 _ u .. | .ishrq _ u .. | .mov _ u .. | .movi _ u .. => u
  | .vote .. | .gmov .. => true
  | .lred _ toG .. => toG
  | .bra .. | .jmpx .. | .call .. | .ret .. | .exit .. | .fork .. | .armend .. | .jwait .. => true
  | .xfence .. | .mwatch .. | .mwait .. | .brset .. => true
  | .cpy .. | .cpyt .. | .cpkill .. | .optstep .. | .thset .. | .coll .. => true
  | .mma _ kd .. | .mmat _ kd .. | .mdrain _ _ kd .. | .mfill _ _ kd .. => kd != .regs
  | .mmad .. | .mldw .. | .mswap .. | .mzero .. => true
  | .setfmt .. | .setfmtSc .. | .setfmtClr .. | .screc .. | .scload .. | .scloadEnd .. => true
  | .hcreate .. | .hfree .. | .hquery .. | .hstrag .. | .hjoin .. | .hleave .. | .harr .. | .hbar .. | .hvote .. | .hred ..
  | .hwait .. => true
  | .spawn .. | .qpush .. | .qpop .. | .yield .. | .rclaim .. | .rclaimTry .. | .rgive .. => true
  | .movs _ vd .. => !vd
  | .sets .. | .svc .. | .trap .. | .bkpt .. | .icinv .. => true
  | _ => false

/-- Whether a guard is of group scope or p7 (R50). -/
def Guard.isGroup : Guard → Bool
  | .group _ _ => true
  | .lane n p => !n && p == 7

/-- Issue units of a bay (R60). -/
inductive IssueUnit where
  | v | f | u | l | h
deriving DecidableEq, Repr, Inhabited

/-- The unit of a major (R60). -/
def unitOfMaj (m : Nat) : IssueUnit :=
  if m < 0x28 then .v else if m < 0x2F then .f else if m < 0x40 then .v else if m < 0x60 then .u
  else if m < 0x68 then .v else if m < 0x80 then .u else if m < 0xA8 then .l else if m < 0xB3 then .u
  else if m < 0xC0 then .h else if m < 0xC6 then .l else .u

end Sys2Proof
end

