-- ==== Sys2Proof/Machine/Sparse.lean ====
section
/-!
DEFINITION. Sorted association lists: how memory, register files and tables are held as plain data. Keys strictly rise; where
a default is given, no entry holds it, so that equal contents are equal lists.
-/

namespace Sys2Proof

/-- The value at a key, or the default of an unlisted key. -/
def Sparse.get {α : Type} (d : α) : List (Nat × α) → Nat → α
  | [], _ => d
  | (k, v) :: m, a => if k = a then v else Sparse.get d m a

/-- Whether a key is listed. -/
def Sparse.has {α : Type} : List (Nat × α) → Nat → Bool
  | [], _ => false
  | (k, _) :: m, a => k == a || Sparse.has m a

/-- The value at a key, if listed. -/
def Sparse.find {α : Type} : List (Nat × α) → Nat → Option α
  | [], _ => none
  | (k, v) :: m, a => if k = a then some v else Sparse.find m a

/-- The list without a key. -/
def Sparse.del {α : Type} : List (Nat × α) → Nat → List (Nat × α)
  | [], _ => []
  | (k, v) :: m, a => if k = a then Sparse.del m a else (k, v) :: Sparse.del m a

/-- The list with a key set. -/
def Sparse.set {α : Type} : List (Nat × α) → Nat → α → List (Nat × α)
  | [], a, x => [(a, x)]
  | (k, v) :: m, a, x =>
    if k = a then (a, x) :: m else if a < k then (a, x) :: (k, v) :: m else (k, v) :: Sparse.set m a x

/-- The list with a key set, where the default is not listed. -/
def Sparse.put {α : Type} [DecidableEq α] (d : α) (m : List (Nat × α)) (a : Nat) (x : α) : List (Nat × α) :=
  if x = d then Sparse.del m a else Sparse.set m a x

/-- Every listed key lies above `b`, and keys strictly rise. -/
def Sparse.sortedFrom {α : Type} : Nat → List (Nat × α) → Bool
  | _, [] => true
  | b, (k, _) :: m => decide (b ≤ k) && Sparse.sortedFrom (k + 1) m

/-- Keys strictly rise and no entry holds the default. -/
def Sparse.wf {α : Type} [DecidableEq α] (d : α) (m : List (Nat × α)) : Bool :=
  Sparse.sortedFrom 0 m && m.all fun e => e.2 != d

/-- Consecutive keys set to the values of a list, where the default is not listed. -/
def Sparse.putList {α : Type} [DecidableEq α] (d : α) (m : List (Nat × α)) (a : Nat) : List α → List (Nat × α)
  | [] => m
  | x :: xs => Sparse.putList d (Sparse.put d m a x) (a + 1) xs

/-- `n` consecutive values from a key. -/
def Sparse.getList {α : Type} (d : α) (m : List (Nat × α)) (a : Nat) : Nat → List α
  | 0 => []
  | n + 1 => Sparse.get d m a :: Sparse.getList d m (a + 1) n

/-- A number's `n` bytes, little-endian (R3). -/
def bytesOf (n x : Nat) : List Byte :=
  match n with
  | 0 => []
  | n + 1 => BitVec.ofNat 8 x :: bytesOf n (x / 256)

/-- The number of a list of bytes, little-endian (R3). -/
def ofBytes : List Byte → Nat
  | [] => 0
  | b :: bs => b.toNat + 256 * ofBytes bs

/-- A list with an element replaced. -/
def setAt {α : Type} : List α → Nat → α → List α
  | [], _, _ => []
  | _ :: xs, 0, y => y :: xs
  | x :: xs, n + 1, y => x :: setAt xs n y

/-- The first element that passes a test, replaced by a function of it. -/
def updFirst {α : Type} (p : α → Bool) (f : α → α) : List α → List α
  | [] => []
  | x :: xs => if p x then f x :: xs else x :: updFirst p f xs

/-- The last element that passes a test is changed. -/
def updLast {α : Type} (p : α → Bool) (f : α → α) (l : List α) : List α := (updFirst p f l.reverse).reverse

/-- The first result a function gives over a list. -/
def firstSome {α β : Type} (f : α → Option β) : List α → Option β
  | [] => none
  | x :: xs => match f x with
    | some y => some y
    | none => firstSome f xs

/-- `List.foldl` over 0 to n − 1. -/
def loop {σ : Type} (f : Nat → σ → σ) : Nat → σ → σ
  | 0, s => s
  | n + 1, s => f n (loop f n s)

end Sys2Proof
end

