-- ==== Sys2Proof/Machine/Float.lean ====
section
/-!
DEFINITION. Floating formats and exact arithmetic (spec/06_number_formats.md): values are decoded to exact dyadic numbers,
combined exactly and rounded once.
-/

namespace Sys2Proof.Machine

/-- A floating value, exact: NaN, an infinity, or a signed m · 2^e (R109, R111). -/
inductive FVal where
  | nan
  | inf (neg : Bool)
  | num (neg : Bool) (m : Nat) (e : Int)
deriving DecidableEq, Repr, Inhabited

/-- A floating result with the conditions of R118 it met. -/
structure FOut where
  bits : Nat
  inv : Bool
  dz : Bool
  ovf : Bool
deriving DecidableEq, Repr, Inhabited

/-- A result that meets no condition. -/
def FOut.of (b : Nat) : FOut := ⟨b, false, false, false⟩

/-- Fraction bits of a format (R109, R111). -/
def manOf : FloatTy → Nat
  | .f32 => 23 | .f16 => 10 | .bf16 => 7 | .e4m3 => 3 | .e5m2 => 2
/-- Exponent bias of a format (R109, R111). -/
def biasOf : FloatTy → Nat
  | .f32 => 127 | .f16 => 15 | .bf16 => 127 | .e4m3 => 7 | .e5m2 => 15
/-- Bits of the largest finite magnitude (R109, R111). -/
def maxFinite : FloatTy → Nat
  | .f32 => 0x7F7FFFFF | .f16 => 0x7BFF | .bf16 => 0x7F7F | .e4m3 => 0x7E | .e5m2 => 0x7B
/-- Canonical NaN (R109, R111). -/
def canonNan : FloatTy → Nat
  | .f32 => 0x7FC00000 | .f16 => 0x7E00 | .bf16 => 0x7FC0 | .e4m3 => 0x7F | .e5m2 => 0x7E
/-- Bits of +∞; e4m3 has none (R111). -/
def infBits : FloatTy → Option Nat
  | .f32 => some 0x7F800000 | .f16 => some 0x7C00 | .bf16 => some 0x7F80 | .e4m3 => none | .e5m2 => some 0x7C
/-- Whether FTZ applies to a format (R111, R119). -/
def ftzApplies : FloatTy → Bool
  | .f32 => true | .f16 => true | .bf16 => true | .e4m3 => false | .e5m2 => false
/-- The exponent of the least subnormal. -/
def qminOf (t : FloatTy) : Int := 1 - (biasOf t : Int) - (manOf t : Int)
/-- The sign bit set or clear. -/
def signBits (t : FloatTy) (neg : Bool) (b : Nat) : Nat := if neg then 2 ^ (t.width - 1) + b else b

/-- Decoding (R109, R111), with subnormal sources read as zero where `ftz` holds and applies. -/
def decodeF (t : FloatTy) (ftz : Bool) (bits : Nat) : FVal :=
  let b := bits % 2 ^ t.width
  let neg := bitAt b (t.width - 1)
  let a := b % 2 ^ (t.width - 1)
  if a > maxFinite t then
    if infBits t == some a then .inf neg else .nan
  else
    let ex := a / 2 ^ manOf t
    let fr := a % 2 ^ manOf t
    if ex == 0 then .num neg (if ftz && ftzApplies t then 0 else fr) (qminOf t)
    else .num neg (2 ^ manOf t + fr) (qminOf t + (ex : Int) - 1)

/-- m · 2^e rounded to an integer magnitude under a mode (R115). -/
def roundInt (rm : Rm) (neg : Bool) (m : Nat) (e : Int) : Nat :=
  if 0 ≤ e then m * 2 ^ e.toNat
  else
    let d := 2 ^ (-e).toNat
    let q := m / d
    let r := m % d
    if r == 0 then q
    else match rm with
      | .rne => if d < 2 * r || (2 * r == d && q % 2 == 1) then q + 1 else q
      | .rz => q
      | .rdn => if neg then q + 1 else q
      | .rup => if neg then q else q + 1

/-- The magnitude bits of m · 2^e rounded to a format of unbounded exponent (R115). -/
def roundMag (t : FloatTy) (rm : Rm) (neg : Bool) (m : Nat) (e : Int) : Nat :=
  if m == 0 then 0 else
  let q := max (qminOf t) ((Nat.log2 m : Int) + e - (manOf t : Int))
  (q - qminOf t).toNat * 2 ^ manOf t + roundInt rm neg m (e - q)

/-- What an overflow becomes (R115): infinity or the largest finite value by mode, NaN or saturation in the 8-bit formats. -/
def overflowBits (t : FloatTy) (rm : Rm) (satf neg : Bool) : Nat :=
  let toInf := match rm with | .rne => true | .rz => false | .rdn => neg | .rup => !neg
  if !toInf then signBits t neg (maxFinite t)
  else match t with
    | .e4m3 => if satf then signBits t neg (maxFinite t) else canonNan t
    | .e5m2 => if satf then signBits t neg (maxFinite t) else signBits t neg 0x7C
    | _ => signBits t neg ((infBits t).getD 0)

/-- An exact number rounded once to a format (R115), with FTZ on the result (R119). -/
def packNum (t : FloatTy) (rm : Rm) (satf ftz neg : Bool) (m : Nat) (e : Int) : FOut :=
  let b := roundMag t rm neg m e
  if b > maxFinite t then ⟨overflowBits t rm satf neg, false, false, true⟩
  else if ftz && ftzApplies t && decide (b < 2 ^ manOf t) then .of (signBits t neg 0)
  else .of (signBits t neg b)

/-- A value written to a format: NaN is canonical (R110); an infinity written to e4m3 is NaN and invalid (R117). -/
def packV (t : FloatTy) (rm : Rm) (satf ftz : Bool) (v : FVal) (inv : Bool) : FOut :=
  match v with
  | .nan => ⟨canonNan t, inv, false, false⟩
  | .inf neg => match infBits t with
    | some b => ⟨signBits t neg b, inv, false, false⟩
    | none => ⟨canonNan t, true, false, false⟩
  | .num neg m e => packNum t rm satf ftz neg m e

/-- m · 2^e as an integer in units of 2^q, for q at most e. -/
def scaledInt (neg : Bool) (m : Nat) (e q : Int) : Int :=
  let x : Int := (m * 2 ^ (e - q).toNat : Nat)
  if neg then -x else x

/-- Exact sum with the zero signs of R115, and whether it is invalid (R118). -/
def addV (rm : Rm) : FVal → FVal → FVal × Bool
  | .nan, _ => (.nan, false)
  | _, .nan => (.nan, false)
  | .inf a, .inf b => if a == b then (.inf a, false) else (.nan, true)
  | .inf a, _ => (.inf a, false)
  | _, .inf b => (.inf b, false)
  | .num na ma ea, .num nb mb eb =>
    if ma == 0 && mb == 0 && na == nb then (.num na 0 0, false)
    else
      let q := min ea eb
      let x := scaledInt na ma ea q + scaledInt nb mb eb q
      if x == 0 then (.num (rm == .rdn) 0 0, false) else (.num (decide (x < 0)) x.natAbs q, false)
/-- The negation of a value. -/
def negV : FVal → FVal
  | .nan => .nan
  | .inf n => .inf (!n)
  | .num n m e => .num (!n) m e
/-- Exact product, and whether it is invalid: 0 × ∞ (R118). -/
def mulV : FVal → FVal → FVal × Bool
  | .nan, _ => (.nan, false)
  | _, .nan => (.nan, false)
  | .inf a, .inf b => (.inf (a != b), false)
  | .inf a, .num b m _ => if m == 0 then (.nan, true) else (.inf (a != b), false)
  | .num a m _, .inf b => if m == 0 then (.nan, true) else (.inf (a != b), false)
  | .num a ma ea, .num b mb eb => (.num (a != b) (ma * mb) (ea + eb), false)
/-- Exact a · b + c (R386). -/
def fmaV (rm : Rm) (a b c : FVal) : FVal × Bool :=
  let p := mulV a b
  if p.2 then (.nan, !(c == .nan))
  else addV rm p.1 c
/-- The order of two values that are not NaN, with −0 = +0. -/
def cmpV : FVal → FVal → Ordering
  | .inf a, .inf b => if a == b then .eq else if a then .lt else .gt
  | .inf a, _ => if a then .lt else .gt
  | _, .inf b => if b then .gt else .lt
  | .num na ma ea, .num nb mb eb =>
    let q := min ea eb
    compare (scaledInt na ma ea q) (scaledInt nb mb eb q)
  | _, _ => .eq
/-- Whether a value is NaN. -/
def FVal.isNan : FVal → Bool
  | .nan => true
  | _ => false
/-- Whether a value is negative by its sign. -/
def FVal.neg? : FVal → Bool
  | .nan => false
  | .inf n => n
  | .num n _ _ => n
/-- Whether a value is a zero. -/
def FVal.zero? : FVal → Bool
  | .num _ m _ => m == 0
  | _ => false
/-- Minimum or maximum of R124: NaN if either is, −0 below +0. -/
def minmaxV (mx : Bool) (a b : FVal) : FVal :=
  if a.isNan || b.isNan then .nan
  else
    let lt := match cmpV a b with
      | .lt => true
      | .gt => false
      | .eq => a.neg? && !b.neg?
    if lt == mx then b else a
/-- The magnitude of a value. -/
def absV : FVal → FVal
  | .nan => .nan
  | .inf _ => .inf false
  | .num _ m e => .num false m e

/-- One rounded sum in a format (R123's node). -/
def addBits (t : FloatTy) (rm : Rm) (ftz : Bool) (a b : Nat) : FOut :=
  let r := addV rm (decodeF t ftz a) (decodeF t ftz b)
  packV t rm false ftz r.1 r.2
/-- Conditions of two results joined; the bits are the second's. -/
def FOut.also (a b : FOut) : FOut := ⟨b.bits, a.inv || b.inv, a.dz || b.dz, a.ovf || b.ovf⟩
/-- A node of the tree of R123 over optional leaves: absent plus x is x. -/
def addNode (t : FloatTy) (rm : Rm) (ftz : Bool) : Option FOut → Option FOut → Option FOut
  | none, x => x
  | x, none => x
  | some a, some b => some ((FOut.also a b).also (addBits t rm ftz a.bits b.bits))
/-- One level of the pairwise tree. -/
def pairUp (f : Option FOut → Option FOut → Option FOut) : List (Option FOut) → List (Option FOut)
  | a :: b :: rest => f a b :: pairUp f rest
  | l => l
/-- The pairwise tree over at most 2^n leaves (R123, R127). -/
def treeSum (f : Option FOut → Option FOut → Option FOut) : Nat → List (Option FOut) → Option FOut
  | 0, l => l.headD none
  | n + 1, l => treeSum f n (pairUp f l)

/-- A float rounded to an integer type and clamped (R117): NaN gives 0; NaN, infinities and clamped values are invalid. -/
def floatToInt (rm : Rm) (t : IntTy) (v : FVal) : Nat × Bool :=
  let lo : Int := if t.signed then -(2 ^ (t.width - 1) : Nat) else 0
  let hi : Int := if t.signed then (2 ^ (t.width - 1) : Nat) - 1 else (2 ^ t.width : Nat) - 1
  match v with
  | .nan => (0, true)
  | .inf n => (patternOf t.width (if n then lo else hi), true)
  | .num n m e =>
    let a : Int := roundInt rm n m e
    let x := if n then -a else a
    if x < lo then (patternOf t.width lo, true)
    else if hi < x then (patternOf t.width hi, true)
    else (patternOf t.width x, false)
/-- An integer as an exact value. -/
def intV (x : Int) : FVal := .num (decide (x < 0)) x.natAbs 0

/-- The class bit of FCLASS (R382), from the encoding alone. -/
def classOf (t : FloatTy) (bits : Nat) : Nat :=
  match decodeF t false bits with
  | .nan => 256
  | .inf n => if n then 1 else 128
  | .num n m _ =>
    if m == 0 then (if n then 8 else 16)
    else if m < 2 ^ manOf t then (if n then 4 else 32) else (if n then 2 else 64)

/-! ### Block floating point (R112 to R114) -/

/-- The largest floor(log2 |x|) over the nonzero values, if any. -/
def maxLog : List FVal → Option Int
  | [] => none
  | .num _ m e :: xs =>
    if m == 0 then maxLog xs
    else match maxLog xs with
      | none => some ((Nat.log2 m : Int) + e)
      | some y => some (max y ((Nat.log2 m : Int) + e))
  | _ :: xs => maxLog xs
/-- Whether some value is NaN or infinite. -/
def anyNonFinite (l : List FVal) : Bool := l.any fun v => match v with | .num _ _ _ => false | _ => true
/-- Conversion of a block of exact values to BFPw (R114): E and the w-bit patterns. -/
def bfpPack (w : Nat) (rm : Rm) (xs : List FVal) : Nat × List Nat :=
  if anyNonFinite xs then (255, xs.map fun _ => 0)
  else match maxLog xs with
    | none => (0, xs.map fun _ => 0)
    | some a =>
      let ex := max (a - ((w : Int) - 2) + 127) 0
      if ex > 254 then (255, xs.map fun _ => 0)
      else (ex.toNat, xs.map fun v => match v with
        | .num n m e =>
          let r : Int := roundInt rm n m (e + 127 - ex)
          let x := if n then -r else r
          let hi : Int := (2 ^ (w - 1) : Nat) - 1
          patternOf w (max (-(2 ^ (w - 1) : Nat)) (min hi x))
        | _ => 0)
/-- The value of a BFPw element (R112): E = 255 is NaN; a zero mantissa is +0. -/
def bfpVal (w ex m : Nat) : FVal :=
  if ex == 255 then .nan
  else
    let x := signedOf w m
    .num (decide (x < 0)) x.natAbs ((ex : Int) - 127)
/-- The bit string of w-bit elements (R113). -/
def bitString (w : Nat) : List Nat → Nat
  | [] => 0
  | m :: ms => m % 2 ^ w + 2 ^ w * bitString w ms

/-! ### Special functions (R384) -/

/-- Integer square root of x by bits, for a root of at most n bits. -/
def isqrt (x : Nat) : Nat → Nat → Nat
  | 0, r => r
  | n + 1, r => isqrt x n (if (r + 2 ^ n) * (r + 2 ^ n) ≤ x then r + 2 ^ n else r)
/-- A number with a sticky bit below it. -/
def sticky (q : Nat) (exact : Bool) : Nat := 2 * q + (if exact then 0 else 1)
/-- An integer within two limits. -/
def clampInt (lo hi x : Int) : Int := max lo (min hi x)

/-- FRCP (R384). -/
def frcpOf (rm : Rm) (ftz : Bool) (bits : Nat) : FOut :=
  match decodeF .f32 ftz bits with
  | .nan => .of (canonNan .f32)
  | .inf n => .of (signBits .f32 n 0)
  | .num n m e =>
    if m == 0 then ⟨signBits .f32 n 0x7F800000, false, true, false⟩
    else packNum .f32 rm false ftz n (sticky (2 ^ 80 / m) (2 ^ 80 % m == 0)) (-81 - e)
/-- The even exponent and the magnitude that goes with it. -/
def evenExp (m : Nat) (e : Int) : Nat × Int := if e % 2 == 0 then (m, e) else (2 * m, e - 1)
/-- FSQRT (R384). -/
def fsqrtOf (rm : Rm) (ftz : Bool) (bits : Nat) : FOut :=
  match decodeF .f32 ftz bits with
  | .nan => .of (canonNan .f32)
  | .inf n => if n then ⟨canonNan .f32, true, false, false⟩ else .of 0x7F800000
  | .num n m e =>
    if m == 0 then .of (signBits .f32 n 0)
    else if n then ⟨canonNan .f32, true, false, false⟩
    else
      let p := evenExp m e
      let x := p.1 * 2 ^ 80
      let r := isqrt x 60 0
      packNum .f32 rm false ftz false (sticky r (r * r == x)) (p.2 / 2 - 41)
/-- FRSQ (R384): one of the two f32 values around 1/√x, each within 1 ulp (DESIGN CHOICE, notes/assumptions/6.md). -/
def frsqOf (ftz : Bool) (bits : Nat) : FOut :=
  match decodeF .f32 ftz bits with
  | .nan => .of (canonNan .f32)
  | .inf n => if n then ⟨canonNan .f32, true, false, false⟩ else .of 0
  | .num n m e =>
    if m == 0 then ⟨signBits .f32 n 0x7F800000, false, true, false⟩
    else if n then ⟨canonNan .f32, true, false, false⟩
    else
      let p := evenExp m e
      let r := isqrt (2 ^ 160 / p.1) 82 0
      let rm := if Config.frsqStep bits ≤ 0 then Rm.rz else Rm.rup
      packNum .f32 rm false ftz false (sticky r (r * r * p.1 == 2 ^ 160)) (-81 - p.2 / 2)
/-- ln 2 in units of 2^-200. -/
def ln2Fixed : Nat := 0xb17217f7d1cf79abc9e3b39803f2f6af40f343267298b62d8a
/-- 2π in units of 2^-400. -/
def twoPiFixed : Nat :=
  0x6487ed5110b4611a62633145c06e0e68948127044533e63a0105df531d89cd9128a5043cc71a026ef7ca8cd9e69d218d98158
/-- Terms of the exponential series in units of 2^-200. -/
def expSeries (t : Nat) : Nat → Nat → Nat → Nat
  | 0, _, _ => 0
  | n + 1, k, term => term + expSeries t n (k + 1) (term * t / ((k + 1) * 2 ^ 200))
/-- Terms of the series of artanh in units of 2^-200. -/
def atanhSeries (z2 : Nat) : Nat → Nat → Nat → Nat
  | 0, _, _ => 0
  | n + 1, k, p => p / (2 * k + 1) + atanhSeries z2 n (k + 1) (p * z2 / 2 ^ 200)
/-- Alternating terms of sine or cosine in units of 2^-200: the term, and the index it has reached. -/
def trigSeries (x2 : Nat) : Nat → Nat → Nat → Bool → Int
  | 0, _, _, _ => 0
  | n + 1, k, term, neg =>
    (if neg then -(term : Int) else (term : Int)) +
      trigSeries x2 n (k + 2) (term * x2 / 2 ^ 200 / ((k + 1) * (k + 2))) (!neg)
/-- The f32 magnitude `k` representable steps above the value below m · 2^e, for a value that is not representable: a step of
2 is left out where it would cross into the next binade, so that the distance stays within 2 ulp. -/
def nearBits (k : Int) (m : Nat) (e : Int) : Nat :=
  let lo := roundMag .f32 .rz false m e
  let k := clampInt (if lo == 0 then 0 else -1) (if (lo + 1) % 2 ^ 23 == 0 then 1 else 2) k
  ((lo : Int) + k).toNat
/-- FEXP2 (R384, DESIGN CHOICE, notes/assumptions/6.md). -/
def fexp2Of (ftz : Bool) (bits : Nat) : FOut :=
  match decodeF .f32 ftz bits with
  | .nan => .of (canonNan .f32)
  | .inf n => .of (if n then 0 else 0x7F800000)
  | .num n m e =>
    let x := scaledInt n m (max e (-150)) (-150)
    let x := if e < -150 then 0 else x
    let ip := x / (2 ^ 150 : Nat)
    let fp := (x % (2 ^ 150 : Nat)).toNat
    let pack := fun (b : Nat) =>
      if b > maxFinite .f32 then ⟨0x7F800000, false, false, true⟩
      else if ftz && decide (b < 2 ^ 23) then FOut.of 0 else FOut.of b
    if ip ≥ 128 then ⟨0x7F800000, false, false, true⟩
    else if fp == 0 && m == 0 then .of 0x3F800000
    else if ip < -200 then pack (nearBits (Config.fexp2Step bits) 1 (-250))
    else if fp == 0 then pack (roundMag .f32 .rne false 1 ip)
    else
      let y := expSeries (fp * 2 ^ 50 * ln2Fixed / 2 ^ 200) 48 0 (2 ^ 200)
      pack (nearBits (Config.fexp2Step bits) (sticky y false) (ip - 201))
/-- FLOG2 (R384, DESIGN CHOICE, notes/assumptions/6.md). -/
def flog2Of (ftz : Bool) (bits : Nat) : FOut :=
  match decodeF .f32 ftz bits with
  | .nan => .of (canonNan .f32)
  | .inf n => if n then ⟨canonNan .f32, true, false, false⟩ else .of 0x7F800000
  | .num n m e =>
    if m == 0 then ⟨0xFF800000, false, true, false⟩
    else if n then ⟨canonNan .f32, true, false, false⟩
    else
      let l : Nat := Nat.log2 m
      let ip : Int := (l : Int) + e
      if m == 2 ^ l then packV .f32 .rne false ftz (intV ip) false
      else
        let z := (m - 2 ^ l) * 2 ^ 200 / (m + 2 ^ l)
        let lg : Nat := 2 * atanhSeries (z * z / 2 ^ 200) 70 0 z * 2 ^ 200 / ln2Fixed
        let y : Int := ip * (2 ^ 200 : Nat) + (lg : Int)
        if y.natAbs < 2 ^ 199 then
          let d := clampInt (-(2 ^ 38 - 2 ^ 34)) (2 ^ 38 - 2 ^ 34) (Config.flog2Step bits)
          let y := y + d * (2 ^ 140 : Nat)
          packNum .f32 .rne false ftz (decide (y < 0)) y.natAbs (-200)
        else .of (signBits .f32 (decide (y < 0)) (nearBits (Config.flog2Step bits) (sticky y.natAbs false) (-201)))
/-- x modulo 2π in units of 2^-200 (R384's exact reduction). -/
def reduceAngle (m : Nat) (e : Int) : Nat :=
  (if 0 ≤ e then m * 2 ^ e.toNat * 2 ^ 400 else m * 2 ^ 400 / 2 ^ (-e).toNat) % twoPiFixed / 2 ^ 200
/-- FSIN (R384, DESIGN CHOICE, notes/assumptions/6.md). -/
def fsinOf (ftz : Bool) (bits : Nat) : FOut :=
  match decodeF .f32 ftz bits with
  | .nan => .of (canonNan .f32)
  | .inf _ => ⟨canonNan .f32, true, false, false⟩
  | .num n m e =>
    if m == 0 then .of (signBits .f32 n 0)
    else
      let r := reduceAngle m e
      let y := trigSeries (r * r / 2 ^ 200) 60 1 r false
      let d := clampInt (-(2 ^ 39 - 1)) (2 ^ 39 - 1) (Config.fsinStep bits)
      let y := (if n then -y else y) + d * (2 ^ 140 : Nat)
      packNum .f32 (if 0 ≤ d then .rdn else .rup) false ftz (decide (y < 0)) y.natAbs (-200)
/-- FCOS (R384, DESIGN CHOICE, notes/assumptions/6.md). -/
def fcosOf (ftz : Bool) (bits : Nat) : FOut :=
  match decodeF .f32 ftz bits with
  | .nan => .of (canonNan .f32)
  | .inf _ => ⟨canonNan .f32, true, false, false⟩
  | .num _ m e =>
    if m == 0 then .of 0x3F800000
    else
      let r := reduceAngle m e
      let y := trigSeries (r * r / 2 ^ 200) 60 0 (2 ^ 200) false
      let d := clampInt (-(2 ^ 39 - 1)) (2 ^ 39 - 1) (Config.fcosStep bits)
      let y := y + d * (2 ^ 140 : Nat)
      packNum .f32 (if 0 ≤ d then .rdn else .rup) false ftz (decide (y < 0)) y.natAbs (-200)

end Sys2Proof.Machine
end

