-- ==== Sys2Proof/Machine/Flags.lean ====
section
/-!
DEFINITION. Every computation of a predicate or a condition: comparisons of ISETP and FSETP, the FMT fields, and which
floating condition traps (spec/06_number_formats.md R118, R119; spec/18 R409; spec/17 R388).
-/

namespace Sys2Proof.Machine

/-- An integer comparison of ISETP (R409); `num` and `nan` are no integer comparisons. -/
def cmpInt (c : Cmp) (a b : Int) : Bool := match c with
  | .eq => a == b
  | .ne => a != b
  | .lt => decide (a < b)
  | .le => decide (a ≤ b)
  | .gt => decide (b < a)
  | .ge => decide (b ≤ a)
  | .num => false
  | .nan => false

/-- A floating comparison of FSETP (R388). -/
def cmpFloat (c : Cmp) (a b : FVal) : Bool :=
  if a.isNan || b.isNan then (match c with | .ne => true | .nan => true | _ => false)
  else
    let o := cmpV a b
    match c with
    | .eq => o == .eq
    | .ne => o != .eq
    | .lt => o == .lt
    | .le => o != .gt
    | .gt => o == .gt
    | .ge => o != .lt
    | .num => true
    | .nan => false

/-- FMT.RM (R119). -/
def fmtRm (f : W32) : Rm := match bitsAt f.toNat 0 2 with
  | 0 => .rne | 1 => .rz | 2 => .rdn | _ => .rup
/-- FMT.FTZ (R119). -/
def fmtFtz (f : W32) : Bool := bitAt f.toNat 2
/-- FMT.SATF (R119). -/
def fmtSatf (f : W32) : Bool := bitAt f.toNat 4
/-- FMT.TIV (R119). -/
def fmtTiv (f : W32) : Bool := bitAt f.toNat 5
/-- FMT.TDZ (R119). -/
def fmtTdz (f : W32) : Bool := bitAt f.toNat 6
/-- FMT.TOF (R119). -/
def fmtTof (f : W32) : Bool := bitAt f.toNat 7
/-- The FMT bits that are not reserved (R119). -/
def fmtMask : W32 := 0x00FF00F7
/-- A format by its code of R119. -/
def mfmtOfCode (c : Nat) : MFmt := match c with
  | 0 => .e4m3 | 1 => .e5m2 | 2 => .bf16 | 3 => .f16 | 8 => .bfp 2 | 9 => .bfp 3 | 10 => .bfp 4 | 11 => .bfp 5
  | 12 => .bfp 6 | 13 => .bfp 7 | 14 => .bfp 8 | n => .reserved n
/-- Whether a code is reserved in AFMT and WFMT (R119). -/
def codeReserved (c : Nat) : Bool := (decide (4 ≤ c) && decide (c ≤ 7)) || c == 15
/-- FMT.AFMT (R119). -/
def fmtA (f : W32) : MFmt := mfmtOfCode (bitsAt f.toNat 16 4)
/-- FMT.WFMT (R119). -/
def fmtW (f : W32) : MFmt := mfmtOfCode (bitsAt f.toNat 20 4)
/-- The rounding mode of an instruction: its own, or FMT's (R352). -/
def modeOf (f : W32) (rm : Option Rm) : Rm := rm.getD (fmtRm f)

/-- The enabled condition of a result, the lowest of causes 80, 81 and 82 (R118). -/
def condCause (f : W32) (o : FOut) : Option Nat :=
  if o.inv && fmtTiv f then some 80
  else if o.dz && fmtTdz f then some 81
  else if o.ovf && fmtTof f then some 82
  else none
/-- The cause and lane of a floating trap: the lowest lane that met an enabled condition, and the lowest cause that it met (R118). -/
def floatTrap (f : W32) (l : List (Nat × FOut)) : Option (Nat × Nat) :=
  (l.find? fun e => (condCause f e.2).isSome).map fun e =>
    (((l.filter fun y => y.1 == e.1).filterMap fun y => condCause f y.2).foldl min 82, e.1)

end Sys2Proof.Machine
end

