-- ==== Sys2Proof/WellFormed.lean ====
section
/-!
DEFINITION. Which instruction terms have an encoding: header, operand ranges, alignment, operand classes, listed types and
immediates within the limits of R50 to R57 and of each entry (spec/03_encoding_and_assembly.md, spec/17 to spec/19).
-/

namespace Sys2Proof

/-- STALL is 4 bits and a predicate index 3 bits (R49). -/
def Hdr.ok (h : Hdr) : Bool :=
  decide (h.stall < 16) && (match h.guard with | .lane _ p => decide (p < 8) | .group _ p => decide (p < 8))

/-- Source 1 or 3: a g register in the uniform form, else a v or g register (R54). -/
def Src.regOk (uni : Bool) : Src → Bool
  | .v _ => !uni
  | .g _ => true
  | .imm _ => false

/-- Source 2: a register as above, or an immediate that passes `f` (R54). -/
def Src.bOk (uni : Bool) (f : W32 → Bool) : Src → Bool
  | .v _ => !uni
  | .g _ => true
  | .imm w => f w

/-- The index of a memory operand: a v or a g register (R55). -/
def Src.idxOk : Src → Bool := Src.regOk false

/-- Any immediate. -/
def anyImm (_ : W32) : Bool := true
/-- An immediate below a limit. -/
def immLt (n : Nat) (w : W32) : Bool := decide (w.toNat < n)

/-- R52: an immediate of a 16- or 8-bit integer type is the extension of its low bits. -/
def IntTy.immOk (t : IntTy) (w : W32) : Bool :=
  match t with
  | .s16 => w == BitVec.signExtend 32 (w.truncate 16 : BitVec 16)
  | .s8 => w == BitVec.signExtend 32 (w.truncate 8 : BitVec 8)
  | .n16 => decide (w.toNat < 2 ^ 16)
  | .n8 => decide (w.toNat < 2 ^ 8)
  | _ => true

/-- R52: no bit above the pattern of a floating immediate. -/
def FloatTy.immOk (t : FloatTy) (w : W32) : Bool := decide (w.toNat < 2 ^ t.width)

/-- f32, f16 or bf16 (R380). -/
def FloatTy.isArith (t : FloatTy) : Bool := t == .f32 || t == .f16 || t == .bf16
/-- Types of 32 or 64 bits (R361, R408). -/
def IntTy.isLong (t : IntTy) : Bool := decide (32 ≤ t.width)
/-- Types of 16 or 8 bits (R410). -/
def IntTy.isShort (t : IntTy) : Bool := decide (t.width < 32)

/-- The pairs of operation and type that LRED and LSCAN list (R419). -/
def redOk (op : RedOp) (t : CvtTy) : Bool :=
  match t with
  | .flt f => f.isArith && (op == .add || op == .min || op == .max)
  | .int t => t.isLong && (op == .add || op == .min || op == .max || !t.signed)

/-- A mode is given only for a float add (R419). -/
def redModeOk (op : RedOp) (t : CvtTy) (rm : Option Rm) : Bool :=
  rm.isNone || (match t with | .flt _ => op == .add | .int _ => false)

/-- A transfer target of R57: a signed 29-bit line offset and a slot of 0 to 4. -/
def Target.ok (t : Target) : Bool := decide (-(2 ^ 28 : Int) ≤ t.line ∧ t.line < 2 ^ 28 ∧ t.slot ≤ 4)
/-- The continuation target of FORK: a signed 13-bit line offset (R91). -/
def Target.contOk (t : Target) : Bool := decide (-4096 ≤ t.line ∧ t.line < 4096 ∧ t.slot ≤ 4)

/-- The ordering qualifiers of R55 and R165, for an instruction that accepts acquire, release and promotion as given. -/
def MemOrd.ok (o : MemOrd) (acq rel rp : Bool) : Bool :=
  (!o.acq || acq) && (!o.rel || rel) && (!o.rp || (rp && o.acq && !o.rel)) && (o.acq || o.rel || o.scope == .group)

/-- Types of ATOM and ATOMS: s32, n32, s64, n64, and for fadd f32, which takes the code of s32 (R357). -/
def atomOk (op : AtomOp) (t : IntTy) : Bool := t.isLong && (op != .fadd || t == .s32)

/-- A drain or fill format code of FUNC[3:0] (R211). -/
def MFmt.ok : MFmt → Bool
  | .bfp w => decide (2 ≤ w ∧ w ≤ 8)
  | .reserved c => c == 5 || c == 6 || c == 7 || c == 15
  | _ => true

/-- A first tile row in its 6-bit field (R212). -/
def rowOk (r : Nat) : Bool := decide (r < 64)

/-- What the entry of an instruction asks of its terms beside operand ranges, alignment and guard. -/
def Instr.shapeOk : Instr → Bool
  | .iadd _ u t _ _ a b | .isub _ u t _ _ a b | .imul _ u t _ _ a b => a.regOk u && b.bOk u t.immOk
  | .imin _ u t _ a b | .imax _ u t _ a b | .idiv _ u t _ a b | .irem _ u t _ a b => a.regOk u && b.bOk u t.immOk
  | .imad _ u t _ _ a b c => a.regOk u && b.bOk u t.immOk && c.regOk u
  | .imulh _ u t _ a b => t.isLong && a.regOk u && b.bOk u anyImm
  | .ineg _ u t _ _ a | .iabs _ u t _ _ a => t.signed && a.regOk u
  | .and _ u _ _ a b | .or _ u _ _ a b | .xor _ u _ _ a b | .andn _ u _ _ a b => a.regOk u && b.bOk u anyImm
  | .not _ u _ _ a | .brev _ u _ _ a | .clz _ u _ _ a | .popc _ u _ _ a | .mov _ u _ _ a => a.regOk u
  | .shl _ u t _ a b => t.isLong && a.regOk u && b.bOk u anyImm
  | .shr _ u t _ a b => t.isLong && !t.signed && a.regOk u && b.bOk u anyImm
  | .sar _ u t _ a b => t.isLong && t.signed && a.regOk u && b.bOk u anyImm
  | .bfe _ u t _ a b => t.isLong && a.regOk u && b.bOk u (immLt (2 ^ 16))
  | .bfi _ u _ _ a b c => a.regOk u && b.bOk u (immLt (2 ^ 16)) && c.regOk u
  | .isetp _ u c t _ a b => c != .num && c != .nan && a.regOk u && b.bOk u t.immOk
  | .sel _ u _ _ a b p => a.regOk u && b.bOk u anyImm && (!u || p.grp)
  | .idp4 _ u _ _ _ a b c => a.regOk u && b.bOk u anyImm && c.regOk u
  | .ishrq _ u t _ a b => t.isShort && a.regOk u && b.bOk u (immLt 32)
  | .movi _ _ _ _ => true
  | .fadd _ _ t _ a b | .fsub _ _ t _ a b | .fmul _ _ t _ a b | .fmin _ t _ a b | .fmax _ t _ a b =>
    t.isArith && a.regOk false && b.bOk false t.immOk
  | .ffma _ _ t _ a b c => t.isArith && a.regOk false && b.bOk false t.immOk && c.regOk false
  | .hfma2 _ _ t _ a b c => (t == .f16 || t == .bf16) && a.regOk false && b.bOk false t.immOk && c.regOk false
  | .fsetp _ _ t _ a b => a.regOk false && b.bOk false t.immOk
  | .fclass _ _ _ a | .frcp _ _ _ a | .frsq _ _ a | .fsqrt _ _ _ a | .fexp2 _ _ a | .flog2 _ _ a | .fsin _ _ a | .fcos _ _ a =>
    a.regOk false
  | .cvt _ rm sat tD tS _ a =>
    a.regOk false && (match tD, tS with | .int _, .int _ => rm.isNone | _, _ => !sat)
  | .bpack _ _ w _ _ | .bunpack _ _ w _ _ => decide (w < 16)
  | .amax _ t _ a => t.isArith && a.regOk false
  | .shfl _ _ _ _ b => b.bOk false anyImm
  | .rot _ _ _ b => (match b with | .v _ => false | .g _ => true | .imm w => decide (w.toNat < 128))
  | .vote _ _ _ _ _ => true
  | .lred _ _ rm op t _ _ | .lscan _ _ rm op t _ _ => redOk op t && redModeOk op t rm
  | .plog _ op _ _ b => op != .mov || b == ⟨false, 0, false⟩
  | .pmov _ f => (match f with | .toReg _ _ => true | .toPred _ a => a.regOk false)
  | .gmov _ _ _ l => (match l with | .imm n => decide (n < 128) | .reg _ => true | .first => true)
  | .bra _ t => t.ok
  | .jmpx _ _ | .ret _ | .exit _ | .armend _ | .jset _ _ _ | .join _ _ _ | .jwait _ | .nop _ => true
  | .call _ n t => decide (n < 256) && t.ok
  | .fork _ _ _ split gap c t => decide (split < 256) && decide (gap < 128) && c.contOk && t.ok
  | .ld _ _ o x _ _ _ => o.ok true false true && x.idxOk
  | .lds _ _ o x _ _ => o.ok true false false && x.idxOk
  | .st _ _ o x _ _ _ => o.ok false true false && x.idxOk
  | .sts _ _ o x _ _ => o.ok false true false && x.idxOk
  | .atom _ op t o x _ _ _ _ => atomOk op t && o.ok true true true && x.idxOk
  | .atoms _ op t o x _ _ _ => atomOk op t && o.ok true true false && x.idxOk
  | .ldk _ _ _ _ | .stk _ _ _ _ => true
  | .ldw _ _ x _ _ _ => x.idxOk
  | .pref _ x _ _ => x.idxOk
  | .fence _ a r _ => a || r
  | .fenceCounting _ a r _ => a || r
  | .xfence _ p1 p2 _ => p1 != p2
  | .mwatch _ _ _ _ _ _ | .mwait _ _ _ | .brset _ _ _ => true
  | .cpy _ e ch _ _ _ _ _ | .cpyt _ e ch _ _ _ _ _ => decide (e < 5 ∧ ch < 4)
  | .cpkill _ ch _ => decide (ch < 4)
  | .optstep _ _ _ _ _ _ _ _ | .thset _ _ _ _ => true
  | .coll _ w _ _ _ _ _ => decide (w < 16)
  | .mma _ _ _ _ _ r | .mmat _ _ _ _ _ r => rowOk r
  | .mmad _ _ _ _ _ _ _ c => rowOk c
  | .mldw _ _ m _ _ => decide (m < 4)
  | .mswap _ _ m _ => decide (m < 4)
  | .mdrain _ f _ amx _ _ _ _ _ am r => f.ok && rowOk r && (amx || am == 0)
  | .mzero _ _ _ _ r c => rowOk r && decide (1 ≤ c ∧ c ≤ 64)
  | .mfill _ f _ _ _ _ r => f.ok && rowOk r
  | .setfmt _ _ | .setfmtSc _ _ _ | .setfmtClr _ _ | .screc _ _ _ _ | .scload _ _ _ _ | .scloadEnd _ => true
  | .hcreate _ _ _ _ _ | .hfree _ _ | .hstrag _ _ _ | .hjoin _ _ _ | .hleave _ _ => true
  | .hquery _ item _ _ => decide (item < 6)
  | .harr _ _ _ _ | .hbar _ _ _ _ | .hvote _ _ _ _ _ _ | .hred _ _ _ _ _ _ _ | .hwait _ _ _ _ => true
  | .spawn _ _ _ _ _ _ | .qpush _ _ _ _ _ | .qpop _ _ _ _ | .yield _ => true
  | .rclaim _ _ m | .rclaimTry _ _ m | .rgive _ _ m => m.toNat % 8 == 0 && decide (8 ≤ m.toNat ∧ m.toNat ≤ 248)
  | .movs _ vd s _ => (match s with | .sr n => decide (n < 256) && (n != 0 || vd) | .sc _ => true | .am _ => true | .fmt => true)
  | .sets _ n _ => decide (n < 256)
  | .svc _ _ | .trap _ _ | .bkpt _ | .icinv _ _ _ => true
  | _ => false

/-- A term with an encoding: an instruction (not an event) whose header, operands, guard and shape are within the limits. -/
def Instr.wellFormed (i : Instr) : Bool :=
  match i.hdr with
  | none => false
  | some h =>
    h.ok && (!i.groupGuardOnly || h.guard.isGroup) && (i.ops 1 1).all (fun o => o.inClass && o.aligned) && i.shapeOk

end Sys2Proof
end

