-- ==== Sys2Proof/Decode.lean ====
section
/-!
DEFINITION. Decoding of the 96-bit instruction word and of the 32-byte queue command, total on any bits, rejecting by name,
and the encoder (spec/03_encoding_and_assembly.md R49 to R62; the Encoding parts of spec/17 to spec/19; spec/12_scheduling.md R276).
-/

namespace Sys2Proof

/-- The fields of an instruction word as numbers (R49). -/
structure Fields where
  maj : Nat
  stall : Nat
  endb : Nat
  rsv : Nat
  gn : Nat
  gs : Nat
  gi : Nat
  func : Nat
  mod : Nat
  d : Nat
  a : Nat
  b : Nat
  c : Nat
  imm : Nat
deriving DecidableEq, Repr, Inhabited

/-- The fields of a 96-bit word (R49). -/
def Fields.ofWord (w : Nat) : Fields :=
  { imm := bitsAt w 0 32, c := bitsAt w 32 8, b := bitsAt w 40 8, a := bitsAt w 48 8, d := bitsAt w 56 8,
    mod := bitsAt w 64 7, func := bitsAt w 71 6, gi := bitsAt w 77 3, gs := bitsAt w 80 1, gn := bitsAt w 81 1,
    rsv := bitsAt w 82 1, endb := bitsAt w 83 1, stall := bitsAt w 84 4, maj := bitsAt w 88 8 }

/-- The 96-bit word of the fields (R49). -/
def Fields.toWord (f : Fields) : Nat :=
  f.imm + 2 ^ 32 * f.c + 2 ^ 40 * f.b + 2 ^ 48 * f.a + 2 ^ 56 * f.d + 2 ^ 64 * f.mod + 2 ^ 71 * f.func + 2 ^ 77 * f.gi
    + 2 ^ 80 * f.gs + 2 ^ 81 * f.gn + 2 ^ 82 * f.rsv + 2 ^ 83 * f.endb + 2 ^ 84 * f.stall + 2 ^ 88 * f.maj

/-- Why an encoding is no instruction (R61); `targetSlot` is the slot check of R367 on a target in IMM. -/
inductive Reject where
  | reservedMajor | illegalFill | unassignedMajor | illegalFunction | reservedModifier | reservedField | reservedOperand
  | operandRange | operandClass | guardScope | immRange | operandAlign | targetSlot
deriving DecidableEq, Repr, Inhabited

/-- The cause number of a rejected encoding (R61, R48). -/
def Reject.cause : Reject → Nat
  | .reservedMajor => 0 | .illegalFill => 1 | .unassignedMajor => 2 | .illegalFunction => 3 | .reservedModifier => 4
  | .reservedField => 5 | .reservedOperand => 6 | .operandRange => 7 | .operandClass => 8 | .guardScope => 9
  | .immRange => 14 | .operandAlign => 15 | .targetSlot => 17

/-- What an entry says of an encoding whose FUNC it lists: MOD, unused fields, ranges that are not register ranges, operand
classes and immediates, and the instruction. -/
structure Enc where
  modOk : Bool
  unused : Bool
  range : Bool
  cls : Bool
  imm : Bool
  instr : Instr
deriving DecidableEq, Repr, Inhabited

/-- The guard of the fields (R50). -/
def Fields.guard (f : Fields) : Guard := if f.gs = 1 then .group (f.gn == 1) f.gi else .lane (f.gn == 1) f.gi
/-- STALL, END and the guard (R49). -/
def Fields.hdr (f : Fields) : Hdr := ⟨f.stall, f.endb == 1, f.guard⟩
/-- IMM as a word. -/
def Fields.imm32 (f : Fields) : W32 := BitVec.ofNat 32 f.imm
/-- MOD.IB (R54). -/
def Fields.ib (f : Fields) : Bool := bitAt f.mod 6
/-- MOD.GA (R54). -/
def Fields.ga (f : Fields) : Bool := bitAt f.mod 5
/-- MOD.GB (R54). -/
def Fields.gb (f : Fields) : Bool := bitAt f.mod 4
/-- MOD.GC (R54). -/
def Fields.gc (f : Fields) : Bool := bitAt f.mod 3
/-- MOD.OPT (R54). -/
def Fields.opt (f : Fields) : Nat := f.mod % 8

/-- Source 1 of format A. -/
def Fields.srcA (f : Fields) (uni : Bool) : Src := if uni || f.ga then .g f.a else .v f.a
/-- Source 2 of format A. -/
def Fields.srcB (f : Fields) (uni : Bool) : Src := if f.ib then .imm f.imm32 else if uni || f.gb then .g f.b else .v f.b
/-- Source 3 of format A. -/
def Fields.srcC (f : Fields) (uni : Bool) : Src := if uni || f.gc then .g f.c else .v f.c

/-- MOD of a format-A entry with `n` sources (R54, cause 4): the source bits of the uniform forms belong to cause 8. -/
def modA (f : Fields) (uni : Bool) (n : Nat) (optOk : Bool) : Bool :=
  optOk && (!f.ib || decide (2 ≤ n)) &&
    (uni || ((!f.ga || decide (1 ≤ n)) && (!f.gb || (decide (2 ≤ n) && !f.ib)) && (!f.gc || decide (3 ≤ n))))
/-- Unused fields of a format-A entry with `n` register sources (cause 6). -/
def unusedA (f : Fields) (n : Nat) : Bool :=
  (decide (1 ≤ n) || f.a == 0) && ((decide (2 ≤ n) && !f.ib) || f.b == 0) && (decide (3 ≤ n) || f.c == 0) && (f.ib || f.imm == 0)
/-- GA, GB and GC are zero in the uniform majors (R54, cause 8). -/
def clsA (f : Fields) (uni : Bool) : Bool := !uni || (!f.ga && !f.gb && !f.gc)
/-- An immediate source passes its check. -/
def immSrc (s : Src) (ok : W32 → Bool) : Bool :=
  match s with
  | .imm w => ok w
  | _ => true

/-- A format-A entry: `n` sources, whether OPT is accepted, the immediate's check and the instruction. -/
def encA (f : Fields) (uni : Bool) (n : Nat) (optOk : Bool) (ok : W32 → Bool) (i : Instr) : Enc :=
  { modOk := modA f uni n optOk, unused := unusedA f n, range := true, cls := clsA f uni, imm := immSrc (f.srcB uni) ok, instr := i }

/-- The integer type of a code (R56). -/
def IntTy.ofCode (n : Nat) : IntTy :=
  match n with
  | 0 => .s32 | 1 => .n32 | 2 => .s16 | 3 => .n16 | 4 => .s8 | 5 => .n8 | 6 => .s64 | _ => .n64
/-- The floating type of a code (R56). -/
def FloatTy.ofCode (n : Nat) : Option FloatTy :=
  match n with
  | 0 => some .f32 | 1 => some .f16 | 2 => some .bf16 | 3 => some .e4m3 | 4 => some .e5m2 | _ => none
/-- The rounding mode of a code (R54). -/
def Rm.ofCode (n : Nat) : Rm :=
  match n with
  | 0 => .rne | 1 => .rz | 2 => .rdn | _ => .rup
/-- The code of a rounding mode (R54). -/
def Rm.code : Rm → Nat
  | .rne => 0 | .rz => 1 | .rdn => 2 | .rup => 3
/-- The mode that OPT overrides FMT with (R352). -/
def Fields.rm (f : Fields) : Option Rm := if 4 ≤ f.opt then some (Rm.ofCode (f.opt % 4)) else none
/-- OPT under R352: 0, or 4 to 7. -/
def Fields.rmOk (f : Fields) : Bool := f.opt == 0 || decide (4 ≤ f.opt)
/-- The comparison of a code (R388). -/
def Cmp.ofCode (n : Nat) : Cmp :=
  match n with
  | 0 => .eq | 1 => .ne | 2 => .lt | 3 => .le | 4 => .gt | 5 => .ge | 6 => .num | _ => .nan
/-- The code of a comparison (R388). -/
def Cmp.code : Cmp → Nat
  | .eq => 0 | .ne => 1 | .lt => 2 | .le => 3 | .gt => 4 | .ge => 5 | .num => 6 | .nan => 7

/-- FUNC holds a type in FUNC[2:0] and zero above; the type must pass `listed` (cause 3). -/
def intFunc (f : Fields) (listed : IntTy → Bool) : Option IntTy :=
  if f.func < 8 && listed (IntTy.ofCode f.func) then some (IntTy.ofCode f.func) else none
/-- As `intFunc`, for an entry of n32 and n64 only (R355): the flag says n64. -/
def wideFunc (f : Fields) : Option Bool := if f.func = 1 then some false else if f.func = 7 then some true else none
/-- The floating type in FUNC (R352). -/
def floatFunc (f : Fields) (listed : FloatTy → Bool) : Option FloatTy :=
  match FloatTy.ofCode f.func with
  | some t => if listed t then some t else none
  | none => none

/-- OPT of an integer entry: `.sat` in OPT[0] where listed (R390). -/
def satOk (f : Fields) (sat : Bool) : Bool := f.opt == 0 || (sat && f.opt == 1)

/-- The integer ALU, majors 0x00 to 0x0F and their uniform forms (R58, R355, R389 to R429). -/
def encInt0 (f : Fields) (uni : Bool) : Option Enc :=
  let h := f.hdr
  let a := f.srcA uni
  let b := f.srcB uni
  let s := f.opt == 1
  let all (_ : IntTy) := true
  match f.maj % 16 with
  | 0 => (intFunc f all).map fun t => encA f uni 2 (satOk f true) t.immOk (.iadd h uni t s f.d a b)
  | 1 => (intFunc f all).map fun t => encA f uni 2 (satOk f true) t.immOk (.isub h uni t s f.d a b)
  | 2 => (intFunc f all).map fun t => encA f uni 2 (satOk f true) t.immOk (.imul h uni t s f.d a b)
  | 3 => (intFunc f IntTy.isLong).map fun t => encA f uni 2 (satOk f false) t.immOk (.imulh h uni t f.d a b)
  | 4 => (intFunc f all).map fun t => encA f uni 3 (satOk f true) t.immOk (.imad h uni t s f.d a b (f.srcC uni))
  | 5 => (intFunc f all).map fun t => encA f uni 2 (satOk f false) t.immOk (.idiv h uni t f.d a b)
  | 6 => (intFunc f all).map fun t => encA f uni 2 (satOk f false) t.immOk (.irem h uni t f.d a b)
  | 7 => (intFunc f IntTy.signed).map fun t => encA f uni 1 (satOk f true) anyImm (.ineg h uni t s f.d a)
  | 8 => (intFunc f IntTy.signed).map fun t => encA f uni 1 (satOk f true) anyImm (.iabs h uni t s f.d a)
  | 9 => (intFunc f all).map fun t => encA f uni 2 (satOk f false) t.immOk (.imin h uni t f.d a b)
  | 10 => (intFunc f all).map fun t => encA f uni 2 (satOk f false) t.immOk (.imax h uni t f.d a b)
  | 11 => (wideFunc f).map fun w => encA f uni 2 (satOk f false) anyImm (.and h uni w f.d a b)
  | 12 => (wideFunc f).map fun w => encA f uni 2 (satOk f false) anyImm (.or h uni w f.d a b)
  | 13 => (wideFunc f).map fun w => encA f uni 2 (satOk f false) anyImm (.xor h uni w f.d a b)
  | 14 => (wideFunc f).map fun w => encA f uni 2 (satOk f false) anyImm (.andn h uni w f.d a b)
  | _ => (wideFunc f).map fun w => encA f uni 1 (satOk f false) anyImm (.not h uni w f.d a)

/-- The integer ALU, majors 0x10 to 0x1D and their uniform forms (R58, R361 to R444). -/
def encInt1 (f : Fields) (uni : Bool) : Option Enc :=
  let h := f.hdr
  let a := f.srcA uni
  let b := f.srcB uni
  match f.maj % 16 with
  | 0 => (intFunc f IntTy.isLong).map fun t => encA f uni 2 (satOk f false) anyImm (.shl h uni t f.d a b)
  | 1 => (intFunc f fun t => t.isLong && !t.signed).map fun t => encA f uni 2 (satOk f false) anyImm (.shr h uni t f.d a b)
  | 2 => (intFunc f fun t => t.isLong && t.signed).map fun t => encA f uni 2 (satOk f false) anyImm (.sar h uni t f.d a b)
  | 3 => (intFunc f IntTy.isLong).map fun t => encA f uni 2 (satOk f false) (immLt (2 ^ 16)) (.bfe h uni t f.d a b)
  | 4 => (wideFunc f).map fun w => encA f uni 3 (satOk f false) (immLt (2 ^ 16)) (.bfi h uni w f.d a b (f.srcC uni))
  | 5 => (wideFunc f).map fun w => encA f uni 1 (satOk f false) anyImm (.brev h uni w f.d a)
  | 6 => (wideFunc f).map fun w => encA f uni 1 (satOk f false) anyImm (.clz h uni w f.d a)
  | 7 => (wideFunc f).map fun w => encA f uni 1 (satOk f false) anyImm (.popc h uni w f.d a)
  | 8 => if f.func / 8 < 6 then
      let t := IntTy.ofCode (f.func % 8)
      some (encA f uni 2 (satOk f false) t.immOk (.isetp h uni (Cmp.ofCode (f.func / 8)) t f.d a b))
    else none
  | 9 => (wideFunc f).map fun w =>
      { encA f uni 2 (satOk f false) anyImm (.sel h uni w f.d a b ⟨bitAt f.c 4, f.c % 8, bitAt f.c 3⟩) with
        unused := unusedA { f with c := 0 } 2 && decide (f.c < 32), cls := clsA f uni && (!uni || bitAt f.c 4) }
  | 10 => if f.func = 4 ∨ f.func = 5 then
      some (encA f uni 3 (satOk f true) anyImm (.idp4 h uni (f.func == 4) (f.opt == 1) f.d a b (f.srcC uni)))
    else none
  | 11 => (intFunc f IntTy.isShort).map fun t => encA f uni 2 (satOk f false) (immLt 32) (.ishrq h uni t f.d a b)
  | 12 => if f.func = 0 ∨ f.func = 7 then some (encA f uni 1 (satOk f false) anyImm (.mov h uni (f.func == 7) f.d a)) else none
  | _ => if f.func = 0 then
      some { encA f uni 0 (satOk f false) anyImm (.movi h uni f.d f.imm32) with unused := f.a == 0 && f.b == 0 && f.c == 0 }
    else none

/-- The floating ALU, majors 0x20 to 0x2F (R380 to R396). -/
def encFloat (f : Fields) : Option Enc :=
  let h := f.hdr
  let a := f.srcA false
  let b := f.srcB false
  let ar := FloatTy.isArith
  let zero := f.opt == 0
  match f.maj % 16 with
  | 0 => (floatFunc f ar).map fun t => encA f false 2 f.rmOk t.immOk (.fadd h f.rm t f.d a b)
  | 1 => (floatFunc f ar).map fun t => encA f false 2 f.rmOk t.immOk (.fsub h f.rm t f.d a b)
  | 2 => (floatFunc f ar).map fun t => encA f false 2 f.rmOk t.immOk (.fmul h f.rm t f.d a b)
  | 3 => (floatFunc f ar).map fun t => encA f false 3 f.rmOk t.immOk (.ffma h f.rm t f.d a b (f.srcC false))
  | 4 => (floatFunc f ar).map fun t => encA f false 2 zero t.immOk (.fmin h t f.d a b)
  | 5 => (floatFunc f ar).map fun t => encA f false 2 zero t.immOk (.fmax h t f.d a b)
  | 6 => (FloatTy.ofCode (f.func % 8)).map fun t => encA f false 2 zero t.immOk (.fsetp h (Cmp.ofCode (f.func / 8)) t f.d a b)
  | 7 => (FloatTy.ofCode f.func).map fun t => encA f false 1 zero anyImm (.fclass h t f.d a)
  | 8 => if f.func = 0 then some (encA f false 1 f.rmOk anyImm (.frcp h f.rm f.d a)) else none
  | 9 => if f.func = 0 then some (encA f false 1 zero anyImm (.frsq h f.d a)) else none
  | 10 => if f.func = 0 then some (encA f false 1 f.rmOk anyImm (.fsqrt h f.rm f.d a)) else none
  | 11 => if f.func = 0 then some (encA f false 1 zero anyImm (.fexp2 h f.d a)) else none
  | 12 => if f.func = 0 then some (encA f false 1 zero anyImm (.flog2 h f.d a)) else none
  | 13 => if f.func = 0 then some (encA f false 1 zero anyImm (.fsin h f.d a)) else none
  | 14 => if f.func = 0 then some (encA f false 1 zero anyImm (.fcos h f.d a)) else none
  | _ => (floatFunc f fun t => t == .f16 || t == .bf16).map fun t =>
      encA f false 3 f.rmOk t.immOk (.hfma2 h f.rm t f.d a b (f.srcC false))

/-- A conversion type from its flag and code (R377). -/
def CvtTy.ofCode (flt : Bool) (n : Nat) : Option CvtTy :=
  if flt then (FloatTy.ofCode n).map .flt else some (.int (IntTy.ofCode n))
/-- The code of a conversion type. -/
def CvtTy.code : CvtTy → Nat
  | .int t => t.code
  | .flt t => t.code
/-- Whether a conversion type is floating. -/
def CvtTy.isFlt : CvtTy → Bool
  | .int _ => false
  | .flt _ => true

/-- CVT, BPACK, BUNPACK and AMAX, majors 0x30 to 0x33 (R377, R364, R353). -/
def encCvt (f : Fields) : Option Enc :=
  let h := f.hdr
  match f.maj % 16 with
  | 0 =>
    match CvtTy.ofCode (bitAt f.b 1) (f.func / 8), CvtTy.ofCode (bitAt f.b 0) (f.func % 8) with
    | some tD, some tS =>
      let ii := !tD.isFlt && !tS.isFlt
      some { modOk := f.rmOk && (!ii || f.opt == 0) && !f.ib && !f.gb && !f.gc,
             unused := decide (f.b < 8) && (ii || !bitAt f.b 2) && f.c == 0 && f.imm == 0, range := true, cls := true, imm := true,
             instr := .cvt h f.rm (bitAt f.b 2) tD tS f.d (f.srcA false) }
    | _, _ => none
  | 1 => if f.func < 16 then
      some { modOk := f.rmOk, unused := f.b == 0 && f.c == 0 && f.imm == 0, range := true,
             cls := !f.ib && !f.ga && !f.gb && !f.gc, imm := true, instr := .bpack h f.rm f.func f.d f.a }
    else none
  | 2 => if f.func < 16 then
      some { modOk := f.rmOk, unused := f.b == 0 && f.c == 0 && f.imm == 0, range := true,
             cls := !f.ib && !f.ga && !f.gb && !f.gc, imm := true, instr := .bunpack h f.rm f.func f.d f.a }
    else none
  | _ => (floatFunc f FloatTy.isArith).map fun t => encA f false 1 (f.opt == 0) anyImm (.amax h t f.d (f.srcA false))

/-- The reduction of a code (R419). -/
def RedOp.ofCode (n : Nat) : Option RedOp :=
  match n with
  | 0 => some .add | 1 => some .min | 2 => some .max | 3 => some .and | 4 => some .or | 5 => some .xor | _ => none
/-- The code of a reduction (R419). -/
def RedOp.code : RedOp → Nat
  | .add => 0 | .min => 1 | .max => 2 | .and => 3 | .or => 4 | .xor => 5
/-- The vote function of a code (R454). -/
def VoteFn.ofCode (n : Nat) : Option VoteFn :=
  match n with
  | 0 => some .any | 1 => some .all | 2 => some .ballot | 3 => some .cnt | _ => none
/-- The code of a vote function (R454). -/
def VoteFn.code : VoteFn → Nat
  | .any => 0 | .all => 1 | .ballot => 2 | .cnt => 3
/-- The SHFL mode of a code (R439). -/
def ShflMode.ofCode (n : Nat) : Option ShflMode :=
  match n with
  | 0 => some .idx | 1 => some .up | 2 => some .down | 3 => some .xor | _ => none
/-- The code of a SHFL mode (R439). -/
def ShflMode.code : ShflMode → Nat
  | .idx => 0 | .up => 1 | .down => 2 | .xor => 3
/-- The PLOG operation of a code (R431). -/
def PlogOp.ofCode (n : Nat) : Option PlogOp :=
  match n with
  | 0 => some .and | 1 => some .or | 2 => some .xor | 3 => some .mov | _ => none
/-- The code of a PLOG operation (R431). -/
def PlogOp.code : PlogOp → Nat
  | .and => 0 | .or => 1 | .xor => 2 | .mov => 3

/-- LRED and LSCAN (R419): `bit` of B is the entry's own selector bit and `other` the one it refuses. -/
def encRed (f : Fields) (bit other : Nat) (mk : Bool → Option Rm → RedOp → CvtTy → Instr) : Option Enc :=
  match RedOp.ofCode (f.func / 8), CvtTy.ofCode (bitAt f.b 1) (f.func % 8) with
  | some op, some t =>
    if redOk op t then
      some { modOk := f.rmOk && (f.opt == 0 || redModeOk op t (some .rne)),
             unused := decide (f.b < 8) && !bitAt f.b other && f.c == 0 && f.imm == 0, range := true,
             cls := !f.ib && !f.ga && !f.gb && !f.gc, imm := true, instr := mk (bitAt f.b bit) f.rm op t }
    else none
  | _, _ => none

/-- The lane operations, majors 0x60 to 0x67 (R391, R419, R431, R432, R439, R454). -/
def encLane (f : Fields) : Option Enc :=
  let h := f.hdr
  match f.maj % 16 with
  | 0 => (ShflMode.ofCode f.func).map fun m =>
      { modOk := !f.ga && !f.gc && f.opt == 0 && !(f.ib && f.gb), unused := (!f.ib || f.b == 0) && f.c == 0 && (f.ib || f.imm == 0),
        range := true, cls := true, imm := true, instr := .shfl h m f.d f.a (f.srcB false) }
  | 1 => if f.func = 0 then
      some { modOk := !f.ga && !f.gc && f.opt == 0 && (f.ib != f.gb),
             unused := (!f.ib || f.b == 0) && f.c == 0 && (f.ib || f.imm == 0), range := true, cls := true,
             imm := immSrc (f.srcB false) (immLt 128), instr := .rot h f.d f.a (f.srcB false) }
    else none
  | 2 => (VoteFn.ofCode f.func).map fun fn =>
      { modOk := f.mod == 0, unused := decide (f.a < 16) && f.b == 0 && f.c == 0 && f.imm == 0, range := true, cls := true, imm := true,
        instr := .vote h fn f.d (bitAt f.a 3) (f.a % 8) }
  | 3 => encRed f 0 2 fun toG rm op t => .lred h toG rm op t f.d f.a
  | 4 => encRed f 2 0 fun ex rm op t => .lscan h ex rm op t f.d f.a
  | 5 => (PlogOp.ofCode f.func).map fun op =>
      let mov := op == .mov
      { modOk := !f.gc && !f.ib && decide (f.opt < 4) && !(mov && (f.gb || bitAt f.opt 1)),
        unused := f.c == 0 && f.imm == 0 && (!mov || f.b == 0), range := true, cls := true, imm := true,
        instr := .plog h op f.d ⟨f.ga, f.a, bitAt f.opt 0⟩ ⟨f.gb, f.b, bitAt f.opt 1⟩ }
  | 6 =>
    let rest := !f.gb && !f.gc && !f.ib && f.opt == 0
    let un := f.b == 0 && f.c == 0 && f.imm == 0
    if f.func = 0 then
      some { modOk := rest && !f.ga, unused := un, range := true, cls := true, imm := true, instr := .pmov h (.toReg f.d f.a) }
    else if f.func = 1 then
      some { modOk := rest, unused := un, range := true, cls := true, imm := true, instr := .pmov h (.toPred f.d (f.srcA false)) }
    else none
  | _ =>
    if f.func = 0 then
      some { modOk := f.opt == 0, unused := (f.gb || f.b == 0) && (f.ib || f.imm == 0) && f.c == 0, range := true,
             cls := (f.ib != f.gb) && !f.ga && !f.gc, imm := !f.ib || decide (f.imm < 128),
             instr := .gmov h f.d f.a (if f.ib then .imm f.imm else .reg f.b) }
    else if f.func = 1 then
      some { modOk := f.opt == 0, unused := f.b == 0 && f.imm == 0 && f.c == 0, range := true,
             cls := !f.ib && !f.gb && !f.ga && !f.gc, imm := true, instr := .gmov h f.d f.a .first }
    else none

/-- The target in IMM (R57). -/
def Fields.target (f : Fields) : Target := ⟨signedOf 29 (f.imm / 8), f.imm % 8⟩
/-- The continuation target of FORK in B and C (R91). -/
def Fields.contTarget (f : Fields) : Target := ⟨signedOf 13 ((f.b * 256 + f.c) / 8), f.c % 8⟩

/-- An entry with no MOD bits, whose unused fields are as said. -/
def encPlain (f : Fields) (unused : Bool) (i : Instr) : Option Enc :=
  if f.func = 0 then some { modOk := f.mod == 0, unused := unused, range := true, cls := true, imm := true, instr := i } else none

/-- Control, fork and join, majors 0x70 to 0x7A (R91, R98, R367 to R437). -/
def encCtl (f : Fields) : Option Enc :=
  let h := f.hdr
  let z (x : Nat) := x == 0
  match f.maj % 16 with
  | 0 => encPlain f (z f.d && z f.a && z f.b && z f.c) (.bra h f.target)
  | 1 => encPlain f (z f.d && z f.b && z f.c && z f.imm) (.jmpx h f.a)
  | 2 => encPlain f (z f.a && z f.b && z f.c) (.call h f.d f.target)
  | 3 => encPlain f (z f.d && z f.a && z f.b && z f.c && z f.imm) (.ret h)
  | 4 => encPlain f (z f.d && z f.a && z f.b && z f.c && z f.imm) (.exit h)
  | 5 => if f.func = 0 then
      some { modOk := true, unused := decide (f.a < 16), range := true, cls := true, imm := true,
             instr := .fork h (bitAt f.a 3) (f.a % 8) f.d f.mod f.contTarget f.target }
    else none
  | 6 => encPlain f (z f.d && z f.a && z f.b && z f.c && z f.imm) (.armend h)
  | 7 => encPlain f (z f.b && z f.c && z f.imm) (.jset h f.d f.a)
  | 8 => encPlain f (z f.b && z f.c && z f.imm) (.join h f.d f.a)
  | 9 => encPlain f (z f.d && z f.a && z f.b && z f.c && z f.imm) (.jwait h)
  | _ => encPlain f (z f.d && z f.a && z f.b && z f.c && z f.imm) (.nop h)

/-- The scope of a SCOPE code (R55). -/
def Scope.ofCode (n : Nat) : Scope :=
  match n with
  | 0 => .group | 1 => .core | 2 => .die | 3 => .dev | _ => .sys
/-- The code of a scope (R55). -/
def Scope.code : Scope → Nat
  | .group => 0 | .core => 1 | .die => 2 | .dev => 3 | .sys => 4
/-- The access path of a code (R173). -/
def Path.ofCode (n : Nat) : Path :=
  match n with
  | 0 => .ls | 1 => .cp | 2 => .mx | _ => .cl
/-- The code of an access path (R173). -/
def Path.code : Path → Nat
  | .ls => 0 | .cp => 1 | .mx => 2 | .cl => 3
/-- ORD, SCOPE and RP of format M (R55). -/
def Fields.ord (f : Fields) : MemOrd := ⟨bitAt f.mod 5, bitAt f.mod 6, Scope.ofCode (f.mod / 4 % 8), bitAt f.mod 1⟩
/-- SCOPE as a number. -/
def Fields.scopeCode (f : Fields) : Nat := f.mod / 4 % 8
/-- The qualifiers are accepted (R55, R165, cause 4). -/
def Fields.ordOk (f : Fields) (acq rel rp : Bool) : Bool := decide (f.scopeCode < 5) && f.ord.ok acq rel rp
/-- The index register of format M: GA is MOD bit 0 (R55). -/
def Fields.idx (f : Fields) : Src := if bitAt f.mod 0 then .g f.a else .v f.a
/-- The type of a load or store: FUNC[3] selects `.b128` (R413). -/
def memFunc (f : Fields) : Option MemTy := if f.func < 8 then some (.int (IntTy.ofCode f.func)) else if f.func = 8 then some .b128 else none
/-- The atomic operation of a code (R357). -/
def AtomOp.ofCode (n : Nat) : AtomOp :=
  match n with
  | 0 => .add | 1 => .min | 2 => .max | 3 => .and | 4 => .or | 5 => .exch | 6 => .cas | _ => .fadd
/-- The code of an atomic operation (R357). -/
def AtomOp.code : AtomOp → Nat
  | .add => 0 | .min => 1 | .max => 2 | .and => 3 | .or => 4 | .exch => 5 | .cas => 6 | .fadd => 7

/-- An entry that uses every class as given. -/
def encM (modOk unused : Bool) (i : Instr) : Enc := { modOk := modOk, unused := unused, range := true, cls := true, imm := true, instr := i }

/-- Memory, majors 0x80 to 0x8E (R55, R165, R170, R173, R283, R357, R369, R413 to R451). -/
def encMem (f : Fields) : Option Enc :=
  let h := f.hdr
  let x := f.idx
  let z (n : Nat) := n == 0
  let plain := decide (f.mod < 2)
  match f.maj % 16 with
  | 0 => (memFunc f).map fun t => encM (f.ordOk true false true) (z f.c) (.ld h t f.ord x f.b f.d f.imm32)
  | 1 => (memFunc f).map fun t => encM (f.ordOk false true false) (z f.c) (.st h t f.ord x f.b f.d f.imm32)
  | 2 => if atomOk (AtomOp.ofCode (f.func / 8)) (IntTy.ofCode (f.func % 8)) then
      some (encM (f.ordOk true true true) true
        (.atom h (AtomOp.ofCode (f.func / 8)) (IntTy.ofCode (f.func % 8)) f.ord x f.b f.d f.c f.imm32))
    else none
  | 3 => if atomOk (AtomOp.ofCode (f.func / 8)) (IntTy.ofCode (f.func % 8)) then
      some (encM (f.ordOk true true false) (z f.b)
        (.atoms h (AtomOp.ofCode (f.func / 8)) (IntTy.ofCode (f.func % 8)) f.ord x f.d f.c f.imm32))
    else none
  | 4 => (memFunc f).map fun t => encM (f.ordOk true false false) (z f.c && z f.b) (.lds h t f.ord x f.d f.imm32)
  | 5 => (memFunc f).map fun t => encM (f.ordOk false true false) (z f.c && z f.b) (.sts h t f.ord x f.d f.imm32)
  | 6 => (intFunc f fun _ => true).map fun t => encM (z f.mod) (z f.a && z f.b && z f.c) (.ldk h t f.d f.imm32)
  | 7 => (intFunc f fun _ => true).map fun t => encM (z f.mod) (z f.a && z f.b && z f.c) (.stk h t f.d f.imm32)
  | 8 => (memFunc f).map fun t => encM plain (z f.c) (.ldw h t x f.b f.d f.imm32)
  | 9 => if f.func = 0 then some (encM plain (z f.c && z f.d) (.pref h x f.b f.imm32)) else none
  | 10 =>
    let ok := !(!f.ord.acq && !f.ord.rel) && decide (f.scopeCode < 5) && !f.ord.rp && !bitAt f.mod 0
    let un := z f.a && z f.b && z f.c && z f.imm
    if f.func = 0 then some (encM ok (un && z f.d) (.fence h f.ord.acq f.ord.rel f.ord.scope))
    else if f.func = 1 then some (encM (ok && f.scopeCode == 4) un (.fenceCounting h f.ord.acq f.ord.rel f.d))
    else none
  | 11 => if f.func / 8 < 4 ∧ f.func % 8 < 4 ∧ f.func / 8 ≠ f.func % 8 then
      some (encM (f.mod / 32 == 3 && decide (f.scopeCode < 5) && f.mod % 4 == 0) (z f.d && z f.a && z f.b && z f.c && z f.imm)
        (.xfence h (Path.ofCode (f.func / 8)) (Path.ofCode (f.func % 8)) f.ord.scope))
    else none
  | 12 => (wideFunc f).map fun w =>
      { encM plain (z f.c) (.mwatch h w f.d f.a f.b f.imm32) with cls := bitAt f.mod 0 }
  | 13 => if f.func = 0 then
      some { encM plain (z f.b && z f.c && z f.imm) (.mwait h f.d f.a) with cls := bitAt f.mod 0 }
    else none
  | _ => if f.func = 0 then
      some { encM plain (z f.b && z f.c && z f.imm) (.brset h f.d f.a) with cls := bitAt f.mod 0 }
    else none

/-- A copy side: the scratchpad when its MOD bit is set (R223). -/
def sideOf (sx : Bool) (n : Nat) : CopySide := if sx then .sx else .buf n
/-- The optional gpP of a copy (R223). -/
def Fields.pv (f : Fields) : Option Nat := if bitAt f.imm 3 then some (f.imm % 8) else none

/-- Copy, update and collective engines, majors 0x90 to 0x98 (R206, R223, R224, R236, R372). -/
def encCopy (f : Fields) : Option Enc :=
  let h := f.hdr
  let ssx := bitAt f.mod 3
  let dsx := bitAt f.mod 2
  let z (n : Nat) := n == 0
  let un := (!dsx || z f.a) && (!ssx || z f.b) && decide (f.imm < 16) && (bitAt f.imm 3 || z (f.imm % 8))
  match f.maj % 16 with
  | 0 => if f.func < 5 then
      some (encM (decide (f.mod < 16)) un (.cpy h f.func (f.mod % 4) f.d (sideOf dsx f.a) (sideOf ssx f.b) f.c f.pv)) else none
  | 1 => if f.func < 5 then
      some (encM (decide (f.mod < 16)) un (.cpyt h f.func (f.mod % 4) f.d (sideOf dsx f.a) (sideOf ssx f.b) f.c f.pv)) else none
  | 2 => if f.func = 0 then
      some (encM (decide (f.mod < 4)) (z f.a && z f.b && z f.c && z f.imm) (.cpkill h f.mod f.d)) else none
  | 3 => if f.func < 2 then
      some (encM (z f.mod) (decide (f.imm < 256)) (.optstep h (f.func == 1) f.d f.a f.b f.c (f.imm % 16) (f.imm / 16 % 16))) else none
  | 4 => if f.func = 0 then some (encM (z f.mod) (z f.c && z f.imm) (.thset h f.d f.a f.b)) else none
  | _ => if f.func < 16 then
      some (encM (z f.mod) (decide (f.imm < 8)) (.coll h f.func f.d f.a f.b f.c (f.imm % 8))) else none

/-- The source kind in MOD[6:5] (R203). -/
def Fields.kind (f : Fields) : MKind :=
  match f.mod / 32 with
  | 0 => .regs | 1 => .sx | 2 => .g | _ => .ws
/-- The code of a source kind (R203). -/
def MKind.code : MKind → Nat
  | .regs => 0 | .sx => 1 | .g => 2 | .ws => 3
/-- The format of a drain or fill code (R211). -/
def MFmt.ofCode (n : Nat) : MFmt :=
  match n with
  | 0 => .e4m3 | 1 => .e5m2 | 2 => .bf16 | 3 => .f16 | 4 => .f32
  | 8 => .bfp 2 | 9 => .bfp 3 | 10 => .bfp 4 | 11 => .bfp 5 | 12 => .bfp 6 | 13 => .bfp 7 | 14 => .bfp 8
  | n => .reserved n
/-- The code of a format (R211). -/
def MFmt.code : MFmt → Nat
  | .e4m3 => 0 | .e5m2 => 1 | .bf16 => 2 | .f16 => 3 | .f32 => 4 | .bfp w => w + 6 | .reserved c => c

/-- The matrix instructions, majors 0xA0 to 0xA7 (R211, R212). -/
def encMatrix (f : Fields) : Option Enc :=
  let h := f.hdr
  let kd := f.kind
  let z (n : Nat) := n == 0
  let row0 := f.imm % 64
  let noMod := f.mod % 32 == 0
  let arr (ok : Bool) (e : Enc) : Enc := { e with range := ok }
  match f.maj % 16 with
  | 0 => if f.func = 0 then some (encM noMod (z f.c && decide (f.imm < 64)) (.mma h kd f.d f.a f.b row0)) else none
  | 1 => if f.func = 0 then some (encM noMod (z f.c && decide (f.imm < 64)) (.mmat h kd f.d f.a f.b row0)) else none
  | 2 => if f.func = 0 then
      some (encM noMod (z f.c && decide (f.imm < 2 ^ 17)) (.mmad h kd f.d (f.imm % 256) f.a (f.imm / 256 % 8) f.b (f.imm / 2048 % 64)))
    else none
  | 3 => if f.func = 0 then
      some (arr (f.d % 48 == 0 && decide (f.d < 192)) (encM noMod (z f.c && z f.imm) (.mldw h kd (f.d / 48) f.a f.b))) else none
  | 4 => if f.func = 0 then
      some (arr (f.d % 48 == 0 && decide (f.d < 192)) (encM noMod (z f.a && z f.c && z f.imm) (.mswap h kd (f.d / 48) f.b))) else none
  | 5 => if f.func < 16 then
      let amx := bitAt f.mod 0
      some (encM (f.mod / 4 % 8 == 0) (decide (f.c < 64) && (amx || decide (f.c < 8)) && decide (f.imm < 64))
        (.mdrain h (MFmt.ofCode f.func) kd amx (bitAt f.mod 1) f.d f.a f.b (f.c % 8) (f.c / 8 % 8) row0))
    else none
  | 6 => if f.func = 0 then
      let cnt := f.imm / 64 % 128
      some { encM noMod (z f.a && z f.c && decide (f.imm < 2 ^ 13)) (.mzero h kd f.d f.b row0 cnt) with imm := decide (1 ≤ cnt ∧ cnt ≤ 64) }
    else none
  | _ => if f.func < 16 then
      some (encM noMod (z f.c && decide (f.imm < 64)) (.mfill h (MFmt.ofCode f.func) kd f.d f.a f.b row0)) else none

/-- Formats and scales, majors 0xB0 to 0xB2 (R442, R445). -/
def encFmt (f : Fields) : Option Enc :=
  let h := f.hdr
  let z (n : Nat) := n == 0
  match f.maj % 16 with
  | 0 =>
    if f.func = 0 then some (encM (z f.mod) (z f.d && z f.b && z f.c && z f.imm) (.setfmt h f.a))
    else if f.func = 1 then some (encM (z f.mod) (z f.b && z f.c && z f.imm) (.setfmtSc h f.d f.a))
    else if f.func = 2 then some (encM (z f.mod) (z f.a && z f.b && z f.c && z f.imm) (.setfmtClr h f.d))
    else none
  | 1 => if f.func = 0 then some (encM (z f.mod) (z f.d && z f.c) (.screc h f.a f.b f.imm32)) else none
  | _ =>
    if f.func = 0 then some (encM (z f.mod) (z f.d && z f.c) (.scload h f.a f.b f.imm32))
    else if f.func = 1 then some (encM (z f.mod) (z f.d && z f.a && z f.b && z f.c && z f.imm) (.scloadEnd h))
    else none

/-- The span of a code (R248). -/
def Span.ofCode (n : Nat) : Span :=
  match n with
  | 1 => .core | 2 => .die | 3 => .dev | _ => .sys
/-- The code of a span (R248). -/
def Span.code : Span → Nat
  | .core => 1 | .die => 2 | .dev => 3 | .sys => 4
/-- The HVOTE function of a code (R248). -/
def HVoteFn.ofCode (n : Nat) : HVoteFn :=
  match n with
  | 0 => .any | 1 => .all | _ => .cnt
/-- The code of an HVOTE function (R248). -/
def HVoteFn.code : HVoteFn → Nat
  | .any => 0 | .all => 1 | .cnt => 2
/-- The HRED operation of a code (R248). -/
def HRedOp.ofCode (n : Nat) : HRedOp :=
  match n with
  | 0 => .add | 1 => .min | _ => .max
/-- The code of an HRED operation (R248). -/
def HRedOp.code : HRedOp → Nat
  | .add => 0 | .min => 1 | .max => 2
/-- The HRED type of a code (R248). -/
def HRedTy.ofCode (n : Nat) : HRedTy :=
  match n with
  | 0 => .s32 | 1 => .n32 | _ => .f32
/-- The code of an HRED type (R248). -/
def HRedTy.code : HRedTy → Nat
  | .s32 => 0 | .n32 => 1 | .f32 => 2

/-- Harnesses, majors 0xB8 to 0xBF (R248, R249). -/
def encHarness (f : Fields) : Option Enc :=
  let h := f.hdr
  let z (n : Nat) := n == 0
  let kc := bitAt f.mod 0
  let k := if kc then some f.c else none
  let kMod := decide (f.mod < 2)
  let kUn := kc || z f.c
  match f.maj % 16 with
  | 8 =>
    if f.func = 0 then
      let cnt := bitAt f.mod 6
      let span := f.mod / 4 % 8
      some (encM (decide (1 ≤ span ∧ span ≤ 4) && !bitAt f.mod 5 && f.mod % 4 == 0) (z f.a && (cnt || z f.b) && z f.c && decide (f.imm < 8))
        (.hcreate h (if cnt then some f.b else none) (Span.ofCode span) f.d (f.imm % 8)))
    else if f.func = 1 then some (encM (z f.mod) (z f.d && z f.b && z f.c && z f.imm) (.hfree h f.a))
    else if f.func = 2 then
      some { encM (z f.mod) (z f.b && z f.c && decide (f.imm < 8)) (.hquery h (f.imm % 8) f.d f.a) with range := decide (f.imm % 8 < 6) }
    else if f.func = 3 then some (encM (z f.mod) (z f.d && z f.c && z f.imm) (.hstrag h f.a f.b))
    else none
  | 9 => encPlain f (z f.a && z f.c && z f.imm) (.hjoin h f.d f.b)
  | 10 => encPlain f (z f.d && z f.b && z f.c && z f.imm) (.hleave h f.a)
  | 11 => if f.func = 0 then some (encM kMod (z f.b && kUn && z f.imm) (.harr h f.d f.a k)) else none
  | 12 => encPlain f (z f.b && z f.imm) (.hwait h f.d f.a f.c)
  | 13 => if f.func = 0 then some (encM kMod (z f.b && kUn && z f.imm) (.hbar h f.d f.a k)) else none
  | 14 => if f.func < 3 then some (encM kMod (kUn && z f.imm) (.hvote h (HVoteFn.ofCode f.func) f.d f.a f.b k)) else none
  | _ => if f.func / 8 < 3 ∧ f.func % 8 < 3 then
      some (encM kMod (kUn && z f.imm) (.hred h (HRedOp.ofCode (f.func / 8)) (HRedTy.ofCode (f.func % 8)) f.d f.a f.b k)) else none

/-- The register count of RCLAIM and RGIVE (R87, cause 14). -/
def poolImmOk (f : Fields) : Bool := f.imm % 8 == 0 && decide (8 ≤ f.imm ∧ f.imm ≤ 248)

/-- Queues and the register pool, majors 0xC0 to 0xC5 (R87, R267). -/
def encQueue (f : Fields) : Option Enc :=
  let h := f.hdr
  let z (n : Nat) := n == 0
  let gp := f.imm % 8
  match f.maj % 16 with
  | 0 => encPlain f (decide (f.imm < 8)) (.spawn h f.d gp f.a f.b f.c)
  | 1 => encPlain f (z f.c && decide (f.imm < 8)) (.qpush h f.d gp f.a f.b)
  | 2 => encPlain f (z f.b && z f.c && decide (f.imm < 8)) (.qpop h f.d gp f.a)
  | 3 => encPlain f (z f.d && z f.a && z f.b && z f.c && z f.imm) (.yield h)
  | 4 =>
    let un := z f.a && z f.b && z f.c
    if f.func = 0 then some { encM (z f.mod) un (.rclaim h f.d f.imm32) with imm := poolImmOk f }
    else if f.func = 1 then some { encM (z f.mod) un (.rclaimTry h f.d f.imm32) with imm := poolImmOk f }
    else none
  | _ => (encPlain f (z f.a && z f.b && z f.c) (.rgive h f.d f.imm32)).map fun e => { e with imm := poolImmOk f }

/-- The source of MOVS (R425). -/
def movsSrc (func n : Nat) : Option MovsSrc :=
  match func with
  | 0 => some (.sr n) | 1 => some (.sc n) | 2 => some (.am n) | 3 => some .fmt | _ => none

/-- The system instructions, majors 0xC8 to 0xCD (R363, R404, R425, R447, R452). -/
def encSys (f : Fields) : Option Enc :=
  let h := f.hdr
  let z (n : Nat) := n == 0
  match f.maj % 16 with
  | 8 => (movsSrc f.func (f.imm % 256)).map fun s =>
      { encM (decide (f.mod < 2)) (z f.a && z f.b && z f.c && decide (f.imm < 256) && (s != .fmt || z f.imm))
          (.movs h (bitAt f.mod 0) s f.d) with cls := s != .sr 0 || bitAt f.mod 0 }
  | 9 => encPlain f (z f.d && z f.b && z f.c && decide (f.imm < 256)) (.sets h (f.imm % 256) f.a)
  | 10 => encPlain f (z f.d && z f.a && z f.b && z f.c) (.svc h f.imm32)
  | 11 => encPlain f (z f.d && z f.a && z f.b && z f.c) (.trap h f.imm32)
  | 12 => encPlain f (z f.d && z f.a && z f.b && z f.c && z f.imm) (.bkpt h)
  | _ => encPlain f (z f.b && z f.c && z f.imm) (.icinv h f.d f.a)

/-- The assigned majors of R58. -/
def majAssigned (m : Nat) : Bool :=
  decide (m ≤ 0x1D) || decide (0x20 ≤ m ∧ m ≤ 0x33) || decide (0x40 ≤ m ∧ m ≤ 0x5D) || decide (0x60 ≤ m ∧ m ≤ 0x67)
    || decide (0x70 ≤ m ∧ m ≤ 0x7A) || decide (0x80 ≤ m ∧ m ≤ 0x8E) || decide (0x90 ≤ m ∧ m ≤ 0x94) || m == 0x98
    || decide (0xA0 ≤ m ∧ m ≤ 0xA7) || decide (0xB0 ≤ m ∧ m ≤ 0xB2) || decide (0xB8 ≤ m ∧ m ≤ 0xC5) || decide (0xC8 ≤ m ∧ m ≤ 0xCD)

/-- The entry of an assigned major (R58); none when it does not list the FUNC (cause 3). -/
def encOf (f : Fields) : Option Enc :=
  match f.maj / 16 with
  | 0 => encInt0 f false
  | 1 => encInt1 f false
  | 2 => encFloat f
  | 3 => encCvt f
  | 4 => encInt0 f true
  | 5 => encInt1 f true
  | 6 => encLane f
  | 7 => encCtl f
  | 8 => encMem f
  | 9 => encCopy f
  | 10 => encMatrix f
  | 11 => if f.maj < 0xB8 then encFmt f else encHarness f
  | _ => if f.maj < 0xC8 then encQueue f else encSys f

/-- The slots of the targets that an encoding holds: 0 to 4 (R48, R367: a decode check whether or not the transfer is made). -/
def Fields.slotsOk (f : Fields) : Bool :=
  !((f.maj == 0x70 || f.maj == 0x72 || f.maj == 0x75) && decide (4 < f.imm % 8)) && !(f.maj == 0x75 && decide (4 < f.c % 8))

/-- Decoding with the register limits that hold where the instruction issues: `dyn` is the group's own check of an operand
(R51, cause 7), `r` and `w` as in `Instr.ops`. The first failing check in the order of R61 and R62 names the refusal. -/
def decodeWith (r w : Nat) (dyn : Opnd → Bool) (f : Fields) : Except Reject Instr :=
  if !f.slotsOk then .error .targetSlot
  else if f.maj = 0xFF then .error .illegalFill
  else if 0xD0 ≤ f.maj then .error .reservedMajor
  else if !majAssigned f.maj then .error .unassignedMajor
  else match encOf f with
    | none => .error .illegalFunction
    | some e =>
      if !e.modOk then .error .reservedModifier
      else if f.rsv != 0 then .error .reservedField
      else if !e.unused then .error .reservedOperand
      else if !(e.range && (e.instr.ops r w).all fun o => o.inClass && dyn o) then .error .operandRange
      else if !e.cls then .error .operandClass
      else if e.instr.groupGuardOnly && !f.guard.isGroup then .error .guardScope
      else if !e.imm then .error .immRange
      else if !(e.instr.ops r w).all Opnd.aligned then .error .operandAlign
      else .ok e.instr

/-- Decoding of the fields alone, with the class limits of R51. -/
def decodeFields (f : Fields) : Except Reject Instr := decodeWith 1 1 (fun _ => true) f

/-- Decoding of a 96-bit word (bits above are ignored). -/
def decode (w : Nat) : Except Reject Instr := decodeFields (Fields.ofWord w)

/-- The number of a source register; 0 for an immediate. -/
def Src.num : Src → Nat
  | .v n => n
  | .g n => n
  | .imm _ => 0
/-- The immediate of a source; 0 for a register. -/
def Src.immv : Src → Nat
  | .imm w => w.toNat
  | _ => 0
/-- A bit as a number. -/
def bit (b : Bool) : Nat := if b then 1 else 0
/-- Whether a source names a g register. -/
def Src.isG : Src → Bool
  | .g _ => true
  | _ => false
/-- Whether a source is an immediate. -/
def Src.isImm : Src → Bool
  | .imm _ => true
  | _ => false

/-- The fields of a header with a major and FUNC, all else zero (R49). -/
def Hdr.base (h : Hdr) (maj func : Nat) : Fields :=
  { maj := maj, stall := h.stall, endb := bit h.endRun, rsv := 0,
    gn := (match h.guard with | .lane n _ => bit n | .group n _ => bit n),
    gs := (match h.guard with | .lane _ _ => 0 | .group _ _ => 1),
    gi := (match h.guard with | .lane _ p => p | .group _ p => p),
    func := func, mod := 0, d := 0, a := 0, b := 0, c := 0, imm := 0 }

/-- The fields of a format-A instruction with up to three sources (R54); the uniform form is at MAJ + 0x40. -/
def Hdr.fmtA (h : Hdr) (uni : Bool) (maj func opt d : Nat) (a b c : Src) : Fields :=
  { h.base (if uni then maj + 0x40 else maj) func with
    mod := opt + 8 * bit (!uni && c.isG) + 16 * bit (!uni && b.isG) + 32 * bit (!uni && a.isG) + 64 * bit b.isImm,
    d := d, a := a.num, b := b.num, c := c.num, imm := b.immv }

/-- OPT of a rounding override (R352). -/
def optOf : Option Rm → Nat
  | none => 0
  | some r => 4 + r.code
/-- FUNC of n32 or n64. -/
def wideCode (w : Bool) : Nat := if w then 7 else 1
/-- IMM of a transfer target (R57). -/
def Target.enc (t : Target) : Nat := 8 * patternOf 29 t.line + t.slot
/-- B and C of the continuation target (R91). -/
def Target.encCont (t : Target) : Nat := 8 * patternOf 13 t.line + t.slot
/-- MOD of format M (R55). -/
def MemOrd.enc (o : MemOrd) (x : Src) : Nat := 32 * bit o.acq + 64 * bit o.rel + 4 * o.scope.code + 2 * bit o.rp + bit x.isG
/-- FUNC of a load or store type (R413). -/
def MemTy.code : MemTy → Nat
  | .int t => t.code
  | .b128 => 8
/-- A zero source, for the fields an entry does not use. -/
def noSrc : Src := .v 0
/-- The fields of a copy side. -/
def CopySide.num : CopySide → Nat
  | .buf b => b
  | .sx => 0
/-- Whether a copy side is the scratchpad. -/
def CopySide.isSx : CopySide → Bool
  | .buf _ => false
  | .sx => true
/-- The index fields of an optional register. -/
def optNum : Option Nat → Nat
  | some n => n
  | none => 0

/-- The encoding fields of an instruction, written from the entries' own tables; events have none. -/
def Instr.fields : Instr → Option Fields
  | .iadd h u t s d a b => some (h.fmtA u 0x00 t.code (bit s) d a b noSrc)
  | .isub h u t s d a b => some (h.fmtA u 0x01 t.code (bit s) d a b noSrc)
  | .imul h u t s d a b => some (h.fmtA u 0x02 t.code (bit s) d a b noSrc)
  | .imulh h u t d a b => some (h.fmtA u 0x03 t.code 0 d a b noSrc)
  | .imad h u t s d a b c => some (h.fmtA u 0x04 t.code (bit s) d a b c)
  | .idiv h u t d a b => some (h.fmtA u 0x05 t.code 0 d a b noSrc)
  | .irem h u t d a b => some (h.fmtA u 0x06 t.code 0 d a b noSrc)
  | .ineg h u t s d a => some (h.fmtA u 0x07 t.code (bit s) d a noSrc noSrc)
  | .iabs h u t s d a => some (h.fmtA u 0x08 t.code (bit s) d a noSrc noSrc)
  | .imin h u t d a b => some (h.fmtA u 0x09 t.code 0 d a b noSrc)
  | .imax h u t d a b => some (h.fmtA u 0x0A t.code 0 d a b noSrc)
  | .and h u w d a b => some (h.fmtA u 0x0B (wideCode w) 0 d a b noSrc)
  | .or h u w d a b => some (h.fmtA u 0x0C (wideCode w) 0 d a b noSrc)
  | .xor h u w d a b => some (h.fmtA u 0x0D (wideCode w) 0 d a b noSrc)
  | .andn h u w d a b => some (h.fmtA u 0x0E (wideCode w) 0 d a b noSrc)
  | .not h u w d a => some (h.fmtA u 0x0F (wideCode w) 0 d a noSrc noSrc)
  | .shl h u t d a b => some (h.fmtA u 0x10 t.code 0 d a b noSrc)
  | .shr h u t d a b => some (h.fmtA u 0x11 t.code 0 d a b noSrc)
  | .sar h u t d a b => some (h.fmtA u 0x12 t.code 0 d a b noSrc)
  | .bfe h u t d a b => some (h.fmtA u 0x13 t.code 0 d a b noSrc)
  | .bfi h u w d a b c => some (h.fmtA u 0x14 (wideCode w) 0 d a b c)
  | .brev h u w d a => some (h.fmtA u 0x15 (wideCode w) 0 d a noSrc noSrc)
  | .clz h u w d a => some (h.fmtA u 0x16 (wideCode w) 0 d a noSrc noSrc)
  | .popc h u w d a => some (h.fmtA u 0x17 (wideCode w) 0 d a noSrc noSrc)
  | .isetp h u c t d a b => some (h.fmtA u 0x18 (8 * c.code + t.code) 0 d a b noSrc)
  | .sel h u w d a b p =>
    some { h.fmtA u 0x19 (wideCode w) 0 d a b noSrc with c := p.idx + 8 * bit p.neg + 16 * bit p.grp }
  | .idp4 h u s sat d a b c => some (h.fmtA u 0x1A (if s then 4 else 5) (bit sat) d a b c)
  | .ishrq h u t d a b => some (h.fmtA u 0x1B t.code 0 d a b noSrc)
  | .mov h u w d a => some (h.fmtA u 0x1C (if w then 7 else 0) 0 d a noSrc noSrc)
  | .movi h u d i => some { h.fmtA u 0x1D 0 0 d noSrc noSrc noSrc with imm := i.toNat }
  | .fadd h rm t d a b => some (h.fmtA false 0x20 t.code (optOf rm) d a b noSrc)
  | .fsub h rm t d a b => some (h.fmtA false 0x21 t.code (optOf rm) d a b noSrc)
  | .fmul h rm t d a b => some (h.fmtA false 0x22 t.code (optOf rm) d a b noSrc)
  | .ffma h rm t d a b c => some (h.fmtA false 0x23 t.code (optOf rm) d a b c)
  | .fmin h t d a b => some (h.fmtA false 0x24 t.code 0 d a b noSrc)
  | .fmax h t d a b => some (h.fmtA false 0x25 t.code 0 d a b noSrc)
  | .fsetp h c t d a b => some (h.fmtA false 0x26 (8 * c.code + t.code) 0 d a b noSrc)
  | .fclass h t d a => some (h.fmtA false 0x27 t.code 0 d a noSrc noSrc)
  | .frcp h rm d a => some (h.fmtA false 0x28 0 (optOf rm) d a noSrc noSrc)
  | .frsq h d a => some (h.fmtA false 0x29 0 0 d a noSrc noSrc)
  | .fsqrt h rm d a => some (h.fmtA false 0x2A 0 (optOf rm) d a noSrc noSrc)
  | .fexp2 h d a => some (h.fmtA false 0x2B 0 0 d a noSrc noSrc)
  | .flog2 h d a => some (h.fmtA false 0x2C 0 0 d a noSrc noSrc)
  | .fsin h d a => some (h.fmtA false 0x2D 0 0 d a noSrc noSrc)
  | .fcos h d a => some (h.fmtA false 0x2E 0 0 d a noSrc noSrc)
  | .hfma2 h rm t d a b c => some (h.fmtA false 0x2F t.code (optOf rm) d a b c)
  | .cvt h rm sat tD tS d a =>
    some { h.fmtA false 0x30 (8 * tD.code + tS.code) (optOf rm) d a noSrc noSrc with
      b := bit tS.isFlt + 2 * bit tD.isFlt + 4 * bit sat }
  | .bpack h rm w d a => some { h.base 0x31 w with mod := optOf rm, d := d, a := a }
  | .bunpack h rm w d a => some { h.base 0x32 w with mod := optOf rm, d := d, a := a }
  | .amax h t d a => some (h.fmtA false 0x33 t.code 0 d a noSrc noSrc)
  | .shfl h m d a b => some (h.fmtA false 0x60 m.code 0 d (.v a) b noSrc)
  | .rot h d a b => some (h.fmtA false 0x61 0 0 d (.v a) b noSrc)
  | .vote h fn d neg p => some { h.base 0x62 fn.code with d := d, a := p + 8 * bit neg }
  | .lred h toG rm op t d a =>
    some { h.base 0x63 (8 * op.code + t.code) with mod := optOf rm, d := d, a := a, b := bit toG + 2 * bit t.isFlt }
  | .lscan h ex rm op t d a =>
    some { h.base 0x64 (8 * op.code + t.code) with mod := optOf rm, d := d, a := a, b := 2 * bit t.isFlt + 4 * bit ex }
  | .plog h op d a b =>
    some { h.base 0x65 op.code with mod := bit a.neg + 2 * bit b.neg + 16 * bit b.grp + 32 * bit a.grp, d := d, a := a.idx, b := b.idx }
  | .pmov h f =>
    match f with
    | .toReg d p => some { h.base 0x66 0 with d := d, a := p }
    | .toPred p a => some (h.fmtA false 0x66 1 0 p a noSrc noSrc)
  | .gmov h d a l =>
    match l with
    | .imm n => some { h.base 0x67 0 with mod := 64, d := d, a := a, imm := n }
    | .reg g => some { h.base 0x67 0 with mod := 16, d := d, a := a, b := g }
    | .first => some { h.base 0x67 1 with d := d, a := a }
  | .bra h t => some { h.base 0x70 0 with imm := t.enc }
  | .jmpx h a => some { h.base 0x71 0 with a := a }
  | .call h n t => some { h.base 0x72 0 with d := n, imm := t.enc }
  | .ret h => some (h.base 0x73 0)
  | .exit h => some (h.base 0x74 0)
  | .fork h neg p split gap c t =>
    some { h.base 0x75 0 with mod := gap, d := split, a := p + 8 * bit neg, b := c.encCont / 256, c := c.encCont % 256, imm := t.enc }
  | .armend h => some (h.base 0x76 0)
  | .jset h j v => some { h.base 0x77 0 with d := j, a := v }
  | .join h v j => some { h.base 0x78 0 with d := v, a := j }
  | .jwait h => some (h.base 0x79 0)
  | .nop h => some (h.base 0x7A 0)
  | .ld h t o x b d i => some { h.base 0x80 t.code with mod := o.enc x, d := d, a := x.num, b := b, imm := i.toNat }
  | .st h t o x b d i => some { h.base 0x81 t.code with mod := o.enc x, d := d, a := x.num, b := b, imm := i.toNat }
  | .atom h op t o x b d c i =>
    some { h.base 0x82 (8 * op.code + t.code) with mod := o.enc x, d := d, a := x.num, b := b, c := c, imm := i.toNat }
  | .atoms h op t o x d c i =>
    some { h.base 0x83 (8 * op.code + t.code) with mod := o.enc x, d := d, a := x.num, c := c, imm := i.toNat }
  | .lds h t o x d i => some { h.base 0x84 t.code with mod := o.enc x, d := d, a := x.num, imm := i.toNat }
  | .sts h t o x d i => some { h.base 0x85 t.code with mod := o.enc x, d := d, a := x.num, imm := i.toNat }
  | .ldk h t d i => some { h.base 0x86 t.code with d := d, imm := i.toNat }
  | .stk h t d i => some { h.base 0x87 t.code with d := d, imm := i.toNat }
  | .ldw h t x b d i => some { h.base 0x88 t.code with mod := bit x.isG, d := d, a := x.num, b := b, imm := i.toNat }
  | .pref h x b i => some { h.base 0x89 0 with mod := bit x.isG, a := x.num, b := b, imm := i.toNat }
  | .fence h a r s => some { h.base 0x8A 0 with mod := 32 * bit a + 64 * bit r + 4 * s.code }
  | .fenceCounting h a r d => some { h.base 0x8A 1 with mod := 32 * bit a + 64 * bit r + 16, d := d }
  | .xfence h p1 p2 s => some { h.base 0x8B (8 * p1.code + p2.code) with mod := 96 + 4 * s.code }
  | .mwatch h w d x b i => some { h.base 0x8C (wideCode w) with mod := 1, d := d, a := x, b := b, imm := i.toNat }
  | .mwait h d t => some { h.base 0x8D 0 with mod := 1, d := d, a := t }
  | .brset h d s => some { h.base 0x8E 0 with mod := 1, d := d, a := s }
  | .cpy h e ch d dst src l pv =>
    some { h.base 0x90 e with
      mod := ch + 4 * bit dst.isSx + 8 * bit src.isSx, d := d, a := dst.num, b := src.num, c := l,
      imm := optNum pv + 8 * bit pv.isSome }
  | .cpyt h e ch d dst src l pv =>
    some { h.base 0x91 e with
      mod := ch + 4 * bit dst.isSx + 8 * bit src.isSx, d := d, a := dst.num, b := src.num, c := l,
      imm := optNum pv + 8 * bit pv.isSome }
  | .cpkill h ch d => some { h.base 0x92 0 with mod := ch, d := d }
  | .optstep h bf d bW bG p bM bV => some { h.base 0x93 (bit bf) with d := d, a := bW, b := bG, c := p, imm := bM + 16 * bV }
  | .thset h d t s => some { h.base 0x94 0 with d := d, a := t, b := s }
  | .coll h w d bDst bSrc l hH => some { h.base 0x98 w with d := d, a := bDst, b := bSrc, c := l, imm := hH }
  | .mma h k d a s r => some { h.base 0xA0 0 with mod := 32 * k.code, d := d, a := a, b := s, imm := r }
  | .mmat h k d a s r => some { h.base 0xA1 0 with mod := 32 * k.code, d := d, a := a, b := s, imm := r }
  | .mmad h k kX kW thW thX s c0 =>
    some { h.base 0xA2 0 with mod := 32 * k.code, d := kX, a := thW, b := s, imm := kW + 256 * thX + 2048 * c0 }
  | .mldw h k m a s => some { h.base 0xA3 0 with mod := 32 * k.code, d := 48 * m, a := a, b := s }
  | .mswap h k m s => some { h.base 0xA4 0 with mod := 32 * k.code, d := 48 * m, b := s }
  | .mdrain h f k amx clr t a s sc am r =>
    some { h.base 0xA5 f.code with mod := 32 * k.code + 2 * bit clr + bit amx, d := t, a := a, b := s, c := sc + 8 * am, imm := r }
  | .mzero h k t s r n => some { h.base 0xA6 0 with mod := 32 * k.code, d := t, b := s, imm := r + 64 * n }
  | .mfill h f k t a s r => some { h.base 0xA7 f.code with mod := 32 * k.code, d := t, a := a, b := s, imm := r }
  | .setfmt h a => some { h.base 0xB0 0 with a := a }
  | .setfmtSc h d a => some { h.base 0xB0 1 with d := d, a := a }
  | .setfmtClr h d => some { h.base 0xB0 2 with d := d }
  | .screc h x b i => some { h.base 0xB1 0 with a := x, b := b, imm := i.toNat }
  | .scload h x b i => some { h.base 0xB2 0 with a := x, b := b, imm := i.toNat }
  | .scloadEnd h => some (h.base 0xB2 1)
  | .hcreate h cnt sp d gp => some { h.base 0xB8 0 with mod := 64 * bit cnt.isSome + 4 * sp.code, d := d, b := optNum cnt, imm := gp }
  | .hfree h n => some { h.base 0xB8 1 with a := n }
  | .hquery h item d n => some { h.base 0xB8 2 with d := d, a := n, imm := item }
  | .hstrag h n b => some { h.base 0xB8 3 with a := n, b := b }
  | .hjoin h d s => some { h.base 0xB9 0 with d := d, b := s }
  | .hleave h n => some { h.base 0xBA 0 with a := n }
  | .harr h d n k => some { h.base 0xBB 0 with mod := bit k.isSome, d := d, a := n, c := optNum k }
  | .hwait h d n t => some { h.base 0xBC 0 with d := d, a := n, c := t }
  | .hbar h d n k => some { h.base 0xBD 0 with mod := bit k.isSome, d := d, a := n, c := optNum k }
  | .hvote h fn d n s k => some { h.base 0xBE fn.code with mod := bit k.isSome, d := d, a := n, b := s, c := optNum k }
  | .hred h op t d n s k => some { h.base 0xBF (8 * op.code + t.code) with mod := bit k.isSome, d := d, a := n, b := s, c := optNum k }
  | .spawn h d gp q e k => some { h.base 0xC0 0 with d := d, a := q, b := e, c := k, imm := gp }
  | .qpush h d gp q s => some { h.base 0xC1 0 with d := d, a := q, b := s, imm := gp }
  | .qpop h d gp q => some { h.base 0xC2 0 with d := d, a := q, imm := gp }
  | .yield h => some (h.base 0xC3 0)
  | .rclaim h d m => some { h.base 0xC4 0 with d := d, imm := m.toNat }
  | .rclaimTry h d m => some { h.base 0xC4 1 with d := d, imm := m.toNat }
  | .rgive h d m => some { h.base 0xC5 0 with d := d, imm := m.toNat }
  | .movs h vd s d =>
    match s with
    | .sr n => some { h.base 0xC8 0 with mod := bit vd, d := d, imm := n }
    | .sc n => some { h.base 0xC8 1 with mod := bit vd, d := d, imm := n }
    | .am n => some { h.base 0xC8 2 with mod := bit vd, d := d, imm := n }
    | .fmt => some { h.base 0xC8 3 with mod := bit vd, d := d }
  | .sets h n a => some { h.base 0xC9 0 with a := a, imm := n }
  | .svc h n => some { h.base 0xCA 0 with imm := n.toNat }
  | .trap h n => some { h.base 0xCB 0 with imm := n.toNat }
  | .bkpt h => some (h.base 0xCC 0)
  | .icinv h d s => some { h.base 0xCD 0 with d := d, a := s }
  | _ => none

/-- The 96-bit word of an instruction (R49); none for an event. -/
def encode (i : Instr) : Option Nat := i.fields.map Fields.toWord

/-- The command of an entry of `w` (256 bits), taken from command queue `q`; none when OP is unknown or a reserved field is
nonzero (R276). -/
def decodeCommand (q : Option Nat) (w : Nat) : Option Instr :=
  let c : Cmd := { queue := q, tag := bitsAt w 52 12, a := bitsAt w 64 64, b := bitsAt w 128 64, c := bitsAt w 192 64 }
  if bitsAt w 8 44 ≠ 0 then none
  else match bitsAt w 0 8 with
    | 0x01 => some (.resume c)
    | 0x02 => some (.kill c)
    | 0x03 => some (.killJob c)
    | 0x04 => some (.failDomain c)
    | 0x05 => some (.batchResume c)
    | 0x06 => some (.batchFail c)
    | 0x07 => some (.translationInvalidate c)
    | 0x08 => some (.preempt c)
    | 0x09 => some (.regionReload c)
    | 0x0A => some (.queueWatch c)
    | 0x10 => some (.weightLoad c)
    | _ => none

/-- The 256-bit entry of a command (R276). -/
def Cmd.enc (c : Cmd) (op : Nat) : Nat := op + 2 ^ 52 * c.tag + 2 ^ 64 * c.a + 2 ^ 128 * c.b + 2 ^ 192 * c.c

/-- The entry of a queue command (R276); none for anything else. -/
def encodeCommand : Instr → Option Nat
  | .resume c => some (c.enc 0x01)
  | .kill c => some (c.enc 0x02)
  | .killJob c => some (c.enc 0x03)
  | .failDomain c => some (c.enc 0x04)
  | .batchResume c => some (c.enc 0x05)
  | .batchFail c => some (c.enc 0x06)
  | .translationInvalidate c => some (c.enc 0x07)
  | .preempt c => some (c.enc 0x08)
  | .regionReload c => some (c.enc 0x09)
  | .queueWatch c => some (c.enc 0x0A)
  | .weightLoad c => some (c.enc 0x10)
  | _ => none

/-- The instruction read from bits numbered as the opcode table numbers them: a 96-bit word, or the 256-bit entry of a queue
command when the row is that wide. -/
def decodeTableWord (nbits w : Nat) : Option Instr :=
  if nbits = 256 then decodeCommand none w
  else match decode w with
    | .ok i => some i
    | .error _ => none

end Sys2Proof
end

