-- ==== Sys2Proof/Machine/State.lean ====
section
/-!
DEFINITION. The state of one CN4 module as plain data, the reasons a step can stop, and the state after reset
(spec/04_state_and_register_pool.md R80, R82; INVENTORY.md '## State' lists every piece with its rule).
-/

namespace Sys2Proof.Machine

/-- Why the machine stops with a fault. -/
inductive Fault where
  /-- Raised when an instruction is executed although the cursor names no live strand (only `exec` called from outside
  `step` can meet it). Safe: the hardware executes no instruction without a strand. -/
  | noStrand
deriving DecidableEq, Repr

/-- Why an instruction has no meaning. -/
inductive Refusal where
  /-- Raised by an arm of `exec` that is not modelled yet. Safe: nothing is said of the instruction. -/
  | notModelled (mnemonic : String)
deriving DecidableEq, Repr

/-- A lane mask over the declared width (R27): bit L is lane L. -/
abbrev Mask := BitVec 128

/-- The lanes of a mask in ascending order. -/
def Mask.lanes (m : Mask) : List Nat := (List.range 128).filter fun l => m.getLsbD l
/-- The mask of a predicate over lanes. -/
def maskOf (f : Nat → Bool) : Mask := BitVec.ofNat 128 (loop (fun l n => if f l then n + 2 ^ l else n) 128 0)
/-- The mask of the lanes 0 to n − 1. -/
def lowMask (n : Nat) : Mask := BitVec.ofNat 128 (2 ^ n - 1)

/-- A harness handle register: 32 handle bits and the chip id of the holder (R242, R252). -/
structure HVal where
  handle : W32
  chip : Nat
deriving DecidableEq, Repr, Inhabited

/-- One register write of a result. `am` is the atomic maximum of R354 and R221. -/
inductive RegWr where
  | v (r lane : Nat) (x : W32)
  | g (r : Nat) (x : W32)
  | p (sn i lane : Nat) (x : Bool)
  | gp (i : Nat) (x : Bool)
  | h (i : Nat) (x : HVal)
  | b (i : Nat) (x : BitVec 128)
  | th (i : Nat) (x : BitVec 256)
  | am (i : Nat) (x : W32)
  | sc (i : Nat) (x : W32)
deriving DecidableEq, Repr, Inhabited

/-- The strand number of results, stores and errors whose strand was an arm that has ended (R94); no live strand has it. -/
def endedSn : Nat := 255

/-- A fixed-latency result of one pass (R66, R67): the strand that issued it, its landing cycle and its writes. `board` says that it was pending at a FORK, after
which a strand that reads its registers waits for it as for a scoreboarded result (R92). -/
structure Fixed where
  sn : Nat
  at_ : Nat
  wrs : List RegWr
  board : Bool := false
deriving DecidableEq, Repr, Inhabited

/-- Where an access goes: this module's memory by physical address, the host half by virtual function and address, a peer
module, the slice's scratchpad, or the group's stack (R134, R137, R147, R148). -/
inductive Loc where
  | mem (pa : Nat)
  | host (vf va : Nat)
  | peer (chip va : Nat)
  | sx (off : Nat)
  | stk (lane y : Nat)
deriving DecidableEq, Repr, Inhabited

/-- One lane's part of a load or atomic: its location (none: out of bounds, a load reads zero), the operand and compare
value of an atomic, and the value once it is known. -/
structure LaneAcc where
  lane : Nat
  va : Nat
  loc : Option Loc
  arg : Nat
  cmp : Nat
  val : Option Nat
deriving DecidableEq, Repr, Inhabited

/-- A load or atomic that has issued and has not returned (R142, R358, R414). `watch` marks an MWATCH, `err` is the deferred trap it owes: cause, lane
and detail; `bad` lists the failed granules it has met (R153), `after` the accesses that must be complete before it is presented (R166, R172), `started`
says that it is presented, and `shut` that its wait for a shutter window is counted (R151). -/
structure MemOp where
  atom : Option AtomOp
  ty : MemTy
  d : Nat
  watch : Bool
  acc : List LaneAcc
  strict : Bool
  ord : MemOrd
  sample : Option Nat
  err : Option (Nat × Nat × Nat)
  bad : List Nat
  after : List Nat
  started : Bool
  shut : Bool
deriving DecidableEq, Repr, Inhabited

/-- What a scoreboarded result waits for (R66). `ask` is a request to the module that holds a harness, with its answer and the completion of the phase it arrived in. -/
inductive Body where
  | timed (due : Nat) (wrs : List RegWr)
  | mem (m : MemOp)
  | join (frame slot vd : Nat) (mask : Mask) (issued : Nat)
  | await
  | hold
  | scload (b : Nat) (va : Nat) (loc : Option Loc) (strict : Bool) (remote : Option (List Byte)) (err : Option Nat)
  | claim (m : Nat)
  | ask (key : HKey) (chip : Nat) (reply : Option HReply) (result : Option (Bool × W32))
deriving DecidableEq, Repr, Inhabited

/-- A pending scoreboarded result: the strand that issued it, the lanes it concerns, its registers, what it waits for, the
registers and lanes in which the second instruction of its pair has the last word (R69), and, where its strand has ended or has become the first part of a serialised fork, the
frame whose continuation owes its traps, with that continuation's number (R94, R96). -/
structure Inflight where
  id : Nat
  sn : Nat
  mask : Mask
  dst : List (Cls × Nat)
  cpc : Nat
  body : Body
  shadow : List (Cls × Nat × Mask)
  heir : Option (Nat × Nat) := none
deriving DecidableEq, Repr, Inhabited

/-- An entry of the held queue (R103): the instruction, its program counter, its pending result, the registers, mask, FMT and
scale it read when it issued, whether the group was in replay state, for an access its lanes and their strictness, and the cycle of its issue. -/
structure Held where
  instr : Instr
  pc : Nat
  id : Nat
  regs : List RegWr
  mask : Mask
  fmt : W32
  scale : W32
  replay : Bool
  acc : List LaneAcc
  strict : Bool
  sample : Option Nat
  issued : Nat := 0
deriving DecidableEq, Repr, Inhabited

/-- The part of a strand that a fork divides or copies (R27, R92, R94). -/
structure Ctx where
  pc : Nat
  mask : Mask
  p : List Mask
  fmt : W32
  sp : Nat
  sl : Nat
  lo : Nat
  hi : Nat
  arm : Option Nat
  own : List Nat
  held : List Held
deriving DecidableEq, Repr, Inhabited

/-- An ordering condition of a FENCE, an acquire or an XFENCE (R166, R170, R173): the path whose later accesses it holds
back (none: every memory and engine instruction), and what must be complete first at which scope. A FENCE at sys scope also reads sr.rerr, and its counting form has a
pending result (R171). `heir` is as for a pending result. -/
structure FenceCond where
  path : Option Path
  ids : List Nat
  scope : Scope
  sys : Bool
  count : Option (Nat × Nat)
  cpc : Nat
  heir : Option (Nat × Nat) := none
deriving DecidableEq, Repr, Inhabited

/-- What makes a deferred trap fall due (R306): the next stop point, or a read of one of these registers (or EXIT or ARMEND
for a copy, R231). -/
inductive Due where
  | next
  | reads (l : List (Cls × Nat)) (ends : Bool)
deriving DecidableEq, Repr, Inhabited

/-- A deferred trap owed by a strand (R306); `key` is the number of the result or command that owes it. -/
structure Deferred where
  key : Nat
  cause : Nat
  cpc : Nat
  lane : Nat
  detail : Nat
  due : Due
deriving DecidableEq, Repr, Inhabited

/-- What a strand in Scoreboard or Frame wait waits for (R28). -/
inductive Block where
  | operands (l : List Opnd)
  | order (paths : List Path)
  | loads
  | stores
  | heldEmpty
  | channel (n : Nat)
  | copies (ids : List Nat)
  | claim
  | record
  | result (id : Nat)
  | answer (id : Nat)
  | pool (first last : Nat)
  | heldFull
  | jwait
deriving DecidableEq, Repr, Inhabited

/-- The states of R28; Ended strands are not listed. -/
inductive SState where
  | ready
  | issuing
  | scoreboard (b : Block)
  | frame (b : Block)
  | harness (id : Nat)
  | parked (until_ : Option Nat) (id : Nat)
  | faultWait (batch : Nat)
  | verify (page : Nat)
  | stopped (id : Option Nat)
deriving DecidableEq, Repr, Inhabited

/-- How the program counter came to its slot: in sequence, by a transfer that needs a TGT bit, or by RET (R48). -/
inductive Entry where
  | seq
  | transfer
  | ret
deriving DecidableEq, Repr, Inhabited

/-- A part of a serialised fork that is still to run (R96): its context, the fence conditions it starts with, and the deferred traps it owes. -/
structure Part where
  c : Ctx
  fences : List FenceCond
  owed : List Deferred
deriving DecidableEq, Repr, Inhabited

/-- The second instruction of a split pair that is still to issue (R70): the first slot of the pair, whether the run ends after it because of the first, and where the
first transfers control, that instruction with what it read, its cycle of issue and its sources, whose effect comes after the second has issued (R69). -/
structure Half where
  pc : Nat
  ends : Bool
  first : Option (Instr × Nat × List RegWr)
deriving DecidableEq, Repr, Inhabited

/-- A live strand (R27, R28). `half` is the rest of a split pair, and `stay` the number below which the stores lie that an arrival or a push of it
waits for (R167). `next` holds the parts of a serialised fork still to run (R96); `line` is the fetch line it
holds (R45, R158). -/
structure Strand where
  sn : Nat
  c : Ctx
  st : SState
  entry : Entry
  line : Option (Nat × List Byte)
  nextIssue : Nat
  runLen : Nat
  readySince : Nat
  lost : Nat
  fences : List FenceCond
  deferred : List Deferred
  next : List Part
  skipDebug : Bool
  tracePc : Nat
  half : Option Half := none
  stay : Option Nat := none
deriving DecidableEq, Repr, Inhabited

/-- An open join frame (R92, R99 to R101): the continuation's stack base, the parent's lower limit, the arms still live, and
per slot the deposited and absent lanes, the cycle at which each lane was deposited or marked absent, the values (keys slot × 128 + lane), and for a slot with some lanes of it
what an arm had issued before them that loads behind the JOIN must follow (R104). -/
structure Frame where
  id : Nat
  base : Nat
  lo : Nat
  split : Nat
  arms : Nat
  deposited : List Mask
  absent : List Mask
  last : List (Nat × Nat)
  vals : List (Nat × W32)
  after : List (Nat × Mask × FenceCond) := []
deriving DecidableEq, Repr, Inhabited

/-- A group's watch (R284, R285): the line it watches, if it can be watched, and the address that MWATCH named. -/
structure Watch where
  line : Option Nat
  va : Nat
  fired : Bool
  evicted : Bool
  restored : Bool
deriving DecidableEq, Repr, Inhabited

/-- A group (R80): its place, registers (v by register × 128 + lane, stack by byte × 128 + lane), strands, frames and
pending results. -/
structure Group where
  bay : Nat
  slot : Nat
  n : Nat
  v : List (Nat × W32)
  g : List (Nat × W32)
  gp : BitVec 8
  h : List (Nat × HVal)
  b : List (Nat × BitVec 128)
  th : List (Nat × BitVec 256)
  sc : List (Nat × W32)
  am : List (Nat × W32)
  chk : Bool
  rerr : Nat
  rerrKind : Option (Nat × Bool × Nat)
  replay : Option (List Byte)
  watch : Option Watch
  strands : List Strand
  frames : List Frame
  fixed : List Fixed
  inflight : List Inflight
  stack : List (Nat × Byte)
  stackFailed : List Nat
  ecc : List EccWord
  syncDue : Bool
  sinceSync : Nat
  syncTime : Nat
  retired : Bool
deriving DecidableEq, Repr, Inhabited

/-- The states of a slice (R33); Queued slices are counted in their job. -/
inductive SliceState where
  | claimed | resident | swapped | retired | failed
deriving DecidableEq, Repr, Inhabited

/-- Why a slice is being pre-empted (R33). -/
inductive Preempt where
  | budget | deadline | barrier | limit | spare | command
deriving DecidableEq, Repr, Inhabited

/-- A trap or notice on its way to the region (R307, R308), with what the frame of R309 shows of the strand, the cycle in which it was raised, and its
record id once it has one. -/
structure TrapRec where
  cause : Nat
  kind : Nat
  defer : Bool
  retired : Bool
  who : Option StrandRef
  gid : Nat
  pc : Nat
  cpc : Nat
  lane : Nat
  mask : Mask
  slice : Nat
  job : Nat
  tag : Nat
  time : Nat
  detail : Nat
  batch : Option Nat
  pages : List Nat
  p : List Mask
  fmt : W32
  sp : Nat
  sl : Nat
  lo : Nat
  hi : Nat
  held : Nat
  frames : Nat
  toSorser : Bool
  cycle : Nat
  id : Option Nat
deriving DecidableEq, Repr, Inhabited

/-- An outstanding trap record id (R310), with the record's cause, and whether its record went to the Sorser FIFO (R331). -/
structure OutId where
  id : Nat
  kind : Nat
  cause : Nat
  defer : Bool
  who : Option StrandRef
  batch : Option Nat
  cpc : Nat
  paired : Bool
  sorser : Bool := false
deriving DecidableEq, Repr, Inhabited

/-- Who waits on a fault batch (R156, R209, R231, R239). -/
inductive BatchOwner where
  | strand (who : StrandRef)
  | copy (core ch id : Nat)
  | matrix (sid arr id : Nat)
  | update (core id : Nat)
deriving DecidableEq, Repr, Inhabited

/-- A fault batch (R156): its pages in order, the cause that a failure raises with its lane and line, whether run-ahead still fills it (R155), and which
answers it waits for: a PRI response for host-half pages, a command for device-half pages. -/
structure Batch where
  owner : BatchOwner
  rk : Nat
  pages : List Nat
  cause : Nat
  cpc : Nat
  lane : Nat
  va : Nat
  filling : Bool
  pri : Bool
  dev : Bool
  failed : Bool
deriving DecidableEq, Repr, Inhabited

/-- A tenant table entry (R337). -/
structure Tenant where
  keys : List Nat
  rcb : Nat
  root : Nat
  tmo : Nat
  ftid : Nat
  pasid : Nat
  ats : Bool
  sys : Bool
  valid : Bool
deriving DecidableEq, Repr, Inhabited

/-- A region with its resolved RCB fields (R274), its trap records (R307 to R310), the blocks of its pool in use (R311), and its RCB as the
queue engine last read it (R275). -/
structure Region where
  vf : Nat
  rcbVa : Nat
  parent : Option Nat
  level : Nat
  sup : Bool
  strict : Bool
  prio : Nat
  lagCount : Nat
  lagMin : Nat
  budget : Nat
  period : Nat
  hquota : Nat
  dcquota : Nat
  fdom : Nat
  stealVa : Nat
  trapq : Nat
  jobq : Nat
  save : Nat
  saveSize : Nat
  nextId : Nat
  out : List OutId
  waiting : List TrapRec
  poolUsed : List (Nat × Nat)
  raw : Nat
deriving DecidableEq, Repr, Inhabited

/-- The fields of a kernel header (R75). -/
structure KHeader where
  width : Nat
  groups : Nat
  vregs : Nat
  gregs : Nat
  harn : Nat
  acc : Nat
  scratch : Nat
  stack : Nat
  budget : Nat
  entry : Nat
  codeSize : Nat
  dataOff : Nat
  dataSize : Nat
  pages : Nat
  steal : Bool
  chk : Bool
deriving DecidableEq, Repr, Inhabited

/-- A completion entry on its way to a completion queue (R286, R287); `seq` orders the entries by when they arose. -/
structure Completion where
  seq : Nat
  cq : Nat
  kind : Nat
  fail : Bool
  late : Bool
  cause : Nat
  chip : Nat
  job : Nat
  stolen : Nat
  lateN : Nat
  doneN : Nat
  failN : Nat
deriving DecidableEq, Repr, Inhabited

/-- A job (R36, R37, R272): its ticket, region, job queue, header, entry words, counts, and the pages verified for it (R159).
`queued` lists the ranges of slice indexes still Queued, `table` is the ownership table of a STEAL job (R297),
`admitted` is the cycle of its admission, `ordinary` says that its deferral under R294 is over, and `dying` that it has been killed or its domain has failed. -/
structure Job where
  ticket : Nat
  rk : Nat
  queue : Nat
  code : Nat
  cq : Nat
  hdr : KHeader
  args : List W32
  recs : List (BitVec 128)
  slices : Nat
  deadline : Nat
  dstep : Nat
  cps : Bool
  fdom : Nat
  queued : List (Nat × Nat)
  claimed : List (Nat × Nat)
  table : Option Nat
  admitted : Nat
  doneN : Nat
  failN : Nat
  lateN : Nat
  stolenN : Nat
  cause : Nat
  verified : List Nat
  verifying : List Nat
  completions : List Completion
  finished : Bool
  ordinary : Bool
  dying : Bool
  thief : Option Offer
deriving DecidableEq, Repr, Inhabited

/-- A waiting RCLAIM in the claim queue of a slice in one bay (R88): the group's index, its pending result and the count. -/
structure Claim where
  bay : Nat
  gi : Nat
  id : Nat
  d : Nat
  m : Nat
deriving DecidableEq, Repr, Inhabited

/-- One weight plane of an array (R198): its format, its elements (key row × 64 + column, as stored bits or mantissas), its
block exponents (key row × 2 + block), its non-finite flag and the rows that act as zero (R314). -/
structure Plane where
  fmt : MFmt
  els : List (Nat × Nat)
  exps : List (Nat × Nat)
  nonfinite : Bool
  failed : List Nat
deriving DecidableEq, Repr, Inhabited

/-- A fetched operand (R209): per row its elements and block exponents, and how many elements read zero. -/
structure MOperand where
  rows : List (Nat × List Nat × List Nat)
  bad : Nat
deriving DecidableEq, Repr, Inhabited

/-- A line of another module as its answer brought it (R144, R340): its bytes, and the offsets in it of the granules that have failed (R153). -/
structure PeerLine where
  chip : Nat
  line : Nat
  bytes : List Byte
  bad : List Nat
deriving DecidableEq, Repr, Inhabited

/-- A command of an array queue (R199), with what it read when it issued. `regRows` holds the rows a kind-0 command supplies;
`chunk` counts the drained chunks (R217), `plane` is the plane its rows latched (R200), `got` holds operand lines that other
modules have sent, `shut` says that its wait for a shutter window is counted (R151), and `dest` holds the places of the bytes that a drain writes, by handle row and
window offset (R217). -/
structure MCmd where
  id : Nat
  gi : Nat
  sn : Nat
  pc : Nat
  instr : Instr
  fmt : W32
  mask : Mask
  ths : List (BitVec 256)
  recs : List (BitVec 128)
  scale : W32
  replay : Bool
  regRows : List (Nat × List Nat × List Nat)
  fetched : Option (List MOperand)
  got : List PeerLine
  shut : Bool
  dest : List (Nat × List (Nat × Loc))
  batch : Option Nat
  plane : Option Nat
  done : Bool
  chunk : Nat
  bad : Nat
  skip : Nat
  trap : Option Nat
deriving DecidableEq, Repr, Inhabited

/-- A logical array of a slice (R196 to R200): its planes, the active one, and its queue. -/
structure ArraySt where
  p0 : Plane
  p1 : Plane
  active : Nat
  queue : List MCmd
deriving DecidableEq, Repr, Inhabited

/-- A storage side of a copy as issued: a record, or the slice's scratchpad (R225). -/
inductive Side where
  | buf (r : BitVec 128)
  | sx
deriving DecidableEq, Repr, Inhabited

/-- A copy in a channel (R222 to R234): who issued it, its descriptor words, its sides, its end position, how many bytes are
passed, what its status will say (`bad` names the failed granules met), the batch it waits on, source lines that came from
other modules and lines that they refused, the bytes on their way to another module, the CPKILL that waits for its status, for a matrix operand fetch its array and command (R209), and the cause that ended it
where it owes another one too (R231, R232). -/
structure CopyEntry where
  id : Nat
  who : StrandRef
  pc : Nat
  rk : Nat
  tile : Bool
  esz : Nat
  words : List Nat
  len : Nat
  dst : Side
  src : Side
  strict : Bool
  d : Nat
  fin : Nat
  done : Nat
  err : Bool
  oob : Bool
  stop : Bool
  bad : List Nat
  off : Option Nat
  cause : Option Nat
  batch : Option Nat
  got : List PeerLine
  lost : List (Nat × Nat)
  flight : Option Nat
  kill : Option (Nat × Nat × Nat)
  matrix : Option (Nat × Nat)
  also : Option Nat := none
deriving DecidableEq, Repr, Inhabited

/-- A channel of a core (R222, R227): the position past the last one a presented copy owns, and its copies in order. -/
structure Chan where
  tail : Nat
  entries : List CopyEntry
deriving DecidableEq, Repr, Inhabited

/-- An OPTSTEP of the update engine (R236 to R241): its parameters and records as read at issue, its progress, the lines that came from other modules or that
they refused, the elements whose writes are on their way to other modules, and the cause that ended it where it owes another one too (R239). -/
structure UpdEntry where
  id : Nat
  who : StrandRef
  pc : Nat
  rk : Nat
  bf : Bool
  params : List W32
  recs : List (BitVec 128)
  strict : Bool
  d : Nat
  next : Nat
  updated : Nat
  drop : Nat
  err : Bool
  oob : Bool
  stop : Bool
  cause : Option Nat
  batch : Option Nat
  got : List PeerLine
  lost : List (Nat × Nat)
  flight : Option Nat
  also : Option Nat := none
deriving DecidableEq, Repr, Inhabited

/-- A store in a core's merge buffer (R161): who issued it, its lanes, its place and bytes, the strictness of its record, the
widest scope level it has reached (0 core, 1 die), its position in the die's bridge queue, the accesses that must be complete before it moves (R166),
the scope of its release, whether it leaves a promotion record (R172), the request it belongs to (R144), whether that has gone out to another module, and
the sample that waits for it (R327). -/
structure StoreEntry where
  id : Nat
  who : StrandRef
  rk : Nat
  lanes : Mask
  va : Nat
  loc : Loc
  bytes : List Byte
  strict : Bool
  level : Nat
  pos : Nat
  after : List Nat
  scope : Scope
  relCore : Bool
  req : Nat
  sent : Bool
  sample : Option Nat
deriving DecidableEq, Repr, Inhabited

/-- A core's debug register block (R319). -/
structure Debug where
  tctl : W32
  tbase : W64
  tsize : W32
  twp : W64
  trp : W64
  tlost : W64
  dctl : W32
  dbgSel : W32
  ibp : List W64
  wpa : List W64
  wpl : List W64
  counters : List (Nat × W64)
deriving DecidableEq, Repr, Inhabited

/-- A memory instruction counted for sampling (R327) whose packet is not written yet; `reached` holds its lanes that access something. -/
structure Sample where
  id : Nat
  clock : Nat
  gid : Nat
  sn : Nat
  pc : Nat
  mask : Mask
  lanes : Nat
  sectors : Nat
  replays : Nat
  done : Bool
  reached : Mask := 0
deriving DecidableEq, Repr, Inhabited

/-- A core's trace unit (R321 to R327): the strand of the last record, the last time, the dropped count, packets that wait
for commit with the group id of each, the sampling count and open samples. -/
structure Trace where
  last : Option (Nat × Nat × Nat)
  lastTime : Nat
  dropped : Nat
  packets : List (Nat × List Byte)
  memCount : Nat
  samples : List Sample
deriving DecidableEq, Repr, Inhabited

/-- The run that holds a bay (R64, R65): the group, the strand, and the first cycle at which the bay is free. -/
structure Bay where
  run : Option StrandRef
  free : Nat
deriving DecidableEq, Repr, Inhabited

/-- A line of an instruction cache (R13, R46, R158): the virtual function and address it was fetched for, and its bytes. -/
structure CodeLine where
  vf : Nat
  va : Nat
  bytes : List Byte
deriving DecidableEq, Repr, Inhabited

/-- A line of a die cache (R146, R149): its line number, the region it was filled for, and by sector which are resident, which are dirty and which have
an uncorrectable error. -/
structure CacheLine where
  line : Nat
  rk : Nat
  valid : BitVec 4
  dirty : BitVec 4
  bad : BitVec 4
deriving DecidableEq, Repr, Inhabited

/-- A core (R13): its channels, update engine queue, merge buffer, debug block, trace unit, bays, and the lines of its instruction cache, oldest first. -/
structure Core where
  chans : List Chan
  upd : List UpdEntry
  buf : List StoreEntry
  dbg : Debug
  trace : Trace
  bays : List Bay
  icache : List CodeLine
deriving DecidableEq, Repr, Inhabited

/-- An entry of an arrival log (R259). -/
structure LogEntry where
  gi : Nat
  id : Nat
  wrs : List RegWr
  bytes : List Byte
deriving DecidableEq, Repr, Inhabited

/-- A context image (R316): where it lies, its size, its number, its header, and for one that has come from another module all its bytes (R348). -/
structure Image where
  va : Nat
  size : Nat
  num : Nat
  header : List Byte
  whole : Option (List Byte)
deriving DecidableEq, Repr, Inhabited

/-- A pass that takes a cycle of a slice's budget (R31): its cycle, group, strand and program counter; and for a YIELD the budget that it gives back. -/
structure Spend where
  cycle : Nat
  gi : Nat
  sn : Nat
  pc : Nat
  give : Option (Option Nat)
deriving DecidableEq, Repr, Inhabited

/-- A slice (R30 to R34, R196, R234, R259): its groups and everything they share. `spends` lists the passes of this cycle and of later ones that are still to be taken
from `budget` (R31). `phys` names the physical array of the core that holds each logical one (R196), `move` the chip its image is on its way to, and `source` the chip that an image not yet
restored here came from (R348). -/
structure Slice where
  jn : Nat
  index : Nat
  st : SliceState
  core : Nat
  groups : List Group
  budget : Option Nat
  deadline : Nat
  scratch : List (Nat × Byte)
  scratchFailed : List Nat
  tiles : List (Nat × W32)
  tilesFailed : List Nat
  arrays : List ArraySt
  reserves : List (Nat × Nat)
  claims : List Claim
  views : List Nat
  stopped : List (Nat × CopyEntry)
  stoppedUpd : List UpdEntry
  failCause : Option Nat
  exhausted : Option (Nat × Nat × Nat)
  preempt : Option Preempt
  saveWait : Bool
  wantResume : Bool
  stolen : Option JobKey
  image : Option Image
  log : List LogEntry
  logBlocks : List Nat
  logWait : List LogEntry
  created : List Nat
  late : Bool
  spends : List Spend := []
  phys : List Nat := []
  move : Option Nat := none
  source : Option Nat := none
deriving DecidableEq, Repr, Inhabited

/-- A member of a harness with its index (R243, R252, R253). -/
structure HMember where
  idx : Nat
  who : Member
  joining : Bool
  leaving : Bool
deriving DecidableEq, Repr, Inhabited

/-- An arrival in the current phase (R247, R290): a leave or a loss has no value and is marked. -/
structure HArrive where
  idx : Nat
  value : Option W32
  time : Nat
  chip : Nat
  gone : Bool
deriving DecidableEq, Repr, Inhabited

/-- An arrival that has reached the unit of a harness held here and is not taken yet (R247): the member, what it carries, and when and from where it came. For a
member of this module it names the strand, the slot, and the destination with its result: 0 HBAR, 1 HVOTE or HRED, 2 the token of HARR; for another one
the number of its request, which a member of this module has too where its arrival is one of a pair. A leave comes here too: `gone` says whether it is a loss, and whether it is of a
group that has ended (R253, R258). -/
structure HComing where
  idx : Nat
  who : Member
  kind : HKind
  count : Option Nat
  value : Option W32
  time : Nat
  ask : Option Nat
  sn : Nat
  pc : Nat
  id : Nat
  d : Nat
  res : Nat
  gone : Option (Bool × Bool) := none
deriving DecidableEq, Repr, Inhabited

/-- A strand that waits for a phase, with the result it waits for: 0 HWAIT or HBAR, 1 HVOTE or HRED, 2 a join. -/
structure HWaiter where
  g : GroupRef
  id : Nat
  phase : Nat
  d : Nat
  kind : Nat
deriving DecidableEq, Repr, Inhabited

/-- A bound straggler record (R289 to R291), with the unit's counts WRITE and DROP. -/
structure Strag where
  buf : BitVec 128
  rk : Nat
  slots : Nat
  slotsz : Nat
  waiting : List (List Byte)
  write : Nat
  drop : Nat
deriving DecidableEq, Repr, Inhabited

/-- The lag history of one module on a harness (R292): up to 16 scored phases, newest first, and the flag. -/
structure LagMod where
  chip : Nat
  hist : List (Bool × Nat)
  lagging : Bool
deriving DecidableEq, Repr, Inhabited

/-- A rank of a collective (R341, R373): the strictness of its source and of its destination, source lines that came from other modules or that they refused, whether its
blocks have gone to the module that holds the harness, the status that waits for its writes to other modules; its member, its phase, whether that phase has completed, what its COLL asked, the cause
it fails with, and the blocks that came from a rank on another module, with how many of them count as zero. -/
structure CollRank where
  idx : Nat
  who : Member
  phase : Nat
  ready : Bool
  sn : Nat
  id : Nat
  pc : Nat
  d : Nat
  w : Nat
  blocks : Nat
  dst : BitVec 128
  src : BitVec 128
  moff : Nat
  eoff : Nat
  doff : Nat
  strict : Bool
  dstrict : Bool
  issued : Nat
  cause : Option Nat
  data : List (Nat × List Nat)
  zero : Nat
  got : List PeerLine
  lost : List (Nat × Nat)
  sent : Bool
  ending : Option W32
deriving DecidableEq, Repr, Inhabited

/-- A harness (R242 to R259, R289 to R292). For one held on another module, `holder` is that module's chip id and the entry
keeps this module's members only. -/
structure Harness where
  handle : W32
  holder : Nat
  rk : Nat
  span : Span
  unit : Option HUnit
  counted : Bool
  created : Nat
  phase : W32
  kind : Option HKind
  count : Nat
  members : List HMember
  queued : Nat
  arrivals : List HArrive
  coming : List HComing
  first : Nat
  lost : Bool
  past : List Nat
  waiters : List HWaiter
  strag : Option Strag
  lag : List LagMod
  failed : Bool
  ranks : List CollRank
deriving DecidableEq, Repr, Inhabited

/-- An active queue (R265): the counters the queue engine holds, the tickets written and not yet published, and the region that
pushed each ticket not yet consumed (R276). -/
structure Queue where
  vf : Nat
  va : Nat
  kind : Nat
  logcap : Nat
  prod : Bool
  cons : Bool
  tag : Nat
  head : W32
  tail : W32
  free : W32
  rtail : W32
  htail : W32
  hhead : W32
  written : List Nat
  pushers : List (Nat × Nat)
deriving DecidableEq, Repr, Inhabited

/-- Who issued an outstanding remote access (R340). -/
inductive RemoteOwner where
  | load (who : StrandRef) (id : Nat) (lanes : List Nat)
  | store (core : Nat) (ids : List Nat)
  | scload (who : StrandRef) (id : Nat)
  | copyLoad (core ch id : Nat)
  | copyStore (core ch id : Nat)
  | updLoad (core id : Nat)
  | updStore (core id : Nat)
  | collLoad (key : HKey) (id : Nat)
  | collStore (key : HKey) (id : Nat)
  | matrixLoad (sid arr id : Nat)
  | matrixStore (who : StrandRef) (id : Nat) (strict : Bool)
deriving DecidableEq, Repr, Inhabited

/-- An outstanding remote access (R340). -/
structure Remote where
  id : Nat
  chip : Nat
  owner : RemoteOwner
  va : Nat
  size : Nat
  since : Nat
  tmo : Nat
deriving DecidableEq, Repr, Inhabited

/-- What this module has sent to the host or another module; the model's own field, read by nothing
(DESIGN CHOICE, notes/assumptions/9.md). -/
inductive OutMsg where
  | pri (batch vf : Nat) (pages : List Nat)
  | offer (o : Offer) (chip : Nat)
  | withdraw (jn chip : Nat)
  | lagNote (chip ftid tag : Nat) (on : Bool)
  | harness (chip : Nat) (key : HKey) (who : Member) (msg : HMsg)
  | released (chip : Nat) (key : HKey) (ftid tag : Nat) (msg : HReply)
  | remote (chip ftid tag id va size : Nat) (kind : InKind)
  | answer (chip : Nat) (a : RemoteAnswer)
  | claim (job : JobKey) (index : Nat)
  | stolenDone (job : JobKey) (index : Nat) (failed late : Bool) (cause : Nat)
  | killStolen (chip : Nat) (job : JobKey) (index : Nat)
  | probe (chip port : Nat)
  | image (chip ftid tag : Nat) (bytes : List Byte)
  | restored (chip : Nat) (job : JobKey) (index : Nat) (ok : Bool)
  | peerFault (chip : Nat) (entry : List Byte)
  | exhausted (kind : UnitKind) (place : Nat)
deriving DecidableEq, Repr, Inhabited

/-- A region for which this module lags (R293, R294): on how many harnesses, and when the flag was last set. -/
structure LagState where
  rk : Nat
  n : Nat
  since : Nat
deriving DecidableEq, Repr, Inhabited

/-- An offer a job has made (R295): when the lag was set and when it last went out. -/
structure OfferMade where
  jn : Nat
  rk : Nat
  last : Nat
deriving DecidableEq, Repr, Inhabited

/-- An offer received (R295, R296, R299): when it came, whether the signature and the page hashes of the local copy of its code passed, the next index to try and the
attempts left. -/
structure OfferGot where
  o : Offer
  time : Nat
  good : Bool
  next : Nat
  tries : Nat
deriving DecidableEq, Repr, Inhabited

/-- A weight load in progress (R345). -/
structure WLoad where
  id : Nat
  queue : Option Nat
  vf : Nat
  dst : Nat
  src : Nat
  len : Nat
deriving DecidableEq, Repr, Inhabited

/-- A watch entry of a die, oldest first (R285). -/
structure WatchEnt where
  die : Nat
  g : GroupRef
deriving DecidableEq, Repr, Inhabited

/-- The management state of the hub and the controller. `routes` lists the routes of the Zuzin ports: port, chip, and whether it works; `noRoute` the chips without one
and since when; `replacing` the units in failure that wait to be replaced by a spare (R16, R347); `coreMap` the logical cores that do not lie on the physical core of their number (R15); `probes` the unreachable chips with the cycle of
their last probe (R339); `firmware` whether the controller has accepted its firmware since the last reset (R343, R346) (R11, R16, R17, R331, R333, R335, R340, R344, R345, R349). -/
structure Mgmt where
  hold : Bool
  degraded : Bool
  failed : Bool
  used : List (UnitKind × Nat × Nat)
  report : List Byte
  apertures : List (Nat × Nat)
  loads : List WLoad
  readVal : List Byte
  faultLog : List (List Byte)
  faultOverflow : Nat
  softErrors : Nat
  stealTries : Nat
  stealWins : Nat
  stealFails : Nat
  locked : Bool
  fifo : List (List Byte)
  unreachable : List Nat
  routes : List (Nat × Nat × Bool)
  noRoute : List (Nat × Nat)
  replacing : List (UnitKind × Nat × Nat)
  coreMap : List (Nat × Nat)
  probes : List (Nat × Nat) := []
  firmware : Bool := true
deriving DecidableEq, Repr, Inhabited

/-- What the instructions of a pair read (R69): their slice, group and core as they are before either writes. -/
structure Before where
  slice : Slice
  group : Group
  core : Core
deriving DecidableEq, Repr, Inhabited

/-- The cursor: the strand whose instruction is being executed, where it stands and the slot after it (or after its pair), the
cycle of its first pass, whether it pays its own budget cycle, whether its trace record is still to be written, whether the other
instruction of its pair has been executed already, the first slot of a pair whose second is tried alone, the passes that its pair takes together (R31), where it reads
its sources (R24, R69), the cause, lane and detail of the trap that kept it from issuing, whether it is presented from the held queue (R103), and for the first instruction of a
split pair that transfers control after the second what it read at its own issue, which is paid (R70). An instruction that issues clears it. The
model's own field (DESIGN CHOICE, notes/assumptions/2.md). -/
structure Cursor where
  who : StrandRef
  pc : Nat
  nextPc : Nat
  cycle : Nat
  charge : Bool
  trace : Bool
  second : Bool
  pairPc : Option Nat
  passes : Nat
  src : Option Before
  met : Option (Nat × Nat × Nat)
  held : Option Held
  sources : List RegWr := []
  paid : Bool := false
deriving DecidableEq, Repr, Inhabited

/-- The machine. The last fields are the model's own: `agenda`, `turn` and `cur` (DESIGN CHOICE, notes/assumptions/2.md), `nextId`, which
numbers results, batches and slices, and `out`. -/
structure State where
  clock : Nat
  chip : Nat
  mem : List (Nat × Byte)
  memFailed : List Nat
  hostMem : List (Nat × Byte)
  hostPages : List (Nat × Bool × Bool × Bool)
  tenants : List (Nat × Tenant)
  regions : List (Nat × Region)
  queues : List Queue
  jobs : List (Nat × Job)
  slices : List (Nat × Slice)
  cores : List (Nat × Core)
  harnesses : List (HKey × Harness)
  gens : List (Nat × Nat)
  watches : List WatchEnt
  promoted : List (Nat × Nat × Nat)
  dcache : List (Nat × List CacheLine)
  remotes : List Remote
  batches : List (Nat × Batch)
  lagging : List LagState
  made : List OfferMade
  got : List OfferGot
  mgmt : Mgmt
  agenda : List Instr
  turn : Nat
  cur : Option Cursor
  nextId : Nat
  out : List OutMsg
deriving DecidableEq, Repr, Inhabited

/-- A zero plane (R196). -/
def Plane.zero : Plane := ⟨.e4m3, [], [], false, []⟩
/-- An array as it stands at placement (R196). -/
def ArraySt.reset : ArraySt := ⟨.zero, .zero, 0, []⟩
/-- A channel after module reset (R227). -/
def Chan.reset : Chan := ⟨0, []⟩
/-- A debug block after module reset (R319). -/
def Debug.reset : Debug := ⟨0, 0, 0, 0, 0, 0, 0, 0, [0, 0, 0, 0], [0, 0], [0, 0], []⟩
/-- A trace unit after module reset. -/
def Trace.reset : Trace := ⟨none, 0, 0, [], 0, []⟩
/-- A bay no run holds. -/
def Bay.reset : Bay := ⟨none, 0⟩
/-- A core after module reset. -/
def Core.reset : Core :=
  ⟨[.reset, .reset, .reset, .reset], [], [], .reset, .reset, [.reset, .reset, .reset, .reset], []⟩
/-- A tenant entry after module reset (R337). -/
def Tenant.reset : Tenant := ⟨[0, 0, 0, 0], 0, 0, 2000, 0, 0, false, false, false⟩
/-- The management state after module reset (R333, R346). -/
def Mgmt.reset : Mgmt :=
  { hold := false, degraded := false, failed := false, used := [], report := [], apertures := [], loads := [], readVal := [],
    faultLog := [], faultOverflow := 0, softErrors := 0, stealTries := 0, stealWins := 0, stealFails := 0, locked := true,
    fifo := [], unreachable := [], routes := [], noRoute := [], replacing := [], coreMap := [] }

/-- The machine right after module reset (R5, R82, R319, R337, R346): the clock at 0, every tenant entry invalid, no region,
job, slice or harness, memory with nothing listed. The chip id is 0 (DESIGN CHOICE, notes/assumptions/5.md). -/
def State.reset : State :=
  { clock := 0, chip := 0, mem := [], memFailed := [], hostMem := [], hostPages := [], tenants := [], regions := [],
    queues := [], jobs := [], slices := [], cores := [], harnesses := [], gens := [], watches := [],
    promoted := [], dcache := [], remotes := [], batches := [], lagging := [], made := [], got := [], mgmt := .reset, agenda := [],
    turn := 0, cur := none, nextId := 0, out := [] }

/-- The memory form of the model: addresses strictly rise and no entry holds what an unlisted address reads as, 0
(DESIGN CHOICE, notes/assumptions/1.md). -/
def Memory.wf (m : List (Nat × Byte)) : Bool := Sparse.wf 0#8 m

end Sys2Proof.Machine
end

