-- ==== Sys2Proof/Machine/Ops.lean ====
section
/-!
DEFINITION. The named operations over the state: slices, groups, strands, registers and their views in time, cores and
counters, regions, memory, translation, and taking a trap and resuming from one.
-/

namespace Sys2Proof.Machine

/-! ### Finding and changing parts of the state -/

/-- A slice by its model number. -/
def State.slice? (s : State) (sid : Nat) : Option Slice := Sparse.find s.slices sid
/-- A slice changed. -/
def State.modSlice (s : State) (sid : Nat) (f : Slice → Slice) : State :=
  match s.slice? sid with
  | none => s
  | some x => { s with slices := Sparse.set s.slices sid (f x) }
/-- A group of a slice. -/
def State.group? (s : State) (sid gi : Nat) : Option Group := (s.slice? sid).bind fun x => x.groups[gi]?
/-- A slice with a group changed. -/
def Slice.modGroup (x : Slice) (gi : Nat) (f : Group → Group) : Slice :=
  match x.groups[gi]? with
  | none => x
  | some g => { x with groups := setAt x.groups gi (f g) }
/-- A group changed. -/
def State.modGroup (s : State) (sid gi : Nat) (f : Group → Group) : State := s.modSlice sid fun x => x.modGroup gi f
/-- A live strand of a group. -/
def Group.strand? (g : Group) (sn : Nat) : Option Strand := g.strands.find? fun t => t.sn == sn
/-- A group with a strand changed. -/
def Group.modStrand (g : Group) (sn : Nat) (f : Strand → Strand) : Group :=
  { g with strands := updFirst (fun t => t.sn == sn) f g.strands }
/-- A strand by its name. -/
def State.strand? (s : State) (r : StrandRef) : Option Strand := (s.group? r.sid r.gi).bind fun g => g.strand? r.sn
/-- A strand changed. -/
def State.modStrand (s : State) (r : StrandRef) (f : Strand → Strand) : State :=
  s.modGroup r.sid r.gi fun g => g.modStrand r.sn f
/-- A deferred trap that a command of a strand owes (R96, R306): where the strand runs the parts of a serialised fork it is owed by the last of them, which is no arm. -/
def State.oweCommand (s : State) (r : StrandRef) (d : Deferred) : State := s.modStrand r fun t => match t.next.reverse with
  | [] => { t with deferred := t.deferred ++ [d] }
  | p :: l => { t with next := l.reverse ++ [{ p with owed := p.owed ++ [d] }] }
/-- A strand put in a state of R28. -/
def State.setStrandState (s : State) (r : StrandRef) (x : SState) : State := s.modStrand r fun t => { t with st := x }
/-- A core; one never touched is as after reset. -/
def State.core (s : State) (c : Nat) : Core := Sparse.get Core.reset s.cores c
/-- A core changed. -/
def State.modCore (s : State) (c : Nat) (f : Core → Core) : State := { s with cores := Sparse.set s.cores c (f (s.core c)) }
/-- A job by its model number. -/
def State.job? (s : State) (jn : Nat) : Option Job := Sparse.find s.jobs jn
/-- A job changed. -/
def State.modJob (s : State) (jn : Nat) (f : Job → Job) : State :=
  match s.job? jn with
  | none => s
  | some x => { s with jobs := Sparse.set s.jobs jn (f x) }
/-- The tenant entry of a virtual function (R337). -/
def State.tenant (s : State) (vf : Nat) : Tenant := Sparse.get Tenant.reset s.tenants vf
/-- The key of a region: its virtual function and its tag. -/
def regionKey (vf tag : Nat) : Nat := vf * 4096 + tag
/-- The virtual function of a region key. -/
def keyVf (rk : Nat) : Nat := rk / 4096
/-- The tag of a region key. -/
def keyTag (rk : Nat) : Nat := rk % 4096
/-- A region by its key. -/
def State.region? (s : State) (rk : Nat) : Option Region := Sparse.find s.regions rk
/-- A region changed. -/
def State.modRegion (s : State) (rk : Nat) (f : Region → Region) : State :=
  match s.region? rk with
  | none => s
  | some x => { s with regions := Sparse.set s.regions rk (f x) }
/-- A fresh model number. -/
def State.fresh (s : State) : Nat × State := (s.nextId, { s with nextId := s.nextId + 1 })
/-- Device time in nanoseconds (R5). -/
def timeAt (clock : Nat) : Nat := clock * 5 / 7
/-- Device time now. -/
def State.time (s : State) : Nat := timeAt s.clock
/-- A message sent out. -/
def State.emit (s : State) (m : OutMsg) : State := { s with out := s.out ++ [m] }

/-- Whether region `a` is `r` or an ancestor of it, within the 8 levels of R38. -/
def State.isAncestorN (s : State) (a : Nat) : Nat → Nat → Bool
  | 0, _ => false
  | n + 1, r => a == r || (match (s.region? r).bind Region.parent with
    | none => false
    | some p => s.isAncestorN a n p)
/-- Whether region `a` is `r` or an ancestor of it (R38). -/
def State.isAncestor (s : State) (a r : Nat) : Bool := s.isAncestorN a 8 r
/-- Whether the region's resolved strict bit is on (R274, R314). -/
def State.strictRegion (s : State) (rk : Nat) : Bool := match s.region? rk with
  | none => false
  | some r => r.strict
/-- The region key of a slice. -/
def State.sliceRegion (s : State) (x : Slice) : Nat := match s.job? x.jn with
  | none => 0
  | some j => j.rk

/-! ### Group ids, bays and lanes -/

/-- The die of a core. -/
def dieOf (core : Nat) : Nat := core / Config.coresPerDie
/-- The group id die(2) : core(6) : bay(2) : slot(4) of R15. -/
def gidOf (core bay slot : Nat) : Nat :=
  dieOf core * 4096 + core % Config.coresPerDie * 64 + bay * 16 + slot
/-- The group id of a group of a slice. -/
def groupId (x : Slice) (g : Group) : Nat := gidOf x.core g.bay g.slot
/-- Issue passes of a width (R21). -/
def passesOf (width : Nat) : Nat := if width ≤ 32 then 1 else width / 32
/-- The width of a slice's job (R21). -/
def State.widthOf (s : State) (x : Slice) : Nat := match s.job? x.jn with
  | none => 32
  | some j => j.hdr.width

/-! ### Registers and their views in time (R25, R66 to R68) -/

/-- Word `i` of a scale record's field that starts at byte `base` (R130). -/
def recWord (r : List Byte) (base i : Nat) : W32 := BitVec.ofNat 32 (ofBytes ((r.drop (base + 4 * i)).take 4))
/-- A lane set or cleared in a mask. -/
def Mask.put (m : Mask) (l : Nat) (x : Bool) : Mask :=
  if x then m ||| BitVec.ofNat 128 (2 ^ l) else m &&& ~~~ BitVec.ofNat 128 (2 ^ l)
/-- A strand's lane predicate; p7 is true (R81). -/
def Ctx.pred (c : Ctx) (i lane : Nat) : Bool := i == 7 || (c.p.getD i 0).getLsbD lane
/-- A group predicate; gp7 is true (R81). -/
def Group.gpred (g : Group) (i : Nat) : Bool := i == 7 || g.gp.getLsbD i
/-- A v register of a lane. -/
def Group.vreg (g : Group) (r lane : Nat) : W32 := Sparse.get 0 g.v (r * 128 + lane)
/-- A g register. -/
def Group.greg (g : Group) (r : Nat) : W32 := Sparse.get 0 g.g r
/-- A buffer record register; the all-zero record is null (R81). -/
def Group.breg (g : Group) (i : Nat) : BitVec 128 := Sparse.get 0 g.b i
/-- A tile handle register. -/
def Group.threg (g : Group) (i : Nat) : BitVec 256 := Sparse.get 0 g.th i
/-- A harness handle register. -/
def Group.hreg (g : Group) (i : Nat) : HVal := Sparse.get ⟨0, 0⟩ g.h i
/-- A scale register as software reads it (R80, R132): 1.0 at launch. -/
def Group.screg (g : Group) (i : Nat) : W32 := match g.replay with
  | some r => recWord r 16 i
  | none => Sparse.get 0x3F800000 g.sc i
/-- An amax register as software reads it (R132). -/
def Group.amreg (g : Group) (i : Nat) : W32 := match g.replay with
  | some r => recWord r 48 i
  | none => Sparse.get 0 g.am i
/-- FMT as a strand reads it (R132). -/
def Group.fmtOf (g : Group) (c : Ctx) : W32 := match g.replay with
  | some r => recWord r 8 0
  | none => c.fmt

/-- The lane predicates p0 to p6 of a strand (R81): a list of seven, whatever is listed. -/
def sevenPreds (l : List Mask) : List Mask := l ++ List.replicate (7 - l.length) 0
/-- The ECC word that a register write stores, if that is a whole one (R315). -/
def RegWr.word : RegWr → EccWord
  | .v r l _ => .vreg r l
  | .g r _ => .reg .g r
  | .p sn i _ _ => .pred sn i
  | .gp i _ => .reg .gp i
  | .h i _ => .reg .h i
  | .b i _ => .reg .b i
  | .th i _ => .reg .th i
  | .am i _ => .reg .am i
  | .sc i _ => .reg .sc i
/-- An ECC word that has been stored holds no error any more (R315). -/
def Group.mend (g : Group) (w : EccWord) : Group := if g.ecc.isEmpty then g else { g with ecc := g.ecc.filter fun e => e != w }
/-- One register write carried out. The magnitudes of `am` are compared as bit patterns, which orders +0 to +∞ and puts the
canonical NaN above them all (R354, R221). A lane predicate goes to the copy of the strand that is named, which after a FORK is the continuation's
(DEDUCED, notes/assumptions/19.md). -/
def RegWr.apply (g : Group) (w : RegWr) : Group := match w with
  | .v r lane x => { g with v := Sparse.put 0 g.v (r * 128 + lane) x }
  | .g r x => { g with g := Sparse.put 0 g.g r x }
  | .p sn i lane x =>
    g.modStrand sn fun t => { t with c := { t.c with p := setAt (sevenPreds t.c.p) i (Mask.put (t.c.p.getD i 0) lane x) } }
  | .gp i x => { g with gp := if x then g.gp ||| BitVec.ofNat 8 (2 ^ i) else g.gp &&& ~~~ BitVec.ofNat 8 (2 ^ i) }
  | .h i x => { g with h := Sparse.put ⟨0, 0⟩ g.h i x }
  | .b i x => { g with b := Sparse.put 0 g.b i x }
  | .th i x => { g with th := Sparse.put 0 g.th i x }
  | .sc i x => { g with sc := Sparse.put 0x3F800000 g.sc i x }
  | .am i x => if (Sparse.get 0 g.am i).toNat < x.toNat then { g with am := Sparse.put 0 g.am i x } else g
/-- A register write carried out, after which the word that it stores is free of errors (R315). A lane predicate or an am register is stored in part and keeps its error. -/
def RegWr.store (g : Group) (w : RegWr) : Group := match w with
  | .p .. => w.apply g
  | .am .. => w.apply g
  | _ => (w.apply g).mend w.word
/-- Register writes carried out in order. -/
def applyAll (g : Group) (l : List RegWr) : Group := l.foldl RegWr.store g
/-- The group as a pass at cycle `t` reads it: every fixed-latency result readable by then has landed (R25, R67). -/
def Group.view (g : Group) (t : Nat) : Group :=
  (g.fixed.filter fun f => decide (f.at_ ≤ t)).foldl (fun g f => applyAll g f.wrs) g
/-- The group with every fixed-latency result landed, as it is when a strand's state is saved (R71). -/
def Group.settled (g : Group) : Group := g.fixed.foldl (fun g f => applyAll g f.wrs) g
/-- The group with every result readable by cycle `t` landed for good. -/
def Group.land (g : Group) (t : Nat) : Group :=
  { g.view t with fixed := g.fixed.filter fun f => !decide (f.at_ ≤ t) }
/-- Whether a write goes to a register of a class and number. -/
def RegWr.hits (c : Cls) (n : Nat) : RegWr → Bool
  | .v r _ _ => c == .v && r == n
  | .g r _ => c == .g && r == n
  | .p _ i _ _ => c == .p && i == n
  | .gp i _ => c == .gp && i == n
  | .h i _ => c == .h && i == n
  | .b i _ => c == .b && i == n
  | .th i _ => c == .th && i == n
  | .am i _ => c == .am && i == n
  | .sc i _ => c == .sc && i == n
/-- The lane of a write, 0 for a register held once per group. -/
def RegWr.lane : RegWr → Nat
  | .v _ l _ => l
  | .p _ _ l _ => l
  | _ => 0

/-- A pending scoreboarded result added to a group. -/
def State.addInflight (s : State) (r : StrandRef) (f : Inflight) : State :=
  s.modGroup r.sid r.gi fun g => { g with inflight := g.inflight ++ [f] }
/-- A pending scoreboarded result by its number, the newest of that number. -/
def Group.inflight? (g : Group) (id : Nat) : Option Inflight := g.inflight.reverse.find? fun f => f.id == id
/-- Whether the second instruction of a result's pair has the last word on a write (R69). -/
def Inflight.shadows (f : Inflight) (w : RegWr) : Bool := f.shadow.any fun e =>
  w.hits e.1 e.2.1 && (!(e.1 == .v || e.1 == .p) || e.2.2.getLsbD w.lane)
/-- A strand's older fixed-latency writes to the registers of a result are dropped: results land in issue order (R68). -/
def Group.overtake (g : Group) (f : Inflight) : Group :=
  let hit := fun (w : RegWr) => f.dst.any fun d => w.hits d.1 d.2 && (!(d.1 == .v || d.1 == .p) || f.mask.getLsbD w.lane) && !f.shadows w
  { g with fixed := g.fixed.map fun y => if y.sn == f.sn then { y with wrs := y.wrs.filter fun w => !hit w } else y }
/-- A pending result written (R66, R68, R71): its registers receive `wrs` and it is pending no longer. -/
def State.complete (s : State) (sid gi id : Nat) (wrs : List RegWr) : State :=
  s.modGroup sid gi fun g => match g.inflight? id with
    | none => g
    | some f => { applyAll (g.overtake f) (wrs.filter fun w => !f.shadows w) with inflight := g.inflight.filter fun y => y.id != id }
/-- Fixed-latency results added to a group. -/
def State.addFixed (s : State) (r : StrandRef) (l : List Fixed) : State :=
  s.modGroup r.sid r.gi fun g => { g with fixed := g.fixed ++ l }

/-! ### Counters (R274, R328) -/

/-- The counters of R328 in the order of their offsets. -/
inductive Counter where
  | instructions | runs | runBreaks | runOverlength | pairSplits | forksSerialised | bankConflicts | channelFull
  | shutterWaits | runAhead | softErrors | skipped | mwaitParks | forcedWins | idleCycles | samples
deriving DecidableEq, Repr, Inhabited

/-- The place of a counter in the block: its offset is 0x80 + 8 × this. -/
def Counter.index : Counter → Nat
  | .instructions => 0 | .runs => 1 | .runBreaks => 2 | .runOverlength => 3 | .pairSplits => 4 | .forksSerialised => 5
  | .bankConflicts => 6 | .channelFull => 7 | .shutterWaits => 8 | .runAhead => 9 | .softErrors => 10 | .skipped => 11
  | .mwaitParks => 12 | .forcedWins => 13 | .idleCycles => 14 | .samples => 15

/-- A saturating 64-bit sum. -/
def satAdd64 (a : W64) (n : Nat) : W64 := BitVec.ofNat 64 (min (a.toNat + n) (2 ^ 64 - 1))
/-- Whether a region passes the filter of TCTL on a core (R320). -/
def State.passesFilter (s : State) (core rk : Nat) : Bool :=
  let t := (s.core core).dbg.tctl.toNat
  !bitAt t 19 || s.isAncestor (regionKey (keyVf rk) (bitsAt t 20 12)) rk
/-- A counter of a core raised for an event of a region's slice (R328). -/
def State.count (s : State) (core rk : Nat) (c : Counter) (n : Nat) : State :=
  if n == 0 || !s.passesFilter core rk then s
  else s.modCore core fun k =>
    let v := satAdd64 (Sparse.get 0 k.dbg.counters c.index) n
    { k with dbg := { k.dbg with counters := Sparse.set k.dbg.counters c.index v } }

/-! ### Physical memory (R137, R146, R153) -/

/-- What a byte of main memory holds; one never written is 0 (DESIGN CHOICE, notes/assumptions/1.md). -/
def State.byteAt (s : State) (pa : Nat) : Byte := Sparse.get 0#8 s.mem pa
/-- Whether a physical address lies in the module's map (R137). -/
def paValid (pa : Nat) : Bool := decide (pa < 0x8400000000)
/-- Whether a physical address lies in the weight store (R137). -/
def paIsWs (pa : Nat) : Bool := decide (0x8000000000 ≤ pa)
/-- Whether an address lies in a weight-store bank group whose refresh window is open at a cycle (R150, R151). -/
def shuttered (clock pa : Nat) : Bool :=
  paIsWs pa && decide ((clock + 89600 - 5600 * bitsAt pa 28 4) % 89600 < 2100)
/-- The home die of a physical address (R137). -/
def paDie (pa : Nat) : Nat := if paIsWs pa then (pa - 0x8000000000) / 0x100000000 else pa / 0x2000000000
/-- The first byte of the error granule of a physical address: 32 bytes of main memory, 64 of weight store (R146). -/
def granuleOf (pa : Nat) : Nat := if paIsWs pa then pa / 64 * 64 else pa / 32 * 32
/-- The size of the error granule. -/
def granuleSize (pa : Nat) : Nat := if paIsWs pa then 64 else 32
/-- Whether a byte lies in a failed granule. -/
def State.failedAt (s : State) (pa : Nat) : Bool := s.memFailed.contains (granuleOf pa)
/-- The failed granules that `n` bytes from an address touch. -/
def State.failedIn (s : State) (pa n : Nat) : List Nat :=
  s.memFailed.filter fun f => decide (f < pa + n) && decide (pa < f + granuleSize f)
/-- The watches on a line fire (R284). -/
def fireWatches (s : State) (pa n : Nat) : State :=
  s.watches.foldl (fun s w => s.modGroup w.g.sid w.g.gi fun g =>
    match g.watch with
    | some wt => match wt.line with
      | some l => if decide (l * 128 < pa + n) && decide (pa < l * 128 + 128)
          then { g with watch := some { wt with fired := true } } else g
      | none => g
    | none => g) s
/-- The sectors of a die-cache line that some bytes of it touch. -/
def sectorsOf (line pa n : Nat) : BitVec 4 := BitVec.ofNat 4 ((List.range 4).foldl (fun m i =>
  if decide (line * 128 + 32 * i < pa + n) && decide (pa < line * 128 + 32 * i + 32) then m + 2 ^ i else m) 0)
/-- A region's die-cache quota as its RCB resolves it, with its ancestors': whether a fill of a line for it meets a full one (R38, R149). -/
def State.quotaFull (s : State) (l : List CacheLine) : Nat → Nat → Option Nat
  | 0, _ => none
  | n + 1, rk => match s.region? rk with
    | none => none
    | some r =>
      if r.dcquota != 0 && decide (r.dcquota * 8192 ≤ (l.filter fun y => s.isAncestor rk y.rk).length) then some rk
      else match r.parent with
        | none => none
        | some p => s.quotaFull l n p
/-- The line of a die cache that a fill for a region takes the place of (R149): with a quota full, the oldest of the region's own lines, else the oldest
line of a full cache. Answers none where no line has to go, and otherwise the line, if there is one. -/
def State.victim (s : State) (l : List CacheLine) (rk : Nat) : Option (Option CacheLine) := match s.quotaFull l 8 rk with
  | some q => match l.find? fun y => y.rk == rk with
    | some y => some (some y)
    | none => some (l.find? fun y => s.isAncestor q y.rk)
  | none => if decide (Config.dieCacheLines ≤ l.length) then some l.head? else none
/-- Bytes of a line of main memory reach its home die's cache for a region (R146, R149): their sectors are resident, and dirty where they are written. The line
that a fill evicts is written back: a dirty sector with an error leaves its granule failed in main memory (R314), as it already reads. A promotion record of it stays
until the drain that must come before the eviction is over (R172). -/
def State.cacheLine (s : State) (rk line pa n : Nat) (write : Bool) : State :=
  let die := paDie (line * 128)
  let l := Sparse.get [] s.dcache die
  let m := sectorsOf line pa n
  let touch := fun (y : CacheLine) => { y with valid := y.valid ||| m, dirty := if write then y.dirty ||| m else y.dirty }
  let put := fun (s : State) (l : List CacheLine) => { s with dcache := Sparse.put [] s.dcache die l }
  if l.any fun y => y.line == line then put s (updFirst (fun y => y.line == line) touch l)
  else
    let new := touch ⟨line, rk, 0, 0, 0⟩
    match s.victim l rk with
    | none => put s (l ++ [new])
    | some none => s
    | some (some v) => put s ((l.filter fun y => y.line != v.line) ++ [new])
/-- Bytes of main memory reach the die cache for a region, line by line; the weight store is not cached (R149, R150). -/
def State.cacheTouch (s : State) (rk pa n : Nat) (write : Bool) : State :=
  if paIsWs pa || n == 0 then s
  else (List.range ((pa + n - 1) / 128 - pa / 128 + 1)).foldl (fun s i => s.cacheLine rk (pa / 128 + i) pa n write) s
/-- The sectors of failed granules that have been stored whole hold no error any more. -/
def State.cacheMend (s : State) (l : List Nat) : State :=
  if l.isEmpty then s
  else { s with dcache := s.dcache.map fun e => (e.1, e.2.map fun y => { y with bad := BitVec.ofNat 4 ((List.range 4).foldl (fun n i =>
      if y.bad.getLsbD i && !l.contains (y.line * 128 + 32 * i) then n + 2 ^ i else n) 0) }) }
/-- Bytes written at the home point (R169): watches on their lines fire. Failed granules are not looked at. -/
def State.poke (s : State) (pa : Nat) (bs : List Byte) : State :=
  fireWatches { s with mem := Sparse.putList 0#8 s.mem pa bs } pa bs.length
/-- Bytes read without regard to failed granules. -/
def State.peek (s : State) (pa n : Nat) : List Byte := Sparse.getList 0#8 s.mem pa n
/-- Bytes read as R153 reads them outside strict mode: the value, and the failed granules met. An element that overlaps a
failed granule reads zero. -/
def State.readPa (s : State) (pa n : Nat) : List Byte × List Nat :=
  match s.failedIn pa n with
  | [] => (s.peek pa n, [])
  | l => (List.replicate n 0#8, l)
/-- Bytes stored under R153: a store over a whole failed granule clears it, a narrower one into a failed granule is dropped.
Answers the failed granules that dropped bytes. -/
def State.writePa (s : State) (pa : Nat) (bs : List Byte) : State × List Nat :=
  let n := bs.length
  match s.failedIn pa n with
  | [] => (s.poke pa bs, [])
  | l =>
    let whole := l.filter fun f => decide (pa ≤ f) && decide (f + granuleSize f ≤ pa + n)
    let part := l.filter fun f => !whole.contains f
    let s := { s with memFailed := s.memFailed.filter fun f => !whole.contains f }.cacheMend whole
    let m := (bs.zip (List.range n)).foldl
      (fun m e => if part.contains (granuleOf (pa + e.2)) then m else Sparse.put 0#8 m (pa + e.2) e.1) s.mem
    (fireWatches { s with mem := m } pa n, part)
/-- The key of a byte of the host half's memory. -/
def hostKey (vf va : Nat) : Nat := vf * 2 ^ 57 + va

/-! ### Translation (R134 to R137, R144) -/

/-- A device-half leaf as the walker found it: the physical address of the byte, the module, the permissions and the page
size. -/
structure Leaf where
  chip : Nat
  pa : Nat
  ws : Bool
  at_ : Bool
  x : Bool
  w : Bool
  rd : Bool
  page : Nat
deriving DecidableEq, Repr, Inhabited

/-- The levels of the device-half tables (R135): the low index bit, the index bits, and the page size of a leaf. -/
def walkLevels : List (Nat × Nat × Option Nat) :=
  [(42, 14, none), (28, 14, some (2 ^ 28)), (21, 7, some (2 ^ 21)), (16, 5, some (2 ^ 16))]
/-- Whether a leaf entry breaks a rule of R136. -/
def leafBad (chip pa e page : Nat) : Bool :=
  let other := bitsAt e 48 12 != chip
  let ws := bitAt e 6
  pa % page != 0 || (other && (ws || bitAt e 4)) ||
    (!other && (!paValid pa || !paValid (pa + page - 1) || ws != paIsWs pa || ws != paIsWs (pa + page - 1)))
/-- The table walk (R135, R136): `none` for anything that faults like a not-present entry. The index is added to the table's base as it is given, an entry in a failed
granule is read as it is stored, and a table in the weight store is read there (DESIGN CHOICE, notes/assumptions/18.md). -/
def State.walkFrom (s : State) (va : Nat) : Nat → List (Nat × Nat × Option Nat) → Option Leaf
  | _, [] => none
  | table, (lo, n, size) :: rest =>
    let at_ := table + bitsAt va lo n * 8
    if !paValid at_ then none
    else
      let e := ofBytes (s.peek at_ 8)
      let pa := bitsAt e 8 40 * 256
      if !bitAt e 0 || bitsAt e 60 4 != 0 || bitAt e 7 then none
      else if bitAt e 1 then
        match size with
        | none => none
        | some page =>
          if leafBad s.chip pa e page then none
          else some ⟨bitsAt e 48 12, pa + va % page, bitAt e 6, bitAt e 5, bitAt e 4, bitAt e 3, bitAt e 2, page⟩
      else if paValid pa then s.walkFrom va pa rest else none
/-- Whether an address lies in the device half (R134). -/
def inDevice (va : Nat) : Bool := bitAt va 56
/-- A device-half address translated by a tenant's tables; no address of the host half is (R134). -/
def State.walk (s : State) (vf va : Nat) : Option Leaf := if inDevice va then s.walkFrom va (s.tenant vf).root walkLevels else none

/-- The kinds of access that translation tells apart (R143, R144, R157). -/
inductive AccessKind where
  | load | store | atom | ldw
deriving DecidableEq, Repr, Inhabited

/-- The base of a family of class-2 causes (R143). -/
def AccessKind.base : AccessKind → Nat
  | .load => 128 | .store => 144 | .atom => 160 | .ldw => 128

/-- What translating one address gives: a place, a not-present page, or a fault kind of R143. -/
inductive TrRes where
  | ok (l : Loc)
  | absent (page : Nat)
  | bad (kind : Nat)
deriving DecidableEq, Repr, Inhabited

/-- The page that a not-present address joins a batch with: its 64 KiB page in the device half, its 4 KiB page in the host
half, the smallest that R134 and R136 have there (DESIGN CHOICE, notes/assumptions/18.md). -/
def pageOf (va : Nat) : Nat := if inDevice va then va / 65536 * 65536 else va / 4096 * 4096
/-- One address translated for an access (R144). -/
def State.translate (s : State) (vf : Nat) (k : AccessKind) (va : Nat) : TrRes :=
  if inDevice va then
    match s.walk vf va with
    | none => .absent (pageOf va)
    | some l =>
      let perm := match k with | .load => l.rd | .ldw => l.rd | .store => l.w | .atom => l.at_
      if !perm then .bad 3
      else if l.chip != s.chip then
        if k == .ldw then .bad 12
        else if s.mgmt.unreachable.contains l.chip then .bad 13 else .ok (.peer l.chip va)
      else if l.ws != (k == .ldw) then .bad 12
      else .ok (.mem l.pa)
  else
    let t := s.tenant vf
    if !t.ats || t.pasid == 0 then .bad 14
    else match s.hostPages.find? fun e => e.1 == hostKey vf (va / 4096 * 4096) with
      | none => .absent (pageOf va)
      | some (_, r, w, a) =>
        if (match k with | .load => r | .ldw => r | .store => w | .atom => a) then
          if k == .ldw then .bad 12 else .ok (.host vf va)
        else .bad 3

/-- The parts of a range of bytes that lie in different 64 KiB pages: their addresses and lengths, for at most two pages. -/
def pageParts (va n : Nat) : List (Nat × Nat) :=
  if va % 65536 + n ≤ 65536 then [(va, n)] else [(va, 65536 - va % 65536), (va + (65536 - va % 65536), n - (65536 - va % 65536))]
/-- Device-half bytes read by a hub unit through a tenant's tables; `none` when a byte has no local leaf of main memory (R150). -/
def State.devRead (s : State) (vf va n : Nat) : Option (List Byte) :=
  (pageParts va n).foldl (fun (r : Option (List Byte)) p => match r, s.walk vf p.1 with
    | some b, some l => if l.chip == s.chip && !l.ws then some (b ++ s.peek l.pa p.2) else none
    | _, _ => none) (some [])
/-- The physical address of a device-half address of a tenant, if it is local main memory (R150). -/
def State.devPa (s : State) (vf va : Nat) : Option Nat := match s.walk vf va with
  | none => none
  | some l => if l.chip == s.chip && !l.ws then some l.pa else none
/-- Device-half bytes written by a hub unit through a tenant's tables; nothing where there is no local leaf. -/
def State.devWrite (s : State) (vf va : Nat) (bs : List Byte) : State :=
  (pageParts va bs.length).foldl (fun s p => match s.devPa vf p.1 with
    | none => s
    | some pa => s.poke pa ((bs.drop (p.1 - va)).take p.2)) s
/-- Whether a range of device-half bytes can be read and written locally as main memory (R435). -/
def State.devOpen (s : State) (vf va n : Nat) : Bool :=
  (List.range ((va + n + 65535) / 65536 - va / 65536)).all fun k => match s.walk vf ((va / 65536 + k) * 65536) with
    | some l => l.chip == s.chip && l.rd && l.w && !l.ws
    | none => false
/-- Whether a range of device-half bytes meets a failed granule. -/
def State.devFailed (s : State) (vf va n : Nat) : Bool := (pageParts va n).any fun p => match s.devPa vf p.1 with
  | some pa => !(s.failedIn pa p.2).isEmpty
  | none => false
/-- A saturating 32-bit counter in the RCB of a region (R274): DMISS at byte 96, OOB at 100, UNCOR at 104, QERR at 108. -/
def State.countRcb (s : State) (rk off n : Nat) : State :=
  if n == 0 then s else
  match s.region? rk with
  | none => s
  | some r => match s.devRead (keyVf rk) (r.rcbVa + off) 4 with
    | none => s
    | some b => s.devWrite (keyVf rk) (r.rcbVa + off) (bytesOf 4 (min (ofBytes b + n) (2 ^ 32 - 1)))
/-- Out-of-bounds elements counted (R141). -/
def State.countOob (s : State) (rk n : Nat) : State := s.countRcb rk 100 n
/-- Failed granules counted (R153). -/
def State.countUncor (s : State) (rk n : Nat) : State := s.countRcb rk 104 n
/-- A queue error counted. -/
def State.countQerr (s : State) (rk : Nat) : State := s.countRcb rk 108 1
/-- A deadline miss counted (R32). -/
def State.countDmiss (s : State) (rk : Nat) : State := s.countRcb rk 96 1

/-! ### The scratchpad (R147, R153) -/

/-- Scratchpad bytes read, with whether a failed 4-byte granule was met; what nothing has written is 0
(DESIGN CHOICE, notes/assumptions/1.md). -/
def Slice.readScratch (x : Slice) (off n : Nat) : List Byte × List Nat :=
  let l := x.scratchFailed.filter fun f => decide (f < off + n) && decide (off < f + 4)
  if l.isEmpty then (Sparse.getList 0#8 x.scratch off n, []) else (List.replicate n 0#8, l)
/-- Scratchpad bytes written; whole failed granules clear, narrower stores into one are dropped. -/
def Slice.writeScratch (x : Slice) (off : Nat) (bs : List Byte) : Slice × List Nat :=
  let n := bs.length
  let l := x.scratchFailed.filter fun f => decide (f < off + n) && decide (off < f + 4)
  if l.isEmpty then ({ x with scratch := Sparse.putList 0#8 x.scratch off bs }, [])
  else
    let whole := l.filter fun f => decide (off ≤ f) && decide (f + 4 ≤ off + n)
    let part := l.filter fun f => !whole.contains f
    let m := (bs.zip (List.range n)).foldl
      (fun m e => if part.contains ((off + e.2) / 4 * 4) then m else Sparse.put 0#8 m (off + e.2) e.1) x.scratch
    ({ x with scratch := m, scratchFailed := x.scratchFailed.filter fun f => !whole.contains f }, part)

/-! ### Taking a trap (R306 to R309) and resuming from one (R312) -/

/-- The trap record of a strand's trap (R308): the state the record and its frame show, as it is when the trap is raised. A strand
that has ended shows nothing of its own; `retired` says that its group has. -/
def State.trapRecord (s : State) (r : StrandRef) (cause kind lane detail pc cpc : Nat) (defer : Bool) : Option TrapRec :=
  match s.slice? r.sid with
  | none => none
  | some x => match x.groups[r.gi]? with
    | none => none
    | some g =>
      let gv := g.settled
      let c := match gv.strand? r.sn with | some t => t.c | none => default
      let job := match s.job? x.jn with | some j => j.ticket | none => 0
      some { cause := cause, kind := kind, defer := defer, retired := false, who := some r, gid := groupId x g, pc := pc,
             cpc := cpc, lane := lane, mask := c.mask, slice := x.index, job := job, tag := keyTag (s.sliceRegion x),
             time := s.time, detail := detail, batch := none, pages := [], p := c.p, fmt := c.fmt, sp := c.sp, sl := c.sl,
             lo := c.lo, hi := min c.hi g.n, held := c.held.length, frames := g.frames.length, toSorser := false, cycle := s.clock, id := none }
/-- Whether a waiting record is pushed before another (R307): raised in an earlier cycle, or in the same cycle in a group or strand of a lower number, and not
yet without an id where the other has one. -/
def TrapRec.before (a b : TrapRec) : Bool :=
  a.id.isSome || decide (a.cycle < b.cycle) || (a.cycle == b.cycle && (decide (a.gid < b.gid) ||
    (a.gid == b.gid && decide ((match a.who with | some r => r.sn | none => 0) ≤ (match b.who with | some r => r.sn | none => 0)))))
/-- A record joins the records of its region that wait to be pushed (R307): records of one cycle stand in ascending group id, then strand number. -/
def State.queueRecord (s : State) (rk : Nat) (t : TrapRec) : State :=
  s.modRegion rk fun r => { r with waiting := (r.waiting.takeWhile fun y => y.before t) ++ t :: r.waiting.dropWhile fun y => y.before t }
/-- A run of a strand ends (R64): its bay is free for arbitration from the strand's next issue cycle on. -/
def State.endRun (s : State) (r : StrandRef) : State :=
  match s.slice? r.sid with
  | none => s
  | some x => match x.groups[r.gi]? with
    | none => s
    | some g =>
      let s := s.modCore x.core fun k => { k with bays := updBay k.bays g.bay r }
      s.modStrand r fun t => { t with runLen := 0, readySince := s.clock, st := if t.st == .issuing then .ready else t.st }
where
  /-- The bay list with the strand's run removed. -/
  updBay (l : List Bay) (b : Nat) (r : StrandRef) : List Bay :=
    match l[b]? with
    | none => l
    | some y => if y.run == some r then setAt l b { y with run := none } else l
/-- A strand leaves Ready for a waiting state (R28, R281): its run ends and its lost count returns to zero. -/
def State.putWait (s : State) (r : StrandRef) (w : SState) : State :=
  (s.endRun r).modStrand r fun t => { t with st := w, lost := 0 }
/-- TAKING A TRAP (R306, R307): the strand enters Stopped at `pc`, and a record of KIND 0 with CPC `cpc` waits to be pushed to
the trap queue of its region. `pc` is where a resume continues. Debug causes of the region under debug and its descendants go where DCTL.DEST says (R331). -/
def State.takeTrap (s : State) (r : StrandRef) (cause lane detail pc cpc : Nat) (defer : Bool) : State :=
  match s.slice? r.sid with
  | none => s
  | some x => match s.trapRecord r cause 0 lane detail pc cpc defer with
    | none => s
    | some t =>
      let dctl := (s.core x.core).dbg.dctl.toNat
      let rk := s.sliceRegion x
      let dest := decide (336 ≤ cause) && decide (cause ≤ 340) && bitAt dctl 19 && s.isAncestor (regionKey (keyVf rk) (bitsAt dctl 20 12)) rk
      let s := s.putWait r (.stopped none)
      let s := s.modStrand r fun t => { t with c := { t.c with pc := pc } }
      s.queueRecord rk { t with toSorser := dest }
/-- RETURN FROM A TRAP (R312): the strand becomes Ready at `pc`; with `skip` it issues its next instruction without debug
comparison (R330). Where `pc` is the slot it stopped at, what it still owes there (a target check) is found again. -/
def State.resumeAt (s : State) (r : StrandRef) (pc : Nat) (skip : Bool) : State :=
  s.modStrand r fun t =>
    { t with
      st := .ready, lost := 0, readySince := s.clock, skipDebug := skip
      entry := if t.c.pc == pc then t.entry else .seq
      half := if t.c.pc == pc then t.half else none
      c := { t.c with pc := pc } }

end Sys2Proof.Machine
end

