-- ==== Sys2Proof/Machine/Trace.lean ====
section
/-!
DEFINITION. The trace unit (spec/15_trace_and_profiling.md R319 to R327): what is traced, packets and their bytes, drops, the
sampling count, and the fields of the debug registers.
-/

namespace Sys2Proof.Machine

/-- Whether a bay's instruction of a region is traced on a core (R320). -/
def State.traced (s : State) (core bay rk : Nat) : Bool :=
  let t := (s.core core).dbg.tctl.toNat
  bitAt t 0 && bitAt t (1 + bay) && s.passesFilter core rk
/-- Bytes of the ring, 0 where TSIZE disables it (R319). -/
def ringBytes (k : Core) : Nat :=
  let n := k.dbg.tsize.toNat
  if 12 ≤ n ∧ n ≤ 30 then 2 ^ n else 0
/-- Bytes of the packets that wait for commit. -/
def waitingBytes (l : List (Nat × List Byte)) : Nat := l.foldl (fun n p => n + p.2.length) 0
/-- Whether `n` more bytes fit (R321). -/
def fits (k : Core) (n : Nat) : Bool :=
  decide (k.dbg.twp.toNat - k.dbg.trp.toNat + waitingBytes k.trace.packets + n ≤ ringBytes k)
/-- A varint (R322). -/
def varint : Nat → Nat → List Byte
  | 0, x => [BitVec.ofNat 8 (x % 128)]
  | n + 1, x => if x < 128 then [BitVec.ofNat 8 x] else BitVec.ofNat 8 (128 + x % 128) :: varint n (x / 128)
/-- A signed varint in zigzag form (R322). -/
def svarint (x : Int) : List Byte := varint 10 (if x < 0 then (-2 * x - 1).toNat else (2 * x).toNat)
/-- The slot index of a program counter (R323). -/
def slotIndex (pc : Nat) : Nat := 5 * (pc / 64) + pc % 8
/-- A packet of a group put into the stream, or dropped and counted (R326): while drops are not reported yet, every packet is dropped.
Answers whether it was put. -/
def putPacket (k : Core) (gid : Nat) (p : List Byte) : Core × Bool :=
  if k.trace.dropped == 0 && fits k p.length then ({ k with trace := { k.trace with packets := k.trace.packets ++ [(gid, p)] } }, true)
  else ({ k with
    trace := { k.trace with dropped := k.trace.dropped + 1 }
    dbg := { k.dbg with tlost := satAdd64 k.dbg.tlost 1 } }, false)
/-- The loss packet that goes before the first packet that fits after a drop, one of `n` bytes (R326). -/
def putLoss (k : Core) (clock gid n : Nat) : Core :=
  if k.trace.dropped == 0 then k
  else
    let p := 0xC1#8 :: (bytesOf 8 clock ++ varint 10 k.trace.dropped)
    if fits k (p.length + n) then
      { k with trace := { k.trace with packets := k.trace.packets ++ [(gid, p)], dropped := 0, lastTime := clock } }
    else k
/-- The sync packet of a group (R325). -/
def syncPacket (clock gid sn : Nat) (strands : List Strand) : List Byte :=
  let live := strands.foldl (fun n t => n + 16 * 2 ^ t.sn) 0
  let one := fun (n : Nat) => match strands.find? fun t => t.sn == n with
    | some t => bytesOf 8 t.c.pc ++ bytesOf 16 t.c.mask.toNat
    | none => List.replicate 24 0#8
  0xC0#8 :: (bytesOf 8 clock ++ bytesOf 2 gid ++ [BitVec.ofNat 8 (live + sn)] ++ one 0 ++ one 1 ++ one 2 ++ one 3)
/-- Whether a sync must come before the group's next record (R325). -/
def Group.needsSync (g : Group) (clock : Nat) : Bool :=
  g.syncDue || decide (4096 ≤ g.sinceSync) || decide (22400 ≤ clock - g.syncTime)
/-- What the record of an issued instruction leaves of the core and of the group's trace state, with the sync or context packet before it
(R323 to R325): `unit` is the number of its issue unit. -/
def traceOf (k : Core) (gid : Nat) (g : Group) (sn pc unit clock : Nat) : Core × Group :=
  let strands := g.strands.map fun t => if t.sn == sn then { t with c := { t.c with pc := pc } } else t
  let needs := g.needsSync clock
  let body := fun (t : Strand) (since : Nat) => BitVec.ofNat 8 (8 * unit) :: (svarint ((slotIndex pc : Int) - t.tracePc) ++ varint 10 since)
  let first := if needs then 108 else if k.trace.last != some (g.bay, g.slot, sn) then 2 else (body ((g.strand? sn).getD default) 0).length
  let k := putLoss k clock gid first
  let (k, okSync, g) :=
    if needs then
      let (k, ok) := putPacket k gid (syncPacket clock gid sn strands)
      if ok then
        ({ k with trace := { k.trace with last := some (g.bay, g.slot, sn), lastTime := clock } }, true,
         { g with syncDue := false, sinceSync := 0, syncTime := clock,
                  strands := strands.map fun t => { t with tracePc := slotIndex t.c.pc } })
      else (k, false, { g with syncDue := true })
    else (k, true, g)
  let t := (g.strand? sn).getD default
  let (k, okCtx) :=
    if k.trace.last != some (g.bay, g.slot, sn) then
      let (k, ok) := putPacket k gid [BitVec.ofNat 8 (64 + 16 * g.bay + g.slot), BitVec.ofNat 8 sn]
      (if ok then { k with trace := { k.trace with last := some (g.bay, g.slot, sn) } } else k, ok)
    else (k, true)
  let (k, okRec) := putPacket k gid (body t (clock - k.trace.lastTime))
  let k := if okRec then { k with trace := { k.trace with lastTime := clock } } else k
  (k, { g with
    sinceSync := g.sinceSync + 1
    syncDue := g.syncDue || !(okSync && okCtx && okRec)
    strands := updFirst (fun t => t.sn == sn) (fun t => { t with tracePc := slotIndex pc }) g.strands })
/-- A group with the trace state of another. -/
def Group.retrace (g k : Group) : Group :=
  { g with syncDue := k.syncDue, sinceSync := k.sinceSync, syncTime := k.syncTime,
           strands := g.strands.map fun t => { t with tracePc := ((k.strand? t.sn).getD t).tracePc } }
/-- The instruction record of an issued instruction (R323 to R325). -/
def State.traceInstr (s : State) (r : StrandRef) (pc unit clock : Nat) : State :=
  match s.slice? r.sid with
  | none => s
  | some x => match x.groups[r.gi]? with
    | none => s
    | some g =>
      if !s.traced x.core g.bay (s.sliceRegion x) then s
      else
        let e := traceOf (s.core x.core) (groupId x g) g r.sn pc unit clock
        (s.modCore x.core fun _ => e.1).modGroup r.sid r.gi fun g => g.retrace e.2
/-- The group's next record needs a sync (R325). -/
def State.syncNeeded (s : State) (r : StrandRef) : State := s.modGroup r.sid r.gi fun g => { g with syncDue := true }
/-- A memory instruction counted for sampling (R327); every 2^SAMPLOG-th opens a sample, whose number is answered. -/
def State.sampleInstr (s : State) (r : StrandRef) (pc clock : Nat) (mask reached : Mask) (sectors replays : Nat) : Option Nat × State :=
  match s.slice? r.sid with
  | none => (none, s)
  | some x => match x.groups[r.gi]? with
    | none => (none, s)
    | some g =>
      let k := s.core x.core
      let lg := bitsAt k.dbg.tctl.toNat 11 5
      if !s.traced x.core g.bay (s.sliceRegion x) || decide (lg < 5) || decide (20 < lg) then (none, s)
      else
        let n := k.trace.memCount + 1
        if n % 2 ^ lg != 0 then (none, s.modCore x.core fun k => { k with trace := { k.trace with memCount := n } })
        else
          let (id, s) := s.fresh
          let m : Sample := { id := id, clock := clock, gid := groupId x g, sn := r.sn, pc := pc, mask := mask,
                              lanes := mask.lanes.length, sectors := sectors, replays := replays, done := false, reached := reached }
          (some id, (s.modCore x.core fun k =>
            { k with trace := { k.trace with memCount := n, samples := k.trace.samples ++ [m] } }).count
              x.core (s.sliceRegion x) .samples 1)
/-- A packet of a group of a core was dropped: the group's next record needs a sync (R325). -/
def State.packetLost (s : State) (core gid : Nat) : State :=
  { s with slices := s.slices.map fun e => (e.1, if e.2.core != core then e.2 else
      { e.2 with groups := e.2.groups.map fun g => if groupId e.2 g == gid then { g with syncDue := true } else g }) }
/-- A packet of a group, apart from records, syncs and contexts, put into a core's stream behind the loss packet that is due (R326). It carries a time, from which
the next record counts (R323). -/
def State.putOne (s : State) (core gid time : Nat) (p : List Byte) : State :=
  let e := putPacket (putLoss (s.core core) s.clock gid p.length) gid p
  if e.2 then s.modCore core fun _ => { e.1 with trace := { e.1.trace with lastTime := time } }
  else (s.modCore core fun _ => e.1).packetLost core gid
/-- The stop packet of a traced strand (R331). -/
def State.traceStop (s : State) (core bay rk gid : Nat) (rec_ : List Byte) : State :=
  if !s.traced core bay rk then s else s.putOne core gid s.clock (0xC3#8 :: (bytesOf 8 s.clock ++ rec_))


/-! ### Debug registers (R319, R329, R330) -/

/-- Whether a region's slices on a core are under debug (R329). -/
def State.debugged (s : State) (core rk : Nat) : Bool :=
  s.isAncestor (regionKey (keyVf rk) (bitsAt (s.core core).dbg.dctl.toNat 20 12)) rk
/-- Whether DSEL selects a group (R319). -/
def Debug.selects (d : Debug) (gid : Nat) : Bool := bitAt d.dbgSel.toNat 31 || bitsAt d.dbgSel.toNat 0 14 == gid
/-- Whether an instruction breakpoint matches a program counter of a group (R330). -/
def Debug.breaks (d : Debug) (gid pc : Nat) : Bool := d.ibp.any fun w =>
  bitAt w.toNat 63 && (!bitAt w.toNat 62 || d.selects gid) && bitsAt w.toNat 0 57 == pc % 2 ^ 57
/-- Whether a data watchpoint covers bytes of an access that loads or stores (R330). -/
def Debug.watches (d : Debug) (ld st : Bool) (va n : Nat) : Bool := (d.wpa.zip d.wpl).any fun e =>
  let w := e.1.toNat
  bitAt w 63 && ((ld && bitAt w 62) || (st && bitAt w 61)) && e.2 != 0 &&
    decide (va < bitsAt w 0 57 + e.2.toNat) && decide (bitsAt w 0 57 < va + n)

end Sys2Proof.Machine
end

