-- ==== Sys2Proof/Machine/Context.lean ====
section
/-!
DEFINITION. How an instruction issues: what it sees of its strand, group and slice, the checks every instruction shares, what
issuing costs, and what it may answer (spec/02 R25, R31; spec/03 R50, R51, R64 to R67; spec/05 R93 to R95).
-/

namespace Sys2Proof.Machine

/-- What an instruction sees when it issues: its strand, group and slice, the register view of each pass (R25), the lane mask
after the guard and before it, and the job's figures. `was` is what it reads of its slice, group and core: for an instruction of a pair, as they are before either
writes (R69). -/
structure X where
  cur : Cursor
  x : Slice
  g : Group
  was : Before
  t : Strand
  views : List Group
  width : Nat
  vregs : Nat
  gregs : Nat
  acc : Nat
  hdr : KHeader
  code : Nat
  rk : Nat
  mask : Mask
  smask : Mask
  gfalse : Bool
  fmt : W32
deriving Repr, Inhabited

/-- What an instruction answers (R28, R154, R306): its effect, an issue trap with the counters that it counts (R314), not-present pages with the cause, lane and line of the trap that a failure
raises, a wait before it issues, or what it does to the state while it has not issued. -/
inductive Res where
  | ok (s : State)
  | trap (cause lane detail : Nat)
  | counted (f : State → State) (cause lane detail : Nat)
  | absent (pages : List Nat) (cause lane va : Nat)
  | wait (b : Block)
  | pause (f : State → State)
deriving Inhabited

/-- An effect after another. -/
def Res.bind (r : Res) (f : State → Res) : Res := match r with
  | .ok s => f s
  | .trap a b c => .trap a b c
  | .counted g a b c => .counted g a b c
  | .absent p c l v => .absent p c l v
  | .wait b => .wait b
  | .pause g => .pause g

/-- Whether an instruction issues once per pass (R23): it has a per-lane operand and no uniform form of guard. -/
def isPerLane (i : Instr) : Bool :=
  !i.groupGuardOnly && (match i with | .pref .. => true | .amax .. => true | _ => (i.ops 1 1).any fun o => o.cls == .v || o.cls == .p)
/-- Passes an instruction takes at a width (R23). -/
def passCount (i : Instr) (width : Nat) : Nat := if isPerLane i then passesOf width else 1

/-- What an instruction sees through the cursor; `none` where the cursor names no live strand. -/
def mkX (c : Cursor) (i : Instr) (h : Hdr) (s : State) : Option X :=
  match s.slice? c.who.sid with
  | none => none
  | some x => match x.groups[c.who.gi]? with
    | none => none
    | some g => match g.strand? c.who.sn, s.job? x.jn with
      | some t, some j =>
        let np := passCount i j.hdr.width
        let was := c.src.getD ⟨x, g, s.core x.core⟩
        let base := was.group
        let lay := fun (v : Group) => match c.held with
          | none => applyAll v c.sources
          | some e => applyAll v e.regs
        let views := (List.range np).map fun k => lay (base.view (c.cycle + k))
        let v0 := views.headD base
        let tv := (v0.strand? c.who.sn).getD t
        let pv := views.map fun v => (v.strand? c.who.sn).getD t
        let smask := t.c.mask
        let mask := match h.guard with
          | .group _ _ => smask
          | .lane n p =>
            if p == 7 && !n then smask
            else maskOf fun l => smask.getLsbD l && ((pv.getD (l / 32) tv).c.pred p l != n)
        let gfalse := match h.guard with
          | .group n p => v0.gpred p == n
          | .lane _ _ => false
        some { cur := c, x := x, g := g, was := was, t := { tv with c := { tv.c with mask := smask } }, views := views,
               width := j.hdr.width, vregs := g.n, gregs := j.hdr.gregs, acc := j.hdr.acc, hdr := j.hdr, code := j.code, rk := j.rk,
               mask := match c.held with | some e => e.mask | none => mask
               smask := smask
               gfalse := gfalse && c.held.isNone
               fmt := match c.held with | some e => e.fmt | none => v0.fmtOf tv.c }
      | _, _ => none

/-! ### Reading sources -/

/-- The register view of the first pass, for what exists once per group (R25). -/
def X.view0 (x : X) : Group := x.views.headD x.g
/-- The register view of a lane's pass; an instruction of one pass reads every lane in it (R23). SHFL, ROT and LSCAN read a lane that belongs to another pass as
that pass reads it (DESIGN CHOICE, notes/assumptions/22.md). -/
def X.view (x : X) (lane : Nat) : Group := x.views.getD (lane / 32) x.view0
/-- A v register of a lane. -/
def X.v (x : X) (r lane : Nat) : Nat := ((x.view lane).vreg r lane).toNat
/-- A v register pair of a lane (R108). -/
def X.v64 (x : X) (r lane : Nat) : Nat := x.v r lane + 2 ^ 32 * x.v (r + 1) lane
/-- A g register. -/
def X.gr (x : X) (r : Nat) : Nat := (x.view0.greg r).toNat
/-- A g register pair. -/
def X.g64 (x : X) (r : Nat) : Nat := x.gr r + 2 ^ 32 * x.gr (r + 1)
/-- A lane predicate of the strand. -/
def X.p (x : X) (i lane : Nat) : Bool :=
  i == 7 || (match (x.view lane).strand? x.cur.who.sn with | some t => t.c.pred i lane | none => false)
/-- A group predicate. -/
def X.gp (x : X) (i : Nat) : Bool := x.view0.gpred i
/-- A predicate operand's value for a lane (R431, R444). -/
def X.pref (x : X) (q : PredRef) (lane : Nat) : Bool := (if q.grp then x.gp q.idx else x.p q.idx lane) != q.neg
/-- A source of 32 bits. -/
def X.src (x : X) (lane : Nat) : Src → Nat
  | .v r => x.v r lane
  | .g r => x.gr r
  | .imm w => w.toNat
/-- A source of 64 bits; an immediate is sign-extended where `sgn` holds (R52). -/
def X.src64 (x : X) (sgn : Bool) (lane : Nat) : Src → Nat
  | .v r => x.v64 r lane
  | .g r => x.g64 r
  | .imm w => if sgn then patternOf 64 (signedOf 32 w.toNat) else w.toNat
/-- A source of an integer type, as the exact integer it stands for (R390). -/
def X.int (x : X) (t : IntTy) (lane : Nat) (a : Src) : Int :=
  let raw := if t.wide then x.src64 t.signed lane a else x.src lane a
  if t.signed then signedOf t.width raw else (raw % 2 ^ t.width : Nat)
/-- A source of a floating type. -/
def X.flt (x : X) (t : FloatTy) (ftz : Bool) (lane : Nat) (a : Src) : FVal := decodeF t ftz (x.src lane a)
/-- The lanes of a pass in the mask. -/
def X.passLanes (x : X) (k : Nat) : List Nat := (List.range 32).filterMap fun i =>
  if x.mask.getLsbD (32 * k + i) then some (32 * k + i) else none
/-- The lanes of the mask in ascending order. -/
def X.lanes (x : X) : List Nat := x.mask.lanes
/-- Whether the region or a record is strict (R314). -/
def X.strict (x : X) (s : State) (rec_ : Bool) : Bool := rec_ || s.strictRegion x.rk

/-! ### Checks that every instruction shares -/

/-- Cause 7 as the state decides it (R51, R196): v at or above the register count, g at or above `.gregs`, a tile at or above
ACC, an array the slice does not hold. -/
def rangeBad (n gregs acc : Nat) (i : Instr) (o : Opnd) : Bool :=
  match o.cls with
  | .v => decide (n < o.num + o.cnt)
  | .g => decide (gregs < o.num + o.cnt)
  | .k => decide (acc < o.num + o.cnt)
  | _ => match i with
    | .mldw _ _ m _ _ => decide ((acc + 47) / 48 ≤ m)
    | .mswap _ _ m _ => decide ((acc + 47) / 48 ≤ m)
    | _ => false
/-- The operands of an instruction with its guard, as the strand's FMT and the width fix them. -/
def X.ops (x : X) (i : Instr) (h : Hdr) : List Opnd :=
  h.guard.op :: i.ops (fmtA x.fmt).quarterRegs (passesOf x.width)
/-- The first register a read finds pending with a fixed-latency result of this strand (R67): the check of cause 48. An instruction of one pass reads
every lane in its one cycle (R25). -/
def X.earlyRead (x : X) (ops : List Opnd) : Option Nat :=
  let pend := x.was.group.fixed.filter fun f => f.sn == x.cur.who.sn && !f.board
  firstSome (fun (o : Opnd) =>
    if o.wr || !(o.cls == .v || o.cls == .g || o.cls == .p || o.cls == .gp) then none
    else firstSome (fun i =>
      let n := o.num + i
      if pend.any fun f => f.wrs.any fun w =>
          w.hits o.cls n && decide (x.cur.cycle + (if (o.cls == .v || o.cls == .p) && decide (1 < x.views.length) then w.lane / 32 else 0) < f.at_)
      then some n else none) (List.range o.cnt)) ops
/-- Whether a strand has the role of an arm (R94, R97). -/
def X.isArm (x : X) : Bool := x.t.c.arm.isSome
/-- Cause 192 (R93, R94): a v register outside the window, or an arm's write to a class it may only read. -/
def X.windowBad (x : X) (i : Instr) (ops : List Opnd) : Bool :=
  ops.any (fun o => o.cls == .v && (decide (o.num < x.t.c.lo) || decide (x.t.c.hi < o.num + o.cnt))) ||
  (x.isArm && (ops.any (fun o => o.wr && (match o.cls with
      | .g => true | .gp => true | .h => true | .b => true | .th => true | .sc => true | .am => true | _ => false)) ||
    (match i with | .screc .. => true | .scload .. => true | .scloadEnd .. => true | _ => false)))
/-- Whether the group is under a fork (R95). -/
def X.underFork (x : X) : Bool := decide (1 < x.g.strands.length) || !x.g.frames.isEmpty
/-- Whether an instruction reads FMT (R119, R121, R425). -/
def readsFmt : Instr → Bool
  | .fadd .. | .fsub .. | .fmul .. | .fmin .. | .fmax .. | .ffma .. | .fsetp .. | .frcp .. | .frsq .. | .fsqrt .. | .fexp2 .. | .flog2 .. | .fsin ..
  | .fcos .. | .hfma2 .. | .cvt .. | .bpack .. | .bunpack .. | .amax .. | .lred .. | .lscan .. => true
  | .mma .. | .mmat .. | .mmad .. | .mldw .. | .screc .. => true
  | .movs _ _ .fmt _ => true
  | _ => false
/-- Whether an instruction reads a word of group or strand state (R315). The mask, window and program counter of a strand, and what a group holds once for all
its instructions, are read by each of them. -/
def X.reads (x : X) (i : Instr) (ops : List Opnd) (w : EccWord) : Bool :=
  let reg := fun (c : Cls) (n : Nat) => ops.any fun o => !o.wr && o.cls == c && decide (o.num ≤ n) && decide (n < o.num + o.cnt)
  let mine := fun (sn : Nat) => sn == x.cur.who.sn
  match w with
  | .vreg n lane => x.smask.getLsbD lane && reg .v n
  | .reg c n => reg c n
  | .pred sn n => mine sn && reg .p n
  | .fmt sn => mine sn && x.g.replay.isNone && readsFmt i
  | .stack sn => mine sn && (match i with | .ldk .. => true | .stk .. => true | .call .. => true | .ret .. => true | .fork .. => true | _ => false)
  | .strand sn => mine sn
  | .replay => x.g.replay.isSome && (readsFmt i || ops.any fun o => !o.wr && (o.cls == .sc || o.cls == .am))
  | .slot f n => (match i with
    | .join _ _ j => j == n && x.t.c.own.head? == some f
    | .jset _ j _ => j == n && x.t.c.arm == some f
    | _ => false)
  | .group => true
/-- Cause 227 (R315): an instruction reads a word with an uncorrectable error. -/
def X.eccBad (x : X) (i : Instr) (ops : List Opnd) : Bool := x.g.ecc.any (x.reads i ops)
/-- The instructions whose not-present pages form a batch without run-ahead (R442). -/
def noAhead : Instr → Bool
  | .screc .. | .scload .. | .hstrag .. => true
  | _ => false
/-- The instructions that R95 forbids under a fork with cause 197. -/
def noFork : Instr → Bool
  | .hcreate .. | .hfree .. | .hquery .. | .hstrag .. | .hjoin .. | .hleave .. | .harr .. | .hwait .. | .hbar .. | .hvote ..
  | .hred .. => true
  | .spawn .. | .qpush .. | .qpop .. | .mwatch .. | .mwait .. => true
  | _ => false

/-- The handle value that a harness instruction names for the checks of R250, but for the first of them. -/
def X.handleOf (x : X) : Instr → Option HVal
  | .hfree _ n => some (x.view0.hreg n)
  | .hquery _ q _ n => if q == 0 || decide (5 ≤ q) then none else some (x.view0.hreg n)
  | .hstrag _ n _ => some (x.view0.hreg n)
  | .hjoin _ _ sr => some ⟨BitVec.ofNat 32 (x.gr sr), x.gr (sr + 1) % 4096⟩
  | .hleave _ n => some (x.view0.hreg n)
  | .harr _ _ n _ => some (x.view0.hreg n)
  | .hwait _ _ n _ => some (x.view0.hreg n)
  | .hbar _ _ n _ => some (x.view0.hreg n)
  | .hvote _ _ _ n _ _ => some (x.view0.hreg n)
  | .hred _ _ _ _ n _ _ => some (x.view0.hreg n)
  | _ => none
/-- Whether another module makes an instruction's handle checks, which come before cause 197 (R250, R394). -/
def X.heldAway (x : X) (s : State) (i : Instr) : Bool := match x.handleOf i with
  | some v => v.chip != s.chip
  | none => false

/-- The instructions that change a group's register count: they raise cause 224 in every strand of a group under a fork, an arm too (R88, R95, R436). -/
def claims : Instr → Bool
  | .rclaim .. | .rclaimTry .. | .rgive .. => true
  | _ => false

/-- The causes that an entry raises before issue on its encoding alone, whatever the guard (R50, R62): a special register that does
not exist or is not writable, a BFP width, and a matrix source kind or format. -/
def encCause (i : Instr) : Option Nat := match i with
  | .movs _ _ (.sr n) _ => if decide (0x13 < n) then some 32 else none
  | .sets _ n _ => if decide (0x13 < n) then some 32 else if n != 5 then some 33 else none
  | .bpack _ _ w _ _ => if decide (w < 2) || decide (8 < w) then some 96 else none
  | .bunpack _ _ w _ _ => if decide (w < 2) || decide (8 < w) then some 96 else none
  | .mma _ k .. => if k == .ws then some 272 else none
  | .mmat _ k .. => if k == .ws then some 272 else none
  | .mmad _ k .. => if k == .regs || k == .ws then some 272 else none
  | .mldw _ k .. => if k == .regs then some 272 else none
  | .mswap _ k .. => if k == .regs then none else some 272
  | .mzero _ k .. => if k == .regs then none else some 272
  | .mdrain _ f k .. =>
    if k == .ws then some 272 else if f.isReserved || (f.isBfp && k == .regs) then some 280 else none
  | .mfill _ f k .. => if k == .ws || (f.isBfp && k == .regs) then some 272 else if f.isReserved then some 280 else none
  | _ => none

/-! ### Issuing -/

/-- The passes of an instruction or pair listed, each with the cycle in which it takes one of the slice's budget (R31). -/
def spendBudget (x : Slice) (gi sn pc cycle n : Nat) : Slice :=
  { x with spends := x.spends ++ (List.range n).map fun k => ⟨cycle + k, gi, sn, pc, none⟩ }
/-- A listed pass takes its cycle, and the one that takes the last is remembered; a YIELD's gives the budget back, and is not remembered if it took the last (R31). -/
def Slice.spendOne (x : Slice) (e : Spend) : Slice := match e.give with
  | some b => { x with budget := b, exhausted := match x.exhausted with
      | some (gi, sn, pc) => if gi == e.gi && sn == e.sn then none else some (gi, sn, pc)
      | none => none }
  | none => match x.budget with
    | none => x
    | some b => { x with budget := some (b - 1), exhausted := if b == 1 then some (e.gi, e.sn, e.pc) else x.exhausted }
/-- A slice after every pass before a cycle has taken its own (R31, R426). -/
def Slice.spendTo (x : Slice) (cycle : Nat) : Slice :=
  if x.spends.isEmpty then x
  else (x.spends.filter fun e => decide (e.cycle < cycle)).foldl Slice.spendOne { x with spends := x.spends.filter fun e => !decide (e.cycle < cycle) }
/-- What issuing costs and moves (R25, R31, R64, R69): the instruction's passes, or those of its pair, from the budget, the program counter, the earliest cycle of the next instruction,
the run, the instruction counter and the trace record. -/
def charge (x : X) (i : Instr) (h : Hdr) (s : State) : State :=
  let c := x.cur
  let np := max (passCount i x.width) c.passes
  if c.held.isSome || c.paid then s
  else
    let s := if c.charge then s.modSlice c.who.sid fun y => spendBudget y c.who.gi c.who.sn c.pc c.cycle np else s
    let s := s.count x.x.core x.rk .instructions 1
    let s := if x.t.runLen == 0 && !c.second then s.count x.x.core x.rk .runs 1 else s
    let s := if c.trace then
        s.traceInstr c.who c.pc (match i.fields with
          | some f => (match unitOfMaj f.maj with | .v => 0 | .f => 1 | .u => 2 | .l => 3 | .h => 4)
          | none => 0) c.cycle
      else s
    let s := s.modStrand c.who fun t =>
      { t with
        c := if c.second then t.c else { t.c with pc := c.nextPc }
        entry := if c.second then t.entry else .seq
        nextIssue := max t.nextIssue (c.cycle + np + h.stall)
        runLen := t.runLen + 1, stay := none, skipDebug := t.skipDebug && t.half.isSome, st := .issuing }
    s.modCore x.x.core fun k =>
      let y : Bay := { run := some c.who, free := max ((k.bays.getD x.g.bay Bay.reset).free) (c.cycle + np) }
      { k with bays := setAt k.bays x.g.bay y }

/-- The pages of a batch and the notice that sends it (R156): host-half pages go to the host as one request group, device-half
pages to the supervisor as one fault-batch record. -/
def State.sendBatch (s : State) (id : Nat) (rec_ : Option TrapRec) : State :=
  match Sparse.find s.batches id with
  | none => s
  | some b =>
    let hostPages := b.pages.filter fun p => !inDevice p
    let devPages := b.pages.filter fun p => inDevice p
    let b' := { b with filling := false, pri := !hostPages.isEmpty, dev := !devPages.isEmpty }
    let s := { s with batches := Sparse.set s.batches id b' }
    let s := if hostPages.isEmpty then s else s.emit (.pri id (keyVf b.rk) hostPages)
    if devPages.isEmpty then s
    else match rec_ with
      | none => s
      | some t => s.queueRecord b.rk
          { t with kind := 1, cause := b.cause, detail := devPages.length, batch := some id, pages := devPages, defer := false }
/-- A strand meets not-present pages (R154, R156): it enters Fault wait with a batch of them. With at most 17 pages the batch is
filled by run-ahead before it is sent. -/
def State.pageFault (s : State) (r : StrandRef) (rk : Nat) (pages : List Nat) (cause lane va pc cpc : Nat) (ahead : Bool) : State :=
  let (id, s) := s.fresh
  let all := pages.eraseDups
  let b : Batch := { owner := .strand r, rk := rk, pages := all.take Config.batchPages, cause := cause, cpc := cpc, lane := lane, va := va,
                     filling := true, pri := false, dev := false, failed := false }
  let s := s.putWait r (.faultWait id)
  let s := { s with batches := Sparse.set s.batches id b }
  if ahead && decide (all.length ≤ Config.batchPages) then s
  else s.sendBatch id (s.trapRecord r cause 1 0 0 pc cpc false)

/-- Whether a pending result concerns a register for a strand: a v register or lane predicate only in lanes they share (R65). -/
def Inflight.touches (f : Inflight) (t : Strand) (o : Opnd) : Bool :=
  f.dst.any (fun d => d.1 == o.cls && decide (o.num ≤ d.2) && decide (d.2 < o.num + o.cnt)) &&
    (!(o.cls == .v || o.cls == .p) || (f.mask &&& t.c.mask) != 0)
/-- Whether a fixed-latency result that was pending at a FORK concerns a register for a strand, which waits for it as for a scoreboarded one (R92). -/
def Fixed.touches (f : Fixed) (clock : Nat) (t : Strand) (o : Opnd) : Bool :=
  f.board && decide (clock < f.at_) && f.wrs.any fun w => (List.range o.cnt).any (fun k => w.hits o.cls (o.num + k)) && (match w with
    | .v _ l _ => t.c.mask.getLsbD l
    | .p sn _ l _ => sn == t.sn && t.c.mask.getLsbD l
    | _ => true)
/-- Whether some operand has a scoreboarded result pending (R65). -/
def Group.pendingOn (g : Group) (clock : Nat) (t : Strand) (l : List Opnd) : Bool :=
  l.any fun o => g.inflight.any (fun f => f.touches t o) || g.fixed.any fun f => f.touches clock t o
/-- Whether a pending result is that of a JOIN with a lane that is neither deposited nor absent (R101). -/
def Group.joinOpen (g : Group) (f : Inflight) : Bool := match f.body with
  | .join id slot _ mask _ => g.frames.any fun y => y.id == id && (mask &&& ~~~ (y.deposited.getD slot 0 ||| y.absent.getD slot 0)) != 0
  | _ => false
/-- Whether a wait is a Frame wait (R28): for the held queue, for a frame to close, or for lanes that a JOIN finds neither deposited nor absent. -/
def State.frameWait (s : State) (r : StrandRef) (b : Block) : Bool := match b with
  | .heldFull => true
  | .jwait => true
  | .operands l => (match s.group? r.sid r.gi, s.strand? r with
    | some g, some t => g.inflight.any fun f => g.joinOpen f && l.any (f.touches t)
    | _, _ => false)
  | _ => false
/-- A strand that cannot issue yet (R28, R65): its run ends and it waits. -/
def State.block (s : State) (r : StrandRef) (b : Block) : State :=
  s.putWait r (if s.frameWait r b then .frame b else .scoreboard b)

/-- An instruction that has to wait before it issues (R65): a full channel is counted, and a wait for stores is for those made before it began (R167). -/
def X.waits (x : X) (b : Block) (s : State) : State :=
  let s := s.block x.cur.who b
  match b with
  | .channel _ => s.count x.x.core x.rk .channelFull 1
  | .stores => s.modStrand x.cur.who fun t => { t with stay := some (t.stay.getD s.nextId) }
  | _ => s
/-- The issue of an instruction by the cursor's strand. The checks come in the order of R62: cause 7 as the state decides it, then the
causes that the encoding alone decides; then cause 48, for a false group guard on the guard alone, which else leaves only the cost (R50); then causes 192, 197
and 227, but that an arm's RCLAIM or RGIVE raises cause 224 (R95, R436); then the effect, which may trap, meet not-present pages or wait, and then has not happened. Under a fork the instructions of R95 raise cause 197 where cause
192 would fall too, and `early` is a check that an entry puts before cause 197, as are those that another module makes. A trap of an instruction that is presented from the held queue is owed at
the strand's next slot. -/
def issueWith (i : Instr) (early : X → State → Option (Nat × Nat × Nat)) (eff : X → State → Res) (s : State) :
    Host.Outcome State Fault Refusal :=
  match s.cur, i.hdr with
  | some c, some h => match mkX c i h s with
    | none => .fault .noStrand
    | some x =>
      let pc := c.pairPc.getD c.pc
      let ops := x.ops i h
      let owed : State → Nat → Nat → Nat → State := fun s cause lane detail =>
        let (key, s) := s.fresh
        { s.modStrand c.who fun t => { t with deferred := t.deferred ++ [⟨key, cause, c.pc, lane, detail, .next⟩] } with cur := none }
      let stopAt := fun (s : State) (cause lane detail : Nat) => Host.Outcome.next
        (if c.held.isSome then owed s cause lane detail
         else { s.takeTrap c.who cause lane detail pc c.pc false with cur := some { c with met := some (cause, lane, detail) } })
      let stop := stopAt s
      let finish := fun (s' : State) =>
        let s' := if h.endRun && c.held.isNone then s'.endRun c.who else s'
        Host.Outcome.next { s' with cur := none }
      if c.held.isNone && ops.any (rangeBad x.vregs x.gregs x.acc i) then stop 7 0 0
      else if c.held.isNone && (encCause i).isSome then stop ((encCause i).getD 0) 0 0
      else if c.held.isNone && x.was.group.chk && (x.earlyRead [h.guard.op]).isSome then stop 48 0 ((x.earlyRead [h.guard.op]).getD 0)
      else if x.gfalse then finish (charge x i h s)
      else if c.held.isNone && x.was.group.chk && (x.earlyRead ops).isSome then stop 48 0 ((x.earlyRead ops).getD 0)
      else if c.held.isNone && x.windowBad i ops && !((noFork i || claims i) && x.underFork) then stop 192 0 0
      else match early x s with
        | some (cause, lane, detail) => stop cause lane detail
        | none =>
          if noFork i && x.underFork && !x.heldAway s i then stop 197 0 0
          else if c.held.isNone && x.eccBad i ops then stop 227 0 0
          else match eff x (charge x i h s) with
            | .ok s' => finish s'
            | .trap cause lane detail => stop cause lane detail
            | .counted f cause lane detail => stopAt (f s) cause lane detail
            | .absent pages cause lane va => .next (s.pageFault c.who x.rk pages cause lane va pc c.pc (!noAhead i))
            | .pause f => .next (f s)
            | .wait b => .next (x.waits b s)
  | _, _ => .fault .noStrand
/-- The issue of an instruction whose entry puts no check before cause 197. -/
def issue (i : Instr) (eff : X → State → Res) (s : State) : Host.Outcome State Fault Refusal :=
  issueWith i (fun _ _ => none) eff s

/-! ### Fixed-latency results -/

/-- What an instruction that writes registers computes: a trap with its cause and lane, or the writes of each pass. -/
abbrev Eval := X → Except (Nat × Nat) (List (List RegWr))
/-- The writes of each pass of a per-lane instruction, lane by lane. -/
def X.each (x : X) (f : Nat → List RegWr) : List (List RegWr) :=
  (List.range (passesOf x.width)).map fun k => (x.passLanes k).flatMap f
/-- A 32-bit or 64-bit destination of a vector or uniform form (R59, R108). -/
def dstWr (uni wide : Bool) (d lane n : Nat) : List RegWr :=
  let lo := BitVec.ofNat 32 n
  let hi := BitVec.ofNat 32 (n / 2 ^ 32)
  if uni then (if wide then [.g d lo, .g (d + 1) hi] else [.g d lo])
  else (if wide then [.v d lane lo, .v (d + 1) lane hi] else [.v d lane lo])
/-- The writes of an integer form: once in a uniform form, else in every lane of the mask (R59). -/
def X.alu (x : X) (uni : Bool) (f : Nat → List RegWr) : List (List RegWr) := if uni then [f 0] else x.each f
/-- The fixed-latency results of the passes: pass k lands `lat` cycles after it issues (R25). -/
def X.fixed (x : X) (lat : Nat) (l : List (List RegWr)) : List Fixed :=
  (l.zip (List.range l.length)).filterMap fun p =>
    if p.1.isEmpty then none else some { sn := x.cur.who.sn, at_ := x.cur.cycle + p.2 + lat, wrs := p.1 }
/-- The issue of an instruction with a fixed-latency result (R66). -/
def issueFixed (i : Instr) (lat : Nat) (ev : Eval) (s : State) : Host.Outcome State Fault Refusal :=
  issue i (fun x s => match ev x with
    | .error (cause, lane) => .trap cause lane 0
    | .ok l => .ok (s.addFixed x.cur.who (x.fixed lat l))) s

end Sys2Proof.Machine
end

