-- ==== Sys2Proof/Machine/MemPath.lean ====
section
/-!
DEFINITION. The load-store path: forming and checking addresses (spec/07 R139 to R148), stack and scratchpad bytes, the merge
buffer of a core and the way of a store to its home point (spec/08 R161 to R172), and when loads and atomics read memory
(spec/07 R142; spec/08 R164, R174; DEDUCED, notes/assumptions/10.md).
-/

namespace Sys2Proof.Machine

/-! ### Buffer records (R139) -/

/-- BASE of a record (R139). -/
def recBase (r : BitVec 128) : Nat := bitsAt r.toNat 0 57
/-- The element size of a record in bytes; ESZ 5 to 7 is reserved. -/
def recElem (r : BitVec 128) : Nat := 2 ^ bitsAt r.toNat 57 3
/-- PR. -/
def recPr (r : BitVec 128) : Bool := bitAt r.toNat 60
/-- PW. -/
def recPw (r : BitVec 128) : Bool := bitAt r.toNat 61
/-- PA. -/
def recPa (r : BitVec 128) : Bool := bitAt r.toNat 62
/-- STRICT. -/
def recStrict (r : BitVec 128) : Bool := bitAt r.toNat 63
/-- STRIDE. -/
def recStride (r : BitVec 128) : Nat := bitsAt r.toNat 76 20
/-- EXTENT. -/
def recExtent (r : BitVec 128) : Nat := bitsAt r.toNat 96 32
/-- The window of a record in bytes (R140). -/
def recWindow (r : BitVec 128) : Nat := recExtent r * recStride r
/-- The address of a byte offset of a record, after the swizzle (R141). -/
def recAddr (r : BitVec 128) (off : Nat) : Nat :=
  let swb := bitsAt r.toNat 73 3
  let sw := bitsAt off (bitsAt r.toNat 69 4) swb * 2 ^ bitsAt r.toNat 65 4
  recBase r + (off ^^^ sw)
/-- The record check of R140: cause 182, then 183. -/
def recCheck (r : BitVec 128) : Option Nat :=
  let n := r.toNat
  let esz := bitsAt n 57 3
  let swb := bitsAt n 73 3
  let sws := bitsAt n 69 4
  let swd := bitsAt n 65 4
  let top := if inDevice (recBase r) then 2 ^ 57 else 2 ^ 56
  if decide (4 < esz) || recStride r == 0 || bitAt n 64 ||
      (swb != 0 && (decide (sws < swd + swb) || decide (swd < esz) || recWindow r % 2 ^ (sws + swb) != 0)) ||
      decide (top < recBase r + recWindow r) then some 182
  else if recBase r % recElem r != 0 || recStride r % recElem r != 0 then some 183
  else none
/-- Whether a record carries the permission of an access. -/
def recPermits (r : BitVec 128) (k : AccessKind) : Bool := match k with
  | .load => recPr r | .ldw => recPr r | .store => recPw r | .atom => recPa r

/-! ### Addresses of an instruction (R141, R143, R144) -/

/-- A pair inserted in a list that rises by its first part. -/
def insertBy {α : Type} (k : Nat) (x : α) : List (Nat × α) → List (Nat × α)
  | [] => [(k, x)]
  | (a, y) :: l => if k < a then (k, x) :: (a, y) :: l else (a, y) :: insertBy k x l
/-- A list put in ascending order of a key; equal keys keep their order. -/
def sortBy {α : Type} (f : α → Nat) (l : List α) : List α := (l.foldl (fun m x => insertBy (f x) x m) []).map Prod.snd
/-- Lanes whose element addresses are known, translated line by line in the order in which lines are presented: ascending pass,
then ascending line (R144, R154). The first line that fails decides; not-present pages are gathered from every line. -/
def translateAll (s : State) (vf : Nat) (k : AccessKind) (l : List (Nat × Nat)) : Except Res (List (Nat × Loc)) :=
  let keyed := sortBy (fun (e : Nat × Nat × TrRes) => (e.1 / 32) * 2 ^ 57 + e.2.1 / 128)
    (l.map fun e => (e.1, e.2, s.translate vf k e.2))
  match keyed.find? fun e => match e.2.2 with | .ok _ => false | _ => true with
  | none => .ok (keyed.filterMap fun e => match e.2.2 with | .ok p => some (e.1, p) | _ => none)
  | some (lane, va, .bad kind) => .error (.trap (k.base + kind) lane (va / 128 * 128))
  | some (lane, va, _) =>
    .error (.absent (keyed.filterMap fun e => match e.2.2 with | .absent p => some p | _ => none) (k.base + 2) lane (va / 128 * 128))
/-- The lane and address that a data watchpoint stops (R330); `ld` and `st` say which kinds of watchpoint compare. -/
def X.watchpoint (x : X) (s : State) (ld st : Bool) (size : Nat) (vas : List (Nat × Nat)) : Option (Nat × Nat) :=
  if !(ld || st) || x.t.skipDebug || !s.debugged x.x.core x.rk then none
  else vas.find? fun e => (s.core x.x.core).dbg.watches ld st e.2 size
/-- The addresses of an access through a record (R141): for each lane its address and place, none where it is out of bounds, and
whether the access is strict. `ld` and `st` say which data watchpoints compare it. -/
def X.recordAcc (x : X) (s : State) (k : AccessKind) (ld st : Bool) (b : Nat) (xi : Src) (imm : W32) (size : Nat) (lanes : List Nat) :
    Except Res (List LaneAcc × Bool) :=
  let r := x.view0.breg b
  let first := lanes.headD 0
  let strict := x.strict s (recStrict r)
  if r == 0 then .error (.trap (k.base + 5) first 0)
  else if !recPermits r k then .error (.trap (k.base + 3) first 0)
  else
    let offs := lanes.map fun l =>
      (l, signedOf 32 (x.src l xi) * (recStride r : Int) + signedOf 32 imm.toNat)
    let inb := fun (o : Int) => decide (0 ≤ o) && decide (o + (size : Int) ≤ (recWindow r : Int))
    match (if strict then offs.find? fun e => !inb e.2 else none) with
    | some (l, o) => .error (.counted (fun s => s.countOob x.rk (offs.filter fun e => !inb e.2).length) k.base l (patternOf 64 o))
    | none =>
      let vas := (offs.filter fun e => inb e.2).map fun e => (e.1, recAddr r e.2.toNat)
      match vas.find? fun e => e.2 % size != 0 with
      | some (l, va) => .error (.trap (k.base + 1) l (va / 128 * 128))
      | none => match x.watchpoint s ld st size vas with
        | some (l, va) => .error (.trap 338 l va)
        | none => match translateAll s (keyVf x.rk) k vas with
          | .error e => .error e
          | .ok locs => .ok (offs.map fun e =>
              if inb e.2 then ⟨e.1, recAddr r e.2.toNat, (locs.find? fun p => p.1 == e.1).map Prod.snd, 0, 0, none⟩
              else ⟨e.1, 0, none, 0, 0, none⟩, strict)
/-- The places of a scratchpad access (R147); every lane's offset is checked for alignment (R145). -/
def X.scratchAcc (x : X) (s : State) (k : AccessKind) (xi : Src) (imm : W32) (size : Nat) (lanes : List Nat) :
    Except Res (List LaneAcc × Bool) :=
  let strict := s.strictRegion x.rk
  let offs := lanes.map fun l => (l, (x.src l xi + imm.toNat) % 2 ^ 32)
  let inr := fun (o : Nat) => decide (o + size ≤ x.hdr.scratch)
  match (if strict then offs.find? fun e => !inr e.2 else none) with
  | some (l, o) => .error (.counted (fun s => s.countOob x.rk (offs.filter fun e => !inr e.2).length) (k.base + 10) l o)
  | none => match offs.find? fun e => e.2 % size != 0 with
    | some (l, o) => .error (.trap (k.base + 1) l o)
    | none => .ok (offs.map fun e => ⟨e.1, e.2, if inr e.2 then some (.sx e.2) else none, 0, 0, none⟩, strict)
/-- The own frame of a strand: the innermost open frame of which it is the continuation (R97). -/
def X.ownFrame (x : X) : Option Frame := match x.t.c.own with
  | [] => none
  | f :: _ => x.g.frames.find? fun y => y.id == f
/-- The arm frame of a strand (R97). -/
def X.armFrame (x : X) : Option Frame := match x.t.c.arm with
  | none => none
  | some f => x.g.frames.find? fun y => y.id == f
/-- Whether a stack access would touch the stack at or above the base of an open continuation (R94). -/
def X.aboveBase (x : X) (top : Int) : Bool := match x.ownFrame with
  | none => false
  | some f => decide ((f.base : Int) < top)
/-- The places of a stack access (R148, R416, R450). Every lane has the same stack offset. -/
def X.stackAcc (x : X) (s : State) (k : AccessKind) (imm : W32) (size : Nat) (lanes : List Nat) :
    Except Res (List LaneAcc × Bool) :=
  let y : Int := (x.t.c.sp : Int) + signedOf 32 imm.toNat
  if lanes.isEmpty then .ok ([], false)
  else
    let first := lanes.headD 0
    if y < (x.t.c.sl : Int) ∨ (x.hdr.stack : Int) < y + size then .error (.trap (k.base + 11) first (patternOf 64 y))
    else if y % (size : Int) ≠ 0 then .error (.trap (k.base + 1) first (patternOf 64 y))
    else if x.aboveBase (y + size) then .error (.trap 192 first 0)
    else .ok (lanes.map fun l => ⟨l, y.toNat, some (.stk l y.toNat), 0, 0, none⟩, s.strictRegion x.rk)

/-! ### The stack (R148, R314) -/

/-- The lanes that share the stack area of a width (R148). -/
def stackWh (width : Nat) : Nat := max width 32
/-- The 64-byte granule of the stack area that holds a byte of a lane. -/
def stackGranule (width lane y : Nat) : Nat := (y / 4 * 4 * stackWh width + 4 * lane + y % 4) / 64
/-- The key of a lane's stack byte. -/
def stackKey (lane y : Nat) : Nat := y * 128 + lane
/-- A lane's stack bytes; what nothing has written is 0 (DESIGN CHOICE, notes/assumptions/1.md). -/
def Group.peekStack (g : Group) (lane y n : Nat) : List Byte := (List.range n).map fun i => Sparse.get 0#8 g.stack (stackKey lane (y + i))
/-- The failed granules a lane's stack bytes touch. -/
def Group.stackBad (g : Group) (width lane y n : Nat) : List Nat :=
  ((List.range n).map fun i => stackGranule width lane (y + i)).eraseDups.filter fun f => g.stackFailed.contains f
/-- Stack bytes of several lanes written (R148): a failed granule that the store overwrites whole clears, bytes that go into any
other failed granule are dropped. Answers the dropped granules. -/
def Group.writeStack (g : Group) (width : Nat) (l : List (Nat × Nat × List Byte)) : Group × List Nat :=
  let cells := l.flatMap fun e => (e.2.2.zip (List.range e.2.2.length)).map fun b => (e.1, e.2.1 + b.2, b.1)
  let bad := (cells.map fun c => stackGranule width c.1 c.2.1).eraseDups.filter fun f => g.stackFailed.contains f
  let whole := bad.filter fun f => decide (64 ≤ (cells.filter fun c => stackGranule width c.1 c.2.1 == f).length)
  let part := bad.filter fun f => !whole.contains f
  let m := cells.foldl (fun m c =>
    if part.contains (stackGranule width c.1 c.2.1) then m else Sparse.put 0#8 m (stackKey c.1 c.2.1) c.2.2) g.stack
  ({ g with stack := m, stackFailed := g.stackFailed.filter fun f => !whole.contains f }, part)

/-! ### The merge buffer and the home point (R161, R166, R169, R172) -/

/-- Whether two ranges of bytes overlap. -/
def rangesMeet (a n b m : Nat) : Bool := decide (a < b + m) && decide (b < a + n)
/-- Whether `n` bytes at one place overlap `m` bytes at another. -/
def Loc.meets (a : Loc) (n : Nat) (b : Loc) (m : Nat) : Bool := match a, b with
  | .mem p, .mem q => rangesMeet p n q m
  | .host v p, .host w q => v == w && rangesMeet p n q m
  | .peer c p, .peer d q => c == d && rangesMeet p n q m
  | .sx p, .sx q => rangesMeet p n q m
  | .stk l p, .stk k q => l == k && rangesMeet p n q m
  | _, _ => false
/-- A byte of `n` bytes at one place that a write of `bs` at another covers. -/
def Loc.cover (a : Loc) (i : Nat) (b : Loc) (bs : List Byte) : Option Byte :=
  let at_ := fun (p q : Nat) => if q ≤ p + i then bs[p + i - q]? else none
  match a, b with
  | .mem p, .mem q => at_ p q
  | .host v p, .host w q => if v == w then at_ p q else none
  | .peer c p, .peer d q => if c == d then at_ p q else none
  | .sx p, .sx q => at_ p q
  | .stk l p, .stk k q => if l == k then at_ p q else none
  | _, _ => none
/-- Bytes overlaid by newer writes to the same places, oldest write first, and whether each is overlaid. -/
def overlay (l : Loc) (base : List Byte) (ws : List (Loc × List Byte)) : List (Byte × Bool) :=
  (base.zip (List.range base.length)).map fun b => ws.foldl (fun v w => match l.cover b.2 w.1 w.2 with
    | some y => (y, true)
    | none => v) (b.1, false)
/-- Host-half bytes written (R169). -/
def State.pokeHost (s : State) (vf va : Nat) (bs : List Byte) : State :=
  { s with hostMem := Sparse.putList 0#8 s.hostMem (hostKey vf va) bs }
/-- Host-half bytes read; one never written is 0 (DESIGN CHOICE, notes/assumptions/11.md). -/
def State.peekHost (s : State) (vf va n : Nat) : List Byte := Sparse.getList 0#8 s.hostMem (hostKey vf va) n
/-- Whether a place is on another module. -/
def Loc.isPeer : Loc → Bool
  | .peer _ _ => true
  | _ => false
/-- Whether an access is still open, by its number: a store that is not accepted, a result that is pending. -/
def State.openId (s : State) (id : Nat) : Bool :=
  (s.cores.any fun c => c.2.buf.any fun e => e.id == id) || s.slices.any fun x => x.2.groups.any fun g => g.inflight.any fun f => f.id == id
/-- Whether a store must still wait for what its release follows (R166). -/
def State.holdsBack (s : State) (e : StoreEntry) : Bool := e.after.any s.openId
/-- A store accepted by its home point (R161, R169, R153): it leaves the buffer. A release at core scope leaves a promotion record
on a line of main memory (R172). A peer store goes to the target's hub, and stays until it is answered. -/
def State.commitStore (s : State) (core : Nat) (e : StoreEntry) : State :=
  let drop := fun (s : State) => s.modCore core fun k => { k with buf := k.buf.filter fun y => y.id != e.id }
  match e.loc with
  | .mem pa =>
    let (s, bad) := (drop s).writePa pa e.bytes
    let s := (s.countUncor e.rk bad.length).cacheTouch e.rk pa e.bytes.length true
    if e.relCore && !paIsWs pa then { s with promoted := Sparse.set s.promoted (pa / 128) (core, e.id) } else s
  | .host vf va => (drop s).pokeHost vf va e.bytes
  | .sx off =>
    let s := drop s
    let bad := match s.slice? e.who.sid with | some y => (y.writeScratch off e.bytes).2 | none => []
    (s.modSlice e.who.sid fun y => (y.writeScratch off e.bytes).1).countUncor e.rk bad.length
  | .peer _ _ => s
  | .stk _ _ => drop s
/-- The cores of a die that hold something. -/
def State.coresOf (s : State) (die : Nat) : List Nat := (s.cores.map Prod.fst).filter fun c => dieOf c == die
/-- A die's bridge queue (R161): the stores of its cores that wait in it, first in first out, each with its core. The model keeps one queue towards all home dies
(DEDUCED, notes/assumptions/10.md). -/
def State.bridge (s : State) (die : Nat) : List (Nat × StoreEntry) :=
  sortBy (fun e => e.2.pos) ((s.coresOf die).flatMap fun c => ((s.core c).buf.filter fun e => decide (1 ≤ e.level)).map fun e => (c, e))
/-- The stores of a bridge queue up to the last one that passes a test are accepted by their home points, in order (R161). -/
def State.flushBridge (s : State) (die : Nat) (p : StoreEntry → Bool) : State :=
  ((s.bridge die).reverse.dropWhile fun e => !p e.2).reverse.foldl (fun s e => s.commitStore e.1 e.2) s
/-- The stores of a core up to a number that can be accepted in the order of issue: those before the first that must still wait (R166, R169). Stores to other
modules wait for nobody here. -/
def State.readyStores (s : State) (core limit : Nat) : List StoreEntry :=
  ((s.core core).buf.filter fun e => !e.loc.isPeer && decide (e.id ≤ limit)).takeWhile fun e => !s.holdsBack e
/-- Before a core's access of bytes at a place reaches their home, what must be there first: its die's queued stores to that home (R161). -/
def State.arriveHome (s : State) (core : Nat) (l : Loc) : State := match l with
  | .mem pa =>
    if paDie pa == dieOf core then s
    else s.flushBridge (dieOf core) fun e => match e.loc with
      | .mem q => paDie q == paDie pa
      | _ => false
  | _ => s
/-- A core's stores up to a number accepted by their home points in the order of issue, as far as none must wait; what the die's bridge queue holds before
them, of any core of the die, goes first (DEDUCED, notes/assumptions/10.md). -/
def State.commitUpto (s : State) (core limit : Nat) : State :=
  let l := s.readyStores core limit
  let s := s.flushBridge (dieOf core) fun e => l.any fun y => y.id == e.id && decide (1 ≤ y.level)
  (l.filter fun e => e.level == 0).foldl (fun s e => (s.arriveHome core e.loc).commitStore core e) s
/-- Everything a core has stored becomes complete at dev scope, but for what must still wait and what goes to other modules (R172, R178). -/
def State.drainCore (s : State) (core : Nat) : State := s.commitUpto core s.nextId
/-- Whether stores below a number stay in the merge buffer of a core when all that can go has gone: those to other modules that are not answered, and those
that must still wait (R166). An arrival at a harness and a push wait for those of every group of the core, which its group may have seen (R167). -/
def State.storesStay (s : State) (core bound : Nat) : Bool := ((s.drainCore core).core core).buf.any fun e => decide (e.id < bound)
/-- The same for the stores of one group. -/
def State.groupStays (s : State) (core sid gi : Nat) : Bool := ((s.drainCore core).core core).buf.any fun e => e.who.sid == sid && e.who.gi == gi
/-- Whether the home of a store is another die of the module. -/
def StoreEntry.crosses (e : StoreEntry) (core : Nat) : Bool := match e.loc with
  | .mem pa => paDie pa != dieOf core
  | _ => false
/-- A store enters its die's bridge queue (R161): it is complete at die scope. -/
def State.enqueueStore (s : State) (core id : Nat) : State :=
  let (pos, s) := s.fresh
  s.modCore core fun k => { k with buf := updFirst (fun y => y.id == id) (fun y => { y with level := 1, pos := pos }) k.buf }
/-- A store that need not wait moves towards its home point, after the stores of its core before it (R161): one whose home is another die first enters the
die's bridge queue. -/
def State.advanceStore (s : State) (core : Nat) (e : StoreEntry) : State :=
  if e.level == 0 && e.crosses core then
    let l := (s.core core).buf.filter fun y => !y.loc.isPeer && y.level == 0 && decide (y.id ≤ e.id)
    l.foldl (fun s y => if y.crosses core then s.enqueueStore core y.id else s.commitUpto core y.id) s
  else s.commitUpto core e.id
/-- Bytes as an agent outside the cores, or an access made at the home point, reads them: past every merge buffer (R169, R284). Answers the failed granules. -/
def State.readHome (s : State) (rk : Nat) (l : Loc) (n : Nat) : List Byte × List Nat × State := match l with
  | .mem pa => let (b, f) := s.readPa pa n; (b, f, s.cacheTouch rk pa n false)
  | .host vf va => (s.peekHost vf va n, [], s)
  | _ => (List.replicate n 0#8, [], s)
/-- Bytes as a core's load for a slice of a region reads them at the home point, overlaid with what its merge buffer and, for a continuation, its held
stores write (R103, R161). Answers the failed granules of bytes that nothing overlays. -/
def State.readLoc (s : State) (sid gi core : Nat) (held : List (Loc × List Byte)) (l : Loc) (n : Nat) :
    List Byte × List Nat × State :=
  let s := s.arriveHome core l
  let mine := (s.core core).buf.filter fun e => match e.loc with | .sx _ => e.who.sid == sid | _ => true
  let newer := mine.map (fun e => (e.loc, e.bytes)) ++ held
  let rk := match s.slice? sid with | some x => s.sliceRegion x | none => 0
  let fin := fun (s : State) (base : List Byte) (bad : List Nat) (ws : List (Loc × List Byte)) =>
    let r := overlay l base ws
    (r.map Prod.fst, if r.all Prod.snd then [] else bad, s)
  match l with
  | .mem pa => let (b, f) := s.readPa pa n; fin (s.cacheTouch rk pa n false) b f newer
  | .host vf va => fin s (s.peekHost vf va n) [] newer
  | .peer _ _ => (List.replicate n 0#8, [], s)
  | .sx off => match s.slice? sid with
    | none => (List.replicate n 0#8, [], s)
    | some x => let (b, f) := x.readScratch off n; fin s b f newer
  | .stk lane y => match s.slice? sid, s.group? sid gi with
    | some x, some g =>
      let bad := g.stackBad (s.widthOf x) lane y n
      fin s (if bad.isEmpty then g.peekStack lane y n else List.replicate n 0#8) bad held
    | _, _ => (List.replicate n 0#8, [], s)

/-! ### Performing loads and atomics (R142, R164, R174, R358) -/

/-- A pending load or atomic of a group. -/
def State.memOp? (s : State) (sid gi id : Nat) : Option (Inflight × MemOp) :=
  match (s.group? sid gi).bind fun g => g.inflight? id with
  | some f => match f.body with
    | .mem m => some (f, m)
    | _ => none
  | none => none
/-- A pending load or atomic changed. -/
def State.setMemOp (s : State) (sid gi id : Nat) (m : MemOp) : State :=
  s.modGroup sid gi fun g => { g with inflight := updLast (fun f => f.id == id) (fun f => { f with body := .mem m }) g.inflight }
/-- The writes of a strand's held stores by one lane (R103). -/
def Group.heldWrites (g : Group) (sn lane before : Nat) : List (Loc × List Byte) :=
  let of := fun (size : Nat) (l : List LaneAcc) => (l.filter fun a => a.lane == lane).filterMap fun a => a.loc.map fun p => (p, bytesOf size a.arg)
  match g.strand? sn with
  | none => []
  | some t => (t.c.held.filter fun h => decide (h.id < before)).flatMap fun h => match h.instr with
    | .st _ ty .. => of ty.size h.acc
    | .sts _ ty .. => of ty.size h.acc
    | .stk _ ty .. => of (ty.width / 8) h.acc
    | _ => []
/-- An error that a load or atomic owes: that of the lowest lane is kept (R143, R153). -/
def MemOp.fail (m : MemOp) (cause lane detail : Nat) : MemOp := match m.err with
  | some (_, l, _) => if decide (l ≤ lane) then m else { m with err := some (cause, lane, detail) }
  | none => { m with err := some (cause, lane, detail) }
/-- Failed granules that a load or atomic meets: each is counted once (R153). -/
def MemOp.meetBad (m : MemOp) (s : State) (rk : Nat) (bad : List Nat) : MemOp × State :=
  let new := bad.filter fun f => !m.bad.contains f
  ({ m with bad := m.bad ++ new }, s.countUncor rk new.length)
/-- A group's watch is gone from the entries of its die. -/
def State.dropWatchEntry (s : State) (g : GroupRef) : State := { s with watches := s.watches.filter fun w => w.g != g }
/-- The oldest watch entry of a die evicted: its group's watch stays, marked evicted (R285). -/
def State.evictOldest (s : State) (die : Nat) : State := match s.watches.find? fun w => w.die == die with
  | none => s
  | some w => (s.dropWatchEntry w.g).modGroup w.g.sid w.g.gi fun g =>
      { g with watch := g.watch.map fun t => { t with evicted := true } }
/-- A group's watch armed on a line, or on nothing that can be watched, in place of any earlier one (R284, R285). -/
def State.armWatch (s : State) (g : GroupRef) (l : Option Loc) (va : Nat) : State :=
  let line := match l with | some (.mem pa) => if paIsWs pa then none else some (pa / 128) | _ => none
  let s : State := s.dropWatchEntry g
  let s : State := match line with
    | none => s
    | some n =>
      let die := paDie (n * 128)
      let full := decide (Config.watchEntries ≤ (s.watches.filter fun (w : WatchEnt) => w.die == die).length)
      let s := if full then s.evictOldest die else s
      { s with watches := s.watches ++ [⟨die, g⟩] }
  s.modGroup g.sid g.gi fun y => { y with watch := some ⟨line, va, false, false, false⟩ }
/-- One lane of a load performed now; an MWATCH reads at the home point (R284). -/
def State.performLane (s : State) (sid gi core : Nat) (f : Inflight) (m : MemOp) (a : LaneAcc) : State × MemOp :=
  match a.val, a.loc with
  | some _, _ => (s, m)
  | none, none => (s, m)
  | none, some (.peer _ _) => (s, m)
  | none, some l =>
    let held := match s.group? sid gi with | some g => g.heldWrites f.sn a.lane f.id | none => []
    let rk := match s.slice? sid with | some x => s.sliceRegion x | none => 0
    let (bs, bad, s) := if m.watch then (s.arriveHome core l).readHome rk l m.ty.size else s.readLoc sid gi core held l m.ty.size
    let (m, s) := m.meetBad s rk bad
    let m := if m.strict && !bad.isEmpty then m.fail (128 + 4) a.lane (match l with | .mem _ => a.va / 128 * 128 | _ => a.va) else m
    (s, { m with acc := updFirst (fun y => y.lane == a.lane) (fun y => { y with val := some (ofBytes bs) }) m.acc })
/-- A pending load performed now in every lane that has no value yet; an MWATCH arms its group's watch at the same moment (R284). -/
def State.performLoad (s : State) (sid gi core id : Nat) : State :=
  match s.memOp? sid gi id with
  | none => s
  | some (f, m) =>
    let todo := m.acc.filter fun a => a.val.isNone
    let (s, m) := todo.foldl (fun (sm : State × MemOp) a => sm.1.performLane sid gi core f sm.2 a) (s, m)
    let s := s.setMemOp sid gi id m
    match m.watch, todo with
    | true, a :: _ => s.armWatch ⟨sid, gi⟩ a.loc a.va
    | _, _ => s
/-- One operation of R358 on an element of `w` bits. -/
def atomOp (op : AtomOp) (ty : IntTy) (cur arg cmp : Nat) : Nat :=
  let w := ty.width
  let lt := fun (a b : Nat) => if ty.signed then decide (signedOf w a < signedOf w b) else decide (a < b)
  match op with
  | .add => (cur + arg) % 2 ^ w
  | .min => if lt arg cur then arg else cur
  | .max => if lt cur arg then arg else cur
  | .and => cur &&& arg
  | .or => cur ||| arg
  | .exch => arg
  | .cas => if cur == cmp then arg else cur
  | .fadd => cur
/-- The lanes of one address performed together on the element's value (R358, and R128 for fadd): their results in order, and the
element's new value. -/
def atomLanes (op : AtomOp) (ty : IntTy) (cur : Nat) (l : List (Nat × Nat)) : List Nat × Nat :=
  match op with
  | .fadd =>
    let r := l.foldl (fun (st : List Nat × Option Nat) e =>
      let res := match st.2 with | none => cur | some p => (addBits .f32 .rne false cur p).bits
      let acc := match st.2 with | none => e.1 | some p => (addBits .f32 .rne false p e.1).bits
      (st.1 ++ [res], some acc)) ([], none)
    (r.1, match r.2 with | none => cur | some p => (addBits .f32 .rne false cur p).bits)
  | _ => l.foldl (fun (st : List Nat × Nat) e => (st.1 ++ [st.2], atomOp op ty st.2 e.1 e.2)) ([], cur)
/-- An element read and written at its home point as one write (R174): the old values of its lanes, or 0 for each with
the failed granules where it lies in one (R358); a failed granule that the write does not cover keeps the write out (R153). -/
def State.atomAt (s : State) (sid core rk : Nat) (l : Loc) (size : Nat) (f : Nat → List Nat × Nat) : List Nat × List Nat × State :=
  match l with
  | .mem pa =>
    let s := s.arriveHome core l
    let (b, bad) := s.readPa pa size
    let (res, new) := f (ofBytes b)
    let (s, _) := s.writePa pa (bytesOf size new)
    (if bad.isEmpty then res else res.map fun _ => 0, bad, s.cacheTouch rk pa size true)
  | .host vf va =>
    let (res, new) := f (ofBytes (s.peekHost vf va size))
    (res, [], s.pokeHost vf va (bytesOf size new))
  | .sx off => match s.slice? sid with
    | none => ([], [], s)
    | some x =>
      let (b, bad) := x.readScratch off size
      let (res, new) := f (ofBytes b)
      (if bad.isEmpty then res else res.map fun _ => 0, bad, s.modSlice sid fun x => (x.writeScratch off (bytesOf size new)).1)
  | _ => ([], [], s)
/-- A pending atomic performed now in every lane that has no value yet: pass by pass, each element once (R358). -/
def State.performAtom (s : State) (sid gi core id : Nat) : State :=
  match s.memOp? sid gi id with
  | none => s
  | some (_, m) => match m.atom, m.ty with
    | some op, .int ty =>
      let todo := m.acc.filter fun a => a.val.isNone && (match a.loc with | none => false | some (.peer _ _) => false | some _ => true)
      let rk := match s.slice? sid with | some x => s.sliceRegion x | none => 0
      let one := fun (sm : State × MemOp) (a : LaneAcc) =>
        match sm.2.acc.find? fun y => y.lane == a.lane with
        | none => sm
        | some y => if y.val.isSome then sm else match a.loc with
          | none => sm
          | some l =>
            let same := todo.filter fun b => b.lane / 32 == a.lane / 32 && b.loc == some l
            let (res, bad, s) := sm.1.atomAt sid core rk l (ty.width / 8) fun cur =>
              atomLanes op ty cur (same.map fun b => (b.arg, b.cmp))
            let (m, s) := sm.2.meetBad s rk bad
            let m := if m.strict && !bad.isEmpty then m.fail (160 + 4) a.lane (a.va / 128 * 128) else m
            (s, (same.zip res).foldl (fun m e =>
              { m with acc := updFirst (fun y => y.lane == e.1.lane) (fun y => { y with val := some e.2 }) m.acc }) m)
      let (s, m) := todo.foldl one (s, m)
      s.setMemOp sid gi id m
    | _, _ => s
/-! ### What accesses wait for (R166, R170, R172, R173) -/

/-- Whether an accepted access, by its number, is complete at a scope for a slice's group: a load has returned, a store has
reached the scope, a command has ended (R161). A store to another module reaches no scope wider than the core before it is answered. -/
def State.doneAt (s : State) (sid gi core : Nat) (scope : Scope) (id : Nat) : Bool :=
  let k := s.core core
  let inGroup := match s.group? sid gi with | some g => g.inflight.any fun f => f.id == id | none => false
  let inBuf := k.buf.any fun e => e.id == id && (match scope, e.loc with
    | .group, _ => false
    | .core, .sx _ => true
    | .core, _ => false
    | .die, .peer _ _ => true
    | .die, _ => e.level == 0
    | _, _ => true)
  let inCopy := k.chans.any fun c => c.entries.any fun e => e.id == id
  let inUpd := k.upd.any fun e => e.id == id
  let inArr := match s.slice? sid with
    | some x => x.arrays.any fun a => a.queue.any fun q => q.id == id
    | none => false
  let inRanks := s.harnesses.any fun e => e.2.ranks.any fun r => r.id == id
  let sent := s.remotes.any fun r => r.id == id || (match r.owner with | .matrixStore _ c _ => c == id | _ => false)
  !(inGroup || inBuf || inCopy || inUpd || inArr || inRanks || sent)
/-- The paths of a memory or engine instruction (R160), none for every other instruction. An arrival at a harness acts as a release on the load-store path
(R176), and so does a push to a queue (R271). -/
def pathsOf (i : Instr) : List Path := match i with
  | .ld .. | .lds .. | .ldk .. | .ldw .. | .pref .. | .mwatch .. | .scload .. | .st .. | .sts .. | .stk .. | .screc .. | .atom .. | .atoms .. => [.ls]
  | .harr .. | .hbar .. | .hvote .. | .hred .. => [.ls]
  | .cpy .. | .cpyt .. | .optstep .. | .qpop .. => [.cp]
  | .qpush .. | .spawn .. => [.cp, .ls]
  | .mma .. | .mmat .. | .mmad .. | .mldw .. | .mswap .. | .mdrain .. | .mzero .. | .mfill .. => [.mx]
  | .coll .. => [.cl]
  | _ => []
/-- Whether an unmet condition of a strand holds back an instruction (R170, R173): a FENCE every memory or engine instruction. -/
def Strand.fenced (t : Strand) (i : Instr) : Bool := t.fences.any fun f => match f.path with
  | none => !(pathsOf i).isEmpty
  | some p => (pathsOf i).contains p
/-- Whether a pending result is that of a presented load, atomic or scale record. -/
def Inflight.isLoad (f : Inflight) : Bool := match f.body with
  | .mem _ => true
  | .scload .. => true
  | _ => false
/-- The pending loads of some lanes of a group, in any strand of it: a lane's accesses stand in program order across a fork (R104, R166). What a continuation
holds is not presented, so it comes later. -/
def Group.loadsOf (g : Group) (m : Mask) : List Nat := (g.inflight.filter fun f => f.isLoad && (f.mask &&& m) != 0).map Inflight.id
/-- The accesses of a group's lanes that are not complete everywhere: pending loads, then buffered stores. -/
def State.openAccesses (s : State) (r : StrandRef) (core : Nat) (m : Mask) : List Nat × List Nat :=
  let loads := match s.group? r.sid r.gi with
    | none => []
    | some g => g.loadsOf m
  let stores := ((s.core core).buf.filter fun e => e.who.sid == r.sid && e.who.gi == r.gi && (m &&& e.lanes) != 0).map StoreEntry.id
  (loads, stores)
/-- Whether a scope is wider than the core. -/
def scopeWide : Scope → Bool
  | .group => false
  | .core => false
  | _ => true
/-- The accesses that a core recorded on a line for remote-scope promotion must make complete first (R172): what its groups issued before the recorded release
and is still open. Its stores to this module went before that release, and what a continuation holds is not presented (DEDUCED, notes/assumptions/10.md). -/
def State.recordOpen (s : State) (c id : Nat) : List Nat :=
  (((s.core c).buf.filter fun e => e.loc.isPeer && decide (e.id < id)).map StoreEntry.id) ++
    s.slices.flatMap fun x => if x.2.core != c || x.2.st != .resident then [] else x.2.groups.flatMap fun g =>
      (g.inflight.filter fun f => f.isLoad && decide (f.id < id)).map Inflight.id
/-- What must be complete before an acquire with RP of a core is presented (R172). -/
def State.promotionOpen (s : State) (core : Nat) (acc : List LaneAcc) : List Nat := acc.flatMap fun a => match a.loc with
  | some (.mem pa) => (match Sparse.find s.promoted (pa / 128) with
    | some (c, id) => if c == core then [] else s.recordOpen c id
    | none => [])
  | _ => []
/-- Lines with a promotion record that their die cache has let go are evicted, and the record cleared, once the recorded core has made its accesses complete at dev scope;
until then an acquire with RP still meets the record (R172; DEDUCED, notes/assumptions/10.md). -/
def State.settleEvicted (s : State) : State := s.promoted.foldl (fun s e =>
  if ((Sparse.get [] s.dcache (paDie (e.1 * 128))).any fun y => y.line == e.1) || !(s.recordOpen e.2.1 e.2.2).isEmpty then s
  else { s.drainCore e.2.1 with promoted := Sparse.del s.promoted e.1 }) s
/-- The records of other cores on the lines of an acquire with RP are cleared (R172). -/
def State.promote (s : State) (core : Nat) (acc : List LaneAcc) : State :=
  acc.foldl (fun s a => match a.loc with
    | some (.mem pa) => match Sparse.find s.promoted (pa / 128) with
      | some (c, _) => if c == core then s else { s.drainCore c with promoted := Sparse.del s.promoted (pa / 128) }
      | none => s
    | _ => s) s

/-! ### Presenting loads and atomics (R142, R144, R166, R172, R174) -/

/-- An access of a region to a peer module goes out, with the region's fabric tenant id and tag (R337, R340). -/
def State.sendRemote (s : State) (owner : RemoteOwner) (rk chip va size : Nat) (kind : InKind) : Nat × State :=
  let (id, s) := s.fresh
  let t := s.tenant (keyVf rk)
  let r : Remote := { id := id, chip := chip, owner := owner, va := va, size := size, since := s.clock, tmo := t.tmo }
  (id, { s with remotes := s.remotes ++ [r] }.emit (.remote chip t.ftid (keyTag rk) id va size kind))
/-- The lanes of a list of accesses to other modules, in groups of one key: their chip, key and members, in ascending order of lane. -/
def peerParts (key : LaneAcc → Nat → Nat) (l : List LaneAcc) : List (Nat × Nat × List LaneAcc) :=
  l.foldl (fun m a => match a.loc with
    | some (.peer chip va) =>
      let k := key a va
      if m.any fun e => e.1 == chip && e.2.1 == k then
        m.map fun e => if e.1 == chip && e.2.1 == k then (e.1, e.2.1, e.2.2 ++ [a]) else e
      else m ++ [(chip, k, [a])]
    | _ => m) []
/-- Whether a line of another module is at hand. -/
def peerHas (l : List PeerLine) (chip line : Nat) : Bool := l.any fun g => g.chip == chip && g.line == line
/-- A number for a granule of another module's memory, apart from the addresses of this one. -/
def peerGranule (chip va : Nat) : Nat := (chip + 1) * 2 ^ 64 + va / 32 * 32
/-- A byte of a line of another module that is at hand, and the failed granule in which it lies. -/
def peerByte (l : List PeerLine) (chip va : Nat) : Byte × Option Nat := match l.find? fun g => g.chip == chip && g.line == va / 128 with
  | none => (0#8, none)
  | some g => ((g.bytes[va % 128]?).getD 0#8, if g.bad.contains (va % 128 / 32 * 32) then some (peerGranule chip va) else none)
/-- The requests for the peer lanes of a load or atomic (R144, R174): for each pass, one for each line with the sectors it touches, or one for each element of an
atomic. -/
def State.sendLanes (s : State) (who : StrandRef) (rk id : Nat) (m : MemOp) : State :=
  (List.range 4).foldl (fun s k =>
    let l := m.acc.filter fun a => a.lane / 32 == k && a.val.isNone
    match m.atom, m.ty with
    | some op, .int ty => (peerParts (fun _ va => va) l).foldl (fun s e =>
        (s.sendRemote (.load who id (e.2.2.map LaneAcc.lane)) rk e.1 e.2.1 (ty.width / 8) (.atom op ty (e.2.2.map fun a => (a.arg, a.cmp)))).2) s
    | _, _ => (peerParts (fun _ va => va / 128) l).foldl (fun s e =>
        let sectors := e.2.2.foldl (fun n a => n ||| (sectorsOf e.2.1 a.va m.ty.size).toNat) 0
        (s.sendRemote (.load who id (e.2.2.map LaneAcc.lane)) rk e.1 (e.2.1 * 128) 128 (.load sectors)).2) s) s
/-- Whether a pending load or atomic reads its line at the home point itself, past the merge buffer: an atomic or an MWATCH (R174, R284). -/
def MemOp.atHome (m : MemOp) : Bool := m.atom.isSome || m.watch
/-- Whether a pending load or atomic may be presented: what it must follow is complete (R166, R172). -/
def State.mayStart (s : State) (core : Nat) (m : MemOp) : Bool :=
  !(m.after.any s.openId) && (!(m.ord.acq && m.ord.rp) || (s.promotionOpen core m.acc).isEmpty)
/-- A pending load or atomic presented, once it may be: its lanes read and change memory now, in the order in which the strand's accesses are presented, and those of
other modules go out (R142, R164; DEDUCED, notes/assumptions/10.md). A release at core scope leaves its record (R172), and a wait for a shutter window is counted
(R151). -/
def State.startMem (s : State) (sid gi core id : Nat) : State := match s.slice? sid, s.memOp? sid gi id with
  | some x, some (f, m) =>
    if m.started || !s.mayStart core m then s
    else
      let rk := s.sliceRegion x
      let s := if m.atHome then s.drainCore core else s
      let s := if m.ord.acq && m.ord.rp then s.promote core m.acc else s
      let s := if m.atom.isSome then s.performAtom sid gi core id else s.performLoad sid gi core id
      let s := if m.atom.isSome && m.ord.rel && m.ord.scope == .core then
          m.acc.foldl (fun s a => match a.loc with
            | some (.mem pa) => { s with promoted := Sparse.set s.promoted (pa / 128) (core, id) }
            | _ => s) s
        else s
      let s := s.sendLanes ⟨sid, gi, f.sn⟩ rk id m
      let shut := m.atom.isNone && m.acc.any fun a => match a.loc with | some (.mem pa) => shuttered s.clock pa | _ => false
      let s := if shut then s.count core rk .shutterWaits 1 else s
      match s.memOp? sid gi id with
      | some (_, m) => s.setMemOp sid gi id { m with started := true, shut := shut }
      | none => s
  | _, _ => s

end Sys2Proof.Machine
end

