-- ==== Sys2Proof/Machine/Memory.lean ====
section
/-!
DEFINITION. The memory instructions (spec/17 R357 to R360, R369, R385; spec/18 R413 to R418; spec/19 R427, R434, R448 to R451,
R456; spec/12 R283 to R285): their checks, presenting their accesses, and holding them in a continuation (spec/05 R103).
-/

namespace Sys2Proof.Machine

/-! ### Holding (R103) -/

/-- Whether a continuation holds its stores and engine commands: one of its own frames has a live arm, or earlier entries are not presented
yet (R103; for a continuation that has forked again DEDUCED, notes/assumptions/19.md). -/
def X.holds (x : X) : Bool :=
  x.cur.held.isNone && (!x.t.c.held.isEmpty ||
    x.t.c.own.any fun f => x.g.frames.any fun y => y.id == f && decide (0 < y.arms))
/-- A multi-register result pending from issue (R66). -/
def X.pend (x : X) (id : Nat) (dst : List (Cls × Nat)) (body : Body) (s : State) : State :=
  s.addInflight x.cur.who { id := id, sn := x.cur.who.sn, mask := x.mask, dst := dst, cpc := x.cur.pc, body := body, shadow := [] }
/-- A result an instruction knows when it issues, written through the scoreboard. -/
def X.result (x : X) (l : List RegWr) (dst : List (Cls × Nat)) (s : State) : State :=
  let (id, s) := s.fresh
  x.pend id dst (.timed (x.cur.cycle + Config.shortResult) l) s
/-- The registers an instruction names as sources, as it reads them when it issues, and with a tile handle its record (R103). -/
def X.snapshot (x : X) (i : Instr) (h : Hdr) : List RegWr :=
  (x.ops i h).flatMap fun o => if o.wr then [] else (List.range o.cnt).flatMap fun k =>
    let n := o.num + k
    match o.cls with
    | .v => x.lanes.map fun l => .v n l (BitVec.ofNat 32 (x.v n l))
    | .g => [.g n (x.view0.greg n)]
    | .gp => if n == 7 then [] else [.gp n (x.gp n)]
    | .h => [.h n (x.view0.hreg n)]
    | .b => [.b n (x.view0.breg n)]
    | .th => let th := x.view0.threg n; let r := bitsAt th.toNat 32 4; [.th n th, .b r (x.view0.breg r)]
    | _ => []
/-- An instruction that issued joins the held queue of its strand, or waits before issue for room (R103). -/
def X.hold (x : X) (i : Instr) (h : Hdr) (id : Nat) (acc : List LaneAcc) (strict : Bool) (s : State) (smp : Option Nat := none) : Res :=
  if decide (Config.heldEntries ≤ x.t.c.held.length) then .wait .heldFull
  else .ok (s.modStrand x.cur.who fun t => { t with c := { t.c with held := t.c.held ++
    [{ instr := i, pc := x.cur.pc, id := id, regs := x.snapshot i h, mask := x.mask, fmt := x.fmt,
       scale := match i with | .mdrain _ _ _ _ _ _ _ _ sc _ _ => x.view0.screg sc | _ => 0
       replay := x.view0.replay.isSome, acc := acc, strict := strict, sample := smp, issued := x.cur.cycle }] } })
/-- Places found again when a held access is presented (R138). One that no longer translates ends its instruction: its result is written no more, and the trap
that its translation raises is owed (DESIGN CHOICE, notes/assumptions/19.md). -/
def X.represent (x : X) (s : State) (k : AccessKind) (e : Held) : Except Res (List LaneAcc × Bool) :=
  let place := fun (a : LaneAcc) => match a.loc with
    | some (.mem _) => s.translate (keyVf x.rk) k a.va
    | some (.host _ _) => s.translate (keyVf x.rk) k a.va
    | some (.peer _ _) => s.translate (keyVf x.rk) k a.va
    | some l => .ok l
    | none => .bad 0
  match e.acc.find? fun a => a.loc.isSome && (match place a with | .ok _ => false | _ => true) with
  | some a =>
    let kind := match place a with | .bad n => n | _ => 2
    .error (.counted (fun s => s.complete x.cur.who.sid x.cur.who.gi e.id []) (k.base + kind) a.lane (a.va / 128 * 128))
  | none => .ok (e.acc.map fun a => { a with loc := if a.loc.isSome then (match place a with | .ok l => some l | _ => none) else none }, e.strict)

/-! ### Sampling figures (R327, R147) -/

/-- The distinct blocks of `n` bytes that a pass touches, over all passes. -/
def blocksTouched (n : Nat) (acc : List LaneAcc) (size : Nat) : Nat :=
  ((acc.filter fun a => a.loc.isSome).flatMap fun a =>
    (List.range (ceilDiv (a.va % n + size) n)).map fun i => (a.lane / 32, a.va / n + i)).eraseDups.length
/-- Bank cycles of a pass beyond the first (R147). -/
def bankExtra (words : List Nat) : Nat :=
  ((List.range 64).foldl (fun m b => max m (words.filter fun w => w % 64 == b).length) 0) - 1
/-- Bank-conflict cycles of a scratchpad instruction over its passes (R147). -/
def bankConflicts (np : Nat) (acc : List LaneAcc) (size : Nat) : Nat :=
  (List.range np).foldl (fun n k => n + bankExtra
    ((acc.filter fun a => a.loc.isSome && a.lane / 32 == k).flatMap fun a =>
      (List.range (ceilDiv (a.va % 4 + size) 4)).map fun i => a.va / 4 + i).eraseDups) 0
/-- The figures of an access: sectors or words touched, those of a stack access in the interleaved area of R148, and bank-conflict cycles, which are counted. -/
def X.figures (x : X) (acc : List LaneAcc) (size : Nat) (s : State) : Nat × Nat × State :=
  if acc.any fun a => match a.loc with | some (.sx _) => true | _ => false then
    let n := bankConflicts (passesOf x.width) acc size
    (blocksTouched 4 acc size, n, s.count x.x.core x.rk .bankConflicts n)
  else
    let flat := acc.flatMap fun a => match a.loc with
      | some (.stk l y) => (List.range (ceilDiv size 4)).map fun i => { a with va := (y / 4 + i) * 4 * stackWh x.width + 4 * l + y % 4 }
      | _ => []
    (if flat.isEmpty then blocksTouched 32 acc size else blocksTouched 32 flat (min size 4), 0, s)
/-- The figures and the sampling of an access, once, at its issue (R147, R327); one that is presented from the held queue keeps its sample. -/
def X.sampleAt (x : X) (sampled : Bool) (acc : List LaneAcc) (size : Nat) (s : State) : Option Nat × State := match x.cur.held with
  | some e => (e.sample, s)
  | none =>
    let (sectors, replays, s) := x.figures acc size s
    if sampled then s.sampleInstr x.cur.who x.cur.pc x.cur.cycle x.mask (maskOf fun l => acc.any fun a => a.lane == l && a.loc.isSome) sectors replays else (none, s)
/-- Lanes out of bounds counted (R141). -/
def X.countOob (x : X) (acc : List LaneAcc) (s : State) : State :=
  s.countOob x.rk (acc.filter fun a => a.loc.isNone).length

/-! ### Loads and atomics -/

/-- A load or atomic of the group that is not presented yet and touches bytes of an access: the access waits for it, since a lane's accesses to one location take
effect in program order (R164). -/
def X.behind (x : X) (s : State) (acc : List LaneAcc) (size : Nat) : Option Nat := match s.group? x.cur.who.sid x.cur.who.gi with
  | none => none
  | some g => firstSome (fun (f : Inflight) => match f.body with
    | .mem m => if !m.started && (m.acc.any fun a => acc.any fun b => match a.loc, b.loc with
        | some p, some q => p.meets m.ty.size q size
        | _, _ => false) then some f.id else none
    | _ => none) g.inflight
/-- What an access must follow (R105, R166, R177): the loads of its lanes and, at a scope wider than the core, the stores of its core to other modules for a release;
the stores of its lanes to other modules for what a continuation held; and for an access to a module a store to it that has not gone out. An atomic, which does not go through
the merge buffer, follows the stores to this module too that are still there. -/
def X.follows (x : X) (s : State) (ord : MemOrd) (lanes : Mask) (chips : List Nat) (atomic : Bool := false) : List Nat :=
  let buf := (s.core x.x.core).buf
  let loads := match s.group? x.cur.who.sid x.cur.who.gi with | some g => g.loadsOf lanes | none => []
  let peers := buf.filter fun e => atomic || e.loc.isPeer
  (if ord.rel then loads ++ (if scopeWide ord.scope then peers.map StoreEntry.id else []) else []) ++
    (if x.cur.held.isSome then (peers.filter fun e => e.who.gi == x.cur.who.gi && e.who.sid == x.cur.who.sid && (e.lanes &&& lanes) != 0).map StoreEntry.id else []) ++
    (peers.filter fun e => !e.sent && (match e.loc with | .peer c _ => chips.contains c | _ => false)).map StoreEntry.id
/-- The modules that accesses go to. -/
def chipsOf (acc : List LaneAcc) : List Nat := acc.filterMap fun a => match a.loc with | some (.peer c _) => some c | _ => none
/-- A load or atomic presented (R141, R166): its result pends, it is presented as soon as what it must follow is complete, and an acquire holds back later
accesses. -/
def X.presentMem (x : X) (id : Nat) (dst : List (Cls × Nat)) (m : MemOp) (s : State) : State :=
  let who := x.cur.who
  let s := if m.atHome then s.drainCore x.x.core else s
  let blocked := if m.atHome then ((s.core x.x.core).buf.filter fun e => m.acc.any fun a => match a.loc with
      | some l => !l.isPeer && l.meets m.ty.size e.loc e.bytes.length
      | none => false).map StoreEntry.id else []
  let m := { m with after := x.follows s m.ord x.mask (chipsOf m.acc) m.atom.isSome ++ blocked }
  let s := match x.cur.held with
    | some _ => s.setMemOp who.sid who.gi id m
    | none => x.pend id dst (.mem m) s
  let s := s.startMem who.sid who.gi x.x.core id
  if m.ord.acq && !m.acc.isEmpty then s.modStrand who fun t => { t with fences := t.fences ++ [⟨some .ls, [id], .group, false, none, x.cur.pc, none⟩] } else s
/-- Whether a load of a continuation is held: behind a held FENCE or XFENCE, or behind a held atomic to its bytes (R103). -/
def X.loadHeld (x : X) (acc : List LaneAcc) (size : Nat) : Bool :=
  x.cur.held.isNone && x.t.c.held.any fun h => match h.instr with
    | .fence .. => true
    | .fenceCounting .. => true
    | .xfence .. => true
    | .atom _ _ ty .. => h.acc.any fun a => acc.any fun b => b.lane == a.lane &&
        (match a.loc, b.loc with | some p, some q => p.meets (ty.width / 8) q size | _, _ => false)
    | .atoms _ _ ty .. => h.acc.any fun a => acc.any fun b => b.lane == a.lane &&
        (match a.loc, b.loc with | some p, some q => p.meets (ty.width / 8) q size | _, _ => false)
    | _ => false
/-- The pending result of an instruction that is presented from the held queue keeps its number. -/
def X.takeId (x : X) (s : State) : Nat × State := match x.cur.held with
  | some e => (e.id, s)
  | none => s.fresh
/-- The effect of a load: out-of-bounds lanes read zero and are counted, the others pend (R141, R414). -/
def X.loadEff (x : X) (i : Instr) (h : Hdr) (k : AccessKind) (ty : MemTy) (ord : MemOrd) (dst : List (Cls × Nat)) (d : Nat)
    (watch sampled : Bool) (r : Except Res (List LaneAcc × Bool)) (s : State) : Res :=
  let r := match x.cur.held with
    | some e => x.represent s k e
    | none => r
  match r with
  | .error e => e
  | .ok (acc, strict) => match x.behind s acc ty.size with
    | some n => .wait (.result n)
    | none =>
      let s := if x.cur.held.isSome then s else x.countOob acc s
      let (id, s) := x.takeId s
      let (smp, s) := x.sampleAt sampled acc ty.size s
      if x.loadHeld acc ty.size then x.hold i h id acc strict (x.pend id dst .hold s) smp
      else
        let acc := acc.map fun a => if a.loc.isNone then { a with val := some 0 } else a
        let s := if watch && acc.all (fun a => a.loc.isNone) then s.armWatch ⟨x.cur.who.sid, x.cur.who.gi⟩ none 0 else s
        .ok (x.presentMem id dst ⟨none, ty, d, watch, acc, strict, ord, smp, none, [], [], false, false⟩ s)
/-- The registers of a load's or an atomic's destination. -/
def memDst (d n : Nat) : List (Cls × Nat) := (List.range n).map fun i => (Cls.v, d + i)
/-- Whether earlier loads of the instruction's lanes have not returned. -/
def X.loadsOpen (x : X) (s : State) : Bool := !(s.openAccesses x.cur.who x.x.core x.mask).1.isEmpty
/-- The operands of an atomic with its lanes (R357): the new value and, for cas, the compare value. -/
def X.atomArgs (x : X) (op : AtomOp) (ty : IntTy) (c : Nat) (acc : List LaneAcc) : List LaneAcc :=
  let rd := fun (r l : Nat) => if ty.wide then x.v64 r l else x.v r l
  acc.map fun a => match op with
    | .cas => { a with cmp := rd c a.lane, arg := rd (c + (if ty.wide then 2 else 1)) a.lane }
    | _ => { a with arg := rd c a.lane }
/-- The effect of an atomic (R358). -/
def X.atomEff (x : X) (i : Instr) (h : Hdr) (op : AtomOp) (ty : IntTy) (ord : MemOrd) (d c : Nat)
    (r : Except Res (List LaneAcc × Bool)) (s : State) : Res :=
  let r := match x.cur.held with
    | some e => x.represent s .atom e
    | none => r
  match r with
  | .error e => e
  | .ok (acc, strict) =>
    let size := ty.width / 8
    match x.behind s acc size with
    | some n => .wait (.result n)
    | none =>
      let dst := memDst d (if ty.wide then 2 else 1)
      let acc := if x.cur.held.isSome then acc else x.atomArgs op ty c acc
      let s := if x.cur.held.isSome then s else x.countOob acc s
      let (smp, s) := x.sampleAt true acc size s
      if x.holds then let (id, s) := s.fresh; x.hold i h id acc strict (x.pend id dst .hold s) smp
      else
        let (id, s) := x.takeId s
        .ok (x.presentMem id dst ⟨some op, .int ty, d, false, acc, strict, ord, smp, none, [], [], false, false⟩ s)

/-! ### Stores -/

/-- A run of bytes that one pass stores to one line (R144, R163). -/
structure StoreRun where
  va : Nat
  loc : Loc
  bytes : List Byte
  lanes : Mask
deriving DecidableEq, Repr, Inhabited

/-- The runs of a pass: where lanes store to the same bytes the highest lane's remain (R163). -/
def storeRuns (size : Nat) (acc : List LaneAcc) : List StoreRun :=
  let cells := acc.foldl (fun m a => match a.loc with
    | none => m
    | some l => ((bytesOf size a.arg).zip (List.range size)).foldl
        (fun m b => Sparse.set m (a.va + b.2) (b.1, l, a.va, a.lane)) m) ([] : List (Nat × Byte × Loc × Nat × Nat))
  let shift := fun (l : Loc) (n : Nat) => match l with
    | .mem p => Loc.mem (p + n)
    | .host v p => Loc.host v (p + n)
    | .peer c p => Loc.peer c (p + n)
    | .sx p => Loc.sx (p + n)
    | .stk k p => Loc.stk k (p + n)
  (cells.foldl (fun (l : List StoreRun) c =>
    let new : StoreRun := ⟨c.1, shift c.2.2.1 (c.1 - c.2.2.2.1), [c.2.1], BitVec.ofNat 128 (2 ^ c.2.2.2.2)⟩
    match l with
    | r :: rest =>
      if r.va + r.bytes.length == c.1 && c.1 % 128 != 0 then
        { r with bytes := r.bytes ++ [c.2.1], lanes := r.lanes ||| BitVec.ofNat 128 (2 ^ c.2.2.2.2) } :: rest
      else new :: r :: rest
    | [] => [new]) []).reverse
/-- The runs of every pass in order, each with its pass. -/
def X.allRuns (x : X) (size : Nat) (acc : List LaneAcc) : List (Nat × StoreRun) :=
  (List.range (passesOf x.width)).flatMap fun k => (storeRuns size (acc.filter fun a => a.lane / 32 == k)).map fun r => (k, r)
/-- The failed granules that a run would write in part (R153, R449). -/
def State.runPart (s : State) (x : Slice) (r : StoreRun) : List Nat := match r.loc with
  | .mem pa => (s.failedIn pa r.bytes.length).filter fun f =>
      !(decide (pa ≤ f) && decide (f + granuleSize f ≤ pa + r.bytes.length))
  | .sx off => x.scratchFailed.filter fun f =>
      rangesMeet f 4 off r.bytes.length && !(decide (off ≤ f) && decide (f + 4 ≤ off + r.bytes.length))
  | _ => []
/-- The lowest lane whose element touches one of some failed granules, with the granule (R143). -/
def lowestBad (size : Nat) (acc : List LaneAcc) (bad : List (StoreRun × Nat)) : Option (Nat × Nat) := firstSome (fun (a : LaneAcc) =>
  (bad.find? fun e => match a.loc, e.1.loc with
    | some (.mem p), .mem _ => rangesMeet p size e.2 (granuleSize e.2)
    | some (.sx o), .sx _ => rangesMeet o size e.2 4
    | _, _ => false).map fun e => (a.lane, match e.1.loc with | .mem pa => e.1.va + e.2 - pa | _ => e.2)) acc
/-- The requests of a core to other modules with some number go out, once what they must follow is complete (R144, R166): one carries the runs of a pass in a line. -/
def State.sendStore (s : State) (core req : Nat) : State :=
  let l := (s.core core).buf.filter fun e => e.loc.isPeer && e.req == req && !e.sent
  match l with
  | [] => s
  | e :: _ => match e.loc with
    | .peer chip _ =>
      if l.any s.holdsBack then s
      else
        let s := s.modCore core fun k => { k with buf := k.buf.map fun y => if y.loc.isPeer && y.req == req then { y with sent := true } else y }
        (s.sendRemote (.store core (l.map StoreEntry.id)) e.rk chip (e.va / 128 * 128) 128 (.store (l.map fun y => (y.va % 128, y.bytes)))).2
    | _ => s
/-- A run presented (R161): it enters the merge buffer. Scratchpad bytes are written at once, unless their store must follow something or an earlier one of the slice
still does. -/
def X.presentRun (x : X) (ord : MemOrd) (strict : Bool) (smp : Option Nat) (req : Nat) (after : List Nat) (r : StoreRun) (s : State) : State :=
  let buf := (s.core x.x.core).buf
  let direct := after.isEmpty && !buf.any fun e => e.who.sid == x.cur.who.sid && (match e.loc with | .sx _ => true | _ => false)
  let enter := fun (s : State) =>
    let (id, s) := s.fresh
    let e : StoreEntry := { id := id, who := x.cur.who, rk := x.rk, lanes := r.lanes, va := r.va, loc := r.loc, bytes := r.bytes,
                            strict := strict, level := 0, pos := 0, after := after, scope := ord.scope, relCore := ord.rel && ord.scope == .core,
                            req := req, sent := false, sample := smp }
    s.modCore x.x.core fun k => { k with buf := k.buf ++ [e] }
  match r.loc with
  | .sx off =>
    if !direct then enter s
    else
      let bad := match s.slice? x.cur.who.sid with | some y => (y.writeScratch off r.bytes).2 | none => []
      (s.modSlice x.cur.who.sid fun y => (y.writeScratch off r.bytes).1).countUncor x.rk bad.length
  | _ => enter s
/-- The runs of a store presented, pass by pass and line by line: those of one pass in a line are one request (R144). A release, or what a continuation held, goes to
another module behind everything of its core that it must follow. -/
def X.presentRuns (x : X) (ord : MemOrd) (strict : Bool) (smp : Option Nat) (l : List (Nat × StoreRun)) (s : State) : State :=
  let chips := l.filterMap fun e => match e.2.loc with | .peer c _ => some c | _ => none
  let s := if !chips.isEmpty && (ord.rel || x.cur.held.isSome) then s.drainCore x.x.core else s
  let after := x.follows s ord x.mask chips
  let local_ := ((s.core x.x.core).buf.filter fun e => !e.loc.isPeer).map StoreEntry.id
  let base := s.nextId
  let (s, keys) := l.foldl (fun (a : State × List (Nat × Nat)) e =>
    let key := (e.1, e.2.va / 128)
    let keys := if a.2.contains key then a.2 else a.2 ++ [key]
    let after := if e.2.loc.isPeer && (ord.rel || x.cur.held.isSome) then after ++ local_ else after
    (x.presentRun ord strict smp (base + (keys.idxOf key)) after e.2 a.1, keys)) (s, [])
  (List.range keys.length).foldl (fun s k => s.sendStore x.x.core (base + k)) s
/-- The effect of a store to memory or the scratchpad (R449, R451). -/
def X.storeEff (x : X) (i : Instr) (h : Hdr) (size : Nat) (ord : MemOrd) (data : Nat → Nat)
    (r : Except Res (List LaneAcc × Bool)) (s : State) : Res :=
  let r := match x.cur.held with
    | some e => x.represent s .store e
    | none => r
  match r with
  | .error e => e
  | .ok (acc, strict) =>
    let acc := if x.cur.held.isSome then acc else acc.map fun a => { a with arg := data a.lane }
    let runs := x.allRuns size acc
    let bad := if strict then runs.flatMap fun r => (s.runPart x.x r.2).map fun f => (r.2, f) else []
    match lowestBad size acc bad with
    | some (lane, va) => .counted (fun s => s.countUncor x.rk (bad.map Prod.snd).eraseDups.length) (144 + 4) lane va
    | none => match x.behind s acc size with
      | some n => .wait (.result n)
      | none =>
        let s := if x.cur.held.isSome then s else x.countOob acc s
        let (smp, s) := x.sampleAt true acc size s
        if x.holds then let (id, s) := s.fresh; x.hold i h id acc strict s smp
        else .ok (x.presentRuns ord strict smp runs s)
/-- The data of a store (R449). -/
def X.storeData (x : X) (regs d lane : Nat) : Nat :=
  (List.range regs).foldl (fun n i => n + x.v (d + i) lane * 2 ^ (32 * i)) 0
/-- No ordering (LDK, STK, LDW, MWATCH). -/
def plainOrd : MemOrd := ⟨false, false, .group, false⟩

/-- LD (spec/18 R413 to R415). -/
def execLd (h : Hdr) (ty : MemTy) (o : MemOrd) (xi : Src) (b d : Nat) (imm : W32) (s : State) : Host.Outcome State Fault Refusal :=
  let i : Instr := .ld h ty o xi b d imm
  issue i (fun x s => x.loadEff i h .load ty o (memDst d ty.regs) d false true (x.recordAcc s .load true false b xi imm ty.size x.lanes) s) s
/-- ST (spec/19 R448, R449). -/
def execSt (h : Hdr) (ty : MemTy) (o : MemOrd) (xi : Src) (b d : Nat) (imm : W32) (s : State) : Host.Outcome State Fault Refusal :=
  let i : Instr := .st h ty o xi b d imm
  issue i (fun x s => x.storeEff i h ty.size o (x.storeData ty.regs d) (x.recordAcc s .store false true b xi imm ty.size x.lanes) s) s
/-- ATOM (spec/17 R357 to R359). -/
def execAtom (h : Hdr) (op : AtomOp) (ty : IntTy) (o : MemOrd) (xi : Src) (b d c : Nat) (imm : W32) (s : State) : Host.Outcome State Fault Refusal :=
  let i : Instr := .atom h op ty o xi b d c imm
  issue i (fun x s => x.atomEff i h op ty o d c (x.recordAcc s .atom true true b xi imm (ty.width / 8) x.lanes) s) s
/-- ATOMS (spec/17 R360). -/
def execAtoms (h : Hdr) (op : AtomOp) (ty : IntTy) (o : MemOrd) (xi : Src) (d c : Nat) (imm : W32) (s : State) : Host.Outcome State Fault Refusal :=
  let i : Instr := .atoms h op ty o xi d c imm
  issue i (fun x s => x.atomEff i h op ty o d c (x.scratchAcc s .atom xi imm (ty.width / 8) x.lanes) s) s
/-- LDS (spec/18 R417). -/
def execLds (h : Hdr) (ty : MemTy) (o : MemOrd) (xi : Src) (d : Nat) (imm : W32) (s : State) : Host.Outcome State Fault Refusal :=
  let i : Instr := .lds h ty o xi d imm
  issue i (fun x s => x.loadEff i h .load ty o (memDst d ty.regs) d false true (x.scratchAcc s .load xi imm ty.size x.lanes) s) s
/-- STS (spec/19 R451). -/
def execSts (h : Hdr) (ty : MemTy) (o : MemOrd) (xi : Src) (d : Nat) (imm : W32) (s : State) : Host.Outcome State Fault Refusal :=
  let i : Instr := .sts h ty o xi d imm
  issue i (fun x s => x.storeEff i h ty.size o (x.storeData ty.regs d) (x.scratchAcc s .store xi imm ty.size x.lanes) s) s
/-- LDK (spec/18 R416). -/
def execLdk (h : Hdr) (ty : IntTy) (d : Nat) (imm : W32) (s : State) : Host.Outcome State Fault Refusal :=
  let i : Instr := .ldk h ty d imm
  issue i (fun x s => x.loadEff i h .load (.int ty) plainOrd (memDst d (if ty.wide then 2 else 1)) d false true
    (x.stackAcc s .load imm (ty.width / 8) x.lanes) s) s
/-- The effect of STK (R450): the lanes' bytes are written together. -/
def X.stkEff (x : X) (i : Instr) (h : Hdr) (ty : IntTy) (d : Nat) (r : Except Res (List LaneAcc × Bool)) (s : State) : Res :=
  let r := match x.cur.held with
    | some e => Except.ok (e.acc, e.strict)
    | none => r
  match r with
  | .error e => e
  | .ok (acc, strict) =>
    let size := ty.width / 8
    let acc := if x.cur.held.isSome then acc else
      acc.map fun a => { a with arg := x.storeData (if ty.wide then 2 else 1) d a.lane }
    let cells := acc.map fun a => (a.lane, a.va, bytesOf size a.arg)
    let (_, bad) := x.g.writeStack x.width cells
    if strict && !bad.isEmpty then .counted (fun s => s.countUncor x.rk bad.length) (144 + 4)
      (((acc.find? fun a => bad.any fun f => (List.range size).any fun i => stackGranule x.width a.lane (a.va + i) == f).map LaneAcc.lane).getD (x.lanes.headD 0))
      ((acc.headD default).va)
    else
      let (smp, s) := x.sampleAt true acc size s
      if x.holds then let (id, s) := s.fresh; x.hold i h id acc strict s smp
      else
        let s := s.modGroup x.cur.who.sid x.cur.who.gi fun g => (g.writeStack x.width cells).1
        let s := s.countUncor x.rk bad.length
        .ok (match smp with
          | none => s
          | some id => s.modCore x.x.core fun k => { k with trace := { k.trace with
              samples := updFirst (fun m => m.id == id) (fun m => { m with done := true }) k.trace.samples } })
/-- STK (spec/19 R450). -/
def execStk (h : Hdr) (ty : IntTy) (d : Nat) (imm : W32) (s : State) : Host.Outcome State Fault Refusal :=
  let i : Instr := .stk h ty d imm
  issue i (fun x s => x.stkEff i h ty d (x.stackAcc s .store imm (ty.width / 8) x.lanes) s) s
/-- LDW (spec/18 R418). -/
def execLdw (h : Hdr) (ty : MemTy) (xi : Src) (b d : Nat) (imm : W32) (s : State) : Host.Outcome State Fault Refusal :=
  let i : Instr := .ldw h ty xi b d imm
  issue i (fun x s => x.loadEff i h .ldw ty plainOrd (memDst d ty.regs) d false true (x.recordAcc s .ldw false false b xi imm ty.size x.lanes) s) s
/-- The addresses that a PREF names within its record's window. -/
def X.prefAt (x : X) (xi : Src) (b : Nat) (imm : W32) : List Nat :=
  let r := x.view0.breg b
  ((x.lanes.map fun l => signedOf 32 (x.src l xi) * (recStride r : Int) + signedOf 32 imm.toNat).filter fun o =>
    decide (0 ≤ o) && decide (o < (recWindow r : Int))).map fun o => recAddr r o.toNat
/-- PREF (spec/19 R434): no trap, no register and no value that an agent can read changes, the count of out-of-bounds lanes of the region's RCB neither; the lines reach the
die cache (R149). -/
def execPref (h : Hdr) (xi : Src) (b : Nat) (imm : W32) (s : State) : Host.Outcome State Fault Refusal :=
  issue (.pref h xi b imm) (fun x s =>
    let r := x.view0.breg b
    if x.loadHeld [] 0 then let (id, s) := s.fresh; x.hold (.pref h xi b imm) h id [] false s
    else if r == 0 || !recPr r then .ok s
    else .ok ((x.prefAt xi b imm).foldl (fun s va => match s.translate (keyVf x.rk) .load va with
        | .ok (.mem pa) => s.cacheTouch x.rk pa 1 false
        | _ => s) s)) s

/-! ### Fences -/

/-- A condition joins the strand's fences. -/
def X.fenceWith (x : X) (f : FenceCond) (s : State) : State := s.modStrand x.cur.who fun t => { t with fences := t.fences ++ [f] }
/-- The effect of FENCE (R170, R171): what must be complete; until then it holds back every memory or engine instruction. `count` is the counting form's register. -/
def X.fenceEff (x : X) (i : Instr) (h : Hdr) (rel : Bool) (scope : Scope) (count : Option Nat) (s : State) : Res :=
  if x.mask == 0 then .ok s
  else
    let dst := match count with | some d => [(Cls.g, d)] | none => []
    if x.holds then
      let (id, s) := s.fresh
      x.hold i h id [] false (if count.isSome then x.pend id dst .await s else s)
    else
      let (id, s) := x.takeId s
      let (loads, stores) := s.openAccesses x.cur.who x.x.core x.mask
      let buf := (s.core x.x.core).buf
      let peers := (buf.filter fun e => (e.lanes &&& x.mask) != 0 && e.who.sid == x.cur.who.sid && e.who.gi == x.cur.who.gi && e.loc.isPeer).map StoreEntry.id
      let before := if scopeWide scope then buf.map StoreEntry.id else stores
      let ids := loads ++ (if rel then before else if scope == .sys then peers else [])
      let s := if count.isSome && x.cur.held.isNone then x.pend id dst .await s else s
      .ok (x.fenceWith ⟨none, ids, scope, scope == .sys, count.map fun d => (id, d), x.cur.pc, none⟩ s)
/-- FENCE (spec/08 R170, R171). -/
def execFence (h : Hdr) (acq rel : Bool) (scope : Scope) (s : State) : Host.Outcome State Fault Refusal :=
  issue (.fence h acq rel scope) (fun x s => x.fenceEff (.fence h acq rel scope) h rel scope none s) s
/-- The counting form of FENCE at sys scope (spec/08 R170, R171). -/
def execFenceCounting (h : Hdr) (acq rel : Bool) (d : Nat) (s : State) : Host.Outcome State Fault Refusal :=
  issue (.fenceCounting h acq rel d) (fun x s => x.fenceEff (.fenceCounting h acq rel d) h rel .sys (some d) s) s
/-- The accesses of a strand on a path that are not complete (R173). -/
def X.pathIds (x : X) (s : State) (p : Path) : List Nat :=
  let who := x.cur.who
  match p with
  | .ls => (s.openAccesses who x.x.core x.smask).1 ++ (s.core x.x.core).buf.map StoreEntry.id
  | .cp => ((s.core x.x.core).chans.flatMap fun c => (c.entries.filter fun e => e.who == who).map CopyEntry.id) ++
      ((s.core x.x.core).upd.filter fun e => e.who == who).map UpdEntry.id
  | .mx => (x.x.arrays.flatMap fun a => (a.queue.filter fun q => q.gi == who.gi && q.sn == who.sn).map MCmd.id) ++
      s.remotes.filterMap fun r => match r.owner with
        | .matrixStore w _ _ => if w == who then some r.id else none
        | _ => none
  | .cl => s.harnesses.flatMap fun e => (e.2.ranks.filter fun r => r.who == .here ⟨who.sid, who.gi⟩ && r.sn == who.sn).map CollRank.id
/-- XFENCE (spec/08 R173; spec/19 R456). -/
def execXfence (h : Hdr) (p1 p2 : Path) (scope : Scope) (s : State) : Host.Outcome State Fault Refusal :=
  issue (.xfence h p1 p2 scope) (fun x s =>
    if x.holds then let (id, s) := s.fresh; x.hold (.xfence h p1 p2 scope) h id [] false s
    else .ok (x.fenceWith ⟨some p2, x.pathIds s p1, scope, false, none, x.cur.pc, none⟩ s)) s

/-! ### Watches and records -/

/-- MWATCH (spec/12 R283, R284; spec/19 R427). -/
def execMwatch (h : Hdr) (wide : Bool) (d xi b : Nat) (imm : W32) (s : State) : Host.Outcome State Fault Refusal :=
  let i : Instr := .mwatch h wide d xi b imm
  let ty : MemTy := .int (if wide then .n64 else .n32)
  let dst := (List.range (if wide then 2 else 1)).map fun k => (Cls.g, d + k)
  issue i (fun x s => x.loadEff i h .load ty plainOrd dst d true false (x.recordAcc s .load false false b (.g xi) imm ty.size [0]) s) s
/-- MWAIT (spec/12 R285): what the watch says at once, or the strand parks. -/
def execMwait (h : Hdr) (d t : Nat) (s : State) : Host.Outcome State Fault Refusal :=
  issue (.mwait h d t) (fun x s =>
    let who := x.cur.who
    let setW := fun (w : Option Watch) (s : State) => s.modGroup who.sid who.gi fun g => { g with watch := w }
    let done := fun (n : Nat) (s : State) => Res.ok (x.result [.g d (BitVec.ofNat 32 n)] [(.g, d)] s)
    match x.g.watch with
    | none => done 5 s
    | some w =>
      if w.line.isNone then done 5 s
      else if w.restored then done 4 (setW none s)
      else if w.evicted then done 3 (setW none s)
      else if w.fired then done 1 (setW (some { w with fired := false }) s)
      else
        let (id, s) := s.fresh
        let tmo := x.gr t
        let s := x.pend id [(.g, d)] .await s
        let s := s.count x.x.core x.rk .mwaitParks 1
        .ok (s.putWait who (.parked (if tmo == 0 then none else some (x.cur.cycle + tmo)) id))) s
/-- BRSET (spec/17 R369; spec/07 R140). -/
def execBrset (h : Hdr) (d sr : Nat) (s : State) : Host.Outcome State Fault Refusal :=
  issue (.brset h d sr) (fun x s =>
    let r : BitVec 128 := BitVec.ofNat 128 ((List.range 4).foldl (fun n i => n + x.gr (sr + i) * 2 ^ (32 * i)) 0)
    match (if r == 0 then none else recCheck r) with
    | some c => .trap c 0 0
    | none => .ok (x.result [.b d r] [(.b, d)] s)) s

end Sys2Proof.Machine
end

