-- ==== Sys2Proof/Machine/Copy.lean ====
section
/-!
DEFINITION. The copy channels and the update engine (spec/10_copy_and_update_engines.md R222 to R241): CPY, CPYT, CPKILL and
OPTSTEP, how a copy proceeds byte by byte, and how an OPTSTEP proceeds span by span.
-/

namespace Sys2Proof.Machine

/-! ### Descriptors (R225, R226) -/

/-- A row of a copy: its first source offset with the bytes it reads between which halo is zero-filled, its first
destination offset with all the bytes it writes, and the destination bytes of the elements it reads. -/
structure CopyRow where
  src : Option (Int × Nat)
  dst : Nat
  len : Nat
  wr : Option (Nat × Nat)
deriving DecidableEq, Repr, Inhabited

/-- A field of a CPYT descriptor (R226). -/
def tileField (w : List Nat) (lo n : Nat) : Nat := bitsAt ((w.zip (List.range w.length)).foldl (fun a e => a + e.1 * 2 ^ (32 * e.2)) 0) lo n
/-- Elements of an extended row. -/
def tileX (w : List Nat) : Nat := tileField w 0 16 + tileField w 160 4 + tileField w 164 4
/-- Extended rows. -/
def tileRows (w : List Nat) : Nat := tileField w 16 16 + tileField w 168 4 + tileField w 172 4
/-- LEN of a copy (R225, R226). -/
def copyLen (tile : Bool) (esz : Nat) (w : List Nat) : Nat := if tile then tileRows w * tileX w * esz else w.getD 0 0
/-- DSTOFF and SRCOFF. -/
def copyOffs (tile : Bool) (w : List Nat) : Nat × Nat :=
  if tile then (tileField w 32 32, tileField w 64 32) else (w.getD 1 0, w.getD 2 0)
/-- Element `j` of a copy: its source offset, none where it is zero-filled, and its destination offset (R225, R226). -/
def copyElem (tile : Bool) (esz : Nat) (w : List Nat) (j : Nat) : Option Int × Nat :=
  let (d, sr) := copyOffs tile w
  if !tile then (some ((sr + j * esz : Nat) : Int), d + j * esz)
  else
    let x := tileX w
    let r := j / x
    let c := j % x
    let hl := tileField w 160 4
    let ht := tileField w 168 4
    let zero := (decide (r < ht) && bitAt (tileField w 160 32) 18) ||
      (decide (ht + tileField w 16 16 ≤ r) && bitAt (tileField w 160 32) 19) ||
      (decide (c < hl) && bitAt (tileField w 160 32) 16) ||
      (decide (hl + tileField w 0 16 ≤ c) && bitAt (tileField w 160 32) 17)
    (if zero then none
     else some ((sr : Int) + ((r : Int) - ht) * (tileField w 96 32 : Nat) + ((c : Int) - hl) * esz),
     d + r * tileField w 128 32 + c * esz)
/-- The rows of a copy, each with the bytes it reads and writes. -/
def copyRows (tile : Bool) (esz : Nat) (w : List Nat) : List CopyRow :=
  let (d, sr) := copyOffs tile w
  if !tile then [⟨some ((sr : Int), w.getD 0 0), d, w.getD 0 0, some (d, w.getD 0 0)⟩]
  else
    let x := tileX w
    let hl := tileField w 160 4
    let z := tileField w 160 32
    let from_ := if bitAt z 16 then hl else 0
    let to_ := if bitAt z 17 then hl + tileField w 0 16 else x
    (List.range (tileRows w)).map fun r =>
      let zero := (decide (r < tileField w 168 4) && bitAt z 18) || (decide (tileField w 168 4 + tileField w 16 16 ≤ r) && bitAt z 19)
      ⟨if zero then none
       else some ((sr : Int) + ((r : Int) - tileField w 168 4) * (tileField w 96 32 : Nat) + ((from_ : Int) - hl) * esz, (to_ - from_) * esz),
       d + r * tileField w 128 32, x * esz,
       if zero then none else some (d + r * tileField w 128 32 + from_ * esz, (to_ - from_) * esz)⟩

/-! ### Sides -/

/-- The bytes a side offers: a record's window or the slice's scratchpad (R227). -/
def sideSize (scratch : Nat) : Side → Nat
  | .buf r => recWindow r
  | .sx => scratch
/-- Byte ranges inside the window of a side as ranges of its storage; a swizzled record is taken element by element. -/
def sideRanges (scratch : Nat) (sd : Side) (l : List (Int × Nat)) : List (Nat × Nat) :=
  l.flatMap fun e =>
    let lo := max 0 e.1
    let hi := min (sideSize scratch sd : Int) (e.1 + e.2)
    if hi ≤ lo then []
    else match sd with
      | .sx => [(lo.toNat, (hi - lo).toNat)]
      | .buf r =>
        if bitsAt r.toNat 73 3 == 0 then [(recBase r + lo.toNat, (hi - lo).toNat)]
        else (List.range (hi - lo).toNat).map fun i => (recAddr r (lo.toNat + i), 1)
/-- Whether two sides lie in the same storage. -/
def sameStorage : Side → Side → Bool
  | .sx, .sx => true
  | .buf _, .buf _ => true
  | _, _ => false
/-- Whether some range of one list overlaps one of another; far apart ranges are told by their bounds first. -/
def anyMeet (a b : List (Nat × Nat)) : Bool :=
  let lo := fun (l : List (Nat × Nat)) => l.foldl (fun m e => min m e.1) (2 ^ 64)
  let hi := fun (l : List (Nat × Nat)) => l.foldl (fun m e => max m (e.1 + e.2)) 0
  decide (lo a < hi b) && decide (lo b < hi a) && a.any fun p => b.any fun q => rangesMeet p.1 p.2 q.1 q.2
/-- The ranges a copy reads and writes. -/
def copyReads (tile : Bool) (esz : Nat) (w : List Nat) (scratch : Nat) (sd : Side) : List (Nat × Nat) :=
  sideRanges scratch sd ((copyRows tile esz w).filterMap fun r => r.src)
/-- The ranges a copy writes, as overlaps compare them: a zero-filled halo element does not count (R227). -/
def copyWrites (tile : Bool) (esz : Nat) (w : List Nat) (scratch : Nat) (sd : Side) : List (Nat × Nat) :=
  sideRanges scratch sd ((copyRows tile esz w).filterMap fun r => r.wr.map fun e => ((e.1 : Int), e.2))
/-- The descriptor checks of R227 in their order; each side is strict by its own record or the region. -/
def copyCheck (tile : Bool) (esz : Nat) (w : List Nat) (scratch : Nat) (dst src : Side) (dstStrict srcStrict : Bool) : Option Nat :=
  let len := copyLen tile esz w
  let (d, sr) := copyOffs tile w
  let overlap := sameStorage dst src && anyMeet (copyReads tile esz w scratch src) (copyWrites tile esz w scratch dst)
  let inside := fun (sd : Side) (lo : Int) (n : Nat) => decide (0 ≤ lo) && decide (lo + n ≤ (sideSize scratch sd : Int))
  let bad256 := len == 0 || decide (1048576 < len) ||
    (tile && (tileField w 0 16 == 0 || tileField w 16 16 == 0 || tileField w 180 76 != 0 ||
      decide (tileField w 128 32 < tileX w * esz)))
  let nullOr := fun (sd : Side) (p : BitVec 128 → Bool) => match sd with | .buf r => r == 0 || !p r | .sx => false
  if bad256 || overlap then some 256
  else if d % esz != 0 || sr % esz != 0 || len % esz != 0 ||
      (tile && (tileField w 96 32 % esz != 0 || tileField w 128 32 % esz != 0)) then some 257
  else if nullOr dst recPw || nullOr src recPr then some 259
  else if (copyRows tile esz w).any fun r =>
      (dstStrict && !inside dst r.dst r.len) || (srcStrict && match r.src with | some (o, n) => !inside src o n | none => false) then some 260
  else none

/-- How often elements of a copy lie out of bounds on one of its sides (R227, R314). -/
def copyOut (tile : Bool) (esz : Nat) (w : List Nat) (scratch : Nat) (dst src : Side) : Nat :=
  (List.range (copyLen tile esz w / esz)).foldl (fun n j =>
    let (so, d) := copyElem tile esz w j
    n + (if decide (d + esz ≤ sideSize scratch dst) then 0 else 1) + (match so with
      | none => 0
      | some o => if decide (0 ≤ o) && decide (o + esz ≤ (sideSize scratch src : Int)) then 0 else 1)) 0

/-! ### Channels -/

/-- Whether a copy passes no more bytes: those on their way to another module have still to be passed (R175). -/
def CopyEntry.finished (e : CopyEntry) : Bool := (e.stop && e.flight.isNone) || decide (e.len ≤ e.done)
/-- The write pointer of a channel (R175, R228): the first position no byte has passed. -/
def Chan.cw (c : Chan) : Nat := match c.entries.find? fun e => !e.finished || e.matrix.isSome with
  | some e => e.fin + e.done - e.len
  | none => c.tail
/-- A channel of a core. -/
def State.chan (s : State) (core ch : Nat) : Chan := (s.core core).chans.getD ch Chan.reset
/-- The channels c0 to c3 of a core (R222): a list of four, whatever is listed. -/
def fourChans (l : List Chan) : List Chan := l ++ List.replicate (4 - l.length) Chan.reset
/-- A channel changed. -/
def State.modChan (s : State) (core ch : Nat) (f : Chan → Chan) : State :=
  s.modCore core fun k => { k with chans := setAt (fourChans k.chans) ch (f (k.chans.getD ch Chan.reset)) }
/-- A copy of a channel changed. -/
def State.modCopy (s : State) (core ch id : Nat) (f : CopyEntry → CopyEntry) : State :=
  s.modChan core ch fun c => { c with entries := updFirst (fun e => e.id == id) f c.entries }
/-- A side as its instruction names it when it issues. -/
def X.side (x : X) : CopySide → Side
  | .buf b => .buf (x.view0.breg b)
  | .sx => .sx
/-- Whether a side carries STRICT. -/
def sideStrict : Side → Bool
  | .buf r => recStrict r
  | .sx => false
/-- The issue of a copy (R227, R234). Elements out of bounds are counted where strictness makes cause 260 of them too (R314). -/
def X.copyEff (x : X) (i : Instr) (h : Hdr) (tile : Bool) (ez ch d : Nat) (dst src : CopySide) (l : Nat) (pv : Option Nat)
    (s : State) : Res :=
  let esz := 2 ^ ez
  let w := (List.range (if tile then 8 else 3)).map fun k => x.gr (l + k)
  let sd := x.side dst
  let ss := x.side src
  let strict := x.strict s (sideStrict sd || sideStrict ss)
  let len := copyLen tile esz w
  let view := x.x.views.getD ch 0
  let gp := fun (b : Bool) => match pv with | some p => [RegWr.gp p b] | none => []
  let gpDst := match pv with | some p => [(Cls.gp, p)] | none => []
  match (if x.cur.held.isSome then none else copyCheck tile esz w x.hdr.scratch sd ss (x.strict s (sideStrict sd)) (x.strict s (sideStrict ss))) with
  | some c => .counted (fun s => if c == 260 then s.countOob x.rk (copyOut tile esz w x.hdr.scratch sd ss) else s) c 0 0
  | none =>
    if x.holds then
      let (id, s) := s.fresh
      x.hold i h id [] strict (x.pend id ([(.g, d), (.g, d + 1)] ++ gpDst) .await s)
    else
      let c := s.chan x.x.core ch
      if decide (Config.channelEntries ≤ c.entries.length) then
        (match pv, x.cur.held with
        | none, _ => .wait (.channel ch)
        | some _, some e => .ok (s.complete x.cur.who.sid x.cur.who.gi e.id (gp false))
        | some _, none => .ok (s.addFixed x.cur.who (x.fixed 4 [gp false])))
      else
        let (id, s) := x.takeId s
        let fin := c.tail + len
        let mark := RegWr.g d (BitVec.ofNat 32 (fin + 2 ^ 64 - view % 2 ^ 64))
        let s := match x.cur.held with
          | some _ => s.modGroup x.cur.who.sid x.cur.who.gi fun g =>
            let g := applyAll g (mark :: gp true)
            { g with inflight := updFirst (fun f => f.id == id) (fun f => { f with dst := [(.g, d + 1)] }) g.inflight }
          | none => (x.pend id [(.g, d + 1)] .await s).addFixed x.cur.who (x.fixed 4 [mark :: gp true])
        let e : CopyEntry :=
          { id := id, who := x.cur.who, pc := x.cur.pc, rk := x.rk, tile := tile, esz := esz, words := w, len := len, dst := sd,
            src := ss, strict := strict, d := d, fin := fin, done := 0, err := false, oob := false, stop := false, bad := [],
            off := none, cause := none, batch := none, got := [], lost := [], flight := none, kill := none, matrix := none }
        .ok (s.modChan x.x.core ch fun c => { c with tail := fin, entries := c.entries ++ [e] })
/-- CPY (spec/10 R225, R227; spec/17 R376). -/
def execCpy (h : Hdr) (esz ch d : Nat) (dst src : CopySide) (l : Nat) (pv : Option Nat) (s : State) : Host.Outcome State Fault Refusal :=
  issue (.cpy h esz ch d dst src l pv) (fun x s => x.copyEff (.cpy h esz ch d dst src l pv) h false esz ch d dst src l pv s) s
/-- CPYT (spec/10 R226, R227; spec/17 R376). -/
def execCpyt (h : Hdr) (esz ch d : Nat) (dst src : CopySide) (l : Nat) (pv : Option Nat) (s : State) : Host.Outcome State Fault Refusal :=
  issue (.cpyt h esz ch d dst src l pv) (fun x s => x.copyEff (.cpyt h esz ch d dst src l pv) h true esz ch d dst src l pv s) s
/-- A copy ended where it stands (R231, R233): its fault batch is discarded and its remaining positions pass, after the answer for bytes that are on their way. The cause
that ends it is owed beside one of R232. -/
def CopyEntry.endAt (e : CopyEntry) (cause : Option Nat) : CopyEntry :=
  { e with stop := true, batch := none, cause := e.cause.orElse fun _ => cause, also := if e.cause.isSome then e.also.orElse fun _ => cause else e.also }
/-- The copies of a slice on a channel that CPKILL or the slice's end ends (R233): those that have not ended already. -/
def endable (sid : Nat) (e : CopyEntry) : Bool := e.who.sid == sid && e.matrix.isNone && !e.finished && !e.stop
/-- Copies of a slice on a channel ended, with their batches. -/
def State.endCopies (s : State) (core ch sid : Nat) : State :=
  let ids := ((s.chan core ch).entries.filter (endable sid)).filterMap CopyEntry.batch
  let s := s.modChan core ch fun c => { c with entries := c.entries.map fun e => if endable sid e then e.endAt none else e }
  { s with batches := s.batches.filter fun b => !ids.contains b.1 }
/-- CPKILL (spec/10 R233): the result comes after the status of the last copy it ends. -/
def execCpkill (h : Hdr) (ch d : Nat) (s : State) : Host.Outcome State Fault Refusal :=
  issue (.cpkill h ch d) (fun x s =>
    if x.holds then
      let (id, s) := s.fresh
      x.hold (.cpkill h ch d) h id [] false (x.pend id [(.g, d)] .await s)
    else
      let (id, s) := x.takeId s
      let hit := ((s.chan x.x.core ch).entries.filter (endable x.cur.who.sid))
      let body : Body := match hit.getLast? with
        | none => .timed (x.cur.cycle + Config.shortResult) [.g d 0]
        | some _ => .await
      let s := if x.cur.held.isSome then
          s.modGroup x.cur.who.sid x.cur.who.gi fun g =>
            { g with inflight := updFirst (fun f => f.id == id) (fun f => { f with body := body }) g.inflight }
        else x.pend id [(.g, d)] body s
      let s := s.endCopies x.x.core ch x.cur.who.sid
      match hit.getLast? with
      | none => .ok s
      | some e => .ok (s.modCopy x.x.core ch e.id fun y => { y with kill := some (id, d, hit.length) })) s

/-! ### A copy byte by byte (R228, R230 to R232) -/

/-- The address of byte `k` of a side's element at window offset `o`. -/
def sideAddr (sd : Side) (o : Nat) : Nat := match sd with | .buf r => recAddr r o | .sx => o
/-- Where a side's byte lies, translated for an access of a copy. -/
def State.sideLoc (s : State) (rk : Nat) (k : AccessKind) (sd : Side) (o : Nat) : TrRes := match sd with
  | .sx => .ok (.sx o)
  | .buf r => s.translate (keyVf rk) k (recAddr r o)
/-- The cause with which a copy ends on a fault kind (R231): a missing permission or a weight-store leaf, or else a remote access that failed. -/
def copyCause (kind : Nat) : Nat := if kind == 3 || kind == 12 then 259 else 262
/-- The scratchpad size of a slice. -/
def State.scratchOf (s : State) (sid : Nat) : Nat := match (s.slice? sid).bind fun x => s.job? x.jn with
  | some j => j.hdr.scratch
  | none => 0
/-- Byte `i` of a copy: its element's window offsets, none outside the window or zero-filled, and whether the element's source or
destination is out of bounds (R227). -/
def CopyEntry.byteAt (e : CopyEntry) (scratch i : Nat) : Option Nat × Option Nat × Bool × Bool :=
  let (so, d) := copyElem e.tile e.esz e.words (i / e.esz)
  let k := i % e.esz
  let dIn := decide (d + e.esz ≤ sideSize scratch e.dst)
  let sIn := match so with
    | none => true
    | some o => decide (0 ≤ o) && decide (o + e.esz ≤ (sideSize scratch e.src : Int))
  (match so with | some o => if sIn then some (o.toNat + k) else none | none => none,
   if dIn then some (d + k) else none, !sIn, !dIn)
/-- The not-present pages of a copy's remaining bytes, in order, each once, 17 at most (R231). -/
def State.copyPages (s : State) (e : CopyEntry) : List Nat :=
  let scratch := s.scratchOf e.who.sid
  (List.range (e.len - e.done)).foldl (fun l i =>
    if decide (Config.batchPages ≤ l.length) then l
    else
      let (so, d, _, _) := e.byteAt scratch (e.done + i)
      let add := fun (l : List Nat) (r : Option TrRes) => match r with
        | some (.absent p) => if l.contains p || decide (Config.batchPages ≤ l.length) then l else l ++ [p]
        | _ => l
      let l := add l (so.map fun o => s.sideLoc e.rk .load e.src o)
      add l (d.map fun o => s.sideLoc e.rk .store e.dst o)) []
/-- A batch for an engine, sent at once (R156). -/
def State.engineBatch (s : State) (o : BatchOwner) (who : StrandRef) (rk cause pc : Nat) (pages : List Nat) : Nat × State :=
  let (id, s) := s.fresh
  let b : Batch := { owner := o, rk := rk, pages := pages, cause := cause, cpc := pc, lane := 0, va := 0, filling := false, pri := false, dev := false,
                     failed := false }
  let s := { s with batches := Sparse.set s.batches id b }
  (id, s.sendBatch id (s.trapRecord who cause 1 0 0 pc pc false))
/-- Whether a copy writes every byte of the granule that holds a destination byte at window offset `o`, from an address `lo` on (R232). -/
def CopyEntry.coversGranule (e : CopyEntry) (scratch o lo n : Nat) : Bool :=
  let (d, _) := copyOffs e.tile e.words
  let offs := (List.range n).map fun i => match e.dst with
    | .sx => some (lo + i)
    | .buf r => if decide (recBase r ≤ lo + i) then some (recAddr r ((lo + i) - recBase r) - recBase r) else none
  let inCopy := fun (q : Option Nat) => match q with
    | none => false
    | some q =>
      decide (d ≤ q) && decide (q < sideSize scratch e.dst) &&
        (if e.tile then decide ((q - d) % max 1 (tileField e.words 128 32) < tileX e.words * e.esz) &&
            decide ((q - d) / max 1 (tileField e.words 128 32) < tileRows e.words)
         else decide (q < d + e.len))
  offs.contains (some o) && offs.all inCopy
/-- A failed granule met by a copy (R232). -/
def CopyEntry.meet (e : CopyEntry) (g i : Nat) : CopyEntry :=
  let low := match e.off with | some o => min o i | none => i
  { e with err := true, bad := if e.bad.contains g then e.bad else e.bad ++ [g], off := some low,
           cause := if e.strict && e.cause.isNone then some 261 else e.cause }
/-- Whether a store of a core that must still wait writes some of `n` bytes at a place: an engine's write to them waits behind that store. -/
def State.storeAhead (s : State) (sid core : Nat) (l : Loc) (n : Nat) : Bool := (s.core core).buf.any fun e =>
  !l.isPeer && l.meets n e.loc e.bytes.length && (match l with | .sx _ => e.who.sid == sid | _ => true)
/-- A byte written by an engine of a core at its place, for a region; watches fire. -/
def State.engineWrite (s : State) (sid core rk : Nat) (l : Loc) (b : Byte) : State := match l with
  | .mem pa => ((s.arriveHome core l).poke pa [b]).cacheTouch rk pa 1 true
  | .host vf va => s.pokeHost vf va [b]
  | .sx off => s.modSlice sid fun x => { x with scratch := Sparse.put 0#8 x.scratch off b }
  | _ => s
/-- The failed granule that holds one byte, as a number that tells storages apart. -/
def State.granuleAt (s : State) (sid : Nat) (l : Loc) : Option Nat := match l with
  | .mem pa => if s.failedAt pa then some (granuleOf pa) else none
  | .sx off => match s.slice? sid with
    | some x => if x.scratchFailed.contains (off / 4 * 4) then some (2 ^ 60 + off / 4 * 4) else none
    | none => none
  | _ => none
/-- A failed granule cleared because it is overwritten whole (R153). -/
def State.clearGranule (s : State) (sid : Nat) (l : Loc) : State := match l with
  | .mem pa => { s with memFailed := s.memFailed.filter fun f => f != granuleOf pa }.cacheMend [granuleOf pa]
  | .sx off => s.modSlice sid fun x => { x with scratchFailed := x.scratchFailed.filter fun f => f != off / 4 * 4 }
  | _ => s
/-- Whether an access of a channel's copy is outstanding at another module. -/
def State.copyRemote (s : State) (o : RemoteOwner) : Bool := s.remotes.any fun r => r.owner == o
/-- The destination line of a byte of a copy. -/
def CopyEntry.line (e : CopyEntry) (scratch i : Nat) : Option Nat := match (e.byteAt scratch i).2.1 with
  | some o => some (sideAddr e.dst o / 128)
  | none => none
/-- The indexes of a copy's next bytes that go to one destination line, or to none (R228). -/
def CopyEntry.nextBytes (e : CopyEntry) (scratch : Nat) : List Nat :=
  ((List.range (min 128 (e.len - e.done))).map fun k => e.done + k).takeWhile fun i => e.line scratch i == e.line scratch e.done
/-- What a channel meets for a byte of a copy (R231): its source and destination places, none outside the window or zero-filled. A source line that its module refused
fails as a remote access does. -/
def State.bytePlaces (s : State) (e : CopyEntry) (scratch i : Nat) : Option TrRes × Option TrRes :=
  let (so, d, _, _) := e.byteAt scratch i
  (so.map fun o => match s.sideLoc e.rk .load e.src o with
    | .ok (.peer c va) => if e.lost.contains (c, va / 128) then .bad 8 else .ok (.peer c va)
    | r => r, d.map fun o => s.sideLoc e.rk .store e.dst o)
/-- A place that a translation found. -/
def TrRes.loc? : TrRes → Option Loc
  | .ok l => some l
  | _ => none
/-- A source byte of a copy, with the failed granule in which it lies (R228, R232). An earlier store of the core that is still in its merge buffer is seen, though no XFENCE
asks for it (DEDUCED, notes/assumptions/10.md). -/
def State.copyRead (s : State) (core : Nat) (e : CopyEntry) (src : Option Loc) : (Byte × Option Nat) × State := match src with
  | none => ((0#8, none), s)
  | some (.peer c va) => (peerByte e.got c va, s)
  | some l =>
    let bad := s.granuleAt e.who.sid l
    let (bs, _, s) := s.readLoc e.who.sid e.who.gi core [] l 1
    ((bs.headD 0#8, bad), s)
/-- One byte of a copy that has been read, written where it goes (R227, R228, R232): what the copy's status will say of it, the state, and the byte to send where the
destination is another module. -/
def State.copyByte (s : State) (core : Nat) (e : CopyEntry) (i : Nat) (got : Byte × Option Nat) (dst : Option Loc) : CopyEntry × State × Option (Nat × Nat × Byte) :=
  let sid := e.who.sid
  let scratch := s.scratchOf sid
  let (_, d, sOut, dOut) := e.byteAt scratch i
  let s := s.countOob e.rk (if i % e.esz == 0 then (if sOut then 1 else 0) + (if dOut then 1 else 0) else 0)
  let e := if sOut || dOut then { e with oob := true, off := some (match e.off with | some o => min o i | none => i) } else e
  let (b, bad) := got
  let fails := fun (g : Nat) => let e' := e.meet g i; (e', s.countUncor e.rk (e'.bad.length - e.bad.length), none)
  match bad, dst with
  | some g, _ => fails g
  | none, none => (e, s, none)
  | none, some (.peer chip va) => (e, s, some (chip, va, b))
  | none, some l => match s.granuleAt sid l with
    | none => (e, s.engineWrite sid core e.rk l b, none)
    | some g =>
      let o := d.getD 0
      let (lo, n) := match l with
        | .mem pa => (sideAddr e.dst o - (pa - granuleOf pa), granuleSize pa)
        | .sx off => (off / 4 * 4, 4)
        | _ => (0, 0)
      if e.coversGranule scratch o lo n then (e, (s.clearGranule sid l).engineWrite sid core e.rk l b, none) else fails g
/-- The next destination line of a copy (R228, R231, R232): the lines it reads are translated, and those of other modules are read first; then every source
byte is read, and after that the bytes are written, up to the first whose source or destination line fails, which stops the copy. A line that goes to another module is passed when that module has accepted it
(R175). Answers the state and how many bytes it passed. -/
def State.copyLine (s : State) (core ch : Nat) (e : CopyEntry) : State × Nat :=
  let scratch := s.scratchOf e.who.sid
  let l := (e.nextBytes scratch).map fun i => (i, s.bytePlaces e scratch i)
  let fails := fun (r : Option TrRes) => match r with | some (.ok _) => false | some _ => true | none => false
  let good := l.takeWhile fun b => !fails b.2.1 && !fails b.2.2
  match good, l with
  | [], (_, r, w) :: _ => (match (if fails r then r else w) with
    | some (.absent _) =>
      let (id, s) := s.engineBatch (.copy core ch e.id) e.who e.rk 258 e.pc (s.copyPages e)
      (s.modCopy core ch e.id fun y => { y with batch := some id }, 0)
    | some (.bad k) => (s.modCopy core ch e.id fun y => y.endAt (some (copyCause k)), 0)
    | _ => (s, 0))
  | _, _ =>
    let need := (peerParts (fun _ va => va / 128) (good.filterMap fun b => match b.2.1 with
      | some (.ok (.peer c va)) => some ⟨0, va, some (.peer c va), 0, 0, none⟩
      | _ => none)).filter fun n => !peerHas e.got n.1 n.2.1
    if s.copyRemote (.copyLoad core ch e.id) then (s, 0)
    else if !need.isEmpty then
      (need.foldl (fun s n =>
        let sectors := n.2.2.foldl (fun m a => m ||| (sectorsOf n.2.1 a.va 1).toNat) 0
        (s.sendRemote (.copyLoad core ch e.id) e.rk n.1 (n.2.1 * 128) 128 (.load sectors)).2) s, 0)
    else
      let s := s.drainCore core
      if good.any fun b => match b.2.2 with | some (.ok l) => s.storeAhead e.who.sid core l 1 | _ => false then (s, 0)
      else
        let (read, s) := good.foldl (fun (a : List (Byte × Option Nat) × State) b =>
          let (x, s) := a.2.copyRead core e (b.2.1.bind TrRes.loc?)
          (a.1 ++ [x], s)) ([], s)
        let (e', s, out) := (good.zip read).foldl (fun (a : CopyEntry × State × List (Nat × Nat × Byte)) b =>
          let (e, s, o) := a.2.1.copyByte core a.1 b.1.1 b.2 (b.1.2.2.bind TrRes.loc?)
          (e, s, match o with | some x => a.2.2 ++ [x] | none => a.2.2)) (e, s, [])
        let e' := { e' with got := [], lost := [] }
        match out with
        | [] => (s.modCopy core ch e.id fun _ => { e' with done := e.done + good.length }, good.length)
        | (chip, va, _) :: _ =>
          let s := s.modCopy core ch e.id fun _ => { e' with flight := some good.length }
          ((s.sendRemote (.copyStore core ch e.id) e.rk chip (va / 128 * 128) 128 (.store (out.map fun o => (o.2.1 % 128, [o.2.2])))).2, 0)
/-- The ranges of storage a strand's copy-path command still to be done reads and writes, each with whether it is the scratchpad. -/
def CopyEntry.touch (e : CopyEntry) (scratch : Nat) : List (Bool × Nat × Nat) × List (Bool × Nat × Nat) :=
  let tag := fun (sd : Side) (l : List (Nat × Nat)) => l.map fun r => (sd == .sx, r.1, r.2)
  (tag e.src (copyReads e.tile e.esz e.words scratch e.src), tag e.dst (copyWrites e.tile e.esz e.words scratch e.dst))
/-- The ranges of an OPTSTEP: the elements of its range in each record (R237). -/
def UpdEntry.ranges (u : UpdEntry) : List (Nat × Nat) :=
  let n := (u.params.getD 0 0).toNat
  let e0 := (u.params.getD 1 0).toNat
  (u.recs.zip (List.range 4)).map fun r =>
    let sz := if r.2 == 3 && u.bf then 2 else 4
    (recBase r.1 + e0 * sz, n * sz)
/-- The reads and writes of an OPTSTEP. -/
def UpdEntry.touch (u : UpdEntry) : List (Bool × Nat × Nat) × List (Bool × Nat × Nat) :=
  (u.ranges.map fun r => (false, r.1, r.2), (u.ranges.take 3).map fun r => (false, r.1, r.2))
/-- Whether a later command must wait for an earlier one (R230). -/
def mustWait (a b : List (Bool × Nat × Nat) × List (Bool × Nat × Nat)) : Bool :=
  let hit := fun (p q : List (Bool × Nat × Nat)) => p.any fun x => q.any fun y => x.1 == y.1 && rangesMeet x.2.1 x.2.2 y.2.1 y.2.2
  hit a.2 b.1 || hit a.2 b.2 || hit a.1 b.2
/-- The earlier copy-path commands of a strand that are not complete, with what they read and write, that a later one must wait for (R230). -/
def State.earlier (s : State) (core : Nat) (who : StrandRef) (id : Nat) (t : List (Bool × Nat × Nat) × List (Bool × Nat × Nat)) : List Nat :=
  let k := s.core core
  let scratch := s.scratchOf who.sid
  (k.chans.flatMap fun c => (c.entries.filter fun e => e.who == who && decide (e.id < id) && e.matrix.isNone && mustWait (e.touch scratch) t).map CopyEntry.id) ++
    (k.upd.filter fun u => u.who == who && decide (u.id < id) && mustWait u.touch t).map UpdEntry.id
/-- The copy a channel works on: the first not finished, unless a batch or an earlier overlapping command keeps it (R222, R230). -/
def State.workingCopy (s : State) (core ch : Nat) : Option CopyEntry :=
  match (s.chan core ch).entries.find? fun e => !e.finished with
  | none => none
  | some e =>
    if e.batch.isSome || e.matrix.isSome || e.flight.isSome || s.copyRemote (.copyLoad core ch e.id) ||
      !(s.earlier core e.who e.id (e.touch (s.scratchOf e.who.sid))).isEmpty then none else some e
/-- Lines of a channel's copy, until at least `n` bytes are passed (R228); `fuel` bounds the lines of one call. -/
def State.copyRun (s : State) (core ch n : Nat) : Nat → State
  | 0 => s
  | fuel + 1 => match s.workingCopy core ch with
    | none => s
    | some e =>
      let (s', k) := s.copyLine core ch e
      if k == 0 || decide (n ≤ k) then s' else s'.copyRun core ch (n - k) fuel
/-- The lowest byte index that a copy's status names (R229): where it stopped, if it did, or below. -/
def CopyEntry.low (e : CopyEntry) : Nat :=
  if e.stop then (match e.off with | some o => min o e.done | none => e.done) else e.off.getD 0
/-- The answer to a line that a copy sent to another module (R228, R231): its bytes are passed, or a refusal ends the copy before them. A copy that was to end with all
its bytes written has no byte unwritten. -/
def CopyEntry.arrived (e : CopyEntry) (ok : Bool) : CopyEntry :=
  if ok then
    let done := e.done + e.flight.getD 0
    { e with done := done, flight := none, stop := e.stop && decide (done < e.len) }
  else { e with flight := none }.endAt (some 262)
/-- The status word of a copy (R229). -/
def CopyEntry.status (e : CopyEntry) : W32 :=
  BitVec.ofNat 32 (2 ^ 31 + (if e.err then 2 ^ 30 else 0) + (if e.oob then 2 ^ 29 else 0) + (if e.stop then 2 ^ 28 else 0) +
    min 255 e.bad.length * 2 ^ 20 + e.low % 2 ^ 20)
/-- A deferred trap owed at the first read of a status register `d` or of other destinations, or pushed as a retired record where the group has retired (R231,
R306, R308). -/
def State.oweStatus (s : State) (who : StrandRef) (rk key cause pc d status : Nat) (regs : List (Cls × Nat)) (ends : Bool) :
    State :=
  match s.group? who.sid who.gi with
  | none => s
  | some g =>
    let detail := status + (d % 256) * 2 ^ 32
    if g.retired || g.strands.isEmpty then
      match s.trapRecord who cause 3 0 detail pc pc true with
      | none => s
      | some t => s.queueRecord rk { t with retired := true }
    else
      let sn := if g.strands.any fun t => t.sn == who.sn then who.sn else (g.strands.headD default).sn
      s.oweCommand ⟨who.sid, who.gi, sn⟩ ⟨key, cause, pc, 0, detail, .reads regs ends⟩
/-- The first copy of a channel complete (R229, R230, R233): its status is written, and what it owes becomes due. -/
def State.copyFinish (s : State) (core ch : Nat) : State := match (s.chan core ch).entries with
  | [] => s
  | e :: rest =>
    if !e.finished || e.matrix.isSome || s.copyRemote (.copyLoad core ch e.id) then s
    else
      let s := s.modChan core ch fun c => { c with entries := rest }
      let s := s.complete e.who.sid e.who.gi e.id [.g (e.d + 1) e.status]
      let s := (e.cause.toList ++ e.also.toList).foldl (fun s c => s.oweStatus e.who e.rk e.id c e.pc e.d e.status.toNat [(.g, e.d + 1)] true) s
      match e.kill with
      | some (id, d, n) => match s.slice? e.who.sid with
        | none => s
        | some x => (List.range x.groups.length).foldl (fun s gi =>
            match (s.group? e.who.sid gi).bind fun g => g.inflight? id with
            | some _ => s.complete e.who.sid gi id [.g d (BitVec.ofNat 32 n)]
            | none => s) s
      | none => s

/-! ### The update engine (R236 to R241) -/

/-- The check of an OPTSTEP (R237). -/
def optCheck (bf : Bool) (params : List Nat) (recs : List (BitVec 128)) (strict : Bool) : Option Nat :=
  let n := params.getD 0 0
  let e0 := params.getD 1 0
  let sz := fun (k : Nat) => if k == 3 && bf then 2 else 4
  let bad := fun (k : Nat) => let r := recs.getD k 0
    recElem r != sz k || recStride r != sz k || bitsAt r.toNat 73 3 != 0 || (k != 3 && recBase r % 64 != 0)
  let rng := fun (k : Nat) => (recBase (recs.getD k 0) + e0 * sz k, n * sz k)
  let meet := fun (a b : Nat) => rangesMeet (rng a).1 (rng a).2 (rng b).1 (rng b).2
  if n == 0 || decide (16777216 < n) then some 288
  else if (List.range 4).any bad || meet 0 1 || meet 0 2 || meet 0 3 || meet 1 2 || meet 1 3 || meet 2 3 then some 289
  else if (List.range 3).any (fun k => !recPr (recs.getD k 0) || !recPw (recs.getD k 0)) || !recPr (recs.getD 3 0) then some 293
  else if strict && recs.any (fun r => decide (recExtent r < e0 + n)) then some 290
  else none
/-- The elements of an OPTSTEP beyond the extent of some record (R237, R314). -/
def optOut (params : List Nat) (recs : List (BitVec 128)) : Nat :=
  params.getD 0 0 - recs.foldl (fun m r => min m (recExtent r - params.getD 1 0)) (params.getD 0 0)
/-- OPTSTEP (spec/10 R236 to R241; spec/19 R430). Its records stand in the order weight, momentum, variance, gradient. -/
def execOptstep (h : Hdr) (bf : Bool) (d bW bG p bM bV : Nat) (s : State) : Host.Outcome State Fault Refusal :=
  let i : Instr := .optstep h bf d bW bG p bM bV
  issue i (fun x s =>
    let params := (List.range 8).map fun k => x.gr (p + k)
    let recs := [bW, bM, bV, bG].map x.view0.breg
    let strict := x.strict s (recs.any recStrict)
    match (if x.cur.held.isSome then none else optCheck bf params recs strict) with
    | some c => .counted (fun s => if c == 290 then s.countOob x.rk (optOut params recs) else s) c 0 0
    | none =>
      let dst := [(Cls.g, d), (Cls.g, d + 1)]
      if x.holds then
        let (id, s) := s.fresh
        x.hold i h id [] strict (x.pend id dst .await s)
      else
        let (id, s) := x.takeId s
        let s := if x.cur.held.isSome then s else x.pend id dst .await s
        let u : UpdEntry := { id := id, who := x.cur.who, pc := x.cur.pc, rk := x.rk, bf := bf, params := params.map (BitVec.ofNat 32),
                              recs := recs, strict := strict, d := d, next := params.getD 1 0 / 16, updated := 0, drop := 0,
                              err := false, oob := false, stop := false, cause := none, batch := none, got := [], lost := [], flight := none }
        .ok (s.modCore x.x.core fun k => { k with upd := k.upd ++ [u] })) s
/-- The elements of a span that lie in the range (R238). -/
def UpdEntry.spanElems (u : UpdEntry) (k : Nat) : List Nat :=
  let n := (u.params.getD 0 0).toNat
  let e0 := (u.params.getD 1 0).toNat
  (List.range 16).filterMap fun j => if decide (e0 ≤ 16 * k + j) && decide (16 * k + j < e0 + n) then some (16 * k + j) else none
/-- Whether every span of an OPTSTEP is done, or it has ended early, and no write is on its way to another module. -/
def UpdEntry.finished (u : UpdEntry) : Bool :=
  (u.stop && u.flight.isNone) || decide (((u.params.getD 0 0).toNat + (u.params.getD 1 0).toNat + 15) / 16 ≤ u.next)
/-- The size in bytes of an element of one of the four records, by its place W, M, V, G. -/
def UpdEntry.elemSize (u : UpdEntry) (k : Nat) : Nat := if k == 3 && u.bf then 2 else 4
/-- The places of the in-bounds elements of a span that the engine translates, in the buffer order W, M, V, G (R239). -/
def UpdEntry.spanVas (u : UpdEntry) (k : Nat) : List (Nat × Nat × Nat) :=
  (List.range 4).flatMap fun b =>
    ((u.spanElems k).filter fun e => u.recs.all fun r => decide (e < recExtent r)).map fun e =>
      (b, e, recBase (u.recs.getD b 0) + e * u.elemSize b)
/-- A value of f32 bits. -/
def valF (b : Nat) : FVal := decodeF .f32 false b
/-- A value rounded to f32 under rne, subnormals kept. -/
def rndF (v : FVal) : Nat := (packV .f32 .rne false false v false).bits
/-- Quotient of two f32 values rounded under rne (R238). -/
def divF (a b : Nat) : Nat :=
  match valF a, valF b with
  | .nan, _ => canonNan .f32
  | _, .nan => canonNan .f32
  | .inf _, .inf _ => canonNan .f32
  | .inf n, y => signBits .f32 (n != y.neg?) 0x7F800000
  | x, .inf n => signBits .f32 (x.neg? != n) 0
  | .num na ma ea, .num nb mb eb =>
    if mb == 0 then (if ma == 0 then canonNan .f32 else signBits .f32 (na != nb) 0x7F800000)
    else if ma == 0 then signBits .f32 (na != nb) 0
    else
      let sh := 64 + log2 mb
      let q := ma * 2 ^ sh / mb
      let m := sticky q (ma * 2 ^ sh % mb == 0)
      (packNum .f32 .rne false false (na != nb) m (ea - eb - sh - 1)).bits
/-- One element of R238: the new weight, momentum and variance bits. -/
def optElem (p : List Nat) (w m v g : Nat) : Nat × Nat × Nat :=
  let mul := fun (a b : FVal) => (mulV a b).1
  let add := fun (a b : FVal) => (addV .rne a b).1
  let lr := valF (p.getD 2 0)
  let b1 := valF (p.getD 3 0)
  let b2 := valF (p.getD 4 0)
  let one := valF 0x3F800000
  let a1 := valF (rndF (add one (negV b1)))
  let a2 := valF (rndF (add one (negV b2)))
  let t := valF (rndF (mul (valF (p.getD 7 0)) (valF g)))
  let m' := rndF (add (mul b1 (valF m)) (mul a1 t))
  let v' := rndF (add (mul b2 (valF v)) (mul (mul a2 t) t))
  let q := rndF (add (valF (fsqrtOf .rne false v').bits) (valF (p.getD 5 0)))
  let u := divF m' q
  let w' := rndF (add (valF w) (negV (mul lr (add (valF u) (mul (valF (p.getD 6 0)) (valF w))))))
  (w', m', v')
/-- The lines of other modules that a span reads and has not got yet: each with its chip, line number and elements. -/
def UpdEntry.needs (u : UpdEntry) (tr : List ((Nat × Nat × Nat) × TrRes)) : List (Nat × Nat × List LaneAcc) :=
  (peerParts (fun _ va => va / 128) (tr.filterMap fun e => match e.2 with
    | .ok (.peer c va) => some ⟨0, va, some (.peer c va), e.1.1, 0, none⟩
    | _ => none)).filter fun n => !peerHas u.got n.1 n.2.1
/-- An OPTSTEP ended early (R239): the cause that ends it is owed beside a 291. -/
def UpdEntry.endWith (u : UpdEntry) (c : Nat) : UpdEntry :=
  { u with stop := true, batch := none, cause := some (u.cause.getD c), also := if u.cause.isSome then some (u.also.getD c) else u.also }
/-- The answer to a line of a span that another module was to store (R238, R239): with the last one its elements are updated. A refusal ends the command as a missing
permission does (DEDUCED, notes/assumptions/20.md). -/
def UpdEntry.arrived (u : UpdEntry) (ok last : Bool) : UpdEntry :=
  let u := if ok then u else u.endWith 293
  if !last then u
  else if u.stop then { u with flight := none }
  else { u with flight := none, next := u.next + 1, updated := u.updated + u.flight.getD 0 }
/-- Whether an access of an OPTSTEP is outstanding at another module. -/
def State.updRemote (s : State) (o : RemoteOwner) : Bool := s.remotes.any fun r => r.owner == o
/-- One span of the update engine's first command (R238, R239). DROP counts the elements of a dropped span that are not skipped for lying out of bounds (DESIGN CHOICE,
notes/assumptions/20.md). What it reads on other modules is read first, and a span that writes there is done when they have
accepted its writes. -/
def State.updStep (s : State) (core : Nat) : State := match (s.core core).upd with
  | [] => s
  | u :: rest =>
    let sid := u.who.sid
    let put := fun (u : UpdEntry) (s : State) => s.modCore core fun k => { k with upd := u :: rest }
    if u.finished || u.stop || u.batch.isSome || u.flight.isSome || s.updRemote (.updLoad core u.id) || !(s.earlier core u.who u.id u.touch).isEmpty then s
    else
      let vas := u.spanVas u.next
      let place : Nat × Nat × Nat → TrRes := fun e => match s.translate (keyVf u.rk) .load e.2.2 with
        | .ok (.peer c va) => if u.lost.contains (c, va / 128) then .bad 8
          else if e.1 == 3 then .ok (.peer c va) else s.translate (keyVf u.rk) .store e.2.2
        | .ok p => if e.1 == 3 then .ok p else s.translate (keyVf u.rk) .store e.2.2
        | r => r
      let tr : List ((Nat × Nat × Nat) × TrRes) := vas.map fun e => (e, place e)
      match tr.find? fun e => match e.2 with | .ok _ => false | _ => true with
      | some (_, .absent _) =>
        let last := ((u.params.getD 0 0).toNat + (u.params.getD 1 0).toNat + 15) / 16
        let pages := (List.range (last - u.next)).foldl (fun l k =>
          if decide (Config.batchPages ≤ l.length) then l
          else (u.spanVas (u.next + k)).foldl (fun l e => match s.translate (keyVf u.rk) .load e.2.2 with
            | .absent pg => if l.contains pg || decide (Config.batchPages ≤ l.length) then l else l ++ [pg]
            | _ => l) l) []
        let (id, s) := s.engineBatch (.update core u.id) u.who u.rk 292 u.pc pages
        put { u with batch := some id } s
      | some _ => put (u.endWith 293) s
      | none =>
      let need := u.needs tr
      if !need.isEmpty then
        need.foldl (fun s n =>
          let sectors := n.2.2.foldl (fun m a => m ||| (sectorsOf n.2.1 a.va (u.elemSize a.arg)).toNat) 0
          (s.sendRemote (.updLoad core u.id) u.rk n.1 (n.2.1 * 128) 128 (.load sectors)).2) s
      else
        let s := s.drainCore core
        if tr.any fun e => e.1.1 != 3 && (match e.2 with | .ok l => s.storeAhead sid core l 4 | _ => false) then s
        else
        let elems := u.spanElems u.next
        let inb := elems.filter fun e => u.recs.all fun r => decide (e < recExtent r)
        let outN := elems.length - inb.length
        let s := s.countOob u.rk outN
        let u := if outN == 0 then u else { u with oob := true }
        let rd := fun (s : State) (b e : Nat) => match tr.find? fun y => y.1.1 == b && y.1.2.1 == e with
          | some (_, .ok (.peer c va)) =>
            let bs := (List.range (u.elemSize b)).map fun i => peerByte u.got c (va + i)
            (bs.map Prod.fst, bs.filterMap Prod.snd, s)
          | some (_, .ok l) => s.readLoc sid u.who.gi core [] l (u.elemSize b)
          | _ => ([], [], s)
        let (vals, bad, s) := inb.foldl (fun (acc : List (Nat × List Nat) × List Nat × State) e =>
          let (vs, bad, s) := (List.range 4).foldl (fun (a : List Nat × List Nat × State) b =>
            let (bs, f, s) := rd a.2.2 b e
            let v := if b == 3 && u.bf then ofBytes bs * 65536 else ofBytes bs
            (a.1 ++ [v], a.2.1 ++ f, s)) ([], acc.2.1, acc.2.2)
          (acc.1 ++ [(e, vs)], bad, s)) ([], [], s)
        let bad := bad.eraseDups
        let u := { u with got := [], lost := [] }
        if !bad.isEmpty then
          put { u with next := u.next + 1, drop := u.drop + inb.length, err := true,
                       cause := if u.strict && u.cause.isNone then some 291 else u.cause } (s.countUncor u.rk bad.length)
        else
          let params := u.params.map BitVec.toNat
          let (s, out) := vals.foldl (fun (a : State × List (Nat × Nat × List Byte)) e =>
            let (w, m, v) := optElem params (e.2.getD 0 0) (e.2.getD 1 0) (e.2.getD 2 0) (e.2.getD 3 0)
            [(0, w), (1, m), (2, v)].foldl (fun (a : State × List (Nat × Nat × List Byte)) q => match tr.find? fun y => y.1.1 == q.1 && y.1.2.1 == e.1 with
              | some (_, .ok (.peer c va)) => (a.1, a.2 ++ [(c, va, bytesOf 4 q.2)])
              | some (_, .ok l) => (((bytesOf 4 q.2).zip (List.range 4)).foldl (fun s b =>
                  s.engineWrite sid core u.rk (match l with | .mem pa => .mem (pa + b.2) | .host vf va => .host vf (va + b.2) | y => y) b.1) a.1, a.2)
              | _ => a) a) (s, [])
          let lines := (out.map fun o => (o.1, o.2.1 / 128)).eraseDups
          if lines.isEmpty then put { u with next := u.next + 1, updated := u.updated + inb.length } s
          else put { u with flight := some inb.length } (lines.foldl (fun s l =>
            (s.sendRemote (.updStore core u.id) u.rk l.1 (l.2 * 128) 128
              (.store ((out.filter fun o => o.1 == l.1 && o.2.1 / 128 == l.2).map fun o => (o.2.1 % 128, o.2.2)))).2) s)
/-- The status word of an OPTSTEP (R240). -/
def UpdEntry.status (u : UpdEntry) : W32 :=
  BitVec.ofNat 32 (2 ^ 31 + (if u.err then 2 ^ 30 else 0) + (if u.oob then 2 ^ 29 else 0) + (if u.stop then 2 ^ 28 else 0) +
    min u.drop (2 ^ 24 - 1))
/-- The update engine's first command complete (R240, R241). -/
def State.updFinish (s : State) (core : Nat) : State := match (s.core core).upd with
  | [] => s
  | u :: rest =>
    if !u.finished || s.updRemote (.updStore core u.id) then s
    else
      let s := s.modCore core fun k => { k with upd := rest }
      let s := s.complete u.who.sid u.who.gi u.id [.g u.d (BitVec.ofNat 32 u.updated), .g (u.d + 1) u.status]
      (u.cause.toList ++ u.also.toList).foldl (fun s c => s.oweStatus u.who u.rk u.id c u.pc u.d u.status.toNat [(.g, u.d + 1)] false) s

end Sys2Proof.Machine
end

