-- ==== Sys2Proof/Machine/Pool.lean ====
section
/-!
DEFINITION. The save pool of a region's save area, notices, and the arrival log of a Swapped slice (spec/11 R259; spec/14 R308, R311).
-/

namespace Sys2Proof.Machine

/-! ### The save pool (R311) -/

/-- The region whose save area a region uses, within the 8 levels of R38. -/
def State.saveRootN (s : State) : Nat → Nat → Nat
  | 0, rk => rk
  | n + 1, rk => match s.region? rk with
    | none => rk
    | some r => match r.parent with
      | none => rk
      | some p => match s.region? p with
        | none => rk
        | some q => if q.save == r.save && q.saveSize == r.saveSize then s.saveRootN n p else rk
/-- The region whose save area a region uses. -/
def State.saveRoot (s : State) (rk : Nat) : Nat := s.saveRootN 8 rk
/-- Bytes of a pool block. -/
def poolBlock : Nat := 65536
/-- The first of `n` free blocks in a row among `total`, given those in use as first block and count. -/
def poolFind (used : List (Nat × Nat)) (n total : Nat) : Option Nat :=
  let starts := 0 :: used.map fun u => u.1 + u.2
  let ok := fun (b : Nat) => decide (b + n ≤ total) && used.all fun u => !rangesMeet u.1 u.2 b n
  ((starts.filter ok).foldl (fun (m : Option Nat) b => match m with | none => some b | some c => some (min b c)) none)
/-- Bytes taken from the pool of a region's save area: their address. -/
def State.poolTake (s : State) (rk bytes : Nat) : Option (Nat × State) :=
  let root := s.saveRoot rk
  match s.region? root with
  | none => none
  | some r =>
    let n := ceilDiv bytes poolBlock
    let total := (r.saveSize * 2 ^ 20 - 2 ^ 21) / poolBlock
    match poolFind r.poolUsed n total with
    | none => none
    | some b => some (r.save + 2 ^ 21 + b * poolBlock, s.modRegion root fun r => { r with poolUsed := r.poolUsed ++ [(b, n)] })
/-- Blocks given back to the pool. -/
def State.poolFree (s : State) (rk va : Nat) : State :=
  s.modRegion (s.saveRoot rk) fun r =>
    { r with poolUsed := r.poolUsed.filter fun u => r.save + 2 ^ 21 + u.1 * poolBlock != va }

/-! ### Notices (R308) -/

/-- A notice of a region that names no strand (R273, R308). -/
def State.notice (s : State) (rk cause slice job detail : Nat) : State :=
  s.queueRecord rk { (default : TrapRec) with cause := cause, kind := 3, tag := keyTag rk, slice := slice, job := job, time := s.time, detail := detail, cycle := s.clock }
/-- A record of a slice that names no strand: cause 321 (R34, R259). -/
def State.sliceNotice (s : State) (sid cause : Nat) : State := match s.slice? sid with
  | none => s
  | some x =>
    let job := match s.job? x.jn with | some j => j.ticket | none => 0
    s.notice (s.sliceRegion x) cause x.index job 0

/-! ### The arrival log (R259, R311, R318) -/

/-- Entries of one block of an arrival log. -/
def logEntries : Nat := poolBlock / 32
/-- An entry written where the log of a slice has room for it, or kept in the unit until the log can grow. -/
def State.logPut (s : State) (sid : Nat) (e : LogEntry) : State := match s.slice? sid with
  | none => s
  | some x =>
    let i := x.log.length
    match x.logBlocks[i / logEntries]? with
    | none => s.modSlice sid fun x => { x with logWait := x.logWait ++ [e] }
    | some va =>
      let s := s.devWrite (keyVf (s.sliceRegion x)) (va + 32 * (i % logEntries)) e.bytes
      s.modSlice sid fun x => { x with log := x.log ++ [e] }
/-- An event logged (R259): a block is taken where the log is full, and cause 321 is raised where none can be had. -/
def State.logAdd (s : State) (sid : Nat) (e : LogEntry) : State := match s.slice? sid with
  | none => s
  | some x =>
    if !x.logWait.isEmpty then s.modSlice sid fun x => { x with logWait := x.logWait ++ [e] }
    else if decide (x.log.length < x.logBlocks.length * logEntries) then s.logPut sid e
    else match s.poolTake (s.sliceRegion x) poolBlock with
      | none => (s.logPut sid e).sliceNotice sid 321
      | some (va, s) => (s.modSlice sid fun x => { x with logBlocks := x.logBlocks ++ [va] }).logPut sid e
/-- Events that waited for the log to grow are logged in order (R259). -/
def State.logRetry (s : State) (sid : Nat) : State := match s.slice? sid with
  | none => s
  | some x =>
    let s := s.modSlice sid fun x => { x with logWait := [] }
    x.logWait.foldl (fun s e => s.logAdd sid e) s

end Sys2Proof.Machine
end

