-- ==== Sys2Proof/Machine/Scale.lean ====
section
/-!
DEFINITION. Formats and scales (spec/06 R119, R120, R129 to R132; spec/19 R442 to R446): SETFMT, SCREC, SCLOAD and the replay
state.
-/

namespace Sys2Proof.Machine

/-- SETFMT of FMT (spec/19 R445, R446). -/
def execSetfmt (h : Hdr) (a : Nat) (s : State) : Host.Outcome State Fault Refusal :=
  issue (.setfmt h a) (fun x s =>
    let v := x.gr a
    if codeReserved (bitsAt v 16 4) || codeReserved (bitsAt v 20 4) then .trap 112 0 0
    else .ok (s.modGroup x.cur.who.sid x.cur.who.gi fun g =>
      (g.modStrand x.cur.who.sn fun t => { t with c := { t.c with fmt := BitVec.ofNat 32 v &&& fmtMask } }).mend (.fmt x.cur.who.sn))) s
/-- An f32 pattern with a canonical NaN (R446). -/
def canonF32 (n : Nat) : Nat := if 0x7F800000 < n % 2 ^ 31 then 0x7FC00000 else n
/-- SETFMT of a scale register (spec/19 R446). -/
def execSetfmtSc (h : Hdr) (d a : Nat) (s : State) : Host.Outcome State Fault Refusal :=
  issue (.setfmtSc h d a) (fun x s =>
    .ok (s.modGroup x.cur.who.sid x.cur.who.gi fun g => applyAll g [.sc d (BitVec.ofNat 32 (canonF32 (x.gr a)))])) s
/-- SETFMT that clears an amax register (spec/19 R446). -/
def execSetfmtClr (h : Hdr) (d : Nat) (s : State) : Host.Outcome State Fault Refusal :=
  issue (.setfmtClr h d) (fun x s =>
    .ok (s.modGroup x.cur.who.sid x.cur.who.gi fun g => ({ g with am := Sparse.put 0 g.am d 0 }).mend (.reg .am d))) s

/-- The bytes of a scale record (R130). -/
def recordBytes (fmt : W32) (sc am : List W32) (time : Nat) : List Byte :=
  bytesOf 4 0x53524543 ++ bytesOf 4 1 ++ bytesOf 4 (fmt &&& fmtMask).toNat ++ bytesOf 4 0 ++
    (sc.flatMap fun w => bytesOf 4 w.toNat) ++ (am.flatMap fun w => bytesOf 4 w.toNat) ++ bytesOf 8 time ++ bytesOf 40 0
/-- The check of a scale record (R131). -/
def recordValid (r : List Byte) : Bool :=
  let n := ofBytes r
  r.length == 128 && bitsAt n 0 32 == 0x53524543 && bitsAt n 32 16 == 1 && bitsAt n 48 16 == 0 && bitsAt n 96 32 == 0 &&
    bitsAt n 704 320 == 0 && bitsAt n 88 8 == 0 && bitsAt n 72 8 == 0 && !bitAt n 67 &&
    !codeReserved (bitsAt n 80 4) && !codeReserved (bitsAt n 84 4)
/-- SCREC (spec/19 R442, R443). -/
def execScrec (h : Hdr) (xi b : Nat) (imm : W32) (s : State) : Host.Outcome State Fault Refusal :=
  let i : Instr := .screc h xi b imm
  issue i (fun x s =>
    match x.recordAcc s .store false false b (.g xi) imm 128 [0] with
    | .error e => e
    | .ok (acc, strict) =>
      let g := x.view0
      let rec_ := recordBytes x.fmt ((List.range 8).map g.screg) ((List.range 8).map g.amreg) (timeAt x.cur.cycle)
      let acc := acc.map fun a => { a with arg := ofBytes rec_ }
      let runs := (storeRuns 128 acc).map fun (r : StoreRun) => { r with lanes := x.smask }
      let bad := if strict then runs.flatMap fun r => (s.runPart x.x r).map fun f => (r, f) else []
      match bad.head? with
      | some (r, f) => .counted (fun s => s.countUncor x.rk bad.length) 148 0 (match r.loc with | .mem pa => r.va + f - pa | _ => f)
      | none => match x.behind s acc 128 with
      | some n => .wait (.result n)
      | none => .ok (x.presentRuns plainOrd strict none (runs.map fun r => (0, r)) (x.countOob acc s))) s
/-- SCLOAD (spec/19 R442, R443): the strand issues nothing further until the record has arrived. -/
def execScload (h : Hdr) (xi b : Nat) (imm : W32) (s : State) : Host.Outcome State Fault Refusal :=
  let i : Instr := .scload h xi b imm
  issue i (fun x s =>
    let who := x.cur.who
    match x.recordAcc s .load false false b (.g xi) imm 128 [0] with
    | .error e => e
    | .ok (acc, strict) =>
      let a := acc.headD default
      match x.behind s acc 128 with
      | some n => .wait (.result n)
      | none =>
      if !(x.follows s plainOrd x.smask (chipsOf acc)).isEmpty then .wait .stores
      else
      let (id, s) := (x.countOob acc s).fresh
      let held := match s.group? who.sid who.gi with
        | some g => x.smask.lanes.flatMap fun l => g.heldWrites who.sn l id
        | none => []
      let (got, err, s) := match a.loc with
        | none => (some (List.replicate 128 0#8), none, s)
        | some (.peer _ _) => (none, none, s)
        | some l =>
          let (bs, bad, s) := s.readLoc who.sid who.gi x.x.core held l 128
          (some (if bad.isEmpty then bs else List.replicate 128 0#8), (if strict && !bad.isEmpty then some 132 else none), s.countUncor x.rk bad.length)
      let s := x.pend id [] (.scload b a.va a.loc strict got err) s
      let s := match a.loc with
        | some (.peer chip va) => (s.sendRemote (.scload who id) x.rk chip va 128 (.load 15)).2
        | _ => s
      .ok (s.putWait who (.scoreboard (.result id)))) s
/-- SCLOAD's `.end` form (spec/19 R443). -/
def execScloadEnd (h : Hdr) (s : State) : Host.Outcome State Fault Refusal :=
  issue (.scloadEnd h) (fun x s => .ok (s.modGroup x.cur.who.sid x.cur.who.gi fun g => ({ g with replay := none }).mend .replay)) s
/-- The record of a SCLOAD has arrived (R443, R131, R153): replay state begins, or a deferred trap is owed at the next slot. -/
def State.recordArrives (s : State) (sid gi : Nat) (f : Inflight) : State := match f.body with
  | .scload _ va _ _ got err =>
    let bs := got.getD []
    let owed : Option (Nat × Nat) := match err with
      | some c => some (c, va / 128 * 128)
      | none => if recordValid bs then none else some (113, 0)
    let s := s.complete sid gi f.id []
    match owed with
    | none => s.modGroup sid gi fun g => ({ g with replay := some bs }).mend .replay
    | some (cause, detail) => s.modStrand ⟨sid, gi, f.sn⟩ fun t =>
        { t with deferred := t.deferred ++ [⟨f.id, cause, f.cpc, 0, detail, .next⟩] }
  | _ => s

end Sys2Proof.Machine
end

