-- ==== Sys2Proof/Machine/Harness.lean ====
section
/-!
DEFINITION. Harnesses (spec/11_harnesses.md R242 to R261; spec/08 R176; spec/06 R127; spec/13 R289 to R293; spec/18 R393 to R401):
the units, phases and their completion, straggler entries, lag scores, and the harness instructions.
-/

namespace Sys2Proof.Machine

/-! ### Handles (R242, R244, R250) -/

/-- GEN of a handle. -/
def hGen (h : W32) : Nat := bitsAt h.toNat 0 8
/-- INDEX of a handle. -/
def hIndex (h : W32) : Nat := bitsAt h.toNat 8 12
/-- REGION of a handle. -/
def hTag (h : W32) : Nat := bitsAt h.toNat 20 12
/-- A handle of its fields (R242). -/
def handleOf (tag index gen : Nat) : W32 := BitVec.ofNat 32 (gen + index * 256 + tag * 2 ^ 20)
/-- The key of a created harness: its holding chip and INDEX. -/
def madeKey (chip index : Nat) : HKey := .made (chip * 4096 + index)
/-- A harness by its key. -/
def State.harness? (s : State) (k : HKey) : Option Harness := (s.harnesses.find? fun e => e.1 == k).map Prod.snd
/-- A harness changed. -/
def State.modHarness (s : State) (k : HKey) (f : Harness → Harness) : State :=
  { s with harnesses := updFirst (fun e => e.1 == k) (fun e => (e.1, f e.2)) s.harnesses }
/-- The harness a handle register's value names, for a group of a slice (R244). -/
def X.keyOf (x : X) (v : HVal) : HKey :=
  if hGen v.handle == 0 then (if hIndex v.handle == 0xFFE then .slice x.cur.who.sid else .job x.x.jn)
  else madeKey v.chip (hIndex v.handle)
/-- The group of the cursor's strand. -/
def X.me (x : X) : GroupRef := ⟨x.cur.who.sid, x.cur.who.gi⟩
/-- A member of a harness that may arrive (R261). -/
def Harness.member? (h : Harness) (w : Member) : Option HMember :=
  h.members.find? fun m => m.who == w && !m.joining && !m.leaving
/-- Whether an index has arrived in the current phase. -/
def Harness.arrived (h : Harness) (idx : Nat) : Bool := h.arrivals.any fun a => a.idx == idx
/-- Whether an index has arrived, or its arrival has reached the unit. -/
def Harness.reached (h : Harness) (idx : Nat) : Bool := h.arrived idx || h.coming.any fun a => a.idx == idx && a.gone.isNone
/-- The checks of R250 on a handle value in their order; `member` asks for step 4 and `lost` for the last check of step 2. For a harness held on another module that
module makes the other checks when it is asked. -/
def X.handleCheck (x : X) (s : State) (v : HVal) (member lost : Bool) : Option Nat :=
  let away := v.chip != s.chip
  let h := s.harness? (x.keyOf v)
  let failed := lost && (match h with | some y => y.failed | none => false)
  if v.handle == 0 then some 209
  else if away then (if s.mgmt.unreachable.contains v.chip then some 222 else none)
  else
    let stale := hGen v.handle != 0 && (match h with
      | none => true
      | some y => hGen y.handle != hGen v.handle)
    if stale then some 208
    else if failed then some 221
    else if !s.isAncestor (regionKey (keyVf x.rk) (hTag v.handle)) x.rk then some 212
    else if member && (match h with | some y => (y.member? (.here x.me)).isNone | none => true) then some 210
    else none
/-- The handle check of an instruction that names a handle register, as issue takes it. -/
def handleEarly (n : Nat) (member lost : Bool) (x : X) (s : State) : Option (Nat × Nat × Nat) :=
  (x.handleCheck s (x.view0.hreg n) member lost).map fun c => (c, 0, 0)

/-! ### Counts and results (R245, R254, R255, R394) -/

/-- The members of the current phase: those not joining, the groups of Queued slices, and those that have gone after they counted in it. -/
def Harness.phaseMembers (h : Harness) : Nat :=
  (h.members.filter fun m => !m.joining).length + h.queued + (h.arrivals.filter fun a => !h.members.any fun m => m.idx == a.idx && !m.joining).length
/-- The arrivals the current phase needs (R245, R246). -/
def Harness.need (h : Harness) : Nat :=
  if h.kind.isSome then h.count else if h.counted then h.created else h.phaseMembers
/-- A result word (R255). -/
def resultWord (lost : Bool) (phase : Nat) : W32 := BitVec.ofNat 32 (2 ^ 31 + (if lost then 2 ^ 30 else 0) + phase % 2 ^ 24)
/-- Contributions put in ascending member index. -/
def Harness.contribs (h : Harness) : List (Nat × W32) :=
  sortBy Prod.fst (h.arrivals.filterMap fun a => if a.gone then none else a.value.map fun v => (a.idx, v))
/-- The value of a vote (R254). -/
def voteValue (f : HVoteFn) (l : List W32) : W32 :=
  let n := (l.filter fun v => v != 0).length
  match f with
  | .any => if n == 0 then 0 else 1
  | .all => if n == l.length then 1 else 0
  | .cnt => BitVec.ofNat 32 n
/-- An f32 contribution with a canonical NaN (R110). -/
def redLeaf (v : W32) : Nat := canonF32 v.toNat
/-- An f32 sum by the tree whose leaves are member indices (R127). -/
def redSum (l : List (Nat × W32)) : Nat :=
  let top := l.foldl (fun m e => max m (e.1 + 1)) 0
  let leaves := (List.range top).map fun i => (l.find? fun e => e.1 == i).map fun e => FOut.of (redLeaf e.2)
  match treeSum (addNode .f32 .rne false) (if top ≤ 1 then 0 else log2 (top - 1) + 1) leaves with
  | some o => o.bits
  | none => 0
/-- The value of a reduction (R127, R394). -/
def redValue (op : HRedOp) (ty : HRedTy) (l : List (Nat × W32)) : W32 :=
  let vs := l.map fun e => e.2
  let pick := fun (lt : W32 → W32 → Bool) (init : W32) => match vs with
    | [] => init
    | v :: rest => rest.foldl (fun m w => if lt w m then w else m) v
  match ty, op with
  | .f32, .add => BitVec.ofNat 32 (redSum l)
  | .f32, .min => match vs with
    | [] => 0x7F800000#32
    | v :: rest => BitVec.ofNat 32 (rest.foldl (fun m w =>
        (packV .f32 .rne false false (minmaxV false (decodeF .f32 false m) (decodeF .f32 false w.toNat)) false).bits) (redLeaf v))
  | .f32, .max => match vs with
    | [] => 0xFF800000#32
    | v :: rest => BitVec.ofNat 32 (rest.foldl (fun m w =>
        (packV .f32 .rne false false (minmaxV true (decodeF .f32 false m) (decodeF .f32 false w.toNat)) false).bits) (redLeaf v))
  | _, .add => vs.foldl (fun a b => a + b) 0
  | .s32, .min => pick (fun a b => a.slt b) 0x7FFFFFFF#32
  | .s32, .max => pick (fun a b => b.slt a) 0x80000000#32
  | .n32, .min => pick (fun a b => a.ult b) 0xFFFFFFFF#32
  | .n32, .max => pick (fun a b => b.ult a) 0#32
/-- The value a phase gives its waiters. -/
def Harness.value (h : Harness) : W32 := match h.kind with
  | some (.vote f) => voteValue f (h.contribs.map Prod.snd)
  | some (.red op ty) => redValue op ty h.contribs
  | _ => 0

/-! ### Lag and straggler entries (R290 to R293) -/

/-- The modules on which members of the current phase lie (R292). -/
def Harness.modules (h : Harness) (chip : Nat) : List Nat :=
  (((h.members.filter fun (m : HMember) => !m.joining).map fun (m : HMember) => match m.who with | .here _ => chip | .there c _ => c) ++ h.arrivals.map HArrive.chip ++
    (if h.queued == 0 then [] else [chip])).eraseDups
/-- The offset of an arrival in its phase (R290). -/
def Harness.offset (h : Harness) (a : HArrive) : Nat := min (a.time - h.first) (2 ^ 24 - 1)
/-- The largest offset of each module's arrivals in a phase, by chip. -/
def Harness.lastOf (h : Harness) (chip : Nat) : List (Nat × Nat) :=
  (h.modules chip).map fun c => (c, (h.arrivals.filter fun a => a.chip == c).foldl (fun m a => max m (h.offset a)) 0)
/-- The lag history after a phase (R292), with the chips whose flag changed and its new value. -/
def Harness.score (h : Harness) (chip lagCount lagMin : Nat) : List LagMod × List (Nat × Bool) :=
  let l := h.lastOf chip
  if l.length < 2 then (h.lag, [])
  else
    let top := l.foldl (fun m e => max m e.2) 0
    let upd := fun (m : LagMod) => match l.find? fun e => e.1 == m.chip with
      | none => m
      | some e =>
        let hist := ((e.2 == top, e.2) :: m.hist).take 16
        let sum := hist.foldl (fun n p => n + p.2) 0
        let flag := lagCount != 0 && decide (lagCount ≤ (hist.filter Prod.fst).length) && decide (lagMin < sum / max 1 hist.length)
        { m with hist := hist, lagging := flag }
    let fresh := (l.filter fun e => !h.lag.any fun m => m.chip == e.1).map fun e => (⟨e.1, [], false⟩ : LagMod)
    let old := h.lag ++ fresh
    let new := old.map upd
    (new, (old.zip new).filterMap fun p => if p.1.lagging == p.2.lagging then none else some (p.2.chip, p.2.lagging))
/-- A region and its ancestors, the region first, within the 8 levels of R38. -/
def State.lineageN (s : State) : Nat → Nat → List Nat
  | 0, _ => []
  | n + 1, rk => rk :: (match (s.region? rk).bind Region.parent with
    | none => []
    | some p => s.lineageN n p)
/-- A region and its ancestors, the region first. -/
def State.lineage (s : State) (rk : Nat) : List Nat := s.lineageN 8 rk
/-- A lag notice for this module taken in (R293): the harness's region. A flag that is set defers the stealable slices below each region for which the module lags by
it anew (R294). -/
def State.lagNote (s : State) (rk : Nat) (on : Bool) : State :=
  let l := if on then
      (if s.lagging.any fun e => e.rk == rk then
        updFirst (fun e => e.rk == rk) (fun e => { e with n := e.n + 1, since := s.clock }) s.lagging
      else s.lagging ++ [⟨rk, 1, s.clock⟩])
    else (s.lagging.map fun e => if e.rk == rk then { e with n := e.n - 1 } else e).filter fun e => e.n != 0
  { s with lagging := l
           jobs := if on then s.jobs.map fun e => (e.1, if (s.lineage rk).any fun g => s.isAncestor g e.2.rk then { e.2 with ordinary := false } else e.2)
                   else s.jobs }
/-- The 32-byte header and the items of a straggler entry (R290). -/
def entryBytes (h : Harness) (slotsz time : Nat) (lag : List LagMod) (chg : Bool) : List Byte :=
  let arrn := h.arrivals.length
  let room := (slotsz * 64 - 32) / 8
  let off := h.offset
  let sorted := sortBy (fun a => (2 ^ 24 - off a) * 2 ^ 40 + a.idx) h.arrivals
  let items := sorted.take room
  let flagged := sortBy LagMod.chip (lag.filter LagMod.lagging)
  let w0 := (if h.lost then 1 else 0) + (if items.length < arrn then 2 else 0) + (if chg then 4 else 0) +
    flagged.length * 2 ^ 88 + (match flagged with | m :: _ => m.chip | [] => 0) * 2 ^ 100 + items.length * 2 ^ 112 + arrn * 2 ^ 128 +
    h.phase.toNat * 2 ^ 160 + time % 2 ^ 64 * 2 ^ 192
  bytesOf 32 w0 ++ items.flatMap fun a => bytesOf 8 (off a + min a.idx (2 ^ 28 - 1) * 2 ^ 24 + a.chip * 2 ^ 52)

/-! ### Completion (R247, R259) -/

/-- A strand that waited becomes Ready (R28). -/
def State.makeReady (s : State) (r : StrandRef) : State :=
  s.modStrand r fun t => { t with st := .ready, readySince := s.clock, lost := 0 }
/-- Strands of a group in Harness wait for a result become Ready. -/
def State.wakeHarness (s : State) (g : GroupRef) (id : Nat) : State :=
  let want : SState := SState.harness id
  let f : Strand → Strand := fun t => if t.st == want then { t with st := .ready, readySince := s.clock, lost := 0 } else t
  s.modGroup g.sid g.gi fun y => { y with strands := y.strands.map f }
/-- A result raised by a harness unit for a group (R254, R259): written now, or logged while the slice is Swapped. -/
def State.deliver (s : State) (g : GroupRef) (id : Nat) (wrs : List RegWr) (bytes : List Byte) : State :=
  match s.slice? g.sid with
  | none => s
  | some x =>
    if x.st == .swapped then s.logAdd g.sid ⟨g.gi, id, wrs, bytes⟩
    else (s.complete g.sid g.gi id wrs).wakeHarness g id
/-- The 32 bytes of an arrival-log entry (R259). -/
def logBytes (h : Harness) (word value : W32) : List Byte :=
  bytesOf 4 h.handle.toNat ++ bytesOf 4 h.holder ++ bytesOf 4 h.phase.toNat ++ bytesOf 4 word.toNat ++ bytesOf 4 value.toNat ++ bytesOf 12 0
/-- Strands of a group that wait for the answer to a request become Ready. -/
def State.wakeAnswer (s : State) (g : GroupRef) (id : Nat) : State :=
  let want : SState := SState.scoreboard (.answer id)
  let f : Strand → Strand := fun t => if t.st == want then { t with st := .ready, readySince := s.clock, lost := 0 } else t
  s.modGroup g.sid g.gi fun y => { y with strands := y.strands.map f }
/-- Requests of this module's groups that pass a test receive what their bodies become, and their strands go on. What is a phase completion for a group of a Swapped slice is
an entry of that slice's log too (R259). -/
def State.modAsks (s : State) (f : Inflight → Option Body) (entry : Option (List Byte)) : State :=
  let upd : Inflight → Inflight := fun y => match f y with | some b => { y with body := b } | none => y
  let hit := s.slices.flatMap fun e => (e.2.groups.zip (List.range e.2.groups.length)).flatMap fun g =>
    (g.1.inflight.filter fun y => (f y).isSome).map fun y => ((⟨e.1, g.2⟩ : GroupRef), y.id, e.2.st == .swapped)
  hit.foldl (fun (s : State) (e : GroupRef × Nat × Bool) =>
    let s := s.modGroup e.1.sid e.1.gi fun g => { g with inflight := g.inflight.map upd }
    match e.2.2, entry with
    | true, some bs =>
      let (n, s) := s.fresh
      s.logAdd e.1.sid ⟨e.1.gi, n, [], bs⟩
    | true, none => s
    | false, _ => s.wakeAnswer e.1 e.2.1) s
/-- The answer to the request with some number is noted (R250). -/
def State.askAnswer (s : State) (id : Nat) (msg : HReply) : State := s.modAsks (fun y => match y.body with
  | .ask k chip none res => if y.id == id then some (.ask k chip (some msg) res) else none
  | _ => none) none
/-- Arrivals, joins and waits that have been granted in a phase which has completed learn of its completion. -/
def State.askPhase (s : State) (key : HKey) (h : Harness) (phase : Nat) (lost : Bool) (value : W32) : State := s.modAsks (fun y => match y.body with
  | .ask k chip (some (.grant id idx ph now v)) none =>
    if k == key && ph == phase then some (.ask k chip (some (.grant id idx ph now v)) (some (lost, value))) else none
  | _ => none) (some (logBytes h (resultWord lost phase) value))
/-- The waiters of the current phase receive their results, the phase closes, and the next one opens (R247, R252 to R255). A slice that was to leave at a barrier which is over
stays (R260). -/
def State.finishPhase (s : State) (key : HKey) (h : Harness) (lost : Bool) (value : W32) : State :=
  let word := resultWord lost h.phase.toNat
  let mine := h.waiters.filter fun w => w.phase == h.phase.toNat
  let stays := fun (x : Slice) => x.st == .resident && x.preempt == some .barrier && key == .job x.jn
  let s : State := { s with slices := s.slices.map fun e => (e.1, if stays e.2 then { e.2 with preempt := none, saveWait := false } else e.2) }
  let s := (s.askPhase key h h.phase.toNat lost value).modHarness key fun h =>
    { h with
      past := ((if lost then [h.phase.toNat] else []) ++ h.past).take 256
      phase := h.phase + 1, kind := none, count := 0, arrivals := [], first := 0, lost := false
      members := (h.members.filter fun m => !m.leaving).map fun m => { m with joining := false }
      waiters := h.waiters.filter fun w => w.phase != h.phase.toNat
      ranks := h.ranks.map fun r => if r.phase == h.phase.toNat then { r with ready := true } else r }
  mine.foldl (fun s w => s.deliver w.g w.id (match w.kind with
    | 0 => [.g w.d word]
    | 1 => [.g w.d value, .g (w.d + 1) word]
    | _ => []) (logBytes h word value)) s
/-- A message about a harness held here to another module, with the fabric tenant and the region of the harness (R337). -/
def State.sendReply (s : State) (h : Harness) (chip : Nat) (key : HKey) (r : HReply) : State :=
  s.emit (.released chip key (s.tenant (keyVf h.rk)).ftid (keyTag h.rk) r)
/-- The other modules on which members of a harness lie. -/
def Harness.farChips (h : Harness) (chip : Nat) : List Nat :=
  ((h.members.filterMap fun m => match m.who with | .there c _ => some c | _ => none).filter fun c => c != chip).eraseDups
/-- The current phase of a harness held here completes when its arrivals reach its count (R247): the lag flags are evaluated, the
straggler entry joins those that await writing, and members on other modules are told. -/
def State.tryComplete (s : State) (key : HKey) : State := match s.harness? key with
  | none => s
  | some h =>
    if h.arrivals.isEmpty || decide (h.arrivals.length < h.need) || h.holder != s.chip then s
    else
      let (lc, lm) := match s.region? h.rk with | some r => (r.lagCount, r.lagMin) | none => (0, 0)
      let (lag, chg) := h.score s.chip lc lm
      let tag := keyTag h.rk
      let ftid := (s.tenant (keyVf h.rk)).ftid
      let s := chg.foldl (fun s c => if c.1 == s.chip then s.lagNote h.rk c.2 else s.emit (.lagNote c.1 ftid tag c.2)) s
      let s := s.modHarness key fun y => { y with
        lag := lag
        strag := y.strag.map fun g =>
          let e := entryBytes h g.slotsz s.time lag (!chg.isEmpty)
          if decide (g.waiting.length < Config.stragglerWaiting) then { g with waiting := g.waiting ++ [e] }
          else { g with drop := min (g.drop + 1) (2 ^ 32 - 1) } }
      let value := h.value
      let s := s.finishPhase key h h.lost value
      (h.farChips s.chip).foldl (fun s c => s.sendReply h c key (.phase h.phase.toNat h.lost value)) s
/-- An arrival, leave or loss recorded in the current phase (R246, R247, R253). Offsets count from when the first reached the unit (R291). -/
def State.recordArrival (s : State) (key : HKey) (kind : Option HKind) (count : Option Nat) (a : HArrive) (lost : Bool) : State :=
  let s := s.modHarness key fun h =>
    let n := count.getD (if h.counted then h.created else h.phaseMembers)
    let h := if h.arrivals.isEmpty then { h with first := a.time } else h
    let h := match kind, h.kind with
      | some k, none => { h with kind := some k, count := n }
      | _, _ => h
    { h with arrivals := h.arrivals ++ [a], lost := h.lost || lost }
  s.tryComplete key
/-- The chip of a member's module. -/
def State.memberChip (s : State) : Member → Nat
  | .here _ => s.chip
  | .there c _ => c
/-- The lowest index that no member holds (R252). -/
def Harness.freeIndex (h : Harness) : Nat :=
  ((List.range (h.members.length + 1)).find? fun i => !h.members.any fun m => m.idx == i).getD h.members.length
/-- A member joins (R252): at once where a membership-mode harness is Idle, else with the next phase. -/
def State.joinHarness (s : State) (key : HKey) (w : Member) : State :=
  s.modHarness key fun h =>
    let idle := !h.counted && h.members.isEmpty && h.queued == 0 && h.arrivals.isEmpty
    { h with members := h.members ++ [⟨h.freeIndex, w, !idle, false⟩] }
/-- A group of a slice that still counts as Queued on the owner becomes a member of h1 when its module first speaks for it; it is
numbered by its member index (R244). -/
def State.adopt (s : State) (key : HKey) (w : Member) : State := match key, w, s.harness? key with
  | .job _, .there _ n, some h =>
    if h.queued == 0 || h.members.any fun m => m.who == w then s
    else s.modHarness key fun h => { h with queued := h.queued - 1, members := h.members ++ [⟨n, w, false, false⟩] }
  | _, _, _ => s
/-- Whether a later arrival's kind is the phase's (R246); any two collectives have one kind (R373). -/
def sameKind : HKind → HKind → Bool
  | .coll _ _, .coll _ _ => true
  | a, b => a == b
/-- Why an arrival of a member is refused in the phase as it stands (R246, R254), with the detail of its trap. -/
def Harness.judge (h : Harness) (idx : Nat) (kind : HKind) (c : Option Nat) : Option (Nat × Nat) :=
  let open_ := !h.arrivals.isEmpty && h.kind.isSome
  let need := if open_ then h.count else if h.counted then c.getD h.created else h.phaseMembers
  if h.arrived idx then some (214, 0)
  else if open_ && !sameKind kind (h.kind.getD .barrier) then some (219, 0)
  else if (match c with | some v => v == 0 || decide (2 ^ 30 ≤ v) | none => false) then some (220, 0)
  else if (match c with | some v => v != need | none => false) then some (211, need)
  else none
/-- Whether the phase may complete, in the cycle in which a member arrives, by arrivals of lower index (R247). -/
def Harness.mayClose (h : Harness) (idx : Nat) : Bool :=
  decide (h.need ≤ h.arrivals.length + (h.members.filter fun m => decide (m.idx < idx) && !m.joining && !h.arrived m.idx).length) && !h.arrivals.isEmpty
/-- An arrival of a member of this module is refused: it traps precisely (R246), its token or its pending result gone. -/
def State.refuseHere (s : State) (g : GroupRef) (a : HComing) (cause detail : Nat) : State :=
  let s := s.modGroup g.sid g.gi fun y => { y with fixed := y.fixed.filter fun f =>
    !(a.res == 2 && f.sn == a.sn && f.at_ == a.time + 4 && f.wrs.any fun w => w.hits .g a.d) }
  (s.complete g.sid g.gi a.id []).takeTrap ⟨g.sid, g.gi, a.sn⟩ cause 0 detail a.pc a.pc false
/-- A member of a harness held here leaves (R253, R258, R261): one that joins, or is leaving and has ended (`forced`), goes at once; one that has arrived goes with the
phase; and the leave of any other counts as its arrival, which a kill marks as lost. -/
def State.takeLeave (s : State) (key : HKey) (h : Harness) (w : Member) (time : Nat) (lost forced : Bool) : State := match h.members.find? fun m => m.who == w with
  | none => s
  | some m =>
    if m.joining || (m.leaving && forced) then s.modHarness key fun h =>
      { h with members := h.members.filter (fun y => y.who != w), waiters := h.waiters.filter fun q => .here q.g != w }
    else if h.arrived m.idx then s.modHarness key fun h =>
      { h with members := updFirst (fun y => y.who == w) (fun y => { y with leaving := true }) h.members }
    else
      let s := s.modHarness key fun h => { h with members := h.members.filter fun y => y.who != w }
      s.recordArrival key none none ⟨m.idx, none, time, s.memberChip w, true⟩ lost
/-- An arrival that has reached the unit is taken (R246, R247): it is judged in the current phase, and recorded in it or refused. -/
def State.takeArrival (s : State) (key : HKey) (h : Harness) (a : HComing) : State :=
  let refused : Option (Nat × Nat) := match h.members.find? fun m => m.who == a.who && !m.joining with
    | none => some (210, 0)
    | some m => h.judge m.idx a.kind a.count
  match refused, a.who, a.ask with
  | some (c, d), .here _, some id => s.askAnswer id (.refuse id c d)
  | some (c, d), .here g, none => s.refuseHere g a c d
  | some (c, d), .there chip _, id => s.sendReply h chip key (.refuse (id.getD 0) c d)
  | none, .there chip _, id =>
    let s := s.sendReply h chip key (.grant (id.getD 0) a.idx h.phase.toNat false 0)
    let s := match a.kind with
      | .coll cw nb => s.modHarness key fun y => { y with ranks := y.ranks ++ [{ (default : CollRank) with
          idx := a.idx, who := a.who, phase := h.phase.toNat, issued := a.time, w := cw, blocks := nb }] }
      | _ => s
    s.recordArrival key (some a.kind) a.count ⟨a.idx, a.value, a.time, chip, false⟩ false
  | none, .here _, some id =>
    (s.askAnswer id (.grant id a.idx h.phase.toNat false 0)).recordArrival key (some a.kind) a.count ⟨a.idx, a.value, a.time, s.chip, false⟩ false
  | none, .here g, none =>
    let s := if a.res == 2 then s.modGroup g.sid g.gi fun y => { y with fixed := y.fixed.map fun f =>
          if f.sn == a.sn && f.at_ == a.time + 4 then { f with wrs := f.wrs.map fun w => if w.hits .g a.d then .g a.d h.phase else w } else f }
      else s.modHarness key fun y => { y with waiters := y.waiters ++ [⟨g, a.id, h.phase.toNat, a.d, a.res⟩] }
    s.recordArrival key (some a.kind) a.count ⟨a.idx, a.value, a.time, s.chip, false⟩ false
/-- What has reached the unit is taken: an arrival, or a leave. -/
def State.takeOne (s : State) (key : HKey) (a : HComing) : State := match s.harness? key with
  | none => s
  | some h =>
    let s := s.modHarness key fun h => { h with coming := h.coming.erase a }
    match a.gone with
    | some (lost, forced) => s.takeLeave key h a.who a.time lost forced
    | none => s.takeArrival key h a
/-- What reached the unit before a cycle is taken one by one, cycle by cycle, and in ascending member index within one (R247). -/
def State.takeComing (s : State) (key : HKey) (before : Nat) : State := match s.harness? key with
  | none => s
  | some h => (sortBy HComing.time (sortBy HComing.idx (h.coming.filter fun a => decide (a.time < before)))).foldl (fun s a => s.takeOne key a) s
/-- A member of this module of a harness held on another one goes from this module's copy of it; the copy of a created one goes with its last member. -/
def State.dropMember (s : State) (key : HKey) (w : Member) : State :=
  let s := s.modHarness key fun h => { h with members := h.members.filter (fun y => y.who != w), waiters := h.waiters.filter fun q => .here q.g != w }
  match key, s.harness? key with
  | .made _, some h => if h.members.isEmpty && h.ranks.isEmpty then { s with harnesses := s.harnesses.filter fun e => e.1 != key } else s
  | _, _ => s
/-- A member leaves (R253, R258, R261): `lost` marks a kill, and `forced` a kill or a retirement, which takes effect now, after what has reached the unit before; any other leave is taken with
the arrivals of its cycle. The module that holds the harness is told. -/
def State.leaveHarness (s : State) (key : HKey) (w : Member) (time : Nat) (lost forced : Bool) : State := match s.harness? key with
  | none => s
  | some h => match h.members.find? fun m => m.who == w with
    | none => s
    | some m =>
      if h.holder != s.chip then
        let ftid := (s.tenant (keyVf h.rk)).ftid
        (s.emit (.harness h.holder key w (if lost then .loss ftid (keyTag h.rk) else .leave ftid (keyTag h.rk)))).dropMember key w
      else
        let s := s.modHarness key fun h => { h with coming := h.coming ++ [⟨m.idx, w, .barrier, none, none, time, none, 0, 0, 0, 0, 0, some (lost, forced)⟩] }
        if forced then s.takeComing key (s.clock + 1) else s
/-- The leaves of a group that retires or is killed (R258). A join or arrival that it has asked another module for is withdrawn there. -/
def State.leaveAll (s : State) (g : GroupRef) (lost : Bool) : State :=
  let rk := match s.slice? g.sid with | some x => s.sliceRegion x | none => 0
  let ftid := (s.tenant (keyVf rk)).ftid
  let asked := match s.group? g.sid g.gi with
    | some y => y.inflight.filterMap fun (f : Inflight) => match f.body with
      | .ask key chip _ _ => if (match s.harness? key with | some h => h.members.any fun (m : HMember) => m.who == Member.here g | none => false) then none
          else some (key, chip)
      | _ => none
    | none => []
  let s := asked.foldl (fun (s : State) (e : HKey × Nat) =>
    s.emit (.harness e.2 e.1 (.here g) (if lost then .loss ftid (keyTag rk) else .leave ftid (keyTag rk)))) s
  (s.harnesses.map Prod.fst).foldl (fun s k => s.leaveHarness k (.here g) s.clock lost true) s

/-! ### The instructions -/

/-- Whether the members of a harness lie on one core (R176). -/
def State.onOneCore (s : State) (h : Harness) : Bool :=
  h.queued == 0 && h.holder == s.chip && (h.members.filterMap fun m => match m.who with
    | .here g => (s.slice? g.sid).map Slice.core
    | .there _ _ => none).eraseDups.length ≤ 1 && h.members.all fun m => match m.who with | .here _ => true | .there _ _ => false
/-- Whether an arrival of a strand must wait for its earlier accesses, a release at the harness's span (R176); `one` says that the members lie on one core. -/
def X.arriveWait (x : X) (s : State) (one : Bool) : Option Block :=
  if x.loadsOpen s then some .loads
  else if !one && s.storesStay x.x.core (x.t.stay.getD s.nextId) then some .stores
  else none
/-- The request of the cursor's instruction to the unit that holds its harness, if it has sent one (R250). -/
def X.asked (x : X) : Option Inflight :=
  x.g.inflight.find? fun f => f.sn == x.cur.who.sn && f.cpc == x.cur.pc && (match f.body with | .ask .. => true | _ => false)
/-- A pending request forgotten. -/
def X.forget (x : X) (id : Nat) (s : State) : State := s.complete x.cur.who.sid x.cur.who.gi id []
/-- What a request leads to once its pending request is forgotten; a trap forgets it too. -/
def X.answeredBy (x : X) (id : Nat) (r : State → Res) (s : State) : Res := match r (x.forget id s) with
  | .trap cause lane detail => .counted (x.forget id) cause lane detail
  | .counted f cause lane detail => .counted (fun s => f (x.forget id s)) cause lane detail
  | r => r
/-- A request to the module that holds a harness is sent, and the instruction waits before it issues for the answer (R250). An arrival of this module's own harness reaches
its unit so too, where it is one of a pair, since it may be refused there before the pair has issued (R62, R246). -/
def X.sendAsk (x : X) (key : HKey) (v : HVal) (op : HAsk) (s : State) : State :=
  let who := x.cur.who
  let (id, s) := s.fresh
  let s := x.pend id [] (.ask key v.chip none none) s
  let s := match v.chip == s.chip, op with
    | true, .arrive kind count value => s.modHarness key fun (y : Harness) =>
      let idx := match y.member? (.here x.me) with | some m => m.idx | none => 0
      { y with coming := y.coming ++ [(⟨idx, .here x.me, kind, count, value, x.cur.cycle, some id, who.sn, x.cur.pc, 0, 0, 0, none⟩ : HComing)] }
    | _, _ => s.emit (.harness v.chip key (.here x.me) (.ask id v.handle (s.tenant (keyVf x.rk)).ftid (keyTag x.rk) op))
  s.block who (.answer id)
/-- The request of an instruction to the unit that holds its harness (R250). A refusal traps, and
a grant lets the instruction go on, with the member's index, the phase, whether a join took effect at once, the value, and the phase's completion where that
has come already. Under a fork only the checks are asked for, and cause 197 follows where they pass (R394). -/
def X.askHolder (x : X) (key : HKey) (v : HVal) (op : HAsk) (before : State → State)
    (go : Nat → Nat → Bool → W32 → Option (Bool × W32) → State → Res) (s : State) : Res :=
  let send := fun (s : State) => if x.underFork then x.sendAsk key v (.only op) s else x.sendAsk key v op (before s)
  match x.asked with
  | none => .pause send
  | some f => match f.body with
    | .ask _ _ (some (.refuse _ cause detail)) _ => .counted (x.forget f.id) cause 0 detail
    | .ask _ _ (some (.grant _ idx phase now value)) res => x.answeredBy f.id (go idx phase now value res) s
    | .ask _ _ (some (.passed _)) _ => if x.underFork then .counted (x.forget f.id) 197 0 0 else .pause fun s => send (x.forget f.id s)
    | _ => .wait (.answer f.id)
/-- HCREATE's conditions of failure (R251). -/
def X.createFails (x : X) (s : State) (span : Span) : Bool :=
  let made := s.harnesses.filter fun e => match e.1 with | .made _ => e.2.holder == s.chip | _ => false
  let quotaHit := s.regions.any fun r =>
    s.isAncestor r.1 x.rk && decide (r.2.hquota ≤ (made.filter fun e => s.isAncestor r.1 e.2.rk).length)
  let full := match span with
    | .core => decide (Config.coreHarnessUnits ≤ (made.filter fun e => match e.2.unit with | some (.core c _) => c == x.x.core | _ => false).length)
    | .die => decide (Config.dieHarnessUnits ≤ (made.filter fun e => match e.2.unit with | some (.die d _) => d == dieOf x.x.core | _ => false).length)
    | _ => decide (Config.hubHarnessUnits ≤ (made.filter fun e => match e.2.unit with | some (.hub _) => true | _ => false).length)
  decide (Config.harnessIds ≤ made.length) || quotaHit || decide (x.hdr.harn ≤ x.x.created.length) || full ||
    (span == .sys && !(s.tenant (keyVf x.rk)).sys)
/-- The lowest number that a list does not hold. -/
def lowestFree (l : List Nat) : Nat := ((List.range (l.length + 1)).find? fun n => !l.contains n).getD l.length
/-- The unit a new harness takes (R243). -/
def X.unitFor (x : X) (s : State) (span : Span) : HUnit :=
  let used := s.harnesses.filterMap fun e => e.2.unit
  match span with
  | .core => .core x.x.core (lowestFree (used.filterMap fun u => match u with | .core c n => if c == x.x.core then some n else none | _ => none))
  | .die => .die (dieOf x.x.core)
      (lowestFree (used.filterMap fun u => match u with | .die d n => if d == dieOf x.x.core then some n else none | _ => none))
  | _ => .hub (lowestFree (used.filterMap fun u => match u with | .hub n => some n | _ => none))
/-- A harness with no phase open. -/
def Harness.fresh (handle : W32) (holder rk : Nat) (span : Span) (unit : Option HUnit) (counted : Bool) (created : Nat) : Harness :=
  { handle := handle, holder := holder, rk := rk, span := span, unit := unit, counted := counted, created := created, phase := 0,
    kind := none, count := 0, members := [], queued := 0, arrivals := [], coming := [], first := 0, lost := false, past := [], waiters := [],
    strag := none, lag := [], failed := false, ranks := [] }
/-- HCREATE (spec/11 R251; spec/18 R395). -/
def execHcreate (h : Hdr) (cnt : Option Nat) (span : Span) (d gp : Nat) (s : State) : Host.Outcome State Fault Refusal :=
  issue (.hcreate h cnt span d gp) (fun x s =>
    let n := match cnt with | some k => x.gr k | none => 1
    if decide (d < 2) then .trap 216 0 0
    else if n == 0 || decide (2 ^ 30 ≤ n) then .trap 220 0 0
    else if x.createFails s span then .ok (x.result [.h d ⟨0, 0⟩, .gp gp false] [(.h, d), (.gp, gp)] s)
    else
      let made := s.harnesses.filterMap fun e => match e.1 with | .made k => if e.2.holder == s.chip then some (k % 4096) else none | _ => none
      let index := lowestFree made
      let last := Sparse.get 0 s.gens index
      let gen := if last == 255 then 1 else last + 1
      let handle := handleOf (keyTag x.rk) index gen
      let y := Harness.fresh handle s.chip x.rk span (some (x.unitFor s span)) cnt.isSome n
      let y := { y with members := [⟨0, .here x.me, false, false⟩] }
      let key := madeKey s.chip index
      let s : State := { s with harnesses := s.harnesses ++ [(key, y)], gens := Sparse.set s.gens index gen }
      let s := s.modSlice x.cur.who.sid fun z => { z with created := z.created ++ [s.chip * 4096 + index] }
      .ok (x.result [.h d ⟨handle, s.chip⟩, .gp gp true] [(.h, d), (.gp, gp)] s)) s
/-- A harness released, with what it held (R256); a module that lagged on it lags on it no longer (R292, R293). -/
def State.freeHarness (s : State) (key : HKey) : State :=
  let s : State := match s.harness? key with
    | none => s
    | some h => (h.lag.filter LagMod.lagging).foldl (fun (s : State) (m : LagMod) =>
        if m.chip == s.chip then s.lagNote h.rk false
        else s.emit (.lagNote m.chip (s.tenant (keyVf h.rk)).ftid (keyTag h.rk) false)) s
  let n := match key with | .made k => [k] | _ => []
  { s with
    harnesses := s.harnesses.filter fun e => e.1 != key
    slices := s.slices.map fun e => (e.1, { e.2 with created := e.2.created.filter fun k => !n.contains k }) }
/-- A handle register written at issue. -/
def X.setH (x : X) (n : Nat) (v : HVal) (s : State) : State :=
  s.modGroup x.cur.who.sid x.cur.who.gi fun g => applyAll g [.h n v]
/-- HFREE (spec/11 R256; spec/18 R397). -/
def execHfree (h : Hdr) (n : Nat) (s : State) : Host.Outcome State Fault Refusal :=
  let failed := fun (x : X) (s : State) => match s.harness? (x.keyOf (x.view0.hreg n)) with | some y => y.failed | none => false
  issueWith (.hfree h n) (fun x s => handleEarly n (!failed x s) false x s) (fun x s =>
    let v := x.view0.hreg n
    let key := x.keyOf v
    if decide (n < 2) then .trap 216 0 0
    else if v.chip != s.chip then x.askHolder key v .free id (fun _ _ _ _ _ s =>
      .ok (x.setH n ⟨0, 0⟩ { s with harnesses := s.harnesses.filter fun e => e.1 != key })) s
    else match s.harness? key with
      | none => .ok (x.setH n ⟨0, 0⟩ s)
      | some y =>
        let sole := y.members.length == 1 && y.members.all (fun m => m.who == .here x.me && !m.joining)
        if !y.failed && !sole then .trap 215 0 0 else .ok (x.setH n ⟨0, 0⟩ (s.freeHarness key))) s
/-- What a query answers (R256, R399): the phase, the count of the current phase, its arrivals, or the caller's member index. -/
def Harness.query (h : Harness) (sel : Nat) (w : Member) : W32 := match sel with
  | 1 => h.phase
  | 2 => BitVec.ofNat 32 h.need
  | 3 => BitVec.ofNat 32 h.arrivals.length
  | _ => match h.members.find? fun m => m.who == w && !m.joining with
    | some m => BitVec.ofNat 32 m.idx
    | none => 0xFFFFFFFF
/-- The entry that this module keeps of a harness held on another one, made where there is none (R244, R252). -/
def State.keepCopy (s : State) (key : HKey) (v : HVal) (rk phase : Nat) : State := if (s.harness? key).isSome then s
  else { s with harnesses := s.harnesses ++ [(key, { Harness.fresh v.handle v.chip rk .sys none false 0 with phase := BitVec.ofNat 32 phase })] }
/-- That entry as a join finds it: one of another handle, or without a member that hears of its phases, is made anew (R252). -/
def State.joinCopy (s : State) (key : HKey) (v : HVal) (rk phase : Nat) : State :=
  let stale := match s.harness? key with | some y => y.handle != v.handle || y.members.isEmpty | none => false
  (if stale then { s with harnesses := s.harnesses.filter fun e => e.1 != key } else s).keepCopy key v rk phase
/-- That entry's phase moved on to one that the module which holds the harness has named; a completion that has come already stands (R254). -/
def State.forward (s : State) (key : HKey) (phase : Nat) : State := s.modHarness key fun y =>
  if 0 < signedOf 32 (phase + 2 ^ 32 - y.phase.toNat) then { y with phase := BitVec.ofNat 32 phase } else y
/-- HQUERY (spec/11 R256; spec/18 R399). -/
def execHquery (h : Hdr) (q d n : Nat) (s : State) : Host.Outcome State Fault Refusal :=
  let early := fun (x : X) (s : State) =>
    if q == 0 || q == 5 then (if (x.view0.hreg n).handle == 0 then some (209, 0, 0) else none) else handleEarly n false true x s
  issueWith (.hquery h q d n) early (fun x s =>
    let v := x.view0.hreg n
    let out := fun (w : W32) (s : State) => Res.ok (x.result [.g d w] [(.g, d)] s)
    if q == 0 then out v.handle s
    else if decide (5 ≤ q) then out (BitVec.ofNat 32 v.chip) s
    else if v.chip != s.chip then x.askHolder (x.keyOf v) v (.query q) id (fun _ _ _ w _ s => out w s) s
    else match s.harness? (x.keyOf v) with
      | some y => out (y.query q (.here x.me)) s
      | none => out 0xFFFFFFFF s) s
/-- HJOIN (spec/11 R252; spec/18 R398). Its cause 216 is looked for after 217 for the chip field and before the checks of R250 (DESIGN CHOICE, notes/assumptions/22.md). -/
def execHjoin (h : Hdr) (d sr : Nat) (s : State) : Host.Outcome State Fault Refusal :=
  let val := fun (x : X) => (⟨BitVec.ofNat 32 (x.gr sr), x.gr (sr + 1) % 4096⟩ : HVal)
  let early := fun (x : X) (s : State) =>
    let v := val x
    if decide (4096 ≤ x.gr (sr + 1)) then some (217, 0, 0)
    else if decide (d < 2) || (v.handle != 0 && hGen v.handle == 0) then some (216, 0, 0)
    else (x.handleCheck s v false true).map fun c => (c, 0, 0)
  issueWith (.hjoin h d sr) early (fun x s =>
    let v := val x
    let key := x.keyOf v
    let me : Member := .here x.me
    let wait := fun (phase : Nat) (s : State) =>
      let (id, s) := s.fresh
      let s := x.pend id [(.h, d)] .await s
      Res.ok (s.modHarness key fun y => { y with waiters := y.waiters ++ [⟨x.me, id, phase, d, 2⟩] })
    if v.chip != s.chip then x.askHolder key v .join id (fun idx phase now _ res s =>
      let s := (x.setH d v s).joinCopy key v x.rk (if res.isSome then phase + 1 else phase)
      let s := s.modHarness key fun y => { y with members := y.members ++ [⟨idx, me, !now && res.isNone, false⟩] }
      if now || res.isSome then .ok (x.result [] [(.h, d)] s) else wait phase s) s
    else match s.harness? key with
      | none => .trap 208 0 0
      | some y =>
        let inSpan := match y.span, y.unit, key with
          | .core, _, .made k => x.x.created.contains k
          | .die, some (.die di _), _ => di == dieOf x.x.core
          | _, _, _ => true
        if !inSpan then .trap 213 0 0
        else if y.members.any fun m => m.who == me then .trap 217 0 0
        else
          let s := x.setH d v (s.joinHarness key me)
          if ((s.harness? key).bind fun z => z.member? me).isSome then .ok (x.result [] [(.h, d)] s) else wait y.phase.toNat s) s
/-- HLEAVE (spec/11 R253; spec/18 R398). -/
def execHleave (h : Hdr) (n : Nat) (s : State) : Host.Outcome State Fault Refusal :=
  issueWith (.hleave h n) (handleEarly n true true) (fun x s =>
    let v := x.view0.hreg n
    let key := x.keyOf v
    if decide (n < 2) then .trap 216 0 0
    else if v.chip != s.chip then match (if x.underFork || x.asked.isSome then none else x.arriveWait s false) with
      | some b => .wait b
      | none => x.askHolder key v .leave (fun s => s.drainCore x.x.core) (fun _ _ _ _ _ s => .ok (x.setH n ⟨0, 0⟩ (s.dropMember key (.here x.me)))) s
    else match s.harness? key with
      | none => .ok (x.setH n ⟨0, 0⟩ s)
      | some y => match x.arriveWait s (s.onOneCore y) with
        | some b => .wait b
        | none => .ok (x.setH n ⟨0, 0⟩ ((s.drainCore x.x.core).leaveHarness key (.here x.me) x.cur.cycle false false))) s
/-- The kinds a strand waits with: none for HARR, a result word for HBAR, a value and a result word for a vote or reduction. -/
inductive HWaitKind where
  | token | word | value
deriving DecidableEq, Repr, Inhabited
/-- An arrival (R394). `k` is the count it carries, and `value` its contribution. One that its phase cannot take, whatever arrives with it, traps at once; every other one
reaches the unit and is taken with those of its cycle (R247). One that issues in a pair reaches it before the pair issues. -/
def X.arriveEff (x : X) (n d : Nat) (k : Option Nat) (kind : HKind) (value : Option W32) (wk : HWaitKind) (s : State) : Res :=
  let v := x.view0.hreg n
  let key := x.keyOf v
  let who := x.cur.who
  let c := k.map x.gr
  let dst := match wk with | .value => [(Cls.g, d), (Cls.g, d + 1)] | _ => [(Cls.g, d)]
  let res := match wk with | .token => 2 | .value => 1 | .word => 0
  let token := fun (phase : W32) (s : State) => s.addFixed who (x.fixed 4 [[.g d phase]])
  let park := fun (s : State) =>
    let (id, s) := s.fresh
    (id, (x.pend id dst .await s).putWait who (.harness id))
  let ask := fun (s : State) => x.askHolder key v (.arrive kind c value) (fun s => s.drainCore x.x.core) (fun _ phase _ _ done s =>
    match wk, done with
    | .token, _ => .ok (token (BitVec.ofNat 32 phase) s)
    | .word, some (lost, _) => .ok (x.result [.g d (resultWord lost phase)] dst s)
    | .value, some (lost, w) => .ok (x.result [.g d w, .g (d + 1) (resultWord lost phase)] dst s)
    | _, none =>
      let (id, s) := park s
      .ok (s.modHarness key fun y => { y with waiters := y.waiters ++ [⟨x.me, id, phase, d, res⟩] })) s
  if v.chip != s.chip then
    match (if x.underFork || x.asked.isSome then none else x.arriveWait s false) with
    | some b => .wait b
    | none => ask (match x.asked.map Inflight.body with
      | some (.ask _ _ (some (.grant _ _ phase _ _)) none) => (s.keepCopy key v x.rk phase).forward key phase
      | _ => s)
  else if x.asked.isSome then ask s
  else match s.harness? key with
  | none => .trap 210 0 0
  | some y => match y.member? (.here x.me) with
    | none => .trap 210 0 0
    | some m =>
      if y.reached m.idx then .trap 214 0 0
      else match (if y.mayClose m.idx then none else y.judge m.idx kind c) with
        | some (cause, detail) => .trap cause 0 detail
        | none => match x.arriveWait s (s.onOneCore y) with
          | some b => .wait b
          | none =>
            if x.cur.src.isSome then ask s
            else
              let s := s.drainCore x.x.core
              let (id, s) := match wk with
                | .token => (0, token y.phase s)
                | _ => park s
              let a : HComing := ⟨m.idx, .here x.me, kind, c, value, x.cur.cycle, none, who.sn, x.cur.pc, id, d, res, none⟩
              .ok (s.modHarness key fun y => { y with coming := y.coming ++ [a] })
/-- HARR (spec/11 R254; spec/18 R393, R394). -/
def execHarr (h : Hdr) (d n : Nat) (k : Option Nat) (s : State) : Host.Outcome State Fault Refusal :=
  issueWith (.harr h d n k) (handleEarly n true true) (fun x s => x.arriveEff n d k .barrier none .token s) s
/-- HBAR (spec/11 R254; spec/18 R393, R394). -/
def execHbar (h : Hdr) (d n : Nat) (k : Option Nat) (s : State) : Host.Outcome State Fault Refusal :=
  issueWith (.hbar h d n k) (handleEarly n true true) (fun x s => x.arriveEff n d k .barrier none .word s) s
/-- HVOTE (spec/11 R254; spec/18 R393, R394). -/
def execHvote (h : Hdr) (fn : HVoteFn) (d n sr : Nat) (k : Option Nat) (s : State) : Host.Outcome State Fault Refusal :=
  issueWith (.hvote h fn d n sr k) (handleEarly n true true)
    (fun x s => x.arriveEff n d k (.vote fn) (some (BitVec.ofNat 32 (x.gr sr))) .value s) s
/-- HRED (spec/11 R254; spec/18 R393, R394). -/
def execHred (h : Hdr) (op : HRedOp) (ty : HRedTy) (d n sr : Nat) (k : Option Nat) (s : State) : Host.Outcome State Fault Refusal :=
  issueWith (.hred h op ty d n sr k) (handleEarly n true true)
    (fun x s => x.arriveEff n d k (.red op ty) (some (BitVec.ofNat 32 (x.gr sr))) .value s) s
/-- Whether the phase that a token names has completed, is the current one, or comes later, as HWAIT takes it (R401): none where it comes later, and the result word of one that
has completed. -/
def Harness.waitFor (h : Harness) (token : Nat) : Option (Option W32) :=
  let dist := signedOf 32 (h.phase.toNat + 2 ^ 32 - token)
  if dist < 0 then none
  else if dist == 0 then some none
  else some (some (resultWord (decide (dist ≤ 255) && h.past.contains token) token))
/-- HWAIT (spec/11 R254; spec/18 R401). -/
def execHwait (h : Hdr) (d n t : Nat) (s : State) : Host.Outcome State Fault Refusal :=
  issueWith (.hwait h d n t) (handleEarly n true true) (fun x s =>
    let v := x.view0.hreg n
    let key := x.keyOf v
    let out := fun (w : W32) (s : State) => Res.ok (x.result [.g d w] [(.g, d)] s)
    let wait := fun (phase : Nat) (s : State) =>
      let (id, s) := s.fresh
      let s := x.pend id [(.g, d)] .await s
      let s := s.modHarness key fun y => { y with waiters := y.waiters ++ [⟨x.me, id, phase, d, 0⟩] }
      Res.ok (s.putWait x.cur.who (.harness id))
    if v.chip != s.chip then x.askHolder key v (.wait (BitVec.ofNat 32 (x.gr t))) id (fun _ phase now w done s =>
      if now then out w s
      else match done with
        | some (lost, _) => out (resultWord lost phase) s
        | none => wait phase ((s.keepCopy key v x.rk phase).forward key phase)) s
    else match (s.harness? key).filter fun y => (y.member? (.here x.me)).isSome with
      | none => .trap 210 0 0
      | some y => match y.waitFor (x.gr t) with
        | none => .trap 214 0 0
        | some none => wait y.phase.toNat s
        | some (some w) => out w s) s

/-! ### HSTRAG (R289) -/

/-- The check of a straggler record's header and of its buffer record (R289). -/
def stragBad (r : BitVec 128) (h : Nat) : Bool :=
  !recPr r || recElem r != 8 || recStride r != 8 || bitsAt h 0 32 != 0x53524753 || bitsAt h 32 32 != 0 || bitsAt h 193 319 != 0 ||
  bitsAt h 64 16 == 0 || decide (4096 < bitsAt h 64 16) || bitsAt h 80 16 == 0 || decide (1024 < bitsAt h 80 16) ||
  bitsAt h 96 96 != 0 || decide (recWindow r < 64 + bitsAt h 64 16 * bitsAt h 80 16 * 64)
/-- The lines of other modules in which the places of a header lie, each with the first address that lies in it and the sectors that are read (R289). -/
def headerLines (r : BitVec 128) (locs : List (Nat × Loc)) : List (Nat × Nat × Nat × Nat) := locs.foldl (fun l e => match e.2 with
  | .peer chip pva =>
    let m := (sectorsOf (pva / 128) pva 8).toNat
    if l.any fun q => q.1 == chip && q.2.1 == pva / 128 then l.map fun q => if q.1 == chip && q.2.1 == pva / 128 then (q.1, q.2.1, q.2.2.1, q.2.2.2 ||| m) else q
    else l ++ [(chip, pva / 128, recAddr r (8 * e.1), m)]
  | _ => l) []
/-- The 64 bytes of a header whose lines of other modules are at hand, with the failed granules of this one that it meets. -/
def X.headerBytes (x : X) (locs : List (Nat × Loc)) (lines : List PeerLine) (s : State) : List Byte × List Nat × State :=
  (sortBy Prod.fst locs).foldl (fun (q : List Byte × List Nat × State) e => match e.2 with
    | .peer chip va => (q.1 ++ (List.range 8).map fun i => (peerByte lines chip (va + i)).1, q.2)
    | l =>
      let (b, f, s) := q.2.2.readLoc x.cur.who.sid x.cur.who.gi x.x.core [] l 8
      (q.1 ++ b, q.2.1 ++ f, s)) ([], [], s)
/-- The read of the header that R289 gives, and its checks: the lines that other modules hold are asked for together, and the strand waits before the instruction for them. `bind`
has the record bound, given its slots and their size and what the read counts. -/
def X.stragHeader (x : X) (r : BitVec 128) (bind : Nat → Nat → (State → State) → State → Res) (s : State) : Res :=
  let who := x.cur.who
  let asked := x.g.inflight.filter fun f => f.sn == who.sn && f.cpc == x.cur.pc && (match f.body with | .scload 16 .. => true | _ => false)
  let drop := fun (s : State) => asked.foldl (fun s f => x.forget f.id s) s
  let has := fun (chip line : Nat) (f : Inflight) => match f.body with | .scload _ _ (some (.peer c a)) .. => c == chip && a / 128 == line | _ => false
  if r == 0 then .trap 133 0 0
  else if !recPw r || !recPr r || recElem r != 8 || recStride r != 8 || decide (recWindow r < 64) then .trap 218 0 0
  else if s.storesStay x.x.core (x.t.stay.getD s.nextId) then .wait .stores
  else
    let s := s.drainCore x.x.core
    match translateAll s (keyVf x.rk) .load ((List.range 8).map fun i => (i, recAddr r (8 * i))) with
    | .error (.trap c _ d) => .counted drop c 0 d
    | .error e => e
    | .ok locs =>
      let strict := x.strict s (recStrict r)
      let need := (headerLines r locs).filter fun n => !asked.any (has n.1 n.2.1)
      let failed := firstSome (fun (f : Inflight) => match f.body with | .scload _ va _ _ _ (some c) => some (c, va / 128 * 128) | _ => none) asked
      let open_ := asked.find? fun f => match f.body with | .scload _ _ _ _ b e => b.isNone && e.isNone | _ => false
      if !need.isEmpty then .pause fun s =>
        let first := s.nextId
        (need.foldl (fun (s : State) n =>
          let (id, s) := s.fresh
          let s := x.pend id [] (.scload 16 n.2.2.1 (some (.peer n.1 (n.2.1 * 128))) strict none none) s
          (s.sendRemote (.scload who id) x.rk n.1 (n.2.1 * 128) 128 (.load n.2.2.2)).2) s).block who (.answer first)
      else match open_, failed with
        | some f, _ => .wait (.answer f.id)
        | none, some (c, va) => .counted drop c 0 va
        | none, none =>
          let lines := asked.filterMap fun f => match f.body with
            | .scload _ _ (some (.peer c a)) _ (some bs) _ => some (⟨c, a / 128, bs, []⟩ : PeerLine)
            | _ => none
          let (bs, bad, s) := x.headerBytes locs lines s
          let count := fun (s : State) => drop (s.countUncor x.rk bad.eraseDups.length)
          if !bad.isEmpty && strict then .counted count 132 0 (recAddr r 0 / 128 * 128)
          else
            let n := ofBytes (if bad.isEmpty then bs else [])
            if stragBad r n then .counted count 218 0 0 else bind (bitsAt n 64 16) (bitsAt n 80 16) count s
/-- HSTRAG (spec/11 R256; spec/13 R289; spec/18 R400). Where another module holds the harness, it makes its checks before the header is read and binds the record after. -/
def execHstrag (h : Hdr) (n b : Nat) (s : State) : Host.Outcome State Fault Refusal :=
  issueWith (.hstrag h n b) (handleEarly n true true) (fun x s =>
    let v := x.view0.hreg n
    let key := x.keyOf v
    let r := x.view0.breg b
    if v.chip != s.chip then match x.asked with
      | none => .pause (x.sendAsk key v (.only .check))
      | some f => match f.body with
        | .ask _ _ (some (.refuse _ cause detail)) _ => .counted (x.forget f.id) cause 0 detail
        | .ask _ _ (some (.grant ..)) _ => .ok (x.forget f.id s)
        | .ask _ _ (some (.passed _)) _ =>
          if x.underFork then .counted (x.forget f.id) 197 0 0
          else match x.stragHeader r (fun slots size count _ => .pause fun s => x.sendAsk key v (.strag r slots size) (x.forget f.id (count s))) s with
            | .trap c l d => .counted (x.forget f.id) c l d
            | .counted g c l d => .counted (fun s => x.forget f.id (g s)) c l d
            | e => e
        | _ => .wait (.answer f.id)
    else match s.harness? key with
      | none => .trap 210 0 0
      | some y =>
        let first := match y.member? (.here x.me) with | some m => m.idx == 0 | none => false
        if r == 0 then .trap 133 0 0
        else if !recPw r || !first || y.phase != 0 || y.strag.isSome then .trap 218 0 0
        else x.stragHeader r (fun slots size count s =>
          .ok ((count s).modHarness key fun y => { y with strag := some ⟨r, x.rk, slots, size, [], 0, 0⟩ })) s) s

end Sys2Proof.Machine
end

