-- ==== Sys2Proof/Machine/Coll.lean ====
section
/-!
DEFINITION. Exact collectives (spec/16 R341, R342; spec/17 R372 to R375): COLL, reading a rank's blocks, the sum over the ranks, and
the completion and the timeout of a rank.
-/

namespace Sys2Proof.Machine

/-! ### Blocks (R113, R341) -/

/-- A block: its exponent and its 32 mantissas as w-bit patterns. -/
abbrev Block32 := Nat × List Nat
/-- A block that counts as zero (R373). -/
def zeroBlock : Block32 := (0, List.replicate 32 0)
/-- The block of its 4w mantissa bytes and its exponent byte (R113). -/
def blockOf (w : Nat) (m : List Byte) (e : Byte) : Block32 :=
  let n := ofBytes m
  (e.toNat, (List.range 32).map fun i => bitsAt n (w * i) w)
/-- m · 2^−sh rounded to the nearest integer, ties to even (R341). -/
def requantise (m : Int) (sh : Nat) : Int :=
  let n := roundInt .rne false m.natAbs (-(sh : Int))
  if m < 0 then -(n : Int) else n
/-- The reduction of one block index over the ranks (R341): 32 result words, whether the agreed exponent was 255, and whether a
result overflowed. -/
def reduceBlock (w : Nat) (l : List Block32) : List W32 × Bool × Bool :=
  let top := l.foldl (fun m b => max m b.1) 0
  if top == 255 then (List.replicate 32 0x7FC00000#32, true, false)
  else
    let outs := (List.range 32).map fun i =>
      let sum := l.foldl (fun (a : Int) b => a + requantise (signedOf w (b.2.getD i 0)) (top - b.1)) 0
      packNum .f32 .rne false false (decide (sum < 0)) sum.natAbs ((top : Int) - 127)
    (outs.map fun o => BitVec.ofNat 32 o.bits, false, outs.any fun o => o.bits % 2 ^ 31 == 0x7F800000)
/-- The status word of a COLL (R374). -/
def collStatus (bad : Nat) (nan ovf fail : Bool) : Nat :=
  2 ^ 31 + (if bad == 0 then 0 else 2 ^ 30) + (if nan then 2 ^ 29 else 0) + (if ovf then 2 ^ 28 else 0) + (if fail then 2 ^ 27 else 0) +
    min bad (2 ^ 24 - 1)
/-- The cause with which an access of a collective fails on a fault kind (R342). -/
def collCause (kind : Nat) : Nat := if kind == 3 then 307 else if kind == 13 then 311 else 308

/-! ### Reading and writing through the records (R372, R373) -/

/-- What reading a run of a record gave: a cause, the bytes, whether some lay out of bounds, and the failed granules. -/
structure CollRead where
  cause : Option Nat
  bytes : List Byte
  out : Bool
  bad : List Nat
deriving DecidableEq, Repr, Inhabited

/-- One byte of a rank's source record, which the collective engine reads at its home point (R161, R169); a line of another module is at hand, or was refused (R340). -/
def State.collByte (s : State) (rk : Nat) (r : CollRank) (off : Nat) (a : CollRead) : CollRead × State :=
  let fails := fun (c : Nat) => ({ a with bytes := a.bytes ++ [0#8], cause := if a.cause.isNone then some c else a.cause }, s)
  if decide (recWindow r.src ≤ off) then
    ({ a with bytes := a.bytes ++ [0#8], out := true, cause := if a.cause.isNone && r.strict then some 309 else a.cause }, s)
  else match s.translate (keyVf rk) .load (recAddr r.src off) with
    | .absent _ => fails 308
    | .bad k => fails (collCause k)
    | .ok (.peer chip va) =>
      if r.lost.contains (chip, va / 128) then fails 308
      else
        let (b, f) := peerByte r.got chip va
        ({ a with bytes := a.bytes ++ [b], bad := (a.bad ++ f.toList).eraseDups }, s)
    | .ok l =>
      let (bs, bad, s) := s.readHome rk l 1
      ({ a with bytes := a.bytes ++ bs, bad := (a.bad ++ bad).eraseDups }, s)
/-- Consecutive bytes of a source record. -/
def State.collBytes (s : State) (rk : Nat) (r : CollRank) (off n : Nat) : CollRead × State :=
  (List.range n).foldl (fun a i => a.2.collByte rk r (off + i) a.1) (⟨none, [], false, []⟩, s)
/-- The lines of other modules that a rank's source needs and that are neither here nor refused. -/
def State.collNeeds (s : State) (rk : Nat) (r : CollRank) : List (Nat × Nat × List LaneAcc) :=
  (peerParts (fun _ va => va / 128) (((List.range (4 * r.w * r.blocks)).map (fun i => r.moff + i) ++ (List.range r.blocks).map fun i => r.eoff + i).filterMap fun off =>
    if decide (recWindow r.src ≤ off) then none
    else match s.translate (keyVf rk) .load (recAddr r.src off) with
      | .ok (.peer chip va) => some ⟨0, va, some (.peer chip va), 0, 0, none⟩
      | _ => none)).filter fun n => !peerHas r.got n.1 n.2.1 && !r.lost.contains (n.1, n.2.1)
/-- What a rank contributes: a cause with which it fails, its blocks, and how many of them count as zero. -/
structure CollPart where
  cause : Option Nat
  blocks : List Block32
  zero : Nat
deriving DecidableEq, Repr, Inhabited

/-- The blocks of a rank of this module read (R373): a block that meets a failed granule counts as zero, and so does every block of
a rank that fails. -/
def State.collSource (s : State) (r : CollRank) (rk : Nat) : CollPart × State :=
  let one := fun (a : CollPart × State) (b : Nat) =>
    let (m, s) := a.2.collBytes rk r (r.moff + 4 * r.w * b) (4 * r.w)
    let (e, s) := s.collBytes rk r (r.eoff + b) 1
    let bad := (m.bad ++ e.bad).eraseDups
    let s := s.countUncor rk bad.length
    let s := s.countOob rk (if m.out || e.out then 1 else 0)
    let cause := match a.1.cause, m.cause, e.cause with
      | some c, _, _ => some c
      | none, some c, _ => some c
      | none, none, some c => some c
      | none, none, none => if r.strict && !bad.isEmpty then some 310 else none
    let blk := if bad.isEmpty then blockOf r.w m.bytes (e.bytes.headD 0) else zeroBlock
    ((⟨cause, a.1.blocks ++ [blk], a.1.zero + (if bad.isEmpty then 0 else 1)⟩ : CollPart), s)
  let (p, s) := (List.range r.blocks).foldl one (⟨none, [], 0⟩, s)
  if p.cause.isSome && p.cause != some 310 then
    ({ p with blocks := List.replicate r.blocks zeroBlock, zero := r.blocks }, s)
  else (p, s)
/-- The bytes of a destination with their places: a cause, and the writes that lie in bounds. -/
def State.collPlaces (s : State) (rk : Nat) (strict : Bool) (r : BitVec 128) (doff : Nat) (bs : List Byte) :
    Except Nat (List (Loc × Byte) × Nat) :=
  (bs.zip (List.range bs.length)).foldl (fun (a : Except Nat (List (Loc × Byte) × Nat)) e => match a with
    | .error c => .error c
    | .ok (l, out) =>
      if decide (recWindow r ≤ doff + e.2) then (if strict then .error 309 else .ok (l, out + 1))
      else match s.translate (keyVf rk) .store (recAddr r (doff + e.2)) with
        | .absent _ => .error 308
        | .bad k => .error (collCause k)
        | .ok p => .ok (l ++ [(p, e.1)], out)) (.ok ([], 0))
/-- Bytes joined into runs of consecutive places of main memory. -/
def memRuns (l : List (Nat × Byte)) : List (Nat × List Byte) :=
  ((sortBy Prod.fst l).foldl (fun (a : List (Nat × List Byte)) e => match a with
    | (p, bs) :: rest => if p + bs.length == e.1 then (p, bs ++ [e.2]) :: rest else (e.1, [e.2]) :: (p, bs) :: rest
    | [] => [(e.1, [e.2])]) []).reverse
/-- The results of a rank written to its destination (R373). Bytes for another module go out by lines (R144, R340). -/
def State.collWrite (s : State) (key : HKey) (id core rk : Nat) (l : List (Loc × Byte)) : State :=
  let mem := l.filterMap fun e => match e.1 with | .mem p => some (p, e.2) | _ => none
  let s := (memRuns mem).foldl (fun (s : State) r =>
    let s := (s.drainCore core).arriveHome core (.mem r.1)
    let (s, bad) := s.writePa r.1 r.2
    (s.countUncor rk bad.length).cacheTouch rk r.1 r.2.length true) s
  let s := l.foldl (fun s e => match e.1 with
    | .host vf va => s.pokeHost vf va [e.2]
    | _ => s) s
  let out := l.filterMap fun e => match e.1 with | .peer chip va => some (chip, va, e.2) | _ => none
  let lines := (out.map fun o => (o.1, o.2.1 / 128)).eraseDups
  lines.foldl (fun s n => (s.sendRemote (.collStore key id) rk n.1 (n.2 * 128) 128
    (.store ((out.filter fun o => o.1 == n.1 && o.2.1 / 128 == n.2).map fun o => (o.2.1 % 128, [o.2.2])))).2) s

/-! ### COLL (R373) -/

/-- A COLL that fails: its status is written, and its cause is owed at the first read of the status register (R342, R373). -/
def State.collFail (s : State) (who : StrandRef) (rk id pc d cause status : Nat) (h : Harness) : State :=
  let wrs := [RegWr.g (d + 1) (BitVec.ofNat 32 status)]
  let s := s.deliver ⟨who.sid, who.gi⟩ id wrs (logBytes h 0 (BitVec.ofNat 32 status))
  s.oweStatus who rk id cause pc d status [(.g, d + 1)] false
/-- The ranges of a COLL's arrays: mantissas and exponents of the source, and the destination (R373). -/
def collOverlap (w blocks moff eoff doff : Nat) (dst src : BitVec 128) : Bool :=
  let rng := fun (r : BitVec 128) (off n : Nat) => sideRanges 0 (.buf r) [((off : Int), n)]
  anyMeet (rng src moff (4 * w * blocks) ++ rng src eoff blocks) (rng dst doff (128 * blocks))
/-- The failure of a COLL before its arrival, in the order of R373. One across modules of a tenant that SYS does not allow it (R337) fails with cause 305 (DESIGN CHOICE,
notes/assumptions/21.md). The members of a harness held elsewhere are counted there. -/
def X.collBefore (x : X) (s : State) (h : Option Harness) (w nb moff eoff doff : Nat) (dst src : BitVec 128) : Option Nat :=
  let member := match h with | some y => !y.counted && (y.member? (.here x.me)).isSome | none => false
  let count := match h with | some y => y.phaseMembers | none => 0
  let across := match h with | some y => y.holder != s.chip || !(y.farChips s.chip).isEmpty | none => false
  if !member || decide (4096 < count) || (across && !(s.tenant (keyVf x.rk)).sys) then some 305
  else if decide (w < 2) || decide (8 < w) then some 306
  else if nb == 0 || decide (65536 < nb) || moff % 4 != 0 || doff % 4 != 0 || collOverlap w nb moff eoff doff dst src then some 304
  else if src == 0 || dst == 0 || !recPr src || !recPw dst then some 307
  else none
/-- COLL (spec/17 R372 to R375). -/
def execColl (h : Hdr) (w d bDst bSrc l hH : Nat) (s : State) : Host.Outcome State Fault Refusal :=
  let i : Instr := .coll h w d bDst bSrc l hH
  issue i (fun x s =>
    let v := x.view0.hreg hH
    let key := x.keyOf v
    let y := s.harness? key
    let who := x.cur.who
    let nb := x.gr l
    let moff := x.gr (l + 1)
    let eoff := x.gr (l + 2)
    let doff := x.gr (l + 3)
    let dst := x.view0.breg bDst
    let src := x.view0.breg bSrc
    let strict := x.strict s (recStrict src)
    let kind : HKind := .coll w nb
    let hd := y.getD (Harness.fresh v.handle v.chip x.rk .sys none false 0)
    let idx := (y.bind fun z => z.member? (.here x.me)).map HMember.idx
    let before := x.collBefore s y w nb moff eoff doff dst src
    let other := match y with
      | some z => !z.arrivals.isEmpty && (match z.kind with | some k => !sameKind kind k | none => false)
      | none => false
    let again := match y, idx with | some z, some n => z.reached n | _, _ => false
    match x.handleCheck s v false true with
    | some c => .trap c 0 0
    | none =>
      if before.isNone && again then .trap 214 0 0
      else if before.isNone && other then .trap 219 0 0
      else if x.holds then
        let (id, s) := s.fresh
        x.hold i h id [] strict (x.pend id [(.g, d), (.g, d + 1)] .await s)
      else
        let present := fun (before : Option Nat) (phase : W32) (s : State) =>
          let (id, s) := x.takeId s
          let fail := collStatus 0 false false true
          let body : Body := match before with
            | some _ => .timed (x.cur.cycle + Config.shortResult) [.g (d + 1) (BitVec.ofNat 32 fail)]
            | none => .await
          let s := match x.cur.held with
            | some _ => s.modGroup who.sid who.gi fun g =>
              let g := RegWr.apply g (.g d phase)
              { g with inflight := updFirst (fun f => f.id == id) (fun f => { f with dst := [(.g, d + 1)], body := body }) g.inflight }
            | none => (x.pend id [(.g, d + 1)] body s).addFixed who (x.fixed 4 [[.g d phase]])
          match before with
          | some c => .ok (s.oweStatus who x.rk id c x.cur.pc d fail [(.g, d + 1)] false)
          | none =>
            let rank : CollRank := { idx := idx.getD 0, who := .here x.me, phase := phase.toNat, ready := false, sn := who.sn, id := id,
                                     pc := x.cur.pc, d := d, w := w, blocks := nb, dst := dst, src := src, moff := moff, eoff := eoff,
                                     doff := doff, strict := strict, dstrict := x.strict s (recStrict dst), issued := (match x.cur.held with | some e => e.issued | none => x.cur.cycle), cause := none,
                                     data := [], zero := 0, got := [], lost := [], sent := false, ending := none }
            let s := s.modHarness key fun z => { z with ranks := z.ranks ++ [rank] }
            if v.chip != s.chip then
              .ok (if x.cur.held.isNone then s
                else s.emit (.harness v.chip key (.here x.me) (.ask id v.handle (s.tenant (keyVf x.rk)).ftid (keyTag x.rk) (.arrive kind none none))))
            else .ok (s.recordArrival key (some kind) none ⟨rank.idx, none, s.clock, s.chip, false⟩ false)
        if v.chip != s.chip && x.cur.held.isNone then match x.asked with
          | none => .pause (x.sendAsk key v (if before.isSome then .only (.query 1) else .arrive kind none none))
          | some f => match f.body with
            | .ask _ _ (some (.refuse _ cause detail)) _ =>
              if cause == 305 || cause == 210 then present (some 305) hd.phase (x.forget f.id s) else .counted (x.forget f.id) cause 0 detail
            | .ask _ _ (some (.grant _ _ phase _ _)) _ => present none (BitVec.ofNat 32 phase) ((x.forget f.id s).forward key phase)
            | .ask _ _ (some (.passed _)) _ => present before hd.phase (x.forget f.id s)
            | _ => .wait (.answer f.id)
        else
          let s := if before.isNone then s.takeComing key (s.clock + 1) else s
          present before (match s.harness? key with | some z => z.phase | none => hd.phase) s) s

/-! ### Completion (R341, R373) -/

/-- The group, core and region of a rank of this module. -/
def State.rankPlace (s : State) (r : CollRank) : Option (StrandRef × Nat × Nat) := match r.who with
  | .there _ _ => none
  | .here g => match s.slice? g.sid with
    | none => none
    | some x => some (⟨g.sid, g.gi, r.sn⟩, x.core, s.sliceRegion x)
/-- A rank of this module ends: its status is written. -/
def State.rankStatus (s : State) (h : Harness) (r : CollRank) (st : W32) : State := match s.rankPlace r with
  | none => s
  | some (who, _, _) => s.deliver ⟨who.sid, who.gi⟩ r.id [.g (r.d + 1) st] (logBytes h (resultWord false r.phase) st)
/-- The result of a rank of this module: its destination is written, and its status, or it fails; out-of-bounds lines are counted in both modes (R314). A status waits for
what the destination's writes to other modules. -/
def State.rankEnd (s : State) (key : HKey) (h : Harness) (r : CollRank) (cause : Option Nat) (bad : Nat) (nan ovf : Bool) (res : List W32) : State :=
  match s.rankPlace r with
  | none => s
  | some (who, core, rk) =>
    let places := match cause with
      | some c => Except.error c
      | none => s.collPlaces rk r.dstrict r.dst r.doff (res.flatMap fun (v : W32) => bytesOf 4 v.toNat)
    match places with
    | .error c =>
      let out := ((List.range (4 * res.length)).filter fun i => decide (recWindow r.dst ≤ r.doff + i)).length
      (s.countOob rk (if cause.isNone && c == 309 then (out + 127) / 128 else 0)).collFail who rk r.id r.pc r.d c (collStatus bad nan ovf true) h
    | .ok (l, out) =>
      let s := (s.collWrite key r.id core rk l).countOob rk ((out + 127) / 128)
      let st := BitVec.ofNat 32 (collStatus bad nan ovf false)
      if l.any fun e => e.1.isPeer then
        s.modHarness key fun h => { h with ranks := h.ranks ++ [{ r with ready := false, cause := none, ending := some st }] }
      else s.rankStatus h r st
/-- The last write of a rank to another module answered (R340): its status is written, or it fails with FAIL set in that status (R374). -/
def State.collStored (s : State) (key : HKey) (id : Nat) (ok : Bool) : State := match s.harness? key with
  | none => s
  | some h => match h.ranks.find? fun r => r.id == id && r.ending.isSome with
    | none => s
    | some r =>
      let r := if ok then r else { r with cause := some 308 }
      if s.remotes.any fun q => q.owner == .collStore key id then
        s.modHarness key fun h => { h with ranks := updFirst (fun y => y.id == id) (fun _ => r) h.ranks }
      else
        let s := s.modHarness key fun h => { h with ranks := h.ranks.filter fun y => y.id != id }
        match r.cause, s.rankPlace r with
        | some c, some (who, _, rk) => s.collFail who rk r.id r.pc r.d c (((r.ending.getD 0) ||| 0x08000000#32).toNat) h
        | _, _ => s.rankStatus h r (r.ending.getD 0)
/-- What the ranks of this module in a phase still need of other modules' memory, asked for; none where they have it all. -/
def State.collGather (s : State) (key : HKey) (l : List CollRank) : Option State := firstSome (fun (r : CollRank) => match s.rankPlace r with
  | none => none
  | some (_, _, rk) =>
    if s.remotes.any fun q => q.owner == .collLoad key r.id then some s
    else match s.collNeeds rk r with
      | [] => none
      | need => some (need.foldl (fun s n =>
          let sectors := n.2.2.foldl (fun m a => m ||| (sectorsOf n.2.1 a.va 1).toNat) 0
          (s.sendRemote (.collLoad key r.id) rk n.1 (n.2.1 * 128) 128 (.load sectors)).2) s)) l
/-- The blocks of a rank of this module go to the module that holds the harness (R341). -/
def State.collSend (s : State) (key : HKey) (h : Harness) : State := match h.ranks.find? fun r => !r.sent && r.ending.isNone with
  | none => s
  | some r => match s.collGather key [r] with
    | some s => s
    | none => match s.rankPlace r with
      | none => s.modHarness key fun h => { h with ranks := updFirst (fun y => y.id == r.id) (fun y => { y with sent := true }) h.ranks }
      | some (_, _, rk) =>
        let (p, s) := s.collSource r rk
        let s := s.modHarness key fun z => { z with
          ranks := updFirst (fun y => y.id == r.id) (fun y => { y with sent := true, cause := if y.cause.isSome then y.cause else p.cause }) z.ranks }
        s.emit (.harness h.holder key r.who (.blocks (s.tenant (keyVf h.rk)).ftid (keyTag h.rk) r.w p.zero p.blocks))
/-- Whether stores that must still wait in the merge buffer of a rank's core write bytes of its destination: the results come behind them (R164). -/
def State.destAhead (s : State) (r : CollRank) : Bool := match s.rankPlace r with
  | none => false
  | some (who, core, rk) => match s.collPlaces rk false r.dst r.doff (List.replicate (128 * r.blocks) 0#8) with
    | .ok (l, _) => l.any fun e => s.storeAhead who.sid core e.1 1
    | .error _ => false
/-- COLLECTIVE_COMPLETE for the oldest phase of a harness held here that has completed and whose ranks' blocks are all here (R341,
R373, R374). A rank that timed out, or that has failed with cause 311, receives nothing. Of a harness held elsewhere the ranks of this module send their blocks. -/
def State.collComplete (s : State) (key : HKey) : State := match s.harness? key with
  | none => s
  | some h => if h.holder != s.chip then s.collSend key h else match h.ranks.find? fun r => r.ready with
    | none => s
    | some first =>
      let mine := sortBy CollRank.idx (h.ranks.filter fun r => r.phase == first.phase && r.ending.isNone)
      let away := fun (r : CollRank) => match r.who with | .there _ _ => true | .here _ => false
      if mine.any fun r => away r && r.data.isEmpty && r.cause.isNone then s
      else match s.collGather key (mine.filter fun r => !away r) with
      | some s => s
      | none =>
        let s := mine.foldl (fun s r => match s.rankPlace r with | some (_, core, _) => s.drainCore core | none => s) s
        if mine.any fun r => r.cause.isNone && s.destAhead r then s
        else
        let s := s.modHarness key fun h => { h with ranks := h.ranks.filter fun r => r.phase != first.phase || r.ending.isSome }
        let (parts, s) := mine.foldl (fun (a : List (CollRank × CollPart) × State) r =>
          if away r then (a.1 ++ [(r, (⟨r.cause, r.data, r.zero⟩ : CollPart))], a.2)
          else match a.2.rankPlace r with
            | none => (a.1 ++ [(r, (⟨r.cause, List.replicate r.blocks zeroBlock, r.blocks⟩ : CollPart))], a.2)
            | some (_, _, rk) =>
              let (p, s) := a.2.collSource r rk
              (a.1 ++ [(r, { p with cause := if r.cause.isSome then r.cause else p.cause })], s)) ([], s)
        let mixed := mine.any fun r => r.w != first.w || r.blocks != first.blocks
        let bad := parts.foldl (fun n p => n + p.2.zero) 0
        let outs := if mixed then [] else (List.range first.blocks).map fun b =>
          reduceBlock first.w (parts.map fun p => p.2.blocks.getD b zeroBlock)
        let nan := outs.any fun o => o.2.1
        let ovf := outs.any fun o => o.2.2
        let res := outs.map fun o => o.1
        let news : HReply := if mixed then .collective first.phase (some 313) (BitVec.ofNat 32 (collStatus 0 false false true)) []
          else .collective first.phase none (BitVec.ofNat 32 (collStatus bad nan ovf false)) res
        let chips := (mine.filterMap fun r => match r.who with | .there c _ => if r.cause.isNone then some c else none | .here _ => none).eraseDups
        let s := chips.foldl (fun s c => s.sendReply h c key news) s
        parts.foldl (fun s p =>
          if p.1.cause == some 312 || p.1.cause == some 311 then s
          else match p.1.who with
            | .here _ => s.rankEnd key h p.1 (if p.2.cause.isSome then p.2.cause else if mixed then some 313 else none)
                (if mixed then 0 else bad) nan ovf (res.flatMap id)
            | .there _ _ => s) s
/-- Cycles of a tenant's TMO, which counts microseconds (R337). -/
def tmoCycles (tmo : Nat) : Nat := tmo * 1400
/-- COLLECTIVE_TIMEOUT (R342, R373): a rank of this module whose phase has not completed within its tenant's TMO fails with cause
312; its arrival and its blocks stand. -/
def State.collTimeout (s : State) (key : HKey) (g : GroupRef) : State := match s.harness? key with
  | none => s
  | some h => match h.ranks.find? fun r => r.who == .here g && !r.ready && r.cause.isNone && r.ending.isNone with
    | none => s
    | some r => match s.rankPlace r with
      | none => s
      | some (who, _, rk) =>
        if decide (s.clock - r.issued < tmoCycles (s.tenant (keyVf rk)).tmo) then s
        else
          let s := s.modHarness key fun h => { h with ranks := updFirst (fun y => y.id == r.id) (fun y => { y with cause := some 312 }) h.ranks }
          s.collFail who rk r.id r.pc r.d 312 (collStatus 0 false false true) h

end Sys2Proof.Machine
end

