-- ==== Sys2Proof/Machine/Control.lean ====
section
/-!
DEFINITION. Control, fork and join (spec/03 R47, R48, R57; spec/05 R91 to R102; spec/17 R356, R367, R370, R371, R379, R387; spec/18
R411, R412; spec/19 R428, R437, R438).
-/

namespace Sys2Proof.Machine

/-- The address of slot 0 of a program counter's line (R47). -/
def lineOf (pc : Nat) : Nat := pc / 64 * 64
/-- A target in IMM (R57). -/
def targetOf (pc : Nat) (t : Target) : Nat := ((lineOf pc : Int) + 64 * t.line).toNat % 2 ^ 57 / 64 * 64 + t.slot
/-- The address of a job's code section (R77). -/
def codeBase (code : Nat) : Nat := code + 0x10000
/-- The strand goes on at `pc` and its run ends (R64). -/
def X.goTo (x : X) (pc : Nat) (e : Entry) (s : State) : State :=
  (s.endRun x.cur.who).modStrand x.cur.who fun t => { t with c := { t.c with pc := pc }, entry := e }

/-- BRA (spec/17 R367). -/
def execBra (h : Hdr) (t : Target) (s : State) : Host.Outcome State Fault Refusal :=
  issue (.bra h t) (fun x s => .ok (x.goTo (targetOf x.cur.pc t) .transfer s)) s
/-- JMPX (spec/18 R411). -/
def execJmpx (h : Hdr) (a : Nat) (s : State) : Host.Outcome State Fault Refusal :=
  issue (.jmpx h a) (fun x s =>
    let t := x.gr a
    if bitsAt t 3 3 != 0 then .trap 19 0 0
    else if decide (4 < bitsAt t 0 3) then .trap 17 0 0
    else if decide (x.hdr.codeSize ≤ bitsAt t 6 26 * 64) then .trap 18 0 0
    else .ok (x.goTo (codeBase x.code + bitsAt t 6 26 * 64 + bitsAt t 0 3) .transfer s)) s
/-- The link of a CALL (R370). -/
def linkBytes (osp rpc : Nat) : List Byte := bytesOf 8 (rpc % 2 ^ 57) ++ bytesOf 4 osp ++ bytesOf 4 0x4B4E494C
/-- CALL (spec/17 R370, R371). -/
def execCall (h : Hdr) (n : Nat) (t : Target) (s : State) : Host.Outcome State Fault Refusal :=
  issue (.call h n t) (fun x s =>
    let sp := x.t.c.sp
    if decide (sp < x.t.c.sl + 16 + 16 * n) then .trap 155 0 (patternOf 64 ((sp : Int) - 16 - 16 * n))
    else
      let nsp := sp - 16 - 16 * n
      let cells := x.smask.lanes.map fun l => (l, nsp, linkBytes sp x.cur.nextPc)
      let (_, bad) := x.g.writeStack x.width cells
      if x.aboveBase (nsp + 16) then .trap 192 0 0
      else if s.strictRegion x.rk && !bad.isEmpty then .counted (fun s => s.countUncor x.rk bad.length) 148
        ((x.smask.lanes.find? fun l => bad.any fun f => (List.range 16).any fun i => stackGranule x.width l (nsp + i) == f).getD 0) nsp
      else
        let s := s.modGroup x.cur.who.sid x.cur.who.gi fun g => (g.writeStack x.width cells).1
        let s := s.countUncor x.rk bad.length
        let s := s.modStrand x.cur.who fun t => { t with c := { t.c with sp := nsp } }
        .ok (x.goTo (targetOf x.cur.pc t) .transfer s)) s
/-- RET (spec/19 R437, R438). -/
def execRet (h : Hdr) (s : State) : Host.Outcome State Fault Refusal :=
  issue (.ret h) (fun x s =>
    let sp := x.t.c.sp
    let pending := x.t.c.held.any fun e => match e.instr with
      | .stk _ ty .. => e.acc.any fun a => rangesMeet a.va (ty.width / 8) sp 16
      | _ => false
    if x.aboveBase (sp + 16) then .trap 192 0 0
    else if decide (x.hdr.stack < sp + 16) then .trap 20 0 0
    else if pending then .wait .heldEmpty
    else
      let links := x.smask.lanes.map fun l => (l, ofBytes (x.g.peekStack l sp 16))
      let first := (links.headD (0, 0)).2
      let osp := bitsAt first 64 32
      let bad := links.find? fun e =>
        !(x.g.stackBad x.width e.1 sp 16).isEmpty || bitsAt e.2 96 32 != 0x4B4E494C || bitsAt e.2 64 32 != osp ||
        bitsAt e.2 0 57 != bitsAt first 0 57 || decide (osp < sp + 16) || decide (x.hdr.stack < osp)
      match bad with
      | some e => .trap 20 e.1 0
      | none =>
        if links.isEmpty then .trap 20 0 0
        else
          let s := s.modStrand x.cur.who fun t => { t with c := { t.c with sp := osp } }
          .ok (x.goTo (bitsAt first 0 57) .ret s)) s
/-- EXIT (spec/17 R379): the strand ends; the group retires under R29 when its accesses are accepted. -/
def execExit (h : Hdr) (s : State) : Host.Outcome State Fault Refusal :=
  issue (.exit h) (fun x s =>
    if !x.g.frames.isEmpty then .trap 196 0 0
    else .ok ((s.endRun x.cur.who).modGroup x.cur.who.sid x.cur.who.gi fun g =>
      { g with strands := g.strands.filter fun t => t.sn != x.cur.who.sn })) s

/-! ### FORK (R91 to R97) -/

/-- The lowest strand numbers that are free in a group. -/
def freeStrands (g : Group) : List Nat := (List.range Config.strandsPerGroup).filter fun n => !g.strands.any fun t => t.sn == n
/-- A fence condition as the other strands of a fork start with it: only the strand that issued the FENCE reads sr.rerr for it. -/
def FenceCond.silent (f : FenceCond) : FenceCond := { f with sys := false, count := none }
/-- What a strand number still has pending in a group as its arm ends, or as its strand becomes the first part of a serialised fork (R92, R94, R96): the results
keep their registers, no later strand of that number has issued them, and their traps go to the continuation of a frame. A pending lane predicate of an arm goes with the arm's
copy; at a serialised FORK it has landed in the continuation's copy. -/
def Group.orphan (g : Group) (sn frame heir : Nat) : Group :=
  { g with
    fixed := g.fixed.map fun f => if f.sn != sn then f else
      { f with sn := endedSn, wrs := f.wrs.filter fun w => match w with | .p .. => false | _ => true }
    inflight := g.inflight.map fun f => if f.sn == sn then { f with sn := endedSn, heir := some (frame, heir) } else f }
/-- The stores of a strand number whose strand has ended keep their group (R94). -/
def State.orphanStores (s : State) (r : StrandRef) (core : Nat) : State :=
  s.modCore core fun k => { k with buf := k.buf.map fun e => if e.who == r then { e with who := { r with sn := endedSn } } else e }
/-- Whether a strand, or a part of a serialised fork that it has still to run, is the continuation of a frame (R97). -/
def Strand.continues (t : Strand) (frame : Nat) : Bool := t.c.own.contains frame || t.next.any fun p => p.c.own.contains frame
/-- What an arm still owes goes to the continuation of its frame (R94, R306): fence conditions that are not met hold its accesses back, and deferred traps fall due
where it reads their registers. -/
def Group.handOver (g : Group) (frame : Nat) (fences : List FenceCond) (owed : List Deferred) : Group :=
  { g with strands := updFirst (fun t => t.continues frame) (fun t =>
      if t.c.own.contains frame then { t with fences := t.fences ++ fences, deferred := t.deferred ++ owed }
      else { t with next := t.next.map fun p => if p.c.own.contains frame then
        { p with fences := p.fences ++ fences.map FenceCond.silent, owed := p.owed ++ owed } else p }) g.strands }
/-- FORK (spec/05 R91 to R97; spec/17 R387). A lane predicate that is still pending lands in the continuation's copy alone, and a continuation that forks again keeps
what it holds (DEDUCED, notes/assumptions/19.md). -/
def execFork (h : Hdr) (neg : Bool) (p split gap : Nat) (cont taken : Target) (s : State) : Host.Outcome State Fault Refusal :=
  issue (.fork h neg p split gap cont taken) (fun x s =>
    let c := x.t.c
    if split % 8 != 0 || decide (split ≤ c.lo) || decide (min c.hi x.g.n ≤ split) then .trap 193 0 0
    else if decide (c.sp < c.sl + 256 * gap) then .trap 199 0 0
    else if decide (Config.maxFrames ≤ x.g.frames.length) then .trap 198 0 0
    else
      let who := x.cur.who
      let mT := maskOf fun l => x.smask.getLsbD l && (x.p p l != neg)
      let mF := x.smask &&& ~~~ mT
      let (id, s) := s.fresh
      let base := c.sp - 256 * gap
      let n := (if mF == 0 then 0 else 1) + (if mT == 0 then 0 else 1)
      let frame : Frame := { id := id, base := base, lo := c.lo, split := split, arms := n, deposited := List.replicate 8 0,
                             absent := List.replicate 8 0, last := [], vals := [] }
      let arm : Mask → Nat → Ctx := fun m pc =>
        { c with mask := m, pc := pc, hi := split, sl := base, arm := some id, own := [], held := [] }
      let armF := arm mF x.cur.nextPc
      let armT := arm mT (targetOf x.cur.pc taken)
      let live := x.g.strands.length
      let serial := decide (4 < live + n)
      let s := s.endRun who
      let s := s.modGroup who.sid who.gi fun g =>
        let g := { g with frames := g.frames ++ [frame], syncDue := true, fixed := g.fixed.map fun f => { f with board := true } }
        let old := (g.strand? who.sn).getD default
        let cC : Ctx := { old.c with mask := x.smask, pc := targetOf x.cur.pc cont, lo := split, sp := base, own := id :: old.c.own }
        if serial then
          let late := (g.view (x.cur.cycle + 1000)).strand? who.sn
          let cC := { cC with p := (late.map fun t => t.c.p).getD cC.p }
          let part := fun (c : Ctx) => ({ c := c, fences := old.fences.map FenceCond.silent, owed := [] } : Part)
          let parts := (if mF == 0 then [] else [part armF]) ++ (if mT == 0 then [] else [part armT]) ++ [{ part cC with owed := old.deferred }]
          let first := parts.headD (part cC)
          let g := g.orphan who.sn id who.sn
          g.modStrand who.sn fun t =>
            { t with c := first.c, deferred := first.owed, fences := t.fences.map fun f => { f with heir := f.heir.orElse fun _ => some (id, who.sn) },
                     next := parts.tail ++ t.next, line := none, readySince := x.cur.cycle, entry := if mF == 0 then .transfer else .seq }
        else
          let free := freeStrands g
          let new : Nat → Ctx → Entry → Strand := fun sn c e =>
            { old with sn := sn, c := c, st := .ready, entry := e, line := none, runLen := 0, readySince := x.cur.cycle, lost := 0,
                       fences := old.fences.map FenceCond.silent, deferred := [], next := [], skipDebug := false }
          let fs := if mF == 0 then [] else [new (free.getD 0 0) armF .seq]
          let ts := if mT == 0 then [] else [new (free.getD (if mF == 0 then 0 else 1) 0) armT .transfer]
          let g := g.modStrand who.sn fun t => { t with c := cC, line := none, entry := .transfer, readySince := x.cur.cycle }
          { g with strands := g.strands ++ fs ++ ts }
      .ok (if serial then s.count x.x.core x.rk .forksSerialised 1 else s)) s

/-! ### Join frames (R98 to R102) -/

/-- A frame of a group changed. -/
def Group.modFrame (g : Group) (id : Nat) (f : Frame → Frame) : Group := { g with frames := updFirst (fun y => y.id == id) f g.frames }
/-- The frame that a strand's arm role names. -/
def X.armId (x : X) : Nat := x.t.c.arm.getD 0
/-- What loads of the continuation behind a JOIN of a slot must follow (R104): the loads that an arm has issued and that have not returned, and its unmet fences, noted for
the slot with the lanes that the arm deposits or that are absent. -/
def X.noteAfter (x : X) (g : Group) (l : List (Nat × Mask)) (f : Frame) : Frame :=
  let open_ := (g.inflight.filter fun y => y.isLoad && y.sn == x.cur.who.sn).map Inflight.id
  let fences := match g.strand? x.cur.who.sn with | some t => t.fences | none => []
  let conds := (if open_.isEmpty then [] else [(⟨some .ls, open_, .group, false, none, x.cur.pc, none⟩ : FenceCond)]) ++ fences.map FenceCond.silent
  { f with after := f.after ++ l.flatMap fun e => if e.2 == 0 then [] else conds.map fun c => (e.1, e.2, c) }
/-- What the loads behind a JOIN of a slot must follow for some lanes (R104). -/
def Frame.behind (f : Frame) (slot : Nat) (m : Mask) : List FenceCond :=
  ((f.after.filter fun e => e.1 == slot && (e.2.1 &&& m) != 0).map fun e => e.2.2).eraseDups
/-- ARMEND (spec/05 R98, R100; spec/17 R356). -/
def execArmend (h : Hdr) (s : State) : Host.Outcome State Fault Refusal :=
  issue (.armend h) (fun x s =>
    if x.t.c.arm.isNone then .trap 195 0 0
    else if !x.t.c.own.isEmpty then .trap 196 0 0
    else
      let who := x.cur.who
      let s := (s.endRun who).orphanStores who x.x.core
      .ok (s.modGroup who.sid who.gi fun g =>
        let g := g.modFrame x.armId fun f =>
          let miss := f.deposited.map fun d => x.smask &&& ~~~ d
          { x.noteAfter g ((List.range miss.length).zip miss) f with
            arms := f.arms - 1
            absent := (f.absent.zip miss).map fun e => e.1 ||| e.2
            last := (miss.zip (List.range 8)).foldl (fun m e => e.1.lanes.foldl (fun m l => Sparse.set m (e.2 * 128 + l) x.cur.cycle) m) f.last }
        let g := g.orphan who.sn x.armId who.sn
        match x.t.next with
        | p :: rest => (g.modStrand who.sn fun t =>
            { t with c := p.c, fences := t.fences ++ p.fences, deferred := p.owed, next := rest, line := none, entry := .transfer,
                     readySince := x.cur.cycle }).handOver x.armId [] x.t.deferred
        | [] => { g with strands := g.strands.filter fun t => t.sn != who.sn }.handOver x.armId x.t.fences x.t.deferred)) s
/-- JSET (spec/05 R98, R99). -/
def execJset (h : Hdr) (j v : Nat) (s : State) : Host.Outcome State Fault Refusal :=
  issue (.jset h j v) (fun x s => match x.armFrame with
    | none => .trap 195 0 0
    | some f => match x.lanes.find? fun l => (f.deposited.getD j 0).getLsbD l with
      | some l => .trap 194 l 0
      | none => .ok (s.modGroup x.cur.who.sid x.cur.who.gi fun g => g.modFrame f.id fun f =>
          { x.noteAfter g [(j, x.mask)] f with
            deposited := setAt f.deposited j (f.deposited.getD j 0 ||| x.mask)
            last := x.lanes.foldl (fun m l => Sparse.set m (j * 128 + l) (x.cur.cycle + l / 32)) f.last
            vals := x.lanes.foldl (fun m l => Sparse.set m (j * 128 + l) (BitVec.ofNat 32 (x.v v l))) f.vals })) s
/-- JOIN (spec/05 R98, R101). -/
def execJoin (h : Hdr) (v j : Nat) (s : State) : Host.Outcome State Fault Refusal :=
  issue (.join h v j) (fun x s => match x.ownFrame with
    | none => .trap 195 0 0
    | some f =>
      let (id, s) := s.fresh
      .ok (x.pend id [(.v, v)] (.join f.id j v x.mask (x.cur.cycle + passesOf x.width - 1)) s)) s
/-- Whether a strand's JWAIT may close its frame (R102). -/
def Group.canClose (g : Group) (t : Strand) (f : Frame) : Bool :=
  f.arms == 0 && t.c.held.isEmpty &&
    !(g.fixed.any fun y => y.wrs.any fun w => match w with | .v r _ _ => decide (f.lo ≤ r) && decide (r < f.split) | _ => false) &&
    !g.inflight.any fun y => y.dst.any fun d => d.1 == Cls.v && decide (f.lo ≤ d.2) && decide (d.2 < f.split)
/-- What a JOIN of a slot writes (R101). -/
def Frame.joined (f : Frame) (slot vd : Nat) (mask : Mask) : List RegWr := mask.lanes.filterMap fun l =>
  if (f.deposited.getD slot 0).getLsbD l then some (.v vd l (Sparse.get 0 f.vals (slot * 128 + l))) else none
/-- When the result of a JOIN is readable once every lane of its mask has deposited or is absent (R101): 4 cycles after its issue and the last of these. -/
def Frame.joinDue (f : Frame) (slot issued : Nat) (mask : Mask) : Nat :=
  mask.lanes.foldl (fun n l => max n (Sparse.get 0 f.last (slot * 128 + l))) issued + 4
/-- The writes of a JOIN that may be readable: none while some lane is neither deposited nor absent, or before its time (R101). -/
def joinResult (clock : Nat) (f : Frame) (slot vd : Nat) (mask : Mask) (issued : Nat) : Option (List RegWr) :=
  if (mask &&& ~~~ (f.deposited.getD slot 0 ||| f.absent.getD slot 0)) != 0 || decide (clock < f.joinDue slot issued mask) then none
  else some (f.joined slot vd mask)
/-- A JOIN that is pending when its frame closes keeps the values it returns. -/
def Frame.detach (f : Frame) (y : Inflight) : Inflight := match y.body with
  | .join id slot vd mask issued =>
    if id == f.id then { y with body := .timed (f.joinDue slot issued mask) (f.joined slot vd mask) } else y
  | _ => y
/-- A JWAIT completes (R102): the continuation's window grows to the frame's lower limit and the frame closes. -/
def Group.closeFrame (g : Group) (sn : Nat) (f : Frame) : Group :=
  { g.modStrand sn fun t => { t with c := { t.c with lo := f.lo, own := t.c.own.tail } } with
    frames := g.frames.filter fun y => y.id != f.id, inflight := g.inflight.map f.detach }
/-- JWAIT (spec/05 R98, R102): it closes the frame, or the strand waits in Frame wait. -/
def execJwait (h : Hdr) (s : State) : Host.Outcome State Fault Refusal :=
  issue (.jwait h) (fun x s => match x.ownFrame with
    | none => .trap 195 0 0
    | some f =>
      let who := x.cur.who
      if x.g.canClose x.t f then .ok ((s.endRun who).modGroup who.sid who.gi fun g => g.closeFrame who.sn f)
      else .ok (s.putWait who (.frame .jwait))) s
/-- NOP (spec/19 R428). -/
def execNop (h : Hdr) (s : State) : Host.Outcome State Fault Refusal := issue (.nop h) (fun _ s => .ok s) s

end Sys2Proof.Machine
end

