-- ==== Sys2Proof/Machine/Matrix.lean ====
section
/-!
DEFINITION. The matrix arrays (spec/09_matrix_engine.md R196 to R221; spec/06 R125, R126; spec/19 R422, R453): THSET and the eight
matrix instructions, operand fetch, products, drains, and the planes.
-/

namespace Sys2Proof.Machine

/-! ### Formats and elements -/

/-- The value of an element: its bits, or its mantissa with its block's exponent (R112). -/
def mxVal (f : MFmt) (ex m : Nat) : FVal := match f with
  | .bfp w => bfpVal w ex m
  | _ => match f.float? with
    | some t => decodeF t false m
    | none => .num false 0 0
/-- The pairs of R121. -/
def pairOk (a w : MFmt) : Bool :=
  (a.isBfp && w.isBfp) ||
  (match a, w with
    | .e4m3, .e4m3 => true | .e4m3, .e5m2 => true | .e5m2, .e4m3 => true | .e5m2, .e5m2 => true
    | .bf16, .bf16 => true | .f16, .f16 => true | _, _ => false)
/-- The values of a row: 64 elements and, in a BFP format, two block exponents. -/
def rowVals (f : MFmt) (els exps : List Nat) : List FVal :=
  (els.zip (List.range 64)).map fun e => mxVal f (exps.getD (e.2 / 32) 0) e.1

/-! ### Tiles and planes (R196 to R198, R314) -/

/-- The key of a tile element. -/
def tileKey (k r j : Nat) : Nat := k * 4096 + r * 64 + j
/-- A tile element (R197). -/
def Slice.tile (x : Slice) (k r j : Nat) : W32 := Sparse.get 0 x.tiles (tileKey k r j)
/-- A tile element written: −0 becomes +0 (R197). -/
def Slice.putTile (x : Slice) (k r j : Nat) (b : Nat) : Slice :=
  let b : W32 := if b % 2 ^ 31 == 0 then 0 else BitVec.ofNat 32 b
  { x with tiles := Sparse.put 0 x.tiles (tileKey k r j) b }
/-- A plane's weight; a failed plane row acts as zero (R314). -/
def Plane.val (p : Plane) (i j : Nat) : FVal :=
  if p.failed.contains i then .num false 0 0
  else mxVal p.fmt (Sparse.get 0 p.exps (i * 2 + j / 32)) (Sparse.get 0 p.els (i * 64 + j))
/-- The active plane of an array. -/
def ArraySt.plane (a : ArraySt) : Plane := if a.active == 0 then a.p0 else a.p1
/-- An array of a slice changed. -/
def State.modArray (s : State) (sid arr : Nat) (f : ArraySt → ArraySt) : State :=
  s.modSlice sid fun x => match x.arrays[arr]? with
    | none => x
    | some a => { x with arrays := setAt x.arrays arr (f a) }
/-- A command of an array changed. -/
def State.modCmd (s : State) (sid arr id : Nat) (f : MCmd → MCmd) : State :=
  s.modArray sid arr fun a => { a with queue := updFirst (fun c => c.id == id) f a.queue }

/-! ### Passes (R125) -/

/-- The pass of R125 over pairs of operands: exact and rounded once for 8-bit and BFP operands, by the pairwise tree for 16-bit
operands, node by node even where a sum of finite products overflows there to an infinity that then meets one of the other sign
(DESIGN CHOICE, notes/assumptions/22.md). A zero sum is +0. -/
def passSum (wide : Bool) (l : List (FVal × FVal)) : Nat :=
  let b := if wide then
      (match treeSum (addNode .f32 .rne false) 6 (l.map fun p => some (packV .f32 .rne false false (mulV p.1 p.2).1 false)) with
      | some o => o.bits
      | none => 0)
    else
      (packV .f32 .rne false false (l.foldl (fun v p => (addV .rne v (mulV p.1 p.2).1).1) (FVal.num false 0 0)) false).bits
  if b % 2 ^ 31 == 0 then 0 else b
/-- A pass sum added to an accumulator element with one more rounding (R125). -/
def accAdd (t : W32) (b : Nat) : Nat := (addBits .f32 .rne false t.toNat b).bits
/-- A streamed row added to tile row `t` of tile `k` (R201): `w j p` is the weight for output `j` at position `p`. -/
def addRow (x : Slice) (wide : Bool) (k t : Nat) (a : List FVal) (w : Nat → Nat → FVal) : Slice :=
  loop (fun j x => x.putTile k t j (accAdd (x.tile k t j) (passSum wide ((a.zip (List.range 64)).map fun e => (e.1, w j e.2))))) 64 x
/-- A streamed row added to a tile column (R201, MMAD's dX). -/
def addCol (x : Slice) (wide : Bool) (k c : Nat) (a : List FVal) (w : Nat → Nat → FVal) : Slice :=
  loop (fun i x => x.putTile k i c (accAdd (x.tile k i c) (passSum wide ((a.zip (List.range 64)).map fun e => (e.1, w i e.2))))) 64 x

/-! ### Tile handles (R205 to R208) -/

/-- A field of a tile handle. -/
def thField (th : BitVec 256) (lo n : Nat) : Nat := bitsAt th.toNat lo n
/-- ROWS. -/
def thRows (th : BitVec 256) : Nat := thField th 40 7
/-- RPITCH. -/
def thPitch (th : BitVec 256) : Nat := thField th 48 24
/-- WIN. -/
def thWin (th : BitVec 256) : Bool := thField th 36 1 == 1
/-- REC. -/
def thRec (th : BitVec 256) : Nat := thField th 32 4
/-- The validity of a handle that THSET writes (R206). -/
def thInvalid (th : BitVec 256) : Bool :=
  thRows th == 0 || decide (64 < thRows th) || thField th 224 32 != 0 || thField th 47 1 != 0 || thField th 37 3 != 0 ||
  (!thWin th && thField th 120 104 != 0) ||
  (thWin th && (thField th 128 4 == 0 || thField th 132 4 == 0 || thField th 136 4 == 0 || thField th 140 4 == 0 ||
    thField th 120 8 == 0 || thField th 152 12 == 0 || thField th 164 12 == 0 || thField th 176 12 == 0))
/-- The footprint THSET answers (R206). -/
def thBytes (th : BitVec 256) : Nat :=
  if thWin th then thField th 164 12 * thField th 152 12 * thPitch th else thRows th * thPitch th
/-- THSET (spec/09 R206; spec/19 R453). -/
def execThset (h : Hdr) (d t sr : Nat) (s : State) : Host.Outcome State Fault Refusal :=
  issue (.thset h d t sr) (fun x s =>
    let th : BitVec 256 := BitVec.ofNat 256 ((List.range 8).foldl (fun n w => n + x.gr (sr + w) * 2 ^ (32 * w)) 0)
    if thInvalid th then .trap 273 0 0
    else .ok (x.result [.th t th, .g d (BitVec.ofNat 32 (thBytes th))] [(.th, t), (.g, d)] s)) s
/-- One unit that a fetch reads or a drain writes: its byte offset, its bytes, and where its bits lie in them. -/
structure MUnit where
  off : Nat
  n : Nat
  shift : Nat
  bits : Nat
deriving DecidableEq, Repr, Inhabited
/-- Element `e` of handle row `r` (R207, R208); none for the padding of a window. -/
def thUnit (th : BitVec 256) (f : MFmt) (r e : Nat) : Option MUnit :=
  let base := thField th 0 32
  match f with
  | .bfp w =>
    let bit := w * (e % 32)
    some ⟨base + r * thPitch th + 4 * w * (e / 32) + bit / 8, (bit % 8 + w + 7) / 8, bit % 8, w⟩
  | _ =>
    let sz := f.bits / 8
    if !thWin th then some ⟨base + r * thPitch th + e * sz, sz, 0, f.bits⟩
    else
      let p := thField th 200 24 + r
      let ow := thField th 176 12
      let t := thField th 188 12 + e
      let ch := thField th 120 8
      let kw := thField th 128 4
      let tap := t / ch
      let iy : Int := (p / ow * thField th 140 4 + tap / kw : Nat) - (thField th 148 4 : Nat)
      let ix : Int := (p % ow * thField th 136 4 + tap % kw : Nat) - (thField th 144 4 : Nat)
      if decide (kw * thField th 132 4 ≤ tap) || decide (iy < 0) || decide (ix < 0) ||
          decide ((thField th 164 12 : Int) ≤ iy) || decide ((thField th 152 12 : Int) ≤ ix) then none
      else some ⟨base + (iy.toNat * thField th 152 12 + ix.toNat) * thPitch th + t % ch * sz, sz, 0, f.bits⟩
/-- The exponent of a block of handle row `r` (R207). -/
def thExp (th : BitVec 256) (r b : Nat) : MUnit := ⟨thField th 72 32 + r * thField th 104 16 + b, 1, 0, 8⟩
/-- The units of a handle row in order: its elements, then a BFP row's two exponents. -/
def thUnits (th : BitVec 256) (f : MFmt) (r : Nat) : List (Option MUnit) :=
  ((List.range 64).map fun e => thUnit th f r e) ++ (if f.isBfp then [some (thExp th r 0), some (thExp th r 1)] else [])

/-! ### Issue (R203, R204, R207, R211 to R219) -/

/-- What an instruction asks of the matrix path when it issues: its source kind and those it accepts, its element format, whether
it reads a format pair, its handles, its checks of shape, its array, its status register, and its register operand and destinations
in kind 0. -/
structure MxAsk where
  kind : MKind
  accepts : List MKind
  fmt : MFmt
  drain : Bool
  named : Bool
  pair : Bool
  ths : List Nat
  noWin : Bool
  late : List (BitVec 256) → Option Nat
  arr : Nat
  st : Nat
  dst : List (Cls × Nat)
  take : Option (Nat × Nat)
/-- The quarters of a mask that take part (R204): the tile row of each and its first lane. -/
def quarters (m : Mask) (row0 : Nat) : List (Nat × Nat) :=
  (List.range 16).filterMap fun q =>
    if (List.range 8).any fun i => m.getLsbD (8 * q + i) then some (row0 + q, 8 * q) else none
/-- The rows of a kind-0 operand (R204): lanes outside the mask supply zero elements. -/
def X.regRows (x : X) (f : MFmt) (a row0 : Nat) : List (Nat × List Nat × List Nat) :=
  (quarters x.mask row0).map fun q =>
    let els := (List.range 64).map fun e =>
      let lane := q.2 + e / 8
      let i := e % 8
      let per := 32 / f.bits
      if x.mask.getLsbD lane then bitsAt (x.v (a + i * f.quarterRegs / 8) lane) (i % per * f.bits) f.bits else 0
    (q.1, els, [])
/-- The precise checks of a matrix instruction in the order of R219. -/
def X.mxCheck (x : X) (q : MxAsk) : Option Nat :=
  let ths := q.ths.map x.view0.threg
  let s := q.fmt.bits / 8
  let handleBad := fun (th : BitVec 256) =>
    th == 0 || (q.kind == .sx && thRec th != 0) || (q.kind != .sx && x.view0.breg (thRec th) == 0) ||
      (thWin th && (q.fmt.isBfp || q.noWin))
  let skew := fun (th : BitVec 256) =>
    if q.fmt.isBfp then thField th 0 32 % 4 != 0 || thPitch th % 4 != 0 || thField th 72 32 % 2 != 0 || thField th 104 16 % 2 != 0
    else thField th 0 32 % s != 0 || thPitch th % s != 0
  if !q.accepts.contains q.kind || (q.kind == .regs && q.fmt.isBfp && !q.drain) then some 272
  else if (q.named && q.fmt.isReserved) || (q.kind == .regs && q.fmt.isBfp && q.drain) then some 280
  else if q.pair && !pairOk (fmtA x.fmt) (fmtW x.fmt) then some 114
  else if ths.any handleBad then some 273
  else if ths.any skew then some 257
  else q.late ths
/-- The issue of a matrix instruction (R199, R422): it enters the queue of its array with what it reads. An instruction that reads a
scale register waits for a pending SCLOAD of its group (R217). -/
def X.mxEff (x : X) (i : Instr) (h : Hdr) (q : MxAsk) (scale : Option Nat) (s : State) : Res :=
  match (if x.cur.held.isSome then none else x.mxCheck q) with
  | some c => .trap c 0 0
  | none =>
    let dst := (Cls.g, q.st) :: q.dst
    if scale.isSome && x.cur.held.isNone && x.g.inflight.any (fun f => match f.body with | .scload b .. => decide (b < 16) | _ => false) then
      .wait .record
    else if x.holds then
      let (id, s) := s.fresh
      x.hold i h id [] false (x.pend id dst .await s)
    else
      let (id, s) := x.takeId s
      let s := if x.cur.held.isSome then s else x.pend id dst .await s
      let ths := q.ths.map x.view0.threg
      let c : MCmd :=
        { id := id, gi := x.cur.who.gi, sn := x.cur.who.sn, pc := x.cur.pc, instr := i, fmt := x.fmt, mask := x.mask, ths := ths,
          recs := ths.map fun th => x.view0.breg (thRec th)
          scale := match x.cur.held, scale with
            | some e, _ => e.scale
            | none, some n => x.view0.screg n
            | none, none => 0
          replay := match x.cur.held with | some e => e.replay | none => x.view0.replay.isSome
          regRows := match q.take with | some (a, row0) => x.regRows q.fmt a row0 | none => []
          fetched := none, got := [], shut := false, dest := [], batch := none, plane := none, done := false, chunk := 0, bad := 0, skip := 0, trap := none }
      .ok (s.modArray x.cur.who.sid q.arr fun a => { a with queue := a.queue ++ [c] })
/-- The rows that an instruction streams or drains must lie in its tile (cause 274). -/
def X.rowsBad (x : X) (kind : MKind) (row0 : Nat) (ths : List (BitVec 256)) : Option Nat :=
  if kind == .regs then (if (quarters x.mask row0).any fun q => decide (63 < q.1) then some 274 else none)
  else if decide (64 < row0 + thRows (ths.headD 0)) then some 274 else none
/-- MMA and MMAT as they issue (R213). -/
def X.mmaAsk (x : X) (kind : MKind) (d a sr row0 : Nat) : MxAsk :=
  { kind := kind, accepts := [.regs, .sx, .g], fmt := fmtA x.fmt, drain := false, named := false, pair := true
    ths := if kind == .regs then [] else [a], noWin := false, late := x.rowsBad kind row0, arr := d / 48, st := sr, dst := []
    take := if kind == .regs then some (a, row0) else none }
/-- MMA (spec/09 R201, R213; spec/19 R422). -/
def execMma (h : Hdr) (kind : MKind) (d a sr row0 : Nat) (s : State) : Host.Outcome State Fault Refusal :=
  issue (.mma h kind d a sr row0) (fun x s => x.mxEff (.mma h kind d a sr row0) h (x.mmaAsk kind d a sr row0) none s) s
/-- MMAT (spec/09 R201, R213; spec/19 R422). -/
def execMmat (h : Hdr) (kind : MKind) (d a sr row0 : Nat) (s : State) : Host.Outcome State Fault Refusal :=
  issue (.mmat h kind d a sr row0) (fun x s => x.mxEff (.mmat h kind d a sr row0) h (x.mmaAsk kind d a sr row0) none s) s
/-- MMAD as it issues (R214). -/
def X.mmadAsk (x : X) (kind : MKind) (kX kW thW thX sr c0 : Nat) : MxAsk :=
  { kind := kind, accepts := [.sx, .g], fmt := fmtA x.fmt, drain := false, named := false, pair := true, ths := [thW, thX]
    noWin := false
    late := fun ths =>
      if thRows (ths.getD 0 0) != thRows (ths.getD 1 0) || decide (64 < c0 + thRows (ths.getD 0 0)) || kX / 48 != kW / 48 ||
        kX == kW then some 275 else none
    arr := kX / 48, st := sr, dst := [], take := none }
/-- MMAD (spec/09 R201, R214; spec/19 R422). -/
def execMmad (h : Hdr) (kind : MKind) (kX kW thW thX sr c0 : Nat) (s : State) : Host.Outcome State Fault Refusal :=
  let i : Instr := .mmad h kind kX kW thW thX sr c0
  issue i (fun x s => x.mxEff i h (x.mmadAsk kind kX kW thW thX sr c0) none s) s
/-- MLDW as it issues (R215). -/
def X.mldwAsk (x : X) (kind : MKind) (m a sr : Nat) : MxAsk :=
  { kind := kind, accepts := [.sx, .g, .ws], fmt := fmtW x.fmt, drain := false, named := false, pair := true, ths := [a]
    noWin := true, late := fun ths => if thRows (ths.headD 0) != 64 then some 275 else none
    arr := m, st := sr, dst := [], take := none }
/-- MLDW (spec/09 R215; spec/19 R422). -/
def execMldw (h : Hdr) (kind : MKind) (m a sr : Nat) (s : State) : Host.Outcome State Fault Refusal :=
  issue (.mldw h kind m a sr) (fun x s => x.mxEff (.mldw h kind m a sr) h (x.mldwAsk kind m a sr) none s) s
/-- MSWAP and MZERO as they issue (R200, R216). -/
def plainAsk (kind : MKind) (arr sr : Nat) (late : Option Nat) : MxAsk :=
  { kind := kind, accepts := [.regs], fmt := .f32, drain := false, named := false, pair := false, ths := [], noWin := false
    late := fun _ => late, arr := arr, st := sr, dst := [], take := none }
/-- MSWAP (spec/09 R200; spec/19 R422). -/
def execMswap (h : Hdr) (kind : MKind) (m sr : Nat) (s : State) : Host.Outcome State Fault Refusal :=
  issue (.mswap h kind m sr) (fun x s => x.mxEff (.mswap h kind m sr) h (plainAsk kind m sr none) none s) s
/-- MDRAIN as it issues (R217). -/
def X.mdrainAsk (x : X) (fmt : MFmt) (kind : MKind) (k a sr row0 : Nat) : MxAsk :=
  { kind := kind, accepts := [.regs, .sx, .g], fmt := fmt, drain := true, named := true, pair := false
    ths := if kind == .regs then [] else [a], noWin := true, late := x.rowsBad kind row0, arr := k / 48, st := sr
    dst := if kind == .regs then (List.range fmt.quarterRegs).map fun n => (Cls.v, a + n) else [], take := none }
/-- MDRAIN (spec/09 R217, R221; spec/19 R422). -/
def execMdrain (h : Hdr) (fmt : MFmt) (kind : MKind) (amx clr : Bool) (k a sr sc am row0 : Nat) (s : State) : Host.Outcome State Fault Refusal :=
  let i : Instr := .mdrain h fmt kind amx clr k a sr sc am row0
  issue i (fun x s => x.mxEff i h (x.mdrainAsk fmt kind k a sr row0) (some sc) s) s
/-- MZERO (spec/09 R216; spec/19 R422). -/
def execMzero (h : Hdr) (kind : MKind) (k sr row0 count : Nat) (s : State) : Host.Outcome State Fault Refusal :=
  issue (.mzero h kind k sr row0 count) (fun x s => x.mxEff (.mzero h kind k sr row0 count) h
    (plainAsk kind (k / 48) sr (if decide (64 < row0 + count) then some 274 else none)) none s) s
/-- MFILL as it issues (R216). -/
def X.mfillAsk (x : X) (fmt : MFmt) (kind : MKind) (k a sr row0 : Nat) : MxAsk :=
  { kind := kind, accepts := [.regs, .sx, .g], fmt := fmt, drain := false, named := true, pair := false
    ths := if kind == .regs then [] else [a], noWin := false, late := x.rowsBad kind row0, arr := k / 48, st := sr, dst := []
    take := if kind == .regs then some (a, row0) else none }
/-- MFILL (spec/09 R216; spec/19 R422). -/
def execMfill (h : Hdr) (fmt : MFmt) (kind : MKind) (k a sr row0 : Nat) (s : State) : Host.Outcome State Fault Refusal :=
  let i : Instr := .mfill h fmt kind k a sr row0
  issue i (fun x s => x.mxEff i h (x.mfillAsk fmt kind k a sr row0) none s) s

/-! ### Queues (R199, R200, R209, R218, R220) -/

/-- The command an array works on: the first that is not done. -/
def ArraySt.working (a : ArraySt) : Option MCmd := a.queue.find? fun c => !c.done
/-- An array of a slice. -/
def State.array? (s : State) (sid arr : Nat) : Option ArraySt := (s.slice? sid).bind fun x => x.arrays[arr]?
/-- The strand that issued a command. -/
def MCmd.who (c : MCmd) (sid : Nat) : StrandRef := ⟨sid, c.gi, c.sn⟩
/-- What a command fetches through handles: its kind and its element format (R203). -/
def MCmd.reads (c : MCmd) : Option (MKind × MFmt) := match c.instr with
  | .mma _ k .. => if k == .regs then none else some (k, fmtA c.fmt)
  | .mmat _ k .. => if k == .regs then none else some (k, fmtA c.fmt)
  | .mmad _ k .. => some (k, fmtA c.fmt)
  | .mldw _ k .. => some (k, fmtW c.fmt)
  | .mfill _ f k .. => if k == .regs then none else some (k, f)
  | _ => none
/-- The status register of a command. -/
def MCmd.st (c : MCmd) : Nat := match c.instr with
  | .mma _ _ _ _ s _ => s | .mmat _ _ _ _ s _ => s | .mmad _ _ _ _ _ _ s _ => s | .mldw _ _ _ _ s => s | .mswap _ _ _ s => s
  | .mdrain _ _ _ _ _ _ _ s _ _ _ => s | .mzero _ _ _ s _ _ => s | .mfill _ _ _ _ _ s _ => s | _ => 0
/-- The D field of a command as encoded (R211, R308). -/
def MCmd.dField (c : MCmd) : Nat := match c.instr with
  | .mma _ _ d _ _ _ => d | .mmat _ _ d _ _ _ => d | .mmad _ _ d _ _ _ _ _ => d | .mldw _ _ m _ _ => 48 * m | .mswap _ _ m _ => 48 * m
  | .mdrain _ _ _ _ _ k _ _ _ _ _ => k | .mzero _ _ k _ _ _ => k | .mfill _ _ _ k _ _ _ => k | _ => 0
/-- The destinations of a command beside its status: a kind-0 MDRAIN's registers. -/
def MCmd.dests (c : MCmd) : List (Cls × Nat) := match c.instr with
  | .mdrain _ f .regs _ _ _ a _ _ _ _ => (List.range f.quarterRegs).map fun n => (Cls.v, a + n)
  | _ => []
/-- Whether a command writes memory or the scratchpad. -/
def MCmd.storing (c : MCmd) : Bool := match c.instr with
  | .mdrain _ _ k .. => k != .regs
  | _ => false
/-- Whether an earlier command of the same strand keeps a fetch (`false`) or a drain (`true`) from memory waiting: reads follow
earlier drains, drains follow earlier reads and drains (R220). -/
def State.mxBlocked (s : State) (sid : Nat) (c : MCmd) (drain : Bool) : Bool := match s.slice? sid with
  | none => false
  | some x => (x.arrays.any fun a => a.queue.any fun q =>
      q.gi == c.gi && q.sn == c.sn && decide (q.id < c.id) && !q.done &&
        (q.storing || (drain && q.reads.isSome && q.fetched.isNone))) ||
    s.remotes.any fun r => match r.owner with
      | .matrixStore w id _ => w == c.who sid && decide (id < c.id)
      | _ => false
/-- The entry of a command on channel 3 of its core is gone: what comes behind it on the channel goes on (R209). -/
def State.dropFetch (s : State) (sid arr id : Nat) : State := match s.slice? sid with
  | none => s
  | some x => s.modChan x.core 3 fun ch => { ch with entries := ch.entries.filter fun e => e.matrix != some (arr, id) || e.who.sid != sid }
/-- A command ends with an operand trap and no effect (R209). -/
def State.mxFail (s : State) (sid arr id cause : Nat) : State :=
  (s.dropFetch sid arr id).modCmd sid arr id fun c => { c with trap := some cause, done := true, batch := none, fetched := some [] }
/-- Where the bytes of a unit lie: none where the unit is out of bounds (R209, R141, R147). -/
def State.mxPlace (s : State) (rk : Nat) (kind : MKind) (k : AccessKind) (scratch : Nat) (r : BitVec 128) (u : MUnit) :
    Option (List TrRes) :=
  match kind with
  | .sx => if decide (u.off + u.n ≤ scratch) then some ((List.range u.n).map fun i => .ok (.sx (u.off + i))) else none
  | _ => if decide (u.off + u.n ≤ recWindow r) then some ((List.range u.n).map fun i => s.translate (keyVf rk) k (recAddr r (u.off + i)))
    else none
/-- Every handle row of a command with its units, in the order in which a fetch reaches their bytes: an MMAD reads all rows of thW before those of thXT, and a row of a
BFP format its mantissas before its exponents (DESIGN CHOICE, notes/assumptions/20.md). -/
def MCmd.units (c : MCmd) (f : MFmt) : List (List (BitVec 128 × Nat × List (Option MUnit))) :=
  (c.ths.zip c.recs).map fun e => (List.range (thRows e.1)).map fun r => (e.2, r, thUnits e.1 f r)
/-- Whether an operand or destination is strict, by its own record or the region (R209, R314). -/
def State.mxStrict (s : State) (rk : Nat) (kind : MKind) (r : BitVec 128) : Bool :=
  s.strictRegion rk || (kind != .sx && kind != .regs && recStrict r)
/-- Whether a command that meets failed accumulator granules or plane rows is strict: by the region or a record it reads through (R314). -/
def State.mxStrictAny (s : State) (rk : Nat) (c : MCmd) : Bool := s.strictRegion rk || (match c.reads with
  | some (kind, _) => c.recs.any fun r => s.mxStrict rk kind r
  | none => false)
/-- What a check of a command's places, each with its strictness, finds: a trap, or not-present pages (R209). -/
def mxPlaces (permit : Bool) (l : List (Bool × Option (List TrRes))) : Option (Sum Nat (List Nat)) :=
  if !permit then some (.inl 279)
  else if l.any (fun p => p.1 && p.2.isNone) then some (.inl 276)
  else
    let all := l.flatMap fun p => p.2.getD []
    match all.find? fun (r : TrRes) => match r with | .ok _ => false | _ => true with
    | none => none
    | some (.bad _) => some (.inl 279)
    | some _ =>
      let pages := all.filterMap fun (r : TrRes) => match r with | .absent p => some p | _ => none
      some (.inr (pages.eraseDups.take Config.batchPages))
/-- The outcome of a place check carried out: the command fails, with its out-of-bounds elements counted (R314), or its batch is sent. -/
def State.mxMeet (s : State) (sid arr rk : Nat) (c : MCmd) (out : Nat) : Sum Nat (List Nat) → State
  | .inl cause => (s.countOob rk (if cause == 276 then out else 0)).mxFail sid arr c.id cause
  | .inr pages =>
    let (id, s) := s.engineBatch (.matrix sid arr c.id) (c.who sid) rk 278 c.pc pages
    s.modCmd sid arr c.id fun y => { y with batch := some id }
/-- A unit's value from its bytes. -/
def MUnit.value (u : MUnit) (b : List Byte) : Nat := bitsAt (ofBytes b) u.shift u.bits
/-- The reads of a command carried out (R209): its operands, with elements that are out of bounds or in a failed granule zero. A block exponent there reads as the byte 0 and
counts as one element (DESIGN CHOICE, notes/assumptions/20.md). -/
def State.mxRead (s : State) (sid arr rk core : Nat) (c : MCmd) (kind : MKind) (f : MFmt) : State :=
  let scratch := s.scratchOf sid
  let acc := if kind == .ws then AccessKind.ldw else .load
  let unit := fun (st : State × List Nat × Nat × List (Nat × Bool)) (r : BitVec 128) (u : MUnit) =>
    let (s, vals, bad, grs) := st
    match s.mxPlace rk kind acc scratch r u with
    | none => (s.countOob rk 1, vals ++ [0], bad + 1, grs)
    | some ps =>
      let (s, bs, hit) := ps.foldl (fun (q : State × List Byte × List Nat) p => match p with
        | .ok (.peer chip va) =>
          let (b, g) := peerByte c.got chip va
          (q.1, q.2.1 ++ [b], q.2.2 ++ g.toList)
        | .ok l =>
          let g := (q.1.granuleAt sid l).toList
          let (b, _, s) := q.1.readLoc sid c.gi core [] l 1
          (s, q.2.1 ++ b, q.2.2 ++ g)
        | _ => (q.1, q.2.1 ++ [0#8], q.2.2)) (s, [], [])
      if hit.isEmpty then (s, vals ++ [u.value bs], bad, grs) else (s, vals ++ [0], bad + 1, grs ++ hit.map fun g => (g, s.mxStrict rk kind r))
  let row := fun (st : State × List (Nat × List Nat × List Nat) × Nat × List (Nat × Bool)) (e : BitVec 128 × Nat × List (Option MUnit)) =>
    let (s, vals, bad, grs) := e.2.2.foldl (fun q u => match u with
      | none => (q.1, q.2.1 ++ [0], q.2.2)
      | some u => unit q e.1 u) (st.1, [], st.2.2.1, st.2.2.2)
    (s, st.2.1 ++ [(e.2.1, vals.take 64, vals.drop 64)], bad, grs)
  let (s, ops, grs) := (c.units f).foldl (fun (st : State × List MOperand × List (Nat × Bool)) h =>
    let (s, rows, bad, grs) := h.foldl row (st.1, [], 0, st.2.2)
    (s, st.2.1 ++ [⟨rows, bad⟩], grs)) (s, [], [])
  let s := s.countUncor rk (grs.map Prod.fst).eraseDups.length
  if grs.any Prod.snd then s.mxFail sid arr c.id 277
  else s.modCmd sid arr c.id fun y =>
    { y with fetched := some ops, got := [], bad := ops.foldl (fun n o => n + o.bad) 0 }
/-- Operand lines on other modules that are neither here nor asked for yet; asked for now (R144). Answers whether any is missing. -/
def State.mxRemote (s : State) (sid arr rk : Nat) (c : MCmd) (places : List TrRes) : State × Bool :=
  let missing := (peerParts (fun _ va => va / 128) (places.filterMap fun p => match p with
    | .ok (.peer chip va) => some ⟨0, va, some (.peer chip va), 0, 0, none⟩
    | _ => none)).filter fun n => !peerHas c.got n.1 n.2.1
  let own := RemoteOwner.matrixLoad sid arr c.id
  (missing.foldl (fun s n =>
    if s.remotes.any fun r => r.owner == own && r.va == n.2.1 * 128 && r.chip == n.1 then s
    else
      let sectors := n.2.2.foldl (fun m a => m ||| (sectorsOf n.2.1 a.va 1).toNat) 0
      (s.sendRemote own rk n.1 (n.2.1 * 128) 128 (.load sectors)).2) s, !missing.isEmpty)
/-- The bytes that a fetch reads of a row (R209): those of its elements that are in bounds, a byte that BFP elements share once. -/
def rowBytes (bfp : Bool) (l : List (MUnit × Bool)) : Nat :=
  let in_ := (l.filter Prod.snd).map Prod.fst
  if bfp then (in_.flatMap fun u => (List.range u.n).map fun i => u.off + i).eraseDups.length
  else in_.foldl (fun n u => n + u.n) 0
/-- The fetch of the working command of an array (R209): its checks, its place on channel 3 for kinds 2 and 3, and its reads. -/
def State.mxFetch (s : State) (sid arr : Nat) : State := match s.slice? sid, s.array? sid arr with
  | some x, some a => match a.working with
    | none => s
    | some c => match c.reads with
      | none => s
      | some (kind, f) =>
        if c.fetched.isSome || c.batch.isSome || s.mxBlocked sid c false then s
        else
          let rk := s.sliceRegion x
          let scratch := s.scratchOf sid
          let acc := if kind == .ws then AccessKind.ldw else .load
          let us := (c.units f).flatMap fun h => h.flatMap fun e => e.2.2.filterMap fun u => u.map fun u => (e.1, u)
          let places := us.map fun e => s.mxPlace rk kind acc scratch e.1 e.2
          let len := (c.units f).foldl (fun n h => h.foldl (fun n e =>
            n + rowBytes f.isBfp (e.2.2.filterMap fun u => u.map fun u => (u, (s.mxPlace rk kind acc scratch e.1 u).isSome))) n) 0
          match mxPlaces (kind == .sx || c.recs.all recPr) ((us.map fun e => s.mxStrict rk kind e.1).zip places) with
          | some m => s.mxMeet sid arr rk c (places.filter Option.isNone).length m
          | none =>
            if kind == .sx then s.mxRead sid arr rk x.core c kind f
            else
              let ch := s.chan x.core 3
              let shut := places.any fun p => (p.getD []).any fun r => match r with
                | .ok (.mem pa) => shuttered s.clock pa
                | _ => false
              match ch.entries.find? fun e => !e.finished || e.matrix.isSome with
              | some e =>
                if e.matrix == some (arr, c.id) && e.who.sid == sid then
                  let (s, wait) := s.mxRemote sid arr rk c (places.flatMap fun p => p.getD [])
                  if shut && !c.shut then (s.count x.core rk .shutterWaits 1).modCmd sid arr c.id fun y => { y with shut := true }
                  else if wait || shut then s else (s.mxRead sid arr rk x.core c kind f).dropFetch sid arr c.id
                else enter s x rk c len
              | none => enter s x rk c len
  | _, _ => s
where
  /-- The fetch takes an entry of channel 3 where one is free, unless it has one. -/
  enter (s : State) (x : Slice) (rk : Nat) (c : MCmd) (len : Nat) : State :=
    let ch := s.chan x.core 3
    if decide (Config.channelEntries ≤ ch.entries.length) ||
        ch.entries.any (fun e => e.matrix == some (arr, c.id) && e.who.sid == sid) then s
    else
      let e : CopyEntry :=
        { id := c.id, who := c.who sid, pc := c.pc, rk := rk, tile := false, esz := 1, words := [], len := len, dst := .sx, src := .sx,
          strict := false, d := 0, fin := ch.tail + len, done := 0, err := false, oob := false, stop := false, bad := [], off := none,
          cause := none, batch := none, got := [], lost := [], flight := none, kill := none, matrix := some (arr, c.id) }
      s.modChan x.core 3 fun ch => { ch with tail := ch.tail + len, entries := ch.entries ++ [e] }

/-! ### Carrying commands out -/

/-- Failed accumulator granules, by number, of tile elements given by their keys. -/
def Slice.failedTiles (x : Slice) (keys : List Nat) : List Nat := x.tilesFailed.filter fun g => keys.any fun k => k / 16 == g
/-- Failed accumulator granules set to +0 before a command adds to them (R314). -/
def Slice.clearTiles (x : Slice) (l : List Nat) : Slice :=
  { x with tilesFailed := x.tilesFailed.filter fun g => !l.contains g
           tiles := x.tiles.filter fun e => !l.contains (e.1 / 16) }
/-- The keys of a tile row. -/
def rowKeys (k t : Nat) : List Nat := (List.range 64).map fun j => tileKey k t j
/-- Zero activation elements that are skipped (R210): none where the plane's non-finite flag is set. -/
def skipCount (p : Plane) (rows : List (List FVal)) : Nat :=
  if p.nonfinite then 0 else rows.foldl (fun n r => n + (r.filter FVal.zero?).length) 0
/-- The rows that a command streams into tile rows: from registers, or handle rows from row0 (R204, R213). -/
def MCmd.tileRows (c : MCmd) (f : MFmt) (row0 : Nat) : List (Nat × List FVal) := match c.reads with
  | none => c.regRows.map fun r => (r.1, rowVals f r.2.1 r.2.2)
  | some _ => match c.fetched with
    | some (o :: _) => o.rows.map fun r => (row0 + r.1, rowVals f r.2.1 r.2.2)
    | _ => []
/-- A product carried out on a slice (R201): tile rows and columns it adds to, the plane it latched, and the streamed rows. A plane loaded under another class of format
takes part in passes of the class of the pair in force (DESIGN CHOICE, notes/assumptions/20.md). -/
def MCmd.product (c : MCmd) (a : ArraySt) (x : Slice) : Slice × List (List FVal) × List Nat :=
  let f := fmtA c.fmt
  let wide := f.is16
  let p := a.plane
  match c.instr with
  | .mma _ _ k _ _ row0 =>
    let rows := c.tileRows f row0
    (rows.foldl (fun x r => addRow x wide k r.1 r.2 fun j q => p.val q j) x, rows.map Prod.snd, rows.flatMap fun r => rowKeys k r.1)
  | .mmat _ _ k _ _ row0 =>
    let rows := c.tileRows f row0
    (rows.foldl (fun x r => addRow x wide k r.1 r.2 fun i q => p.val i q) x, rows.map Prod.snd, rows.flatMap fun r => rowKeys k r.1)
  | .mmad _ _ kX kW _ _ _ c0 =>
    let get := fun (n : Nat) => match c.fetched with
      | some l => (l.getD n default).rows.map fun r => rowVals f r.2.1 r.2.2
      | none => []
    let steps := ((get 0).zip (get 1)).zip (List.range 64)
    (steps.foldl (fun x e =>
      let x := addCol x wide kX (c0 + e.2) e.1.1 fun i q => p.val i q
      addRow x wide kW (c0 + e.2) e.1.2 fun j q => p.val q j) x,
     get 0 ++ get 1,
     steps.flatMap fun e => rowKeys kW (c0 + e.2) ++ (List.range 64).map fun i => tileKey kX i (c0 + e.2))
  | _ => (x, [], [])
/-- A product command carried out (R200, R201, R210, R314). -/
def State.mxProduct (s : State) (sid arr : Nat) (x : Slice) (a : ArraySt) (c : MCmd) : State :=
  let rk := s.sliceRegion x
  let p := a.plane
  let (_, rows, keys) := c.product a x
  let bad := x.failedTiles keys
  if s.mxStrictAny rk c && (!bad.isEmpty || !p.failed.isEmpty) then (s.countUncor rk bad.length).mxFail sid arr c.id 277
  else
    let skip := skipCount p rows
    let s := s.countUncor rk bad.length
    let s := s.modSlice sid fun x => (c.product a (x.clearTiles bad)).1
    let s := s.count x.core rk .skipped skip
    s.modCmd sid arr c.id fun y =>
      { y with done := true, plane := some a.active, skip := skip, bad := y.bad + 16 * bad.length + 64 * p.failed.length }
/-- An element as MFILL stores it (R216). -/
def convF (v : FVal) : Nat := (packV .f32 .rne false false v false).bits
/-- A command that writes tile rows carried out: MFILL and MZERO (R216). -/
def State.mxFill (s : State) (sid arr : Nat) (c : MCmd) (k : Nat) (rows : List (Nat × List Nat)) : State :=
  let s := s.modSlice sid fun x =>
    let x := x.clearTiles (x.failedTiles (rows.flatMap fun r => rowKeys k r.1))
    rows.foldl (fun x r => (r.2.zip (List.range 64)).foldl (fun x e => x.putTile k r.1 e.2 e.1) x) x
  s.modCmd sid arr c.id fun y => { y with done := true }

/-! ### MDRAIN (R126, R217, R221) -/

/-- The rows that an MDRAIN drains in order: each with its handle row, or its first lane in kind 0. -/
def MCmd.drainRows (c : MCmd) (kind : MKind) (row0 : Nat) : List (Nat × Nat) :=
  if kind == .regs then quarters c.mask row0
  else (List.range (thRows (c.ths.headD 0))).map fun r => (row0 + r, r)
/-- The elements of a tile row as an MDRAIN reads them: a failed granule reads zero. -/
def Slice.drainRow (x : Slice) (k t : Nat) : List Nat :=
  (List.range 64).map fun j => if x.tilesFailed.contains (tileKey k t j / 16) then 0 else (x.tile k t j).toNat
/-- A row as it is written: its elements in the destination format, and its exponents in a BFP format (R126). -/
def drainOut (fmt : MFmt) (satf : Bool) (scale : W32) (row : List Nat) : List Nat × List Nat :=
  let prods := row.map fun b => (mulV (decodeF .f32 false b) (decodeF .f32 false scale.toNat)).1
  match fmt with
  | .bfp w =>
    let b0 := bfpPack w .rne (prods.take 32)
    let b1 := bfpPack w .rne (prods.drop 32)
    (b0.2 ++ b1.2, [b0.1, b1.1])
  | _ => match fmt.float? with
    | some t => (prods.map fun v => (packV t .rne satf false v false).bits, [])
    | none => (row, [])
/-- The bytes of a handle row with their offsets (R207). -/
def drainBytes (th : BitVec 256) (fmt : MFmt) (r : Nat) (els exps : List Nat) : List (Nat × Byte) :=
  let at_ := fun (off : Nat) (bs : List Byte) => (bs.zip (List.range bs.length)).map fun b => (off + b.2, b.1)
  let base := thField th 0 32 + r * thPitch th
  match fmt with
  | .bfp w =>
    at_ base (bytesOf (4 * w) (bitString w (els.take 32))) ++ at_ (base + 4 * w) (bytesOf (4 * w) (bitString w (els.drop 32))) ++
      at_ (thExp th r 0).off [BitVec.ofNat 8 (exps.getD 0 0)] ++ at_ (thExp th r 1).off [BitVec.ofNat 8 (exps.getD 1 0)]
  | _ => (els.zip (List.range 64)).flatMap fun e => at_ (base + e.2 * (fmt.bits / 8)) (bytesOf (fmt.bits / 8) e.1)
/-- The register writes of a kind-0 row, in the lanes of the mask (R204). -/
def drainRegs (fmt : MFmt) (m : Mask) (a lane0 : Nat) (els : List Nat) : List RegWr :=
  let per := 32 / fmt.bits
  (List.range 8).flatMap fun i =>
    if !m.getLsbD (lane0 + i) then []
    else (List.range fmt.quarterRegs).map fun r =>
      let word := (List.range per).foldl (fun n e => n + els.getD (8 * i + r * per + e) 0 * 2 ^ (e * fmt.bits)) 0
      .v (a + r) (lane0 + i) (BitVec.ofNat 32 word)
/-- Bytes written on the matrix path: a failed granule that they cover whole clears, bytes into another are dropped (R153). Answers
the granules that dropped bytes. They are in memory at once, before the command's status is written, and those of another module go out by lines (R144; DEDUCED,
DEDUCED, notes/assumptions/10.md). -/
def State.mxWrite (s : State) (sid core : Nat) (who : StrandRef) (id rk : Nat) (strict : Bool) (l : List (Loc × Byte)) : State × List Nat :=
  let grs := l.filterMap fun e => (s.granuleAt sid e.1).map fun g => (g, e.1)
  let ids := (grs.map Prod.fst).eraseDups
  let size := fun (g : Nat) => if 2 ^ 60 ≤ g then 4 else granuleSize g
  let whole := ids.filter fun g => decide (size g ≤ (grs.filter fun e => e.1 == g).eraseDups.length)
  let part := ids.filter fun g => !whole.contains g
  let s := (grs.filter fun e => whole.contains e.1).foldl (fun s e => s.clearGranule sid e.2) s
  let s := l.foldl (fun s e => match e.1 with
    | .peer _ _ => s
    | p => match s.granuleAt sid p with
      | some _ => s
      | none => s.engineWrite sid core rk p e.2) s
  let out := l.filterMap fun e => match e.1 with | .peer chip va => some (chip, va, e.2) | _ => none
  let lines := (out.map fun o => (o.1, o.2.1 / 128)).eraseDups
  (lines.foldl (fun s n => (s.sendRemote (.matrixStore who id strict) rk n.1 (n.2 * 128) 128
    (.store ((out.filter fun o => o.1 == n.1 && o.2.1 / 128 == n.2).map fun o => (o.2.1 % 128, [o.2.2])))).2) s, part)
/-- The largest magnitude of a list of f32 patterns, by bits: the canonical NaN lies above every number. -/
def maxMag (l : List Nat) : Nat := l.foldl (fun m b => max m (b % 2 ^ 31)) 0
/-- The places of the bytes of a handle row that a drain writes, by window offset: those of its elements that are in bounds. A byte that an element in bounds shares
with one that is not is written whole (DESIGN CHOICE, notes/assumptions/20.md). -/
def State.rowPlaces (s : State) (rk : Nat) (kind : MKind) (scratch : Nat) (th : BitVec 256) (fmt : MFmt) (r : BitVec 128) (row : Nat) : List (Nat × Loc) :=
  ((thUnits th fmt row).filterMap fun u => u.bind fun u => (s.mxPlace rk kind .store scratch r u).map fun l => (u, l)).foldl (fun m e =>
    (e.2.zip (List.range e.1.n)).foldl (fun m p => match p.1 with
      | .ok l => Sparse.set m (e.1.off + p.2) l
      | _ => m) m) []
/-- One chunk of an MDRAIN (R217): before the first its destination is checked and translated whole. It waits behind stores to its destination that are still in the merge
buffer of its core (R164, R173). -/
def State.mxDrain (s : State) (sid arr : Nat) (x : Slice) (c : MCmd) (fmt : MFmt) (kind : MKind) (amx clr : Bool) (k a am row0 : Nat) :
    State :=
  let rk := s.sliceRegion x
  let scratch := s.scratchOf sid
  let th := c.ths.headD 0
  let r := c.recs.headD 0
  let rows := c.drainRows kind row0
  let strict := s.mxStrict rk kind r
  let units := if kind == .regs then [] else rows.flatMap fun q => (thUnits th fmt q.2).filterMap id
  let places := units.map fun u => s.mxPlace rk kind .store scratch r u
  let first := c.chunk == 0
  let found := places.flatMap fun p => (p.getD []).filterMap TrRes.loc?
  let s := if kind == .regs then s else s.drainCore x.core
  if kind != .regs && (s.mxBlocked sid c true || found.any fun l => s.storeAhead sid x.core l 1) then s
  else match (if first && kind != .regs then mxPlaces (kind == .sx || recPw r) (places.map fun p => (strict, p)) else none) with
    | some m => s.mxMeet sid arr rk c (places.filter Option.isNone).length m
    | none =>
      let badTiles := x.failedTiles (rows.flatMap fun q => rowKeys k q.1)
      let locs := found.map fun l => (l, (0#8 : Byte))
      let cut := if first && strict then (s.mxWrite sid x.core (c.who sid) c.id rk strict locs).2 else []
      if first && strict && (!badTiles.isEmpty || !cut.isEmpty) then
        (s.countUncor rk (badTiles.length + cut.length)).mxFail sid arr c.id 277
      else
        let dest := if first && kind != .regs then rows.map fun q => (q.2, s.rowPlaces rk kind scratch th fmt r q.2) else c.dest
        let chunk := (rows.drop (8 * c.chunk)).take 8
        let read := chunk.map fun q => (q, x.drainRow k q.1)
        let bad := x.failedTiles (chunk.flatMap fun q => rowKeys k q.1)
        let s := s.countUncor rk bad.length
        let outs := read.map fun e => (e.1, drainOut fmt (fmtSatf c.fmt) c.scale e.2)
        let s := if amx && !c.replay then
            s.modGroup sid c.gi fun g => RegWr.apply g (.am am (BitVec.ofNat 32 (maxMag (read.flatMap Prod.snd))))
          else s
        let s := if kind == .regs then
            s.modGroup sid c.gi fun g => applyAll g (outs.flatMap fun e => drainRegs fmt c.mask a e.1.2 e.2.1)
          else
            let oob := (chunk.flatMap fun q => (thUnits th fmt q.2).filterMap id).filter fun u =>
              (s.mxPlace rk kind .store scratch r u).isNone
            let bytes := outs.flatMap fun e =>
              let to_ := ((dest.find? fun d => d.1 == e.1.2).map Prod.snd).getD []
              (drainBytes th fmt e.1.2 e.2.1 e.2.2).filterMap fun b => (Sparse.find to_ b.1).map fun l => (l, b.2)
            let (s, part) := s.mxWrite sid x.core (c.who sid) c.id rk strict bytes
            (s.countUncor rk part.length).countOob rk oob.length
        let s := if clr then s.modSlice sid fun x =>
            let x := x.clearTiles (x.failedTiles (chunk.flatMap fun q => rowKeys k q.1))
            chunk.foldl (fun x q => loop (fun j x => x.putTile k q.1 j 0) 64 x) x
          else s
        s.modCmd sid arr c.id fun y =>
          { y with dest := dest, chunk := y.chunk + 1, bad := y.bad + 16 * bad.length, done := decide (rows.length ≤ 8 * (y.chunk + 1)) }
/-- The next command of an array carried out, an MDRAIN by one chunk (R199, R217). -/
def State.mxCommand (s : State) (sid arr : Nat) : State := match s.slice? sid, s.array? sid arr with
  | some x, some a => match a.working with
    | none => s
    | some c =>
      if c.batch.isSome || (c.reads.isSome && c.fetched.isNone) then s
      else match c.instr with
        | .mma .. => s.mxProduct sid arr x a c
        | .mmat .. => s.mxProduct sid arr x a c
        | .mmad .. => s.mxProduct sid arr x a c
        | .mfill _ f _ k _ _ row0 => s.mxFill sid arr c k ((c.tileRows f row0).map fun r => (r.1, r.2.map convF))
        | .mzero _ _ k _ row0 n => s.mxFill sid arr c k ((List.range n).map fun r => (row0 + r, List.replicate 64 0))
        | .mdrain _ f kd amx clr k r _ _ am row0 => s.mxDrain sid arr x c f kd amx clr k r am row0
        | _ => s
  | _, _ => s
/-- An MSWAP takes effect (R200). -/
def State.mxSwap (s : State) (sid arr : Nat) : State := match s.array? sid arr with
  | none => s
  | some a => match a.working with
    | none => s
    | some c => match c.instr with
      | .mswap .. => (s.modArray sid arr fun a => { a with active := 1 - a.active }).modCmd sid arr c.id fun y => { y with done := true }
      | _ => s
/-- The plane an MLDW writes (R198): its weights, and the flag where one is not finite. -/
def planeOf (f : MFmt) (o : MOperand) : Plane :=
  { fmt := f
    els := o.rows.foldl (fun m r => Sparse.putList 0 m (r.1 * 64) r.2.1) []
    exps := o.rows.foldl (fun m r => Sparse.putList 0 m (r.1 * 2) r.2.2) []
    nonfinite := o.rows.any fun r => anyNonFinite (rowVals f r.2.1 r.2.2), failed := [] }
/-- An MLDW writes the shadow plane once no row that latched it is left in the array (R200, R215). -/
def State.mxLoad (s : State) (sid arr : Nat) : State := match s.array? sid arr with
  | none => s
  | some a => match a.working with
    | none => s
    | some c => match c.instr, c.fetched with
      | .mldw .., some (o :: _) =>
        let sh := 1 - a.active
        if a.queue.any fun q => q.done && q.plane == some sh then s
        else
          let p := planeOf (fmtW c.fmt) o
          let s := s.modArray sid arr fun a => if sh == 0 then { a with p0 := p } else { a with p1 := p }
          s.modCmd sid arr c.id fun y => { y with done := true }
      | _, _ => s
/-- The status word of a command (R218, R209). -/
def MCmd.status (c : MCmd) : Nat :=
  if c.trap.isSome then 2 ^ 31
  else 2 ^ 31 + (if c.bad == 0 then 0 else 2 ^ 30) + min c.bad 255 * 2 ^ 16 + min c.skip 65535
/-- The first command of an array complete (R218): its status is written, and an operand trap becomes due (R209). -/
def State.mxComplete (s : State) (sid arr : Nat) : State := match s.slice? sid, s.array? sid arr with
  | some x, some a => match a.queue with
    | [] => s
    | c :: rest =>
      if !c.done then s
      else
        let s := s.modArray sid arr fun a => { a with queue := rest }
        let s := s.complete sid c.gi c.id [.g c.st (BitVec.ofNat 32 c.status)]
        match c.trap with
        | none => s
        | some cause =>
          s.oweStatus (c.who sid) (s.sliceRegion x) c.id cause c.pc c.dField c.status ((.g, c.st) :: c.dests) false
  | _, _ => s

end Sys2Proof.Machine
end

