-- ==== Sys2Proof/Machine/Queue.lean ====
section
/-!
DEFINITION. Queues and the register pool (spec/12_scheduling.md R263 to R271, R280; spec/04 R84 to R90; spec/19 R435, R436): the
queue engine's operations, SPAWN, QPUSH, QPOP, YIELD, RCLAIM and RGIVE.
-/

namespace Sys2Proof.Machine

/-! ### Queue headers (R263 to R266) -/

/-- Bytes of a slot by KIND (R263). -/
def slotBytes (kind : Nat) : Nat := match kind with
  | 0 => 32 | 1 => 128 | 2 => 32 | 3 => 32 | _ => 64
/-- KIND of a header. -/
def qhKind (h : Nat) : Nat := bitsAt h 32 4
/-- LOGCAP of a header. -/
def qhLog (h : Nat) : Nat := bitsAt h 40 8
/-- REGION of a header. -/
def qhTag (h : Nat) : Nat := bitsAt h 48 12
/-- PROD of a header. -/
def qhProd (h : Nat) : Bool := bitAt h 37
/-- CONS of a header. -/
def qhCons (h : Nat) : Bool := bitAt h 38
/-- Whether a header breaks a rule of R268's second step. -/
def qhBad (h : Nat) : Bool :=
  bitsAt h 0 32 != 0x45554551 || decide (4 < qhKind h) || decide (qhLog h < 1) || decide (16 < qhLog h) ||
  bitsAt h 224 288 != 0 || bitsAt h 60 4 != 0 || bitAt h 36 ||
  (qhProd h && !(qhKind h == 0 || qhKind h == 1 || qhKind h == 3)) ||
  (qhCons h && !(qhKind h == 0 || qhKind h == 2 || qhKind h == 4))
/-- Bytes of a queue block. -/
def blockBytes (kind lg : Nat) : Nat := 64 + 2 ^ lg * slotBytes kind
/-- CAP of an active queue. -/
def Queue.cap (q : Queue) : Nat := 2 ^ q.logcap
/-- The address of a ticket's slot (R263). -/
def Queue.slot (q : Queue) (i : Nat) : Nat := q.va + 64 + i % q.cap * slotBytes q.kind
/-- The key of the region a queue belongs to. -/
def Queue.rk (q : Queue) : Nat := regionKey q.vf q.tag
/-- An active queue by its tenant and address. -/
def State.queue? (s : State) (vf va : Nat) : Option Queue := s.queues.find? fun q => q.vf == vf && q.va == va
/-- An active queue replaced, and its counters written back to the header (R265). -/
def State.putQueue (s : State) (q : Queue) : State :=
  let s := { s with queues := updFirst (fun y => y.vf == q.vf && y.va == q.va) (fun _ => q) s.queues }
  s.devWrite q.vf (q.va + 8) (bytesOf 4 q.head.toNat ++ bytesOf 4 q.tail.toNat ++ bytesOf 4 q.free.toNat)
/-- ERR set in a queue's header, and the region's queue-error counter counted (R266, R276). -/
def State.queueErr (s : State) (q : Queue) : State :=
  let s := match s.devRead q.vf (q.va + 4) 1 with
    | some [b] => s.devWrite q.vf (q.va + 4) [b ||| 0x80#8]
    | _ => s
  s.countQerr q.rk
/-- The pusher of an entry that the host has published as the physical function (R275, R276); any other pusher is a region. -/
def pfPusher : Nat := 2 ^ 40
/-- A host producer's new HTAIL (R266). `pf` says that the host writes as the physical function: the entries published are noted as its own. -/
def State.hostTail (s : State) (q : Queue) (v : W32) (pf : Bool) : State :=
  let d := (v - q.tail).toNat
  if q.prod && decide (0 < d) && decide ((v - q.head).toNat ≤ q.cap) then
    let mine := if pf then (List.range d).map fun k => ((q.tail + BitVec.ofNat 32 k).toNat, pfPusher) else []
    s.putQueue { q with tail := v, rtail := v, htail := v, free := BitVec.ofNat 32 (q.cap - (v - q.head).toNat), pushers := q.pushers ++ mine }
  else (s.putQueue { q with htail := v }).queueErr q
/-- A host consumer's new HHEAD (R266). -/
def State.hostHead (s : State) (q : Queue) (v : W32) : State :=
  let d := (v - q.head).toNat
  if q.cons && decide (0 < d) && decide (d ≤ (q.tail - q.head).toNat) then
    s.putQueue { q with head := v, hhead := v, free := q.free + BitVec.ofNat 32 d }
  else (s.putQueue { q with hhead := v }).queueErr q
/-- A queue activated with the header read (R265). -/
def State.activate (s : State) (vf va h : Nat) : State :=
  let w := fun (lo : Nat) => BitVec.ofNat 32 (bitsAt h lo 32)
  let q : Queue := { vf := vf, va := va, kind := qhKind h, logcap := qhLog h, prod := qhProd h, cons := qhCons h, tag := qhTag h,
                     head := w 64, tail := w 96, free := w 128, rtail := w 96, htail := w 160, hhead := w 192, written := [], pushers := [] }
  let s := { s with queues := s.queues ++ [q] }
  let s := if q.prod && q.htail != q.tail then s.hostTail q q.htail false else s
  match s.queue? vf va with
  | none => s
  | some q => if q.cons && q.hhead != q.head then s.hostHead q q.hhead else s
/-- A queue made active if it is not, where its header is reachable and keeps the rules of R264. -/
def State.watchQueue (s : State) (vf va : Nat) : State :=
  if (s.queue? vf va).isSome || va % 64 != 0 then s
  else if !s.devOpen vf va 64 then s
  else match s.devRead vf va 64 with
    | none => s
    | some b => if qhBad (ofBytes b) || !s.devOpen vf va (blockBytes (qhKind (ofBytes b)) (qhLog (ofBytes b))) then s
      else s.activate vf va (ofBytes b)
/-- Written tickets published in order (R269). -/
def Queue.publish (q : Queue) : Nat → Queue
  | 0 => q
  | n + 1 => if q.written.contains q.tail.toNat then
      Queue.publish { q with written := q.written.filter fun t => t != q.tail.toNat, tail := q.tail + 1 } n
    else q
/-- An entry written to the next ticket of a queue with room (R269): its ticket is reserved, and it is published later. -/
def State.pushEntry (s : State) (q : Queue) (pusher : Nat) (bs : List Byte) : State :=
  let i := q.rtail
  let s := s.devWrite q.vf (q.slot i.toNat) bs
  s.putQueue { q with rtail := i + 1, free := q.free - 1, written := q.written ++ [i.toNat], pushers := q.pushers ++ [(i.toNat, pusher)] }
/-- The oldest entry of a queue with one, consumed once read (R269): its bytes, and whether its slot lies in a failed granule. -/
def State.popEntry (s : State) (q : Queue) : List Byte × Bool × State :=
  let at_ := q.slot q.head.toNat
  let n := slotBytes q.kind
  let bs := (s.devRead q.vf at_ n).getD (List.replicate n 0#8)
  (bs, s.devFailed q.vf at_ n,
   s.putQueue { q with head := q.head + 1, free := q.free + 1, pushers := q.pushers.filter fun e => e.1 != q.head.toNat })

/-! ### The queue instructions (R267 to R271, R435) -/

/-- Which queue instruction asks. -/
inductive QAsk where
  | spawn | push | pop
deriving DecidableEq, Repr, Inhabited

/-- What the checks of R268 find: a trap, an unreachable block, or the header. -/
inductive QFind where
  | trap (cause : Nat)
  | away
  | header (h : Nat)
deriving DecidableEq, Repr, Inhabited

/-- Whether the caller's region may use a queue (R268). -/
def State.queueRegionOk (s : State) (ask : QAsk) (kind rk q : Nat) : Bool :=
  (s.region? q).isSome && (match ask with
    | .spawn => s.isAncestor rk q
    | .push => if kind == 3 then s.isAncestor q rk else keyVf q == keyVf rk
    | .pop => keyVf q == keyVf rk)
/-- The checks of a queue instruction in order (R268). -/
def State.queueCheck (s : State) (ask : QAsk) (rk : Nat) (r : BitVec 128) : QFind :=
  let vf := keyVf rk
  let va := recBase r
  if r == 0 || !recPr r || !recPw r || decide (recWindow r < 64) || va % 64 != 0 then .trap 243
  else if !s.devOpen vf va 64 then .away
  else match s.devRead vf va 64 with
    | none => .away
    | some b =>
      let h := ofBytes b
      let kind := qhKind h
      let serves := match ask with
        | .spawn => kind == 1 && !qhProd h
        | .push => (kind == 0 || kind == 3) && !qhProd h
        | .pop => (kind == 0 || kind == 2 || kind == 4) && !qhCons h
      let sup := match s.region? rk with | some g => g.sup | none => false
      if qhBad h then .trap 240
      else if decide (recWindow r < blockBytes kind (qhLog h)) then .trap 243
      else if !serves then .trap 241
      else if ask == .push && kind == 3 && !sup then .trap 34
      else if !s.queueRegionOk ask kind rk (regionKey vf (qhTag h)) then .trap 242
      else if !s.devOpen vf va (blockBytes kind (qhLog h)) then .away
      else .header h
/-- The effect where the block is unreachable (R435): no ticket, gpP false, and cause 243 owed at the first read of a result. -/
def X.queueAway (x : X) (d gp : Nat) (s : State) : Res :=
  let (id, s) := s.fresh
  let s := x.result [.gp gp false] [(.gp, gp)] s
  .ok (s.modStrand x.cur.who fun t =>
    { t with deferred := t.deferred ++ [⟨id, 243, x.cur.pc, 0, 0, .reads [(.g, d), (.gp, gp)] false⟩] })
/-- What a push waits for before it is tried (R269, R271): a release at dev scope of all that its lanes have issued. -/
def X.pushWait (x : X) (s : State) : Option Block :=
  if x.loadsOpen s then some .loads else if s.storesStay x.x.core (x.t.stay.getD s.nextId) then some .stores else none
/-- What a queue operation waits for on the copy path (R230, R241): the strand's earlier commands that touch the bytes that it reads or writes. -/
def X.queueWait (x : X) (s : State) (reads writes : List (Nat × Nat)) : Option Block :=
  let tag := fun (l : List (Nat × Nat)) => l.map fun r => (false, r.1, r.2)
  match s.earlier x.x.core x.cur.who s.nextId (tag reads, tag writes) with
  | [] => none
  | ids => some (.copies ids)
/-- What a queue instruction waits for before the engine reads a header and writes its counters (R230): the strand's earlier commands on the bytes of them. One that finds no
header to read waits for nothing. -/
def X.headWait (x : X) (s : State) (r : BitVec 128) : Option Block :=
  if r == 0 || !recPr r || !recPw r || decide (recWindow r < 64) then none else x.queueWait s [(recBase r, 64)] [(recBase r + 8, 12)]
/-- A push by QPUSH or SPAWN of an entry (R269, R271). -/
def X.queuePush (x : X) (d gp : Nat) (q : Queue) (bs : List Byte) (s : State) : Res :=
  match x.queueWait s [] [(q.slot q.rtail.toNat, slotBytes q.kind)] with
  | some b => .wait b
  | none => .ok (x.result [.g d q.rtail, .gp gp true] [(.g, d), (.gp, gp)] (s.pushEntry q x.rk bs))
/-- A queue instruction that found no room or no entry (R269). -/
def X.queueFull (x : X) (gp : Nat) (s : State) : Res := .ok (x.result [.gp gp false] [(.gp, gp)] s)
/-- The queue a checked header belongs to, active from now on (R265). -/
def X.queueOf (x : X) (r : BitVec 128) (h : Nat) (s : State) : Queue × State :=
  let vf := keyVf x.rk
  let s := if (s.queue? vf (recBase r)).isSome then s else s.activate vf (recBase r) h
  ((s.queue? vf (recBase r)).getD default, s)
/-- Whether a job entry's reserved fields are zero (R272). -/
def entryClean (e : Nat) : Bool := bitsAt e 0 16 == 0 && bitsAt e 57 12 == 0 && bitsAt e 121 3 == 0
/-- SPAWN (spec/12 R268 to R272; spec/19 R435). -/
def execSpawn (h : Hdr) (d gp q e k : Nat) (s : State) : Host.Outcome State Fault Refusal :=
  issue (.spawn h d gp q e k) (fun x s =>
    let r := x.view0.breg q
    match x.headWait s r with
    | some b => .wait b
    | none => match s.queueCheck .spawn x.rk r with
    | .trap c => .trap c 0 0
    | .away => x.queueAway d gp s
    | .header hd => match x.pushWait s with
      | some b => .wait b
      | none =>
      let (qu, s) := x.queueOf r hd (s.drainCore x.x.core)
      let er := x.view0.breg e
      let off := x.gr k * 128
      if qu.free == 0 then x.queueFull gp s
      else if er == 0 || !recPr er || recBase er % 16 != 0 || decide (recWindow er < off + 128) then .trap 244 0 0
      else match x.queueWait s [(recAddr er off, 128)] [] with
      | some b => .wait b
      | none => match s.devRead (keyVf x.rk) (recAddr er off) 128 with
        | none => .trap 244 0 0
        | some bs =>
          let n := ofBytes bs
          if bitsAt n 124 12 != qu.tag || !entryClean n then .trap 244 0 0 else x.queuePush d gp qu bs s) s
/-- QPUSH (spec/12 R268, R269, R271; spec/19 R435). -/
def execQpush (h : Hdr) (d gp q sr : Nat) (s : State) : Host.Outcome State Fault Refusal :=
  issue (.qpush h d gp q sr) (fun x s =>
    let r := x.view0.breg q
    match x.headWait s r with
    | some b => .wait b
    | none => match s.queueCheck .push x.rk r with
    | .trap c => .trap c 0 0
    | .away => x.queueAway d gp s
    | .header hd => match x.pushWait s with
      | some b => .wait b
      | none =>
      let (qu, s) := x.queueOf r hd (s.drainCore x.x.core)
      if qu.free == 0 then x.queueFull gp s
      else x.queuePush d gp qu ((List.range 8).flatMap fun i => bytesOf 4 (x.gr (sr + i))) s) s
/-- QPOP (spec/12 R268, R269, R271; spec/19 R435). -/
def execQpop (h : Hdr) (d gp q : Nat) (s : State) : Host.Outcome State Fault Refusal :=
  issue (.qpop h d gp q) (fun x s =>
    let r := x.view0.breg q
    match x.headWait s r with
    | some b => .wait b
    | none => match s.queueCheck .pop x.rk r with
    | .trap c => .trap c 0 0
    | .away => x.queueAway d gp s
    | .header hd =>
      let n := if qhKind hd == 4 then 16 else 8
      if decide (x.gregs < d + n) then .trap 7 0 0
      else if d % n != 0 then .trap 15 0 0
      else
        let (qu, s) := x.queueOf r hd s
        if qu.tail == qu.head then x.queueFull gp s
        else match x.queueWait s [(qu.slot qu.head.toNat, slotBytes qu.kind)] [] with
        | some b => .wait b
        | none =>
          let (bs, bad, s) := s.popEntry qu
          let regs := (List.range n).map fun i => (Cls.g, d + i)
          if bad then
            let (id, s) := s.fresh
            let s := x.result [.gp gp true] ((.gp, gp) :: regs) s
            .ok (s.modStrand x.cur.who fun t =>
              { t with deferred := t.deferred ++ [⟨id, 245, x.cur.pc, 0, 0, .reads ((.gp, gp) :: regs) false⟩] })
          else
            let wrs := (List.range n).map fun i => RegWr.g (d + i) (BitVec.ofNat 32 (ofBytes ((bs.drop (4 * i)).take 4)))
            .ok (x.result (.gp gp true :: wrs) ((.gp, gp) :: regs) s)) s
/-- The budget a slice is given (R274, R279, R280, R300): its region's, or its owner's where it was stolen; 0 is no budget. -/
def State.sliceBudget (s : State) (x : Slice) : Option Nat :=
  let b := match s.job? x.jn with
    | none => 0
    | some j => match j.thief with
      | some o => o.budget
      | none => match s.region? j.rk with | some r => r.budget | none => 0
  if b == 0 then none else some b
/-- YIELD (spec/12 R280; spec/02 R31): the budget comes back in the cycle of its pass, after that pass has taken its own. -/
def execYield (h : Hdr) (s : State) : Host.Outcome State Fault Refusal :=
  issue (.yield h) (fun x s => .ok (s.modSlice x.cur.who.sid fun y =>
    { y with spends := y.spends ++ [⟨x.cur.cycle, x.cur.who.gi, x.cur.who.sn, x.cur.pc, some (s.sliceBudget y)⟩] })) s

/-! ### The register pool (R84 to R90) -/

/-- The reserve of a slice in a bay (R84). -/
def Slice.reserve (x : Slice) (bay : Nat) : Nat := Sparse.get 0 x.reserves bay
/-- A group's register count changed: registers that come are zero, values in registers that go are discarded (R88). -/
def Group.resize (g : Group) (n : Nat) : Group :=
  { g with n := n, v := g.v.filter fun e => decide (e.1 / 128 < min g.n n) }
/-- A claim granted (R88). -/
def Slice.grant (x : Slice) (p bay gi m : Nat) : Slice :=
  let x := { x with reserves := Sparse.put 0 x.reserves bay (x.reserve bay - m * p) }
  x.modGroup gi fun g => g.resize (g.n + m)
/-- The oldest claim of a bay. -/
def Slice.oldestClaim (x : Slice) (bay : Nat) : Option Claim := x.claims.find? fun c => c.bay == bay
/-- GrantWaiting of R88; `fuel` bounds the claims granted. -/
def State.grantWaiting (s : State) (sid bay : Nat) : Nat → State
  | 0 => s
  | fuel + 1 => match s.slice? sid with
    | none => s
    | some x => match x.oldestClaim bay with
      | none => s
      | some c =>
        let p := passesOf (s.widthOf x)
        if decide (x.reserve bay < c.m * p) then s
        else
          let n := match x.groups[c.gi]? with | some g => g.n + c.m | none => c.m
          let s := s.modSlice sid fun x => { x.grant p bay c.gi c.m with claims := x.claims.filter fun y => y.id != c.id }
          (s.complete sid c.gi c.id [.g c.d (BitVec.ofNat 32 n)]).grantWaiting sid bay fuel
/-- The effect of RCLAIM (R88). -/
def X.claimEff (x : X) (d m : Nat) (wait : Bool) (s : State) : Res :=
  let sid := x.cur.who.sid
  let bay := x.g.bay
  let p := passesOf x.width
  if x.underFork then .trap 224 0 0
  else if decide (256 < x.g.n + m) then .trap 225 0 0
  else if (x.x.oldestClaim bay).isNone && decide (m * p ≤ x.x.reserve bay) then
    .ok (x.result [.g d (BitVec.ofNat 32 (x.g.n + m))] [(.g, d)] (s.modSlice sid fun y => y.grant p bay x.cur.who.gi m))
  else if !wait then .ok (x.result [.g d 0] [(.g, d)] s)
  else
    let (id, s) := s.fresh
    let s := x.pend id [(.g, d)] (.claim m) s
    let s := s.modSlice sid fun y => { y with claims := y.claims ++ [⟨bay, x.cur.who.gi, id, d, m⟩] }
    .ok (s.putWait x.cur.who (.scoreboard .claim))
/-- RCLAIM (spec/04 R87, R88; spec/19 R436). -/
def execRclaim (h : Hdr) (d : Nat) (m : W32) (s : State) : Host.Outcome State Fault Refusal :=
  issue (.rclaim h d m) (fun x s => x.claimEff d m.toNat true s) s
/-- RCLAIM's `.try` form (spec/04 R87, R88; spec/19 R436). -/
def execRclaimTry (h : Hdr) (d : Nat) (m : W32) (s : State) : Host.Outcome State Fault Refusal :=
  issue (.rclaimTry h d m) (fun x s => x.claimEff d m.toNat false s) s
/-- Whether a result is pending to one of a range of v registers. -/
def Group.pendingV (g : Group) (clock first n : Nat) : Bool :=
  g.inflight.any (fun f => f.dst.any fun r => r.1 == .v && decide (first ≤ r.2) && decide (r.2 < first + n)) ||
  g.fixed.any fun f => decide (clock < f.at_) && f.wrs.any fun w => match w with
    | .v r _ _ => decide (first ≤ r) && decide (r < first + n)
    | _ => false
/-- RGIVE (spec/04 R87, R88; spec/19 R436). -/
def execRgive (h : Hdr) (d : Nat) (m : W32) (s : State) : Host.Outcome State Fault Refusal :=
  issue (.rgive h d m) (fun x s =>
    let m := m.toNat
    let n := x.g.n
    if x.underFork then .trap 224 0 0
    else if decide (n < m + 8) then .trap 225 0 0
    else if x.g.pendingV x.cur.cycle (n - m) m then .wait (.pool (n - m) m)
    else
      let sid := x.cur.who.sid
      let bay := x.g.bay
      let s := s.modSlice sid fun y =>
        let y := { y with reserves := Sparse.put 0 y.reserves bay (y.reserve bay + m * passesOf x.width) }
        y.modGroup x.cur.who.gi fun g => g.resize (n - m)
      let s := x.result [.g d (BitVec.ofNat 32 (n - m))] [(.g, d)] s
      .ok (s.grantWaiting sid bay Config.slotsPerBay)) s

end Sys2Proof.Machine
end

