-- ==== Sys2Proof/Machine/Results.lean ====
section
/-!
DEFINITION. Results that come after issue: scoreboarded results, loads that return, stores that are acknowledged, fences, watches
and parks, engine events, and trace and sample packets (spec/03 R66; spec/05 R101; spec/07 R142, R151; spec/08 R161 to R172;
spec/12 R281 to R285; spec/15 R321, R327; DESIGN CHOICE, notes/assumptions/3.md, 10.md). An event that is not enabled leaves the state as it is.
-/

namespace Sys2Proof.Machine

/-! ### Waiting strands become Ready (R28, R282) -/

/-- Whether what a strand waits for is still to come (R28, R65, R103, R166, R170, R282). -/
def State.waitsOn (s : State) (_ : StrandRef) (x : Slice) (g : Group) (t : Strand) (b : Block) : Bool := match b with
  | .operands l => g.pendingOn s.clock t l
  | .order paths => t.fences.any fun f => match f.path with | none => true | some p => paths.contains p
  | .loads => !(g.loadsOf t.c.mask).isEmpty
  | .stores => s.storesStay x.core (t.stay.getD s.nextId)
  | .heldEmpty => !t.c.held.isEmpty
  | .heldFull => !t.c.held.isEmpty
  | .channel n => decide (Config.channelEntries ≤ (s.chan x.core n).entries.length)
  | .copies ids => ids.any fun id => (s.core x.core).chans.any (fun c => c.entries.any fun e => e.id == id) || (s.core x.core).upd.any fun u => u.id == id
  | .claim => g.inflight.any fun f => match f.body with | .claim _ => true | _ => false
  | .record => g.inflight.any fun f => match f.body with | .scload b .. => decide (b < 16) | _ => false
  | .result id => (g.inflight? id).isSome
  | .answer id => match g.inflight? id with
    | none => false
    | some f => match f.body with
      | .scload _ _ _ _ r e => r.isNone && e.isNone
      | .ask _ _ r _ => r.isNone
      | _ => false
  | .pool first n => g.pendingV s.clock first n
  | .jwait => match t.c.own with
    | [] => false
    | f :: _ => match g.frames.find? fun (y : Frame) => y.id == f with
      | none => false
      | some f => !g.canClose t f
/-- A strand in Scoreboard wait or Frame wait becomes Ready where what it waits for has come; a JWAIT closes its frame (R102). -/
def State.wakeStrand (s : State) (r : StrandRef) : State :=
  match s.slice? r.sid with
  | none => s
  | some x => match x.groups[r.gi]? with
    | none => s
    | some g => match g.strand? r.sn with
      | none => s
      | some t =>
        let go := fun (b : Block) =>
          if s.waitsOn r x g t b then s
          else
            let s : State := match b, t.c.own with
              | .jwait, f :: _ => (match g.frames.find? fun (y : Frame) => y.id == f with
                | some f => s.modGroup r.sid r.gi fun g => g.closeFrame r.sn f
                | none => s)
              | _, _ => s
            s.makeReady r
        match t.st with
        | .scoreboard b => go b
        | .frame b => go b
        | _ => s
/-- The strands of a group that may become Ready do (R282). -/
def State.wakeGroup (s : State) (sid gi : Nat) : State := match s.group? sid gi with
  | none => s
  | some g => g.strands.foldl (fun s t => s.wakeStrand ⟨sid, gi, t.sn⟩) s
/-- The strands of every group of a core that may become Ready do. -/
def State.wakeCore (s : State) (core : Nat) : State :=
  s.slices.foldl (fun s e => if e.2.core == core && e.2.st == .resident then
    (List.range e.2.groups.length).foldl (fun s gi => s.wakeGroup e.1 gi) s else s) s

/-! ### Scoreboarded results (R66, R101) -/

/-- Where a pending result is. -/
def State.findInflight (s : State) (id : Nat) : Option (Nat × Nat × Inflight) :=
  firstSome (fun (e : Nat × Slice) => firstSome (fun gi => match (e.2.groups[gi]?).bind fun g => g.inflight? id with
    | some f => some (e.1, gi, f)
    | none => none) (List.range e.2.groups.length)) s.slices
/-- Whether a slice is resident. -/
def State.resident (s : State) (sid : Nat) : Bool := match s.slice? sid with
  | some x => x.st == .resident
  | none => false
/-- SCOREBOARD_RESULT_WRITE (R66, R71, R101): a result whose time has come is written. Behind a JOIN the loads of the continuation follow what the arms had issued before
their deposits (R104; for every later load of it, DEDUCED, notes/assumptions/19.md). -/
def State.writeResult (s : State) (id : Nat) : State := match s.findInflight id with
  | none => s
  | some (sid, gi, f) =>
    if !s.resident sid then s
    else match f.body with
      | .timed due wrs => if decide (s.clock < due) then s else (s.complete sid gi id wrs).wakeGroup sid gi
      | .join frame slot vd mask issued => match (s.group? sid gi).bind fun g => g.frames.find? fun y => y.id == frame with
        | none => (s.complete sid gi id []).wakeGroup sid gi
        | some fr => match joinResult s.clock fr slot vd mask issued with
          | none => s
          | some wrs =>
            let s := s.modStrand ⟨sid, gi, f.sn⟩ fun t => { t with fences := t.fences ++ fr.behind slot mask }
            (s.complete sid gi id wrs).wakeGroup sid gi
      | _ => s
/-- SCOREBOARD_RESULT_WRITE (spec/03 R66). -/
def execScoreboardResultWrite (id : Nat) (s : State) : Host.Outcome State Fault Refusal := .next (s.writeResult id)

/-! ### Loads and atomics return (R142, R151, R172, R358, R414) -/

/-- Whether a result is of the kind that R142 keeps in issue order. -/
def Inflight.ordered (f : Inflight) : Bool := match f.body with
  | .mem _ => true
  | .hold => true
  | .scload b .. => decide (b < 16)
  | _ => false
/-- Whether no earlier load of the strand is still to be written (R142). -/
def Group.isOldest (g : Group) (f : Inflight) : Bool :=
  match g.inflight.find? fun y => y.sn == f.sn && y.ordered with
  | some y => y.id == f.id
  | none => false
/-- A value widened to a destination of its type (R414). -/
def widen (ty : MemTy) (v : Nat) : Nat := match ty with
  | .int t => if t.signed then patternOf (max 32 t.width) (signedOf t.width v) else v
  | .b128 => v
/-- The writes of a returned load or atomic (R284, R358, R414): an out-of-bounds lane of an atomic keeps its register. -/
def MemOp.writes (m : MemOp) : List RegWr :=
  let n := m.ty.regs
  m.acc.flatMap fun a => match a.val with
    | none => []
    | some v =>
      let v := widen m.ty v
      if m.atom.isSome && a.loc.isNone then []
      else (List.range n).map fun i =>
        let w := BitVec.ofNat 32 (v / 2 ^ (32 * i))
        if m.watch then .g (m.d + i) w else .v (m.d + i) a.lane w
/-- A sample whose accesses are over is done (R327). -/
def State.sampleDone (s : State) (core : Nat) (smp : Option Nat) : State := match smp with
  | none => s
  | some id => s.modCore core fun k => { k with trace := { k.trace with
      samples := updFirst (fun m => m.id == id) (fun m => { m with done := true }) k.trace.samples } }
/-- A deferred trap of a pending result or a fence (R94, R96, R306): owed by its strand, or where that has ended or is a part of a serialised fork by the continuation of the
frame that it names, and by that strand once it has closed the frame. -/
def Group.owe (g : Group) (sn : Nat) (heir : Option (Nat × Nat)) (d : Deferred) : Group := match heir with
  | none => g.modStrand sn fun t => { t with deferred := t.deferred ++ [d] }
  | some (f, n) =>
    if g.strands.any fun t => t.continues f then g.handOver f [] [d] else g.modStrand n fun t => { t with deferred := t.deferred ++ [d] }
/-- LOAD_DATA_RETURN of a load or atomic that is presented (R142): once each lane has its value, and the shutter window it met has closed (R151), its registers are
written if it is the oldest of its strand. -/
def State.returnMem (s : State) (sid gi : Nat) (x : Slice) (g : Group) (f : Inflight) (m : MemOp) : State :=
  let core := x.core
  let peerOpen := m.acc.any fun a => a.val.isNone && (match a.loc with | some l => l.isPeer | none => false)
  let shut := m.shut && m.acc.any fun a => match a.loc with | some (.mem pa) => shuttered s.clock pa | _ => false
  if !m.started || peerOpen || shut || !g.isOldest f then s
  else
    let s := s.complete sid gi f.id m.writes
    let s := s.sampleDone core m.sample
    let s : State := match m.err with
      | none => s
      | some (cause, lane, detail) => s.modGroup sid gi fun g => g.owe f.sn f.heir ⟨f.id, cause, f.cpc, lane, detail, .reads f.dst false⟩
    s.wakeGroup sid gi
/-- LOAD_DATA_RETURN (R142): a load or atomic that had to follow others is presented once they are complete, and the oldest load, atomic or scale record of its
strand returns. -/
def State.loadReturn (s : State) (id : Nat) : State := match s.findInflight id with
  | none => s
  | some (sid, gi, f) => match s.slice? sid with
    | none => s
    | some x =>
      if x.st != .resident then s
      else match f.body with
        | .mem _ =>
          let s := s.startMem sid gi x.core id
          (match s.group? sid gi, s.memOp? sid gi id with
            | some g, some (f, m) => s.returnMem sid gi x g f m
            | _, _ => s)
        | .scload _ _ _ _ got err =>
          if !(match s.group? sid gi with | some g => g.isOldest f | none => false) || got.isNone && err.isNone then s
          else (s.recordArrives sid gi f).wakeGroup sid gi
        | _ => s
/-- LOAD_DATA_RETURN (spec/07 R142). -/
def execLoadDataReturn (id : Nat) (s : State) : Host.Outcome State Fault Refusal := .next (s.loadReturn id)

/-! ### Stores and fences (R161, R166, R170, R171, R173) -/

/-- STORE_ACKNOWLEDGEMENT (R161, R166): a store moves on towards its home point once what it must follow is complete; a store to
another module goes out then, and waits for the answer of that module. -/
def State.acknowledge (s : State) (core id : Nat) : State := match (s.core core).buf.find? fun e => e.id == id with
  | none => s
  | some e =>
    if e.loc.isPeer then s.sendStore core e.req
    else if (s.core core).buf.any fun y => !y.loc.isPeer && decide (y.id ≤ e.id) && s.holdsBack y then s
    else
      let s := s.advanceStore core e
      let s := match e.sample with
        | some n => if (s.core core).buf.any fun y => y.sample == some n then s else s.sampleDone core (some n)
        | none => s
      s.wakeCore core
/-- STORE_ACKNOWLEDGEMENT (spec/08 R161). -/
def execStoreAcknowledgement (core id : Nat) (s : State) : Host.Outcome State Fault Refusal := .next (s.acknowledge core id)
/-- A FENCE at sys scope reads and clears sr.rerr (R171): the counting form's result, and the deferred trap under strictness. -/
def State.fenceReads (s : State) (r : StrandRef) (f : FenceCond) : State :=
  match s.slice? r.sid, s.group? r.sid r.gi with
  | some x, some g =>
    let n := g.rerr
    let strict := s.strictRegion (s.sliceRegion x) || (match g.rerrKind with | some (_, b, _) => b | none => false)
    let s := s.modGroup r.sid r.gi fun g => { g with rerr := 0, rerrKind := none }
    let s := match f.count with
      | some (id, d) => s.complete r.sid r.gi id [.g d (BitVec.ofNat 32 n)]
      | none => s
    match g.rerrKind with
    | some (kind, _, va) =>
      if n == 0 || !strict then s
      else
        let (key, s) := s.fresh
        s.modGroup r.sid r.gi fun g => g.owe r.sn f.heir ⟨key, 144 + kind, f.cpc, 0, va, .next⟩
    | none => s
  | _, _ => s
/-- FENCE_CONDITION_MET (R170, R171, R173): the conditions of a strand that hold are gone. -/
def State.fenceMet (s : State) (r : StrandRef) : State := match s.slice? r.sid, s.strand? r with
  | some x, some t =>
    let met := t.fences.filter fun f => f.ids.all fun id => s.doneAt r.sid r.gi x.core f.scope id
    let s := s.modStrand r fun t => { t with fences := t.fences.filter fun f => !met.contains f }
    let s := (met.filter FenceCond.sys).foldl (fun s f => s.fenceReads r f) s
    s.wakeGroup r.sid r.gi
  | _, _ => s
/-- FENCE_CONDITION_MET (spec/08 R170). -/
def execFenceConditionMet (st : StrandRef) (s : State) : Host.Outcome State Fault Refusal := .next (s.fenceMet st)

/-! ### Watches and parks (R284, R285) -/

/-- The parked strand of a group, with its timeout and its pending result. -/
def Group.parked? (g : Group) : Option (Nat × Option Nat × Nat) := firstSome (fun (t : Strand) => match t.st with
  | .parked u id => some (t.sn, u, id)
  | _ => none) g.strands
/-- A parked strand wakes with a cause (R285): gD is written and the strand is Ready. -/
def State.unpark (s : State) (g : GroupRef) (sn id n : Nat) (w : Option Watch) : State :=
  let d := match (s.group? g.sid g.gi).bind fun y => y.inflight? id with
    | some f => (f.dst.map fun (r : Cls × Nat) => RegWr.g r.2 (BitVec.ofNat 32 n))
    | none => []
  let s := (s.complete g.sid g.gi id d).modGroup g.sid g.gi fun y => { y with watch := w }
  s.makeReady ⟨g.sid, g.gi, sn⟩
/-- WATCH_FIRE (R284, R285): a parked strand whose watch has fired wakes with cause 1. An evicted watch fires no more, so one that is both has fired first. -/
def State.watchFired (s : State) (g : GroupRef) : State := match s.group? g.sid g.gi with
  | none => s
  | some y => match y.parked?, y.watch with
    | some (sn, _, id), some w =>
      if w.fired && s.resident g.sid then s.unpark g sn id 1 (some { w with fired := false }) else s
    | _, _ => s
/-- WATCH_FIRE (spec/12 R284). -/
def execWatchFire (g : GroupRef) (s : State) : Host.Outcome State Fault Refusal := .next (s.watchFired g)
/-- MWAIT_TIMEOUT (R285): a parked strand wakes with cause 2, unless its watch has fired or was evicted before. -/
def State.parkTimeout (s : State) (g : GroupRef) : State := match s.group? g.sid g.gi with
  | none => s
  | some y => match y.parked? with
    | some (sn, some u, id) =>
      let first := match y.watch with | some w => w.fired || w.evicted | none => false
      if decide (u ≤ s.clock) && !first && s.resident g.sid then s.unpark g sn id 2 y.watch else s
    | _ => s
/-- MWAIT_TIMEOUT (spec/12 R285). -/
def execMwaitTimeout (g : GroupRef) (s : State) : Host.Outcome State Fault Refusal := .next (s.parkTimeout g)
/-- The groups of the module with a parked strand whose watch on a die was evicted before it fired. -/
def State.evictedParked (s : State) (die : Nat) : List GroupRef :=
  s.slices.flatMap fun e => if e.2.st != .resident then [] else (List.range e.2.groups.length).filterMap fun gi =>
    match e.2.groups[gi]? with
    | some y => match y.parked?, y.watch with
      | some _, some w => if w.evicted && !w.fired && (match w.line with | some l => paDie (l * 128) == die | none => false) then
          some ⟨e.1, gi⟩ else none
      | _, _ => none
    | none => none
/-- WATCH_EVICTION (spec/12 R285): the strands parked on watches of a die that were evicted wake with cause 3. -/
def execWatchEviction (die : Nat) (s : State) : Host.Outcome State Fault Refusal :=
  .next ((s.evictedParked die).foldl (fun s g => match (s.group? g.sid g.gi).bind Group.parked? with
    | some (sn, _, id) => s.unpark g sn id 3 none
    | none => s) s)

/-! ### Engines -/

/-- COPY_ENTRY_FREE (spec/10 R227): strands that wait for an entry of a channel with room become Ready. -/
def execCopyEntryFree (core _ch : Nat) (s : State) : Host.Outcome State Fault Refusal := .next (s.wakeCore core)
/-- COPY_BYTE_PROGRESS (spec/10 R228). -/
def execCopyByteProgress (core ch count : Nat) (s : State) : Host.Outcome State Fault Refusal :=
  .next (s.copyRun core ch count 1048576)
/-- COPY_COMPLETE (spec/10 R229). -/
def execCopyComplete (core ch : Nat) (s : State) : Host.Outcome State Fault Refusal := .next ((s.copyFinish core ch).wakeCore core)
/-- ARRAY_COMMAND (spec/09 R199). -/
def execArrayCommand (sid arr : Nat) (s : State) : Host.Outcome State Fault Refusal := .next (s.mxCommand sid arr)
/-- MATRIX_OPERAND_FETCH (spec/09 R209). -/
def execMatrixOperandFetch (sid arr : Nat) (s : State) : Host.Outcome State Fault Refusal := .next (s.mxFetch sid arr)
/-- PLANE_SWAP_EFFECT (spec/09 R200). -/
def execPlaneSwapEffect (sid arr : Nat) (s : State) : Host.Outcome State Fault Refusal := .next (s.mxSwap sid arr)
/-- SHADOW_PLANE_WRITE (spec/09 R200). -/
def execShadowPlaneWrite (sid arr : Nat) (s : State) : Host.Outcome State Fault Refusal := .next (s.mxLoad sid arr)
/-- The strands of a slice's core that may become Ready do. -/
def State.wakeSlice (s : State) (sid : Nat) : State := match s.slice? sid with
  | some x => s.wakeCore x.core
  | none => s
/-- MATRIX_COMMAND_COMPLETE (spec/09 R218). -/
def execMatrixCommandComplete (sid arr : Nat) (s : State) : Host.Outcome State Fault Refusal :=
  .next ((s.mxComplete sid arr).wakeSlice sid)
/-- UPDATE_SPAN (spec/10 R238). -/
def execUpdateSpan (core : Nat) (s : State) : Host.Outcome State Fault Refusal := .next (s.updStep core)
/-- UPDATE_COMPLETE (spec/10 R240). -/
def execUpdateComplete (core : Nat) (s : State) : Host.Outcome State Fault Refusal := .next ((s.updFinish core).wakeCore core)
/-- COLLECTIVE_COMPLETE (spec/16 R341; spec/17 R373). -/
def execCollectiveComplete (key : HKey) (s : State) : Host.Outcome State Fault Refusal := .next (s.collComplete key)
/-- COLLECTIVE_TIMEOUT (spec/16 R342; spec/17 R373). -/
def execCollectiveTimeout (key : HKey) (g : GroupRef) (s : State) : Host.Outcome State Fault Refusal := .next (s.collTimeout key g)
/-- SHUTTER_WINDOW (spec/07 R151): whether a bank group's window is open follows from the clock, which LOAD_DATA_RETURN and
MATRIX_OPERAND_FETCH read, so the event itself changes nothing. -/
def execShutterWindow (_die _group : Nat) (s : State) : Host.Outcome State Fault Refusal := .next s

/-! ### Trace and sample packets (R321, R326, R327) -/

/-- TRACE_PACKET_COMMIT (R321, R326): the oldest packet's bytes are written at the ring, and TWP advances. Whether a packet fits is settled when it is put into the stream;
where the host takes room back after that, it waits for room (DESIGN CHOICE, notes/assumptions/22.md). -/
def State.commitPacket (s : State) (core : Nat) : State :=
  let k := s.core core
  match k.trace.packets with
  | [] => s
  | (_, p) :: rest =>
    let size := ringBytes k
    let d := k.dbg
    if decide (d.twp.toNat + p.length ≤ d.trp.toNat + size) then
      let base := d.tbase.toNat / 4096 * 4096
      let s := (p.zip (List.range p.length)).foldl (fun s b =>
        let pa := base + (d.twp.toNat + b.2) % size
        if paValid pa && !paIsWs pa then s.poke pa [b.1] else s) s
      s.modCore core fun k => { k with
        dbg := { k.dbg with twp := k.dbg.twp + BitVec.ofNat 64 p.length }
        trace := { k.trace with packets := rest } }
    else s
/-- TRACE_PACKET_COMMIT (spec/15 R321). -/
def execTracePacketCommit (core : Nat) (s : State) : Host.Outcome State Fault Refusal := .next (s.commitPacket core)
/-- Whether the accesses of a sample are over. -/
def State.sampleOver (s : State) (core id : Nat) : Bool :=
  !(s.core core).buf.any (fun e => e.sample == some id) &&
    !s.slices.any fun e => e.2.groups.any fun g =>
      (g.strands.any fun t => t.c.held.any fun h => h.sample == some id) || g.inflight.any fun f => match f.body with
        | .mem m => m.sample == some id
        | _ => false
/-- The 46 bytes of a sample packet (R327). The waited cycles and the lane that returned last are free values
(DESIGN CHOICE, notes/assumptions/16.md). -/
def sampleBytes (m : Sample) : List Byte :=
  let lanes := m.reached.lanes
  let wait := fun (n : Nat) => bytesOf 2 (Config.freeValue m.id (3 + n)).toNat
  let last := if lanes.isEmpty then 0xFF else lanes.getD ((Config.freeValue m.id 6).toNat % lanes.length) 0
  [0xC2#8] ++ bytesOf 8 m.clock ++ bytesOf 2 m.gid ++ bytesOf 1 m.sn ++ bytesOf 8 m.pc ++ bytesOf 16 m.mask.toNat ++
    bytesOf 1 (min 255 m.lanes) ++ bytesOf 1 (min 255 m.sectors) ++ bytesOf 1 (min 255 m.replays) ++
    wait 0 ++ wait 1 ++ wait 2 ++ bytesOf 1 last
/-- SAMPLE_PACKET (R327): the packet of a sample whose last line is complete. -/
def State.samplePut (s : State) (core id : Nat) : State := match (s.core core).trace.samples.find? fun m => m.id == id with
  | none => s
  | some m =>
    if !s.sampleOver core id then s
    else (s.modCore core fun k =>
      { k with trace := { k.trace with samples := k.trace.samples.filter fun y => y.id != id } }).putOne core m.gid m.clock (sampleBytes m)
/-- SAMPLE_PACKET (spec/15 R327). -/
def execSamplePacket (core id : Nat) (s : State) : Host.Outcome State Fault Refusal := .next (s.samplePut core id)

end Sys2Proof.Machine
end

