-- ==== Sys2Proof/Machine/Held.lean ====
section
/-!
DEFINITION. The release of a continuation's held queue (spec/05 R103, R105): its entries are presented in issue order.
-/

namespace Sys2Proof.Machine

/-- The meaning of an instruction that a continuation can hold, as it is presented (R103). -/
def presentHeld (i : Instr) (s : State) : Host.Outcome State Fault Refusal := match i with
  | .ld h ty o x b d imm => execLd h ty o x b d imm s
  | .st h ty o x b d imm => execSt h ty o x b d imm s
  | .atom h op ty o x b d c imm => execAtom h op ty o x b d c imm s
  | .atoms h op ty o x d c imm => execAtoms h op ty o x d c imm s
  | .lds h ty o x d imm => execLds h ty o x d imm s
  | .sts h ty o x d imm => execSts h ty o x d imm s
  | .ldk h ty d imm => execLdk h ty d imm s
  | .stk h ty d imm => execStk h ty d imm s
  | .ldw h ty x b d imm => execLdw h ty x b d imm s
  | .pref h x b imm => execPref h x b imm s
  | .fence h acq rel scope => execFence h acq rel scope s
  | .fenceCounting h acq rel d => execFenceCounting h acq rel d s
  | .xfence h p1 p2 scope => execXfence h p1 p2 scope s
  | .cpy h esz ch d dst src l pv => execCpy h esz ch d dst src l pv s
  | .cpyt h esz ch d dst src l pv => execCpyt h esz ch d dst src l pv s
  | .cpkill h ch d => execCpkill h ch d s
  | .optstep h bf d bW bG p bM bV => execOptstep h bf d bW bG p bM bV s
  | .coll h w d bDst bSrc l hH => execColl h w d bDst bSrc l hH s
  | .mma h kind d a sr row0 => execMma h kind d a sr row0 s
  | .mmat h kind d a sr row0 => execMmat h kind d a sr row0 s
  | .mmad h kind kX kW thW thX sr c0 => execMmad h kind kX kW thW thX sr c0 s
  | .mldw h kind m a sr => execMldw h kind m a sr s
  | .mswap h kind m sr => execMswap h kind m sr s
  | .mdrain h fmt kind amx clr k a sr sc am row0 => execMdrain h fmt kind amx clr k a sr sc am row0 s
  | .mzero h kind k sr row0 count => execMzero h kind k sr row0 count s
  | .mfill h fmt kind k a sr row0 => execMfill h fmt kind k a sr row0 s
  | _ => .next { s with cur := none }
/-- Whether a strand's held queue is released (R103): no own frame has a live arm, where a continuation that has forked again has several
(DEDUCED, notes/assumptions/19.md). -/
def Group.released (g : Group) (t : Strand) : Bool :=
  t.c.own.all fun f => g.frames.all fun y => y.id != f || y.arms == 0
/-- The cursor with which an entry is presented. -/
def heldCursor (r : StrandRef) (clock : Nat) (e : Held) : Cursor :=
  { who := r, pc := e.pc, nextPc := e.pc, cycle := clock, charge := false, trace := false, second := false, pairPc := none, passes := 0,
    src := none, met := none, held := some e }
/-- The oldest entry of a released held queue presented (R103), unless a fence keeps it back or its path has no room. -/
def State.releaseHeld (s : State) (r : StrandRef) : State := match s.group? r.sid r.gi, s.strand? r with
  | some g, some t => match t.c.held with
    | [] => s
    | e :: rest =>
      if !g.released t || t.fenced e.instr || !s.resident r.sid then s
      else
        let s1 := s.modStrand r fun t => { t with c := { t.c with held := rest } }
        match presentHeld e.instr { s1 with cur := some (heldCursor r s.clock e) } with
        | .next s' => if s'.cur.isSome then s else s'.wakeGroup r.sid r.gi
        | _ => s
  | _, _ => s
/-- HELD_QUEUE_RELEASE (spec/05 R103). -/
def execHeldQueueRelease (st : StrandRef) (s : State) : Host.Outcome State Fault Refusal := .next (s.releaseHeld st)

end Sys2Proof.Machine
end

