-- ==== Sys2Proof/Machine/Retire.lean ====
section
/-!
DEFINITION. How groups, slices and jobs end: retirement, kills, completion entries and ownership words (spec/02 R29, R32, R33, R37;
spec/11 R258; spec/12 R286, R287; spec/13 R297, R298, R302; spec/14 R311, R313).
-/

namespace Sys2Proof.Machine

/-! ### Ownership words (R297, R298) -/

/-- An ownership word of its fields. -/
def ownWord (gen owner st : Nat) (failed : Bool) : Nat :=
  gen % 2 ^ 32 * 2 ^ 32 + owner * 2 ^ 16 + (if failed then 4 else 0) + st
/-- STATE of a word. -/
def ownState (w : Nat) : Nat := w % 4
/-- OWNER of a word. -/
def ownChip (w : Nat) : Nat := bitsAt w 16 12
/-- GEN of a word. -/
def ownGen (w : Nat) : Nat := bitsAt w 32 32
/-- Whether some sequence of transitions of R298 can produce a word of an owner `own` (R297): its reserved fields are zero, FAILED stands with Done alone, and
GEN and OWNER are those with which the state is reached. A thief is another module than the owner. -/
def ownValid (own w : Nat) : Bool :=
  let mine := ownChip w == own
  bitsAt w 28 4 == 0 && bitsAt w 3 13 == 0 && (!bitAt w 2 || ownState w == 3) && (match ownState w with
    | 0 => ownGen w == 1 && mine
    | 1 => ownGen w == 2 && !mine
    | 2 => ownGen w == (if mine then 2 else 3)
    | _ => (ownGen w == 2 && mine && bitAt w 2) || (ownGen w == 3 && (mine || bitAt w 2)) || (ownGen w == 4 && !mine))
/-- The word of a slice of a job with an ownership table. -/
def State.ownRead (s : State) (j : Job) (i : Nat) : Option Nat := match j.table with
  | none => none
  | some va => (s.devRead (keyVf j.rk) (va + 8 * i) 8).map ofBytes
/-- An event with which the owner changes a word of its own table (R298): it dispatches the slice, the slice has ended on the owner, the job is killed or its
domain failed, or the holder is unreachable. -/
inductive OwnEvent where
  | dispatch
  | over (failed : Bool)
  | killed
  | lost
deriving DecidableEq, Repr, Inhabited
/-- The next word, where the event is one that the table of R298 lists for the word's state. -/
def ownNext (own w : Nat) (e : OwnEvent) : Option Nat :=
  let next := fun (chip st : Nat) (failed : Bool) => some (ownWord (ownGen w + 1) chip st failed)
  match ownState w, e with
  | 0, .dispatch => next own 2 false
  | 0, .killed => next own 3 true
  | 1, .killed => next (ownChip w) 3 true
  | 1, .lost => next (ownChip w) 3 true
  | 2, .over failed => if ownChip w == own then next own 3 failed else none
  | 2, .lost => next (ownChip w) 3 true
  | _, _ => none
/-- What an owner's change of a word met: no table, a word that no transition produces, or the old word, which it changed or left. -/
inductive OwnSeen where
  | absent
  | broken
  | kept (w : Nat)
  | changed (w : Nat)
deriving DecidableEq, Repr, Inhabited
/-- A compare-and-swap of the owner's hub on a word of its table (R297, R298): it expects the word as it stands and writes the next one. A word that no transition
produces acts as Done with FAILED and stays. -/
def State.ownMove (s : State) (j : Job) (i : Nat) (e : OwnEvent) : OwnSeen × State := match j.table, s.ownRead j i with
  | some va, some w =>
    if !ownValid s.chip w then (.broken, s)
    else match ownNext s.chip w e with
      | some n => (.changed w, s.devWrite (keyVf j.rk) (va + 8 * i) (bytesOf 8 n))
      | none => (.kept w, s)
  | _, _ => (.absent, s)

/-! ### Jobs (R37, R286, R287) -/

/-- The 32 bytes of a completion entry (R286). -/
def entryOf (time job : Nat) (c : Completion) : List Byte :=
  bytesOf 32 (c.kind + (if c.fail then 4 else 0) + (if c.late then 8 else 0) + c.cause * 2 ^ 39 + c.chip * 2 ^ 48 +
    job % 2 ^ 32 * 2 ^ 60 + c.stolen % 2 ^ 25 * 2 ^ 92 + c.lateN % 2 ^ 25 * 2 ^ 117 + c.doneN % 2 ^ 25 * 2 ^ 142 +
    c.failN % 2 ^ 25 * 2 ^ 167 + time % 2 ^ 64 * 2 ^ 192)
/-- JOB_COMPLETE (R37): every slice is Retired or Failed, the job entry joins the entries that wait to be written, and h1 goes with what lagged on it (R293). -/
def State.jobOver (s : State) (jn : Nat) : State := match s.job? jn with
  | none => s
  | some j =>
    if j.finished || decide (j.doneN + j.failN < j.slices) then s
    else
      let (seq, s) := s.fresh
      let c : Completion := { seq := seq, cq := j.cq, kind := 2, fail := decide (0 < j.failN), late := false, cause := j.cause, chip := s.chip,
                              job := j.ticket, stolen := j.stolenN, lateN := j.lateN, doneN := j.doneN, failN := j.failN }
      (s.modJob jn fun j => { j with finished := true, completions := j.completions ++ [c] }).freeHarness (.job jn)
/-- A slice of a job counted as Retired or Failed, with its entry, which a stolen slice always has (R32, R37, R287). -/
def State.sliceCounted (s : State) (jn index : Nat) (failed late : Bool) (cause chip : Nat) (stolen : Bool) : State :=
  match s.job? jn with
  | none => s
  | some j =>
    let (seq, s) := s.fresh
    let c : Completion := { seq := seq, cq := j.cq, kind := 1, fail := failed, late := late, cause := cause, chip := chip, job := j.ticket,
                            stolen := 0, lateN := 0, doneN := index, failN := 0 }
    let s := s.modJob jn fun j =>
      { j with doneN := j.doneN + (if failed then 0 else 1), failN := j.failN + (if failed then 1 else 0)
               lateN := j.lateN + (if late then 1 else 0)
               cause := if failed && j.cause == 0 then cause else j.cause
               completions := if j.cps || stolen then j.completions ++ [c] else j.completions }
    (if late then s.countDmiss j.rk else s).jobOver jn
/-- The matrix entries of a slice taken off channel 3 (R209). -/
def State.dropFetches (s : State) (core sid : Nat) : State :=
  s.modChan core 3 fun ch => { ch with entries := ch.entries.filter fun e => e.matrix.isNone || e.who.sid != sid }
/-- SLICE_RETIRE (R33, R37): a slice whose groups have all ended is Retired, or Failed where some group was killed; its resources are
free. Engine commands that have been accepted run on (R29, R313), so the record keeps the bytes of its scratchpad and tiles for them
(DEDUCED, notes/assumptions/15.md). A stolen slice reports to its owner later (R301); a local one whose ownership word no transition produces is Failed with cause 373 (R297). -/
def State.sliceOver (s : State) (sid : Nat) : State := match s.slice? sid with
  | none => s
  | some x =>
    let live := match x.st with | .retired => false | .failed => false | _ => true
    if !live || !x.groups.all Group.retired then s
    else
      let failed := x.failCause.isSome
      let late := !failed && decide (x.deadline < s.time)
      let s := match x.image with
        | some im => s.poolFree (s.sliceRegion x) im.va
        | none => s
      let s := x.logBlocks.foldl (fun s va => s.poolFree (s.sliceRegion x) va) s
      let s := s.modSlice sid fun x =>
        { x with st := if failed then .failed else .retired, late := late, reserves := [], claims := [], phys := []
                 stopped := [], stoppedUpd := [], image := none, log := [], logBlocks := [], logWait := [], preempt := none, exhausted := none, saveWait := false }
      let s := { s with harnesses := s.harnesses.filter fun e => e.1 != .slice sid }
      if x.stolen.isSome then s
      else
        let (seen, s) := match s.job? x.jn with
          | some j => s.ownMove j x.index (.over failed)
          | none => (OwnSeen.absent, s)
        if seen == .broken then s.sliceCounted x.jn x.index true false 373 s.chip false
        else s.sliceCounted x.jn x.index failed late (x.failCause.getD 0) s.chip false
/-- What a group of a slice holds goes (R29, R86, R258, R285, R313): its memberships, its watch, its registers, which join the reserve
of its bay and are granted to waiting claims at once (DESIGN CHOICE, notes/assumptions/22.md), and its strands. -/
def State.endGroup (s : State) (g : GroupRef) (lost : Bool) : State := match s.slice? g.sid, s.group? g.sid g.gi with
  | some x, some y =>
    let p := passesOf (s.widthOf x)
    let s := s.dropWatchEntry g
    let s := y.strands.foldl (fun s t => s.endRun ⟨g.sid, g.gi, t.sn⟩) s
    let s := s.leaveAll g lost
    let s := s.modSlice g.sid fun x =>
      let x := { x with reserves := Sparse.put 0 x.reserves y.bay (x.reserve y.bay + y.n * p)
                        claims := x.claims.filter fun c => c.gi != g.gi }
      x.modGroup g.gi fun y => { y with strands := [], frames := [], fixed := [], inflight := [], watch := none, retired := true }
    s.grantWaiting g.sid y.bay Config.slotsPerBay
  | _, _ => s
/-- Whether what a group has issued has been accepted by its paths, and its loads and stores allow the implicit HLEAVE (R29, R176, R258). Commands that an engine
has taken need not be complete. -/
def State.mayRetire (s : State) (g : GroupRef) (x : Slice) (y : Group) : Bool :=
  y.strands.isEmpty && !y.retired && y.inflight.all (fun f => !f.ordered) && !s.groupStays x.core g.sid g.gi
/-- Whether a slice has no copy, update or matrix command under way. -/
def State.engineIdle (s : State) (sid : Nat) (x : Slice) : Bool :=
  !((s.core x.core).chans.any fun c => c.entries.any fun e => e.who.sid == sid) &&
    !((s.core x.core).upd.any fun u => u.who.sid == sid) && x.arrays.all fun a => a.queue.isEmpty
/-- GROUP_RETIRE (R29, R37, R258): a group whose strands have all ended retires once its accesses and commands have been accepted. -/
def State.retireGroup (s : State) (g : GroupRef) : State := match s.slice? g.sid, s.group? g.sid g.gi with
  | some x, some y =>
    if !(x.st == .resident) || !s.mayRetire g x y then s
    else ((s.drainCore x.core).endGroup g false).sliceOver g.sid
  | _, _ => s
/-- GROUP_RETIRE (spec/02 R29). -/
def execGroupRetire (g : GroupRef) (s : State) : Host.Outcome State Fault Refusal := .next (s.retireGroup g)

/-! ### Kills (R258, R302, R313) -/

/-- Outstanding ids that pass a test released in every region (R310, R313). -/
def State.releaseIds (s : State) (p : OutId → Bool) : State :=
  { s with regions := s.regions.map fun e => (e.1, { e.2 with out := e.2.out.filter fun o => !p o }) }
/-- Whether an outstanding id is a fault batch of an engine command that runs on after its group is killed (R313). -/
def State.batchRuns (s : State) (o : OutId) : Bool := o.kind == 1 && match o.batch.bind fun b => Sparse.find s.batches b with
  | some b => (match b.owner with | .strand _ => false | _ => true)
  | none => false
/-- A group killed (R313); the first cause stands for its slice. What it has presented is performed already or goes on from the buffers and engines; a load or
atomic that still had to follow others is not presented, and is discarded. -/
def State.killGroup (s : State) (g : GroupRef) (cause : Nat) : State := match s.slice? g.sid, s.group? g.sid g.gi with
  | some _, some y =>
    if y.retired then s
    else
      let mine := fun (r : StrandRef) => r.sid == g.sid && r.gi == g.gi
      let s := s.releaseIds fun o => !s.batchRuns o && (match o.who with | some r => mine r | none => false)
      let s := { s with batches := s.batches.filter fun b => match b.2.owner with | .strand r => !mine r | _ => true }
      let s := s.modSlice g.sid fun x => { x with failCause := if x.failCause.isSome then x.failCause else some cause }
      (s.endGroup g true).sliceOver g.sid
  | _, _ => s
/-- Every group of a slice killed, and its copies ended on every channel (R233, R302, R313). -/
def State.killSlice (s : State) (sid cause : Nat) : State := match s.slice? sid with
  | none => s
  | some x =>
    let live := match x.st with | .retired => false | .failed => false | _ => true
    if !live then s
    else
      let s := [0, 1, 2, 3].foldl (fun s ch => s.endCopies x.core ch sid) s
      let s := s.releaseIds fun o => !s.batchRuns o && (match o.who with | some r => r.sid == sid | none => false)
      let s := s.modSlice sid fun x => { x with failCause := if x.failCause.isSome then x.failCause else some cause }
      let s := (List.range x.groups.length).foldl (fun s gi => s.killGroup ⟨sid, gi⟩ cause) s
      s.sliceOver sid
/-- The groups of a Queued or Claimed slice that no module has spoken for leave h1, each as a lost arrival where the phase still needs it (R258), under its member index
(R244, R290). -/
def State.loseQueued (s : State) (jn index groups : Nat) : State :=
  let key := HKey.job jn
  (List.range groups).foldl (fun s gi => match s.harness? key with
    | none => s
    | some h =>
      if h.queued == 0 || h.members.any fun m => m.idx == index * groups + gi then s
      else
        let w : Member := .there s.chip (index * groups + gi)
        (s.adopt key w).leaveHarness key w s.clock true true) s
/-- A slice that a job holds as Queued, or as claimed by a chip, fails with its job (R298, R302): its word becomes Done with FAILED and it is counted. One that a thief has
started is killed there first, and one whose word is Done already has its completion on the way. One that a chip holds counts as stolen, so it always has an entry (R287; DEDUCED, notes/assumptions/21.md). -/
def State.failSlice (s : State) (jn i : Nat) (claim : Option Nat) (cause : Nat) : State := match s.job? jn with
  | none => s
  | some j =>
    let keep := fun (s : State) (chip : Nat) => s.modJob jn fun j => { j with claimed := j.claimed ++ [(i, chip)] }
    let over_ := fun (s : State) (c : Nat) => (s.loseQueued jn i j.hdr.groups).sliceCounted jn i true false c s.chip claim.isSome
    match s.ownMove j i .killed with
    | (.broken, s) => over_ s 373
    | (.kept w, s) =>
      if ownState w == 2 && ownChip w != s.chip then
        keep (s.emit (.killStolen (ownChip w) ⟨s.chip, (s.tenant (keyVf j.rk)).ftid, j.ticket⟩ i)) (ownChip w)
      else match claim with
        | some chip => keep s chip
        | none => over_ s cause
    | (_, s) => over_ s cause
/-- Every slice of a job that is not Retired fails (R33, R37, R302). -/
def State.failJob (s : State) (jn cause : Nat) : State := match s.job? jn with
  | none => s
  | some j =>
    if j.finished || j.dying then s
    else
      let queued := j.queued.flatMap fun r => (List.range (r.2 - r.1)).map fun k => r.1 + k
      let s := s.modJob jn fun j => { j with queued := [], claimed := [], dying := true }
      let s := queued.foldl (fun s i => s.failSlice jn i none cause) s
      let s := j.claimed.foldl (fun s c => s.failSlice jn c.1 (some c.2) cause) s
      let mine := (s.slices.filter fun e => e.2.jn == jn).map Prod.fst
      mine.foldl (fun s sid => s.killSlice sid cause) s
/-- The jobs of a fault domain of a virtual function. -/
def State.domainJobs (s : State) (vf fdom : Nat) : List Nat :=
  (s.jobs.filter fun e => keyVf e.2.rk == vf && e.2.fdom == fdom && !e.2.finished).map Prod.fst
/-- The fault domain of a job fails (R37): every job in it, or the job alone where its region resolves to none (R274). -/
def State.failDomainOf (s : State) (jn cause : Nat) : State := match s.job? jn with
  | none => s
  | some j => (if j.fdom == 0 then [jn] else s.domainJobs (keyVf j.rk) j.fdom).foldl (fun s n => s.failJob n cause) s

/-! ### Completion entries (R286, R287) -/

/-- An active queue of a tenant, activated now where it is not (R265). -/
def State.queueAt (s : State) (vf va : Nat) : Option Queue × State :=
  let s := s.watchQueue vf va
  (s.queue? vf va, s)
/-- An entry the engine writes as a producer, published as soon as it is written (R263, R269). -/
def State.produce (s : State) (q : Queue) (pusher : Nat) (bs : List Byte) : State :=
  let s := s.pushEntry q pusher bs
  match s.queue? q.vf q.va with
  | none => s
  | some q => s.putQueue (q.publish (q.written.length + 1))
/-- Whether a completion queue has an older entry waiting than one that arose at a time (R287). -/
def State.olderEntry (s : State) (vf cq seq : Nat) : Bool := s.jobs.any fun e => keyVf e.2.rk == vf && (match e.2.completions with
  | c :: _ => c.cq == cq && decide (c.seq < seq)
  | [] => false)
/-- COMPLETION_ENTRY_WRITE (R287, R297): a job's oldest entry is written once its queue has room, after the entries of other jobs that arose before it. After the
last, the job's ownership table is freed. -/
def State.writeCompletion (s : State) (jn : Nat) : State := match s.job? jn with
  | none => s
  | some j => match j.completions with
    | [] => s
    | c :: rest =>
      let vf := keyVf j.rk
      let (q, s) := s.queueAt vf c.cq
      match q with
      | none => s
      | some q =>
        if q.free == 0 || s.olderEntry vf c.cq c.seq then s
        else
          let s := s.produce q j.rk (entryOf s.time j.ticket c)
          let s := s.modJob jn fun j => { j with completions := rest }
          if j.finished && rest.isEmpty then
            let s := match j.table with
              | some va => s.poolFree j.rk va
              | none => s
            s.modJob jn fun j => { j with table := none }
          else s
/-- COMPLETION_ENTRY_WRITE (spec/12 R287). -/
def execCompletionEntryWrite (jn : Nat) (s : State) : Host.Outcome State Fault Refusal := .next (s.writeCompletion jn)

end Sys2Proof.Machine
end

