-- ==== Sys2Proof/Machine/Traps.lean ====
section
/-!
DEFINITION. Trap records and frames, notices, budget exhaustion, claim deadlock, fault batches, and the commands that answer them
(spec/02 R31; spec/04 R90; spec/07 R156; spec/12 R276; spec/14 R306 to R313, R331).
-/

namespace Sys2Proof.Machine

/-! ### Fetch lines (R43, R44, R47) -/

/-- The line word of 64 bytes (R43). -/
def lineWord (l : List Byte) : Nat := ofBytes ((l.drop 60).take 4)
/-- The 96 bits of a slot (R43). -/
def slotBits (l : List Byte) (i : Nat) : Nat := ofBytes ((l.drop (12 * i)).take 12)
/-- Whether a number of n bits holds an even number of ones. -/
def evenOnes (n x : Nat) : Bool := (List.range n).foldl (fun b i => b != bitAt x i) true
/-- Whether the line word's parity holds (R44). -/
def lineParity (l : List Byte) : Bool := evenOnes 32 (lineWord l)
/-- Whether a slot's parity holds (R44). -/
def slotParity (l : List Byte) (i : Nat) : Bool := evenOnes 96 (slotBits l i) == !bitAt (lineWord l) (9 + i)
/-- PAIR bit j (R44). -/
def pairBit (l : List Byte) (j : Nat) : Bool := decide (j < 4) && bitAt (lineWord l) (5 + j)
/-- TGT bit i (R44). -/
def tgtBit (l : List Byte) (i : Nat) : Bool := bitAt (lineWord l) i
/-- The next sequential slot (R47). -/
def nextSlot (pc : Nat) : Nat := if pc % 8 == 4 then lineOf pc + 64 else pc + 1

/-! ### Records and frames (R307 to R310) -/

/-- The 64 bytes of a trap record with its id (R308). -/
def trapBytes (chip id : Nat) (t : TrapRec) : List Byte :=
  bytesOf 64 (id % 2 ^ 24 + t.cause * 2 ^ 24 + t.kind * 2 ^ 33 + (if t.retired then 2 ^ 35 else 0) + (if t.defer then 2 ^ 36 else 0) +
    t.gid % 2 ^ 14 * 2 ^ 39 + (match t.who with | some r => r.sn | none => 0) * 2 ^ 53 + t.lane % 2 ^ 7 * 2 ^ 55 +
    t.pc % 2 ^ 57 * 2 ^ 62 + t.cpc % 2 ^ 57 * 2 ^ 119 + t.mask.toNat * 2 ^ 176 + t.job % 2 ^ 32 * 2 ^ 304 +
    t.slice % 2 ^ 24 * 2 ^ 336 + t.tag % 2 ^ 12 * 2 ^ 360 + chip % 2 ^ 12 * 2 ^ 372 + t.time % 2 ^ 64 * 2 ^ 384 +
    t.detail % 2 ^ 64 * 2 ^ 448)
/-- The 512 bytes of a trap frame (R309). -/
def frameBytes (chip id : Nat) (t : TrapRec) : List Byte :=
  trapBytes chip id t ++ ((List.range 7).flatMap fun i => bytesOf 16 (t.p.getD i 0).toNat) ++ bytesOf 4 t.fmt.toNat ++ bytesOf 4 t.sp ++
    bytesOf 4 t.sl ++ bytesOf 4 (t.lo + t.hi * 65536) ++ bytesOf 4 (t.held % 64 + t.frames % 16 * 256) ++ bytesOf 60 0 ++
    ((t.pages.take 17).flatMap (bytesOf 8)) ++ bytesOf (8 * (17 - t.pages.length)) 0 ++ bytesOf 120 0
/-- The strand of a record, Stopped, learns its record id. -/
def State.stoppedId (s : State) (t : TrapRec) (id : Nat) : State := match t.who with
  | some r => if t.kind == 0 && !t.retired then
      s.modStrand r fun y => if y.st == .stopped none then { y with st := .stopped (some id) } else y
    else s
  | none => s
/-- Whether the instruction at which a strand has stopped is the first of a pair (R312): by the line the strand holds, or by the line as memory holds it where the stop
came before the line was fetched. -/
def State.pairAt (s : State) (r : StrandRef) (t : Strand) : Bool := match t.line with
  | some (a, l) => if a == lineOf t.c.pc then pairBit l (t.c.pc % 8) else fetched
  | none => fetched
where
  /-- PAIR as the line of the strand's program counter stands in memory. -/
  fetched : Bool := match s.slice? r.sid with
    | none => false
    | some x => match s.devRead (keyVf (s.sliceRegion x)) (lineOf t.c.pc) 64 with
      | some l => lineParity l && pairBit l (t.c.pc % 8)
      | none => false
/-- An outstanding id of a pushed record (R310); a KIND 3 record leaves none. -/
def State.outstanding (s : State) (root : Nat) (t : TrapRec) (id : Nat) : State :=
  let paired := match t.who with | some w => (match s.strand? w with | some y => s.pairAt w y | none => false) | none => false
  let s := s.modRegion root fun r =>
    { r with out := if t.kind == 3 then r.out else r.out ++ [⟨id, t.kind, t.cause, t.defer, t.who, t.batch, t.cpc, paired, t.toSorser⟩] }
  s.stoppedId t id
/-- The stop packet of a traced strand (R331). -/
def State.stopPacket (s : State) (rk : Nat) (t : TrapRec) (bs : List Byte) : State :=
  if t.kind != 0 || t.retired then s
  else match t.who with
    | none => s
    | some r => match s.slice? r.sid, s.group? r.sid r.gi with
      | some x, some g => s.traceStop x.core g.bay rk (groupId x g) bs
      | _, _ => s
/-- The oldest waiting record of a region leaves. -/
def State.popWaiting (s : State) (rk : Nat) : State := s.modRegion rk fun r => { r with waiting := r.waiting.tail }
/-- Whether the fixed-latency results of a record's strand are written, as they are before its state is saved (R71). -/
def State.saved (s : State) (t : TrapRec) : Bool := match t.who with
  | none => true
  | some r => match s.group? r.sid r.gi with
    | none => true
    | some g => g.fixed.all fun f => f.sn != r.sn
/-- Ids of a save area that are taken: those outstanding, and those of records that have one and are not pushed yet (R310). -/
def State.idsTaken (s : State) (root : Nat) : Nat :=
  (match s.region? root with | some q => q.out.length | none => 0) +
    (s.regions.filter fun e => s.saveRoot e.1 == root).foldl (fun n e => n + (e.2.waiting.filter fun t => t.id.isSome).length) 0
/-- The first record of a region without an id receives one, and its frame is written (R307, R309, R310), once every record of its cycle has been raised and its
strand's state is saved. -/
def State.giveId (s : State) (rk : Nat) : State := match s.region? rk, s.region? (s.saveRoot rk) with
  | some r, some q => match r.waiting.find? fun t => t.id.isNone with
    | none => s
    | some t =>
      if !s.saved t || decide (s.clock ≤ t.cycle) || (r.trapq == 0 && !t.toSorser) || decide (Config.trapIds ≤ s.idsTaken (s.saveRoot rk)) then s
      else
        let id := q.nextId
        let s := s.modRegion (s.saveRoot rk) fun q => { q with nextId := (id + 1) % 2 ^ 24 }
        let s := s.modRegion rk fun r => { r with waiting := updFirst (fun t => t.id.isNone) (fun t => { t with id := some id }) r.waiting }
        s.devWrite (keyVf rk) (r.save + 512 * (id % 4096)) (frameBytes s.chip id t)
  | _, _ => s
/-- The oldest record of a region pushed to the trap queue or the Sorser FIFO, where it has its frame and there is a place (R307, R331). Without a trap queue the group is
killed and QERR is counted (R310); its stop packet shows a record whose id the spec leaves open (R331, DESIGN CHOICE, notes/assumptions/16.md). -/
def State.pushOldest (s : State) (rk : Nat) : State := match s.region? rk with
  | none => s
  | some r => match r.waiting with
    | [] => s
    | t :: _ =>
      if r.trapq == 0 && !t.toSorser then
        if !s.saved t || decide (s.clock ≤ t.cycle) then s
        else
          let (n, s) := s.fresh
          let s := ((s.popWaiting rk).countQerr rk).stopPacket rk t (trapBytes s.chip ((Config.freeValue n 0).toNat % 2 ^ 24) t)
          match t.who with
          | some w => if t.retired then s else s.killGroup ⟨w.sid, w.gi⟩ t.cause
          | none => s
      else match t.id with
        | none => s
        | some id =>
          let root := s.saveRoot rk
          let bs := trapBytes s.chip id t
          if t.toSorser then
            if decide (Config.sorserFifo ≤ s.mgmt.fifo.length) then s
            else
              let s := s.popWaiting rk
              let s := { s with mgmt := { s.mgmt with fifo := s.mgmt.fifo ++ [bs] } }
              (s.outstanding root t id).stopPacket rk t bs
          else
            let (q, s) := s.queueAt (keyVf rk) r.trapq
            match q with
            | none => s
            | some q =>
              if q.free == 0 then s
              else ((s.popWaiting rk).produce q rk bs |>.outstanding root t id).stopPacket rk t bs
/-- TRAP_RECORD_PUSH (R307 to R310, R331): a record receives its id and frame, and the region's oldest record is pushed. -/
def State.pushRecord (s : State) (rk : Nat) : State := (s.giveId rk).pushOldest rk
/-- TRAP_RECORD_PUSH (spec/14 R307). -/
def execTrapRecordPush (region : Nat) (s : State) : Host.Outcome State Fault Refusal := .next (s.pushRecord region)

/-! ### Budget and claims (R31, R90) -/

/-- BUDGET_EXHAUSTED (R31, R33): the record of KIND 2 names the group and strand whose pass spent the last cycle, and the slice is to
be pre-empted; it stays Swapped until a RESUME (R312). -/
def State.budgetOut (s : State) (sid : Nat) : State := match s.slice? sid with
  | none => s
  | some x => match x.exhausted with
    | none => s
    | some (gi, sn, pc) =>
      if x.st != .resident || x.budget != some 0 then s
      else
        let rk := s.sliceRegion x
        let at_ := match s.strand? ⟨sid, gi, sn⟩ with | some t => t.c.pc | none => pc
        let s := match s.trapRecord ⟨sid, gi, sn⟩ 320 2 0 0 at_ pc false with
          | none => s
          | some t => s.queueRecord rk t
        s.modSlice sid fun x => { x with exhausted := none, preempt := some .budget, wantResume := true }
/-- BUDGET_EXHAUSTED (spec/02 R31). -/
def execBudgetExhausted (sid : Nat) (s : State) : Host.Outcome State Fault Refusal := .next (s.budgetOut sid)
/-- Whether a strand of a group waits on an RCLAIM that is not granted (R90). -/
def Group.claiming (g : Group) : Bool := g.strands.any (fun t => t.st == .scoreboard .claim) &&
  g.inflight.any fun f => match f.body with | .claim _ => true | _ => false
/-- Whether a group is stuck (R90): its only live strand waits on an RCLAIM, or waits on h0 for a phase at which some group of the bay
that waits on an RCLAIM has not arrived. -/
def State.stuck (s : State) (sid : Nat) (x : Slice) (bay : Nat) (g : Group) : Bool :=
  match g.strands with
  | [t] =>
    g.claiming || (match t.st with
      | .harness id => match s.harness? (.slice sid) with
        | none => false
        | some h => match h.waiters.find? fun w => w.id == id with
          | none => false
          | some w => decide (w.phase == h.phase.toNat) && (x.groups.zip (List.range x.groups.length)).any fun e =>
              e.1.bay == bay && e.1.claiming && (match h.member? (.here ⟨sid, e.2⟩) with
                | some m => !h.reached m.idx
                | none => false)
      | _ => false)
  | _ => false
/-- CLAIM_DEADLOCK (R90): every group of the slice in the bay is stuck and the oldest claim exceeds the reserve; its RCLAIM has not
taken effect, and its strand stops before it. -/
def State.claimStuck (s : State) (sid bay : Nat) : State := match s.slice? sid with
  | none => s
  | some x =>
    let mine := x.groups.filter fun g => g.bay == bay && !g.retired
    match x.oldestClaim bay with
    | none => s
    | some c =>
      if x.st != .resident || mine.isEmpty || !mine.all (s.stuck sid x bay) || decide (c.m * passesOf (s.widthOf x) ≤ x.reserve bay) then s
      else match (x.groups[c.gi]?).bind fun g => (g.strands.head?).bind fun t => (g.inflight? c.id).map fun f => (t.sn, f.cpc) with
        | none => s
        | some (sn, cpc) =>
          let s := s.modSlice sid fun x => { x with claims := x.claims.filter fun y => y.id != c.id }
          let s := s.complete sid c.gi c.id []
          s.takeTrap ⟨sid, c.gi, sn⟩ 226 0 0 cpc cpc false
/-- CLAIM_DEADLOCK (spec/04 R90). -/
def execClaimDeadlock (sid bay : Nat) (s : State) : Host.Outcome State Fault Refusal := .next (s.claimStuck sid bay)

/-! ### Fault batches (R156, R209, R231, R239) -/

/-- The owner of a batch goes on: its instruction issues again, or its engine command continues. -/
def State.batchGo (s : State) (id : Nat) (o : BatchOwner) : State := match o with
  | .strand r => match s.strand? r with
    | some t => if t.st == .faultWait id then s.makeReady r else s
    | none => s
  | .copy core ch e => s.modCopy core ch e fun y => { y with batch := none }
  | .matrix sid arr c => s.modCmd sid arr c fun y => { y with batch := none }
  | .update core u => s.modCore core fun k => { k with upd := updFirst (fun y => y.id == u) (fun y => { y with batch := none }) k.upd }
/-- The owner of a batch fails: its instruction takes the batch's cause, or its engine command ends with it. -/
def State.batchFails (s : State) (id : Nat) (b : Batch) : State := match b.owner with
  | .strand r => match s.strand? r with
    | some t => if t.st == .faultWait id then s.takeTrap r b.cause b.lane b.va t.c.pc b.cpc false else s
    | none => s
  | .copy core ch e => s.modCopy core ch e fun y => y.endAt (some b.cause)
  | .matrix sid arr c => (s.modCmd sid arr c fun y => { y with batch := none }).mxFail sid arr c b.cause
  | .update core u => s.modCore core fun k =>
      { k with upd := updFirst (fun y => y.id == u) (fun y => y.endWith b.cause) k.upd }
/-- One of the answers that a batch waits for has come; with the last, its owner goes on or fails. -/
def State.batchAnswer (s : State) (id : Nat) (pri ok : Bool) : State := match Sparse.find s.batches id with
  | none => s
  | some b =>
    let b := { b with pri := b.pri && !pri, dev := b.dev && pri, failed := b.failed || !ok }
    if b.pri || b.dev || b.filling then { s with batches := Sparse.set s.batches id b }
    else
      let s := { s with batches := Sparse.del s.batches id }
      if b.failed then s.batchFails id b else s.batchGo id b.owner
/-- Host-half translations that the device holds from now on: pages with their permissions R, W and A, in place of older ones. -/
def State.hostLeaves (s : State) (vf : Nat) (l : List (Nat × Bool × Bool × Bool)) : State :=
  let new := l.map fun e => (hostKey vf e.1, e.2)
  { s with hostPages := (s.hostPages.filter fun e => !new.any fun n => n.1 == e.1) ++ new }
/-- PRI_RESPONSE (spec/07 R156): with a success come the pages that the host has made present, `leaves`. -/
def execPriResponse (batch : Nat) (ok : Bool) (leaves : List (Nat × Bool × Bool × Bool)) (s : State) : Host.Outcome State Fault Refusal :=
  .next (match Sparse.find s.batches batch with
    | some b =>
      if b.pri && !b.filling then
        (if ok then s.hostLeaves (keyVf b.rk) (leaves.filter fun e => b.pages.contains e.1 && !inDevice e.1) else s).batchAnswer batch true ok
      else s
    | none => s)

/-! ### Commands (R276) -/

/-- What carrying out a command answers: it is complete, it is refused, or it is not complete yet. -/
inductive CmdRes where
  | complete (s : State)
  | refuse
  | later (s : State)
deriving Inhabited
/-- The operation codes of R276. -/
def cmdKnown (op : Nat) : Bool := (decide (1 ≤ op) && decide (op ≤ 10)) || op == 16
/-- The region a command names. Without a queue the tag is a whole region key. -/
def cmdTarget (c : Cmd) : Nat := match c.queue with
  | some k => regionKey (k / 2 ^ 57) c.tag
  | none => c.tag
/-- Whether the host pushed a command: it came from no queue, or from one whose producer is the host (R275, R276). -/
def State.byHost (s : State) (c : Cmd) : Bool := match c.queue with
  | none => true
  | some k => match s.queue? (k / 2 ^ 57) (k % 2 ^ 57) with
    | some q => q.prod
    | none => false
/-- Whether the host pushed a command as the physical function: it came from no queue, or from an entry that the physical function has published (R276, R345). -/
def State.byPf (s : State) (c : Cmd) : Bool := match c.queue with
  | none => true
  | some k => match s.queue? (k / 2 ^ 57) (k % 2 ^ 57) with
    | some q => q.prod && q.pushers.any fun p => p == (q.head.toNat, pfPusher)
    | none => false
/-- A command carried out at the head of its queue in ticket order (R276): HEAD passes it once it is complete or refused; a refusal sets
ERR and counts QERR. `op` is the operation that the event carries out, and an event that is not the head's leaves all as it is. -/
def State.command (s : State) (op : Nat) (c : Cmd) (run : State → CmdRes) : State := match c.queue with
  | none => match run s with
    | .complete s' => s'
    | .later s' => s'
    | .refuse => s
  | some k => match s.queue? (k / 2 ^ 57) (k % 2 ^ 57) with
    | none => s
    | some q =>
      if q.kind != 3 || q.tail == q.head then s
      else
        let e := ofBytes ((s.devRead q.vf (q.slot q.head.toNat) 32).getD (List.replicate 32 0))
        let bad := bitsAt e 8 44 != 0 || !cmdKnown (bitsAt e 0 8)
        let same := bitsAt e 0 8 == op && bitsAt e 52 12 == c.tag && bitsAt e 64 64 == c.a && bitsAt e 128 64 == c.b && bitsAt e 192 64 == c.c
        let pusher := match q.pushers.find? fun p => p.1 == q.head.toNat with | some p => p.2 | none => q.rk
        let pass := fun (s : State) => match s.queue? q.vf q.va with
          | some q => (s.popEntry q).2.2
          | none => s
        let refuse := fun (s : State) => match (pass s).queue? q.vf q.va with
          | some q' => (pass s).queueErr q'
          | none => s
        if bad then refuse s
        else if !same then s
        else if !(s.region? (cmdTarget c)).isSome || !(q.prod && keyVf (cmdTarget c) == q.vf || s.isAncestor pusher (cmdTarget c)) then refuse s
        else match run s with
          | .complete s' => pass s'
          | .later s' => s'
          | .refuse => refuse s
/-- An outstanding id of a region's save area (R310). -/
def State.outId (s : State) (rk id : Nat) : Option OutId := match s.region? (s.saveRoot rk) with
  | none => none
  | some r => r.out.find? fun o => o.id == id % 2 ^ 24
/-- The slot at which a resumed strand continues (R312). -/
def resumePc (o : OutId) (t : Strand) (skip : Bool) : Nat :=
  if !skip || o.defer then t.c.pc
  else if o.paired then nextSlot (nextSlot t.c.pc)
  else nextSlot o.cpc
/-- RESUME of an outstanding id (R312, R330). For a Swapped slice it is recorded in the image, and the command is complete once the slice is Resident again (R276). -/
def State.resumeId (s : State) (o : OutId) (skip : Bool) : CmdRes :=
  let done := fun (s : State) => CmdRes.complete (s.releaseIds fun y => y.id == o.id && y.kind == o.kind && y.who == o.who)
  match o.who with
  | none => .refuse
  | some r => match s.slice? r.sid with
    | none => .refuse
    | some x =>
      let gone := match x.st with | .retired => true | .failed => true | _ => false
      if gone then .refuse
      else match o.kind with
        | 0 => match s.strand? r with
          | none => .refuse
          | some t =>
            let s := if t.st == .stopped (some o.id) then s.resumeAt r (resumePc o t skip) (o.cause == 337 || o.cause == 338) else s
            if x.st == .swapped then .later s else done s
        | 2 =>
          if x.wantResume then .later (s.modSlice r.sid fun x => { x with wantResume := false })
          else if x.st == .resident && x.preempt.isNone then done s
          else .later s
        | _ => .refuse
/-- RESUME (spec/14 R312). -/
def execResume (c : Cmd) (s : State) : Host.Outcome State Fault Refusal :=
  .next (s.command 1 c fun s => match s.outId (cmdTarget c) c.a with
    | none => .refuse
    | some o => s.resumeId o (bitAt c.b 0))
/-- KILL of an outstanding id (R313). -/
def State.killId (s : State) (o : OutId) (whole : Bool) : CmdRes := match o.who with
  | none => .refuse
  | some r => match o.kind with
    | 0 =>
      let s := s.releaseIds fun y => y.id == o.id && y.kind == o.kind && y.who == o.who
      .complete (if whole then s.killSlice r.sid o.cause else s.killGroup ⟨r.sid, r.gi⟩ o.cause)
    | 2 =>
      let s := s.releaseIds fun y => y.id == o.id && y.kind == o.kind && y.who == o.who
      .complete (s.killSlice r.sid o.cause)
    | _ => .refuse
/-- KILL (spec/14 R313). -/
def execKill (c : Cmd) (s : State) : Host.Outcome State Fault Refusal :=
  .next (s.command 2 c fun s => match s.outId (cmdTarget c) c.a with
    | none => .refuse
    | some o => s.killId o (bitAt c.b 0))
/-- A job of a virtual function by its job id and job queue. -/
def State.jobNamed (s : State) (vf ticket queue : Nat) : Option Nat :=
  (s.jobs.find? fun e => keyVf e.2.rk == vf && e.2.ticket == ticket && e.2.queue == queue && e.2.thief.isNone).map Prod.fst
/-- Whether every slice of a job is Retired or Failed. -/
def State.jobDone (s : State) (jn : Nat) : Bool := match s.job? jn with
  | some j => j.finished
  | none => true
/-- KILL JOB (spec/12 R276; spec/13 R302). -/
def execKillJob (c : Cmd) (s : State) : Host.Outcome State Fault Refusal :=
  .next (s.command 3 c fun s => match s.jobNamed (keyVf (cmdTarget c)) c.a c.b with
    | none => .refuse
    | some jn =>
      if !s.isAncestor (cmdTarget c) (match s.job? jn with | some j => j.rk | none => 0) then .refuse
      else
        let s := s.failJob jn 324
        if s.jobDone jn then .complete s else .later s)
/-- FAIL DOMAIN (spec/12 R276; spec/13 R302). -/
def execFailDomain (c : Cmd) (s : State) : Host.Outcome State Fault Refusal :=
  .next (s.command 4 c fun s =>
    if c.a == 0 then .refuse
    else
      let jobs := s.domainJobs (keyVf (cmdTarget c)) c.a
      let s := jobs.foldl (fun s jn => s.failJob jn 324) s
      if jobs.all s.jobDone then .complete s else .later s)
/-- The fault batch that an outstanding KIND 1 id names. -/
def State.batchOf (s : State) (rk id : Nat) : Option (OutId × Nat) := match s.outId rk id with
  | some o => if o.kind == 1 then o.batch.map fun b => (o, b) else none
  | none => none
/-- BATCH RESUME and BATCH FAIL (R156, R276): complete once the batch is over, which may still wait for the host to answer for its other pages. A batch that was discarded
leaves only its id to be released. -/
def State.batchCommand (s : State) (c : Cmd) (ok : Bool) : CmdRes := match s.batchOf (cmdTarget c) c.a with
  | none => .refuse
  | some (o, b) =>
    let s := match Sparse.find s.batches b with
      | some y => if y.dev then s.batchAnswer b false ok else s
      | none => s
    if (Sparse.find s.batches b).isSome then .later s
    else .complete (s.releaseIds fun y => y.id == o.id && y.kind == 1 && y.batch == o.batch)
/-- BATCH RESUME (spec/12 R276; spec/07 R156). -/
def execBatchResume (c : Cmd) (s : State) : Host.Outcome State Fault Refusal := .next (s.command 5 c fun s => s.batchCommand c true)
/-- BATCH FAIL (spec/12 R276; spec/07 R156). -/
def execBatchFail (c : Cmd) (s : State) : Host.Outcome State Fault Refusal := .next (s.command 6 c fun s => s.batchCommand c false)

end Sys2Proof.Machine
end

