-- ==== Sys2Proof/Machine/Admission.lean ====
section
/-!
DEFINITION. The queue engine as it takes work in: host writes of HTAIL and HHEAD, publishing, and the admission of jobs (spec/03 R74 to R78;
spec/12 R266, R269, R272, R273, R458; spec/13 R297).
-/

namespace Sys2Proof.Machine

/-! ### Tickets (R266, R269) -/

/-- The active queue of a key. -/
def State.queueOfKey (s : State) (k : Nat) : Option Queue := s.queue? (k / 2 ^ 57) (k % 2 ^ 57)
/-- QPUSH_PUBLISH (R269): the tickets of a queue that are written are published in order. -/
def execQpushPublish (queue : Nat) (s : State) : Host.Outcome State Fault Refusal :=
  .next (match s.queueOfKey queue with
    | some q => if q.written.contains q.tail.toNat then s.putQueue (q.publish (q.written.length + 1)) else s
    | none => s)
/-- HTAIL_WRITE (spec/12 R266). A queue that is not active takes no notice of writes to its header (R265). -/
def execHtailWrite (queue value : Nat) (s : State) : Host.Outcome State Fault Refusal :=
  let s := s.devWrite (queue / 2 ^ 57) (queue % 2 ^ 57 + 20) (bytesOf 4 value)
  .next (match s.queueOfKey queue with
    | some q => if q.prod then s.hostTail q (BitVec.ofNat 32 value) false else s
    | none => s)
/-- HHEAD_WRITE (spec/12 R266). -/
def execHheadWrite (queue value : Nat) (s : State) : Host.Outcome State Fault Refusal :=
  let s := s.devWrite (queue / 2 ^ 57) (queue % 2 ^ 57 + 24) (bytesOf 4 value)
  .next (match s.queueOfKey queue with
    | some q => if q.cons then s.hostHead q (BitVec.ofNat 32 value) else s
    | none => s)

/-! ### Kernel headers (R74 to R77) -/

/-- The fields of a kernel header (R75). -/
def parseHeader (n : Nat) : KHeader :=
  { width := bitsAt n 64 8, groups := bitsAt n 72 8, vregs := bitsAt n 80 16, gregs := bitsAt n 96 8, harn := bitsAt n 104 8,
    acc := bitsAt n 112 16, scratch := bitsAt n 128 32, stack := bitsAt n 160 32, budget := bitsAt n 192 32, entry := bitsAt n 256 64,
    codeSize := bitsAt n 320 64, dataOff := bitsAt n 384 64, dataSize := bitsAt n 448 64, pages := bitsAt n 512 32, steal := bitAt n 48,
    chk := bitAt n 49 }
/-- Pages of 64 KiB of a section. -/
def sectionPages (n : Nat) : Nat := ceilDiv n 65536
/-- The structure of a header, as the fourth check of R458 takes it from R76. -/
def headerBad (n : Nat) : Bool :=
  let h := parseHeader n
  bitsAt n 0 32 != 0x4B344E43 || bitsAt n 32 16 != 1 || bitsAt n 544 32 != 16224 || bitsAt n 50 14 != 0 || bitsAt n 224 32 != 0 ||
  bitsAt n 576 1472 != 0 || h.codeSize == 0 || h.codeSize % 64 != 0 || h.entry % 64 != 0 || decide (h.codeSize ≤ h.entry) ||
  h.pages != sectionPages h.codeSize + sectionPages h.dataSize || decide (1533 < h.pages) ||
  (h.dataOff != 0 && h.dataOff != 65536 + sectionPages h.codeSize * 65536)
/-- The limits of R74. -/
def headerLimits (h : KHeader) : Bool :=
  (h.width == 16 || h.width == 32 || h.width == 64 || h.width == 128) && decide (1 ≤ h.groups) && decide (h.groups ≤ 32) &&
  decide (8 ≤ h.vregs) && decide (h.vregs ≤ 256) && h.vregs % 8 == 0 && decide (h.gregs ≤ 64) && decide (h.harn ≤ 64) &&
  decide (h.acc ≤ 192) && h.scratch % 256 == 0 && decide (h.scratch ≤ Config.scratchBytes) && h.stack % 256 == 0
/-- Groups of a shape that one empty bay can hold (R14, R26). -/
def perBay (h : KHeader) : Nat := min Config.slotsPerBay (Config.poolPerBay / max 1 (h.vregs * passesOf h.width))
/-- Whether a slice of a shape fits on an empty core (R14, R26, R30). -/
def shapeFits (h : KHeader) : Bool := decide (h.groups ≤ Config.baysPerCore * perBay h)

/-! ### Job entries (R272) -/

/-- DEADLINE, DSTEP, SLICES, REGION, CPS, CQ and CODE of a job entry. -/
structure EntryFields where
  deadline : Nat
  dstep : Nat
  slices : Nat
  tag : Nat
  cps : Bool
  cq : Nat
  code : Nat
  args : List W32
  recs : List (BitVec 128)
deriving DecidableEq, Repr, Inhabited
/-- The fields of a job entry (R272). -/
def parseEntry (n : Nat) : EntryFields :=
  { deadline := bitsAt n 192 64, dstep := bitsAt n 160 32, slices := bitsAt n 136 24 + 1, tag := bitsAt n 124 12, cps := bitAt n 120,
    cq := bitsAt n 69 51 * 64, code := bitsAt n 16 41 * 65536
    args := (List.range 8).map fun i => BitVec.ofNat 32 (bitsAt n (256 + 32 * i) 32)
    recs := (List.range 4).map fun i => BitVec.ofNat 128 (bitsAt n (512 + 128 * i) 128) }

/-! ### The checks of admission in order (R458) -/

/-- Whether CQ names a completion queue of the tenant (R273). -/
def State.cqOk (s : State) (vf va : Nat) : Bool :=
  if va == 0 || !s.devOpen vf va 64 then false
  else match s.devRead vf va 64 with
    | none => false
    | some b =>
      let h := ofBytes b
      !qhBad h && qhKind h == 2 && (s.region? (regionKey vf (qhTag h))).isSome && s.devOpen vf va (blockBytes 2 (qhLog h))
/-- Whether a number of pages from an address on lie under local leaves with RD. -/
def State.pagesFrom (s : State) (vf : Nat) : Nat → Nat → Bool
  | _, 0 => true
  | va, n + 1 => (match s.walk vf va with
    | some l => l.chip == s.chip && l.rd
    | none => false) && s.pagesFrom vf (va + 65536) n
/-- Whether the pages of `n` bytes lie under local leaves with RD. -/
def State.pagesReadable (s : State) (vf va n : Nat) : Bool := s.pagesFrom vf va (sectionPages n)
/-- Whether page `k` of a code object, code pages first, has the SHA-256 hash that the object's table gives for it (R77, R78). The function is left uninterpreted
(DESIGN CHOICE, notes/assumptions/7.md). -/
def State.pageHashOk (s : State) (vf code k : Nat) : Bool :=
  match s.devRead vf (code + 65536 * (k + 1)) 65536, s.devRead vf (code + 256 + 32 * k) 32 with
  | some page, some hash => (Config.sha256 page).toNat == ofBytes hash
  | _, _ => false
/-- Whether every data page of a code object matches its hash (R78). -/
def State.dataHashesOk (s : State) (vf code : Nat) (h : KHeader) : Bool :=
  (List.range (sectionPages h.dataSize)).all fun k => s.pageHashOk vf code (sectionPages h.codeSize + k)
/-- Whether the bytes of a range within one page are zero, where they can be read. -/
def State.zeroBytes (s : State) (vf va n : Nat) : Bool := match s.devPa vf va with
  | none => true
  | some pa => s.mem.all fun e => decide (e.1 < pa) || decide (pa + n ≤ e.1) || e.2 == 0
/-- The rules of R77 about bytes that must be zero. -/
def State.zeroFilled (s : State) (vf code : Nat) (h : KHeader) : Bool :=
  let tail := fun (at_ n : Nat) => n % 65536 == 0 || s.zeroBytes vf (at_ + n) (65536 - n % 65536)
  let used := 256 + 32 * h.pages + 16224
  (decide (65536 ≤ used) || s.zeroBytes vf (code + used) (65536 - used)) && tail (code + 65536) h.codeSize &&
    tail (code + h.dataOff) h.dataSize
/-- What the code-integrity unit finds of a code object's signature (R78, R343). -/
inductive SigVerdict where
  | valid | invalid | untrusted
deriving DecidableEq, Repr, Inhabited
/-- Whether one of a tenant's keys verifies a signature; a key of zeros is empty (R337, R343). -/
def Tenant.verifies (t : Tenant) (msg sig : List Byte) : Bool := t.keys.any fun k => k != 0 && Config.slhVerify k msg sig
/-- The verdict on the signature of a code object with a number of hashed pages (R77, R78, R343): the bytes from its start to the end of its hash table against the signature
that follows, under the keys of its tenant, or else those of the other tenants. The function is left uninterpreted (DESIGN CHOICE, notes/assumptions/7.md). -/
def State.sigVerdict (s : State) (vf code pages : Nat) : SigVerdict :=
  let n := 256 + 32 * pages
  match s.devRead vf code n, s.devRead vf (code + n) 16224 with
  | some msg, some sig =>
    if (s.tenant vf).verifies msg sig then .valid
    else if s.tenants.any fun e => e.1 != vf && e.2.valid && e.2.verifies msg sig then .untrusted
    else .invalid
  | _, _ => .invalid
/-- The first failure that the checks of R458 from the third on find, given the verdict on the signature: its cause. The data section's pages are those that the header names,
where MAGIC says that there is a code object (DEDUCED, notes/assumptions/15.md). -/
def State.codeChecks (s : State) (vf : Nat) (r : Region) (e : EntryFields) (verdict : SigVerdict) : Option Nat :=
  if !s.pagesReadable vf e.code 1 then some 244
  else match s.devRead vf e.code 256 with
    | none => some 244
    | some b =>
      let n := ofBytes b
      let h := parseHeader n
      if bitsAt n 0 32 == 0x4B344E43 && !s.pagesReadable vf (e.code + h.dataOff) h.dataSize then some 244
      else if headerBad n then some 322
      else match verdict with
        | .invalid => some 352
        | .untrusted => some 354
        | .valid =>
          if !s.zeroFilled vf e.code h then some 355
          else if !s.dataHashesOk vf e.code h then some 353
          else if !headerLimits h || (r.budget != 0 && decide (r.budget < h.budget)) || !shapeFits h then some 322
          else firstSome recCheck (e.recs.filter fun x => x != 0)
/-- The fields of the header at a code object's address. -/
def State.headerAt (s : State) (vf code : Nat) : KHeader := parseHeader (ofBytes ((s.devRead vf code 256).getD []))
/-- The first failure that the checks of R458 from the third on find, with the verdict on the signature of the object (R78, R343). -/
def State.codeCheck (s : State) (vf : Nat) (r : Region) (e : EntryFields) : Option Nat :=
  s.codeChecks vf r e (s.sigVerdict vf e.code (s.headerAt vf e.code).pages)

/-! ### Which entry is next (R273, R345) -/

/-- Whether a virtual function's tables name a physical address in a range at some level (R345): the entries of a table, at each
level of R135. -/
def State.tableNames (s : State) (lo hi : Nat) : Nat → List (Nat × Nat × Option Nat) → Bool
  | _, [] => false
  | table, (_, n, size) :: rest =>
    (List.range (2 ^ n)).any fun i =>
      let e := ofBytes (s.peek (table + i * 8) 8)
      let pa := bitsAt e 8 40 * 256
      bitAt e 0 && (if bitAt e 1 then
          (match size with
            | some page => bitsAt e 48 12 == s.chip && decide (pa < hi) && decide (lo < pa + page)
            | none => false)
        else s.tableNames lo hi pa rest)
/-- The physical address of an address of a tenant's weight store (R150, R345). -/
def State.wsPa (s : State) (vf va : Nat) : Option Nat := match s.walk vf va with
  | none => none
  | some l => if l.chip == s.chip && l.ws then some l.pa else none
/-- The physical pages of the weight store that a weight load writes. -/
def State.loadPages (s : State) (w : WLoad) : List Nat :=
  (List.range (w.len / 65536)).filterMap fun k => s.wsPa w.vf (w.dst + k * 65536)
/-- Whether a virtual function maps a page under load. -/
def State.underLoad (s : State) (vf : Nat) : Bool := s.mgmt.loads.any fun w => (s.loadPages w).any fun pa =>
  s.tableNames pa (pa + 65536) (s.tenant vf).root walkLevels
/-- Admitted jobs of this module that are not complete. -/
def State.openJobs (s : State) : Nat := (s.jobs.filter fun e => !e.2.finished && e.2.thief.isNone).length
/-- Whether an active queue has an entry that can be taken for admission (R17, R273, R337, R345); none can where the controller has refused its firmware (R343, R346). -/
def State.admissible (s : State) (q : Queue) : Bool :=
  q.kind == 1 && q.tail != q.head && (s.tenant q.vf).valid && (s.region? q.rk).isSome && !s.mgmt.failed && s.mgmt.firmware &&
    decide (s.openJobs < Config.admittedJobs) && !s.underLoad q.vf
/-- The priority of a queue's region. -/
def State.queuePrio (s : State) (q : Queue) : Nat := match s.region? q.rk with | some r => r.prio | none => 0
/-- The queue whose entry is admitted next: the highest region priority, and among equal ones in turn (R273). A queue that has been
served goes to the end of the list. -/
def State.nextAdmission (s : State) : Option Queue :=
  (s.queues.filter s.admissible).foldl (fun (m : Option Queue) q => match m with
    | none => some q
    | some p => if decide (s.queuePrio p < s.queuePrio q) then some q else some p) none

/-! ### JOB_ADMISSION -/

/-- A job of an entry. -/
def jobOf (clock ticket rk queue : Nat) (e : EntryFields) (h : KHeader) (deadline fdom : Nat) : Job :=
  { ticket := ticket, rk := rk, queue := queue, code := e.code, cq := e.cq, hdr := h, args := e.args, recs := e.recs, slices := e.slices,
    deadline := deadline, dstep := e.dstep, cps := e.cps, fdom := fdom, queued := [], claimed := [], table := none, admitted := clock,
    doneN := 0, failN := 0, lateN := 0, stolenN := 0, cause := 0, verified := [], verifying := [], completions := [], finished := false,
    ordinary := false, dying := false, thief := none }
/-- A job that fails its admission (R273): an entry that counts every slice as Failed, or a notice where CQ itself fails. -/
def State.rejectJob (s : State) (q : Queue) (ticket rk cause : Nat) (e : EntryFields) (cqOk : Bool) : State :=
  if !cqOk then s.notice rk cause 0 ticket 0
  else
    let (jn, s) := s.fresh
    let (seq, s) := s.fresh
    let c : Completion := { seq := seq, cq := e.cq, kind := 2, fail := true, late := false, cause := cause, chip := s.chip, job := ticket, stolen := 0,
                            lateN := 0, doneN := 0, failN := e.slices }
    let j := { jobOf s.clock ticket rk q.va e default 0 0 with failN := e.slices, finished := true, cause := cause, completions := [c] }
    { s with jobs := Sparse.set s.jobs jn j }
/-- The ownership table of a STEAL job (R297), where the save area can hold it: each word starts as Queued with GEN 1. -/
def State.ownTable (s : State) (rk n : Nat) : Option Nat × State := match s.poolTake rk (8 * n) with
  | none => (none, s)
  | some (va, s) =>
    (some va, (List.range n).foldl (fun s i => s.devWrite (keyVf rk) (va + 8 * i) (bytesOf 8 (ownWord 1 s.chip 0 false))) s)
/-- A job admitted (R36, R273): its slices are Queued, and h1 has every group of every slice as a member (R244). -/
def State.acceptJob (s : State) (q : Queue) (ticket rk : Nat) (r : Region) (e : EntryFields) : State :=
  let h := s.headerAt q.vf e.code
  let deadline := if e.deadline != 0 then e.deadline else if r.period == 0 then 2 ^ 64 - 1 else s.time + r.period
  let (jn, s) := s.fresh
  let (table, s) := if h.steal then s.ownTable rk e.slices else (none, s)
  let j := { jobOf s.clock ticket rk q.va e h deadline r.fdom with queued := [(0, e.slices)], table := table }
  let h1 := { Harness.fresh (handleOf (keyTag rk) 0xFFF 0) s.chip rk (if h.steal then .sys else .dev) none false 0 with
              queued := e.slices * h.groups }
  { s with jobs := Sparse.set s.jobs jn j, harnesses := s.harnesses ++ [(.job jn, h1)] }
/-- JOB_ADMISSION: the entry at the head of the queue that is next is taken, and its slot is consumed (R273). -/
def State.admitJob (s : State) (q : Queue) : State :=
  let ticket := q.head.toNat
  let (bs, bad, s) := s.popEntry q
  let s := { s with queues := (s.queues.filter fun (y : Queue) => !(y.vf == q.vf && y.va == q.va)) ++
                              (s.queues.filter fun (y : Queue) => y.vf == q.vf && y.va == q.va) }
  if bad then s.notice q.rk 245 0 ticket 0
  else
    let n := ofBytes bs
    let e := parseEntry n
    let rk := regionKey q.vf e.tag
    let cqOk := s.cqOk q.vf e.cq
    match s.region? rk with
    | none => s.rejectJob q ticket q.rk 244 e cqOk
    | some r =>
      if !entryClean n || !cqOk then s.rejectJob q ticket rk 244 e cqOk
      else match s.codeCheck q.vf r e with
        | some c => s.rejectJob q ticket rk c e cqOk
        | none => s.acceptJob q ticket rk r e
/-- JOB_ADMISSION (spec/12 R273, R458) of the entry of a queue with some ticket, where it is next. -/
def execJobAdmission (vf va ticket : Nat) (s : State) : Host.Outcome State Fault Refusal :=
  .next (match s.nextAdmission with
    | some q => if q.vf == vf && q.va == va && q.head.toNat == ticket then s.admitJob q else s
    | none => s)

end Sys2Proof.Machine
end

