-- ==== Sys2Proof/Machine/Dispatcher.lean ====
section
/-!
DEFINITION. The slice dispatcher: room on a core, placement, context save and restore, and which slice comes next (spec/02 R30, R33 to R35;
spec/04 R80, R84 to R86; spec/09 R220; spec/10 R234, R241; spec/11 R244, R260; spec/12 R277 to R279; spec/13 R294, R299, R300;
spec/14 R316 to R318; DESIGN CHOICE, notes/assumptions/13.md).
-/

namespace Sys2Proof.Machine

/-! ### Room on a core (R14, R26, R30, R86, R196) -/

/-- What is free on a core: the slots and pool registers of each bay, scratchpad bytes, stack-cache bytes, arrays, how many more slices may use arrays, and
core-level harness units; and how many groups are resident. -/
structure Room where
  slots : List (List Nat)
  pool : List Nat
  scratch : Nat
  stack : Nat
  arrays : Nat
  users : Nat
  units : Nat
  resident : Nat
deriving DecidableEq, Repr, Inhabited

/-- The header of a slice's job. -/
def State.hdrOf (s : State) (x : Slice) : KHeader := match s.job? x.jn with | some j => j.hdr | none => default
/-- Arrays that a slice with ACC tiles holds (R196). -/
def arraysOf (acc : Nat) : Nat := (acc + 47) / 48
/-- The stack-cache reservation of a slice (R30): for each group that uses a stack an equal part of the 128 KiB for the 64 groups of a core, and no more than its
stack area holds (DESIGN CHOICE, notes/assumptions/13.md). -/
def stackReserve (h : KHeader) : Nat := h.groups * min (Config.stackCacheBytes / 64) (h.stack * max h.width 32)
/-- Pool registers that a slice owns in a bay: its groups' and its reserve (R84). -/
def Slice.poolIn (x : Slice) (p bay : Nat) : Nat :=
  (x.groups.filter fun g => g.bay == bay && !g.retired).foldl (fun n g => n + g.n * p) (x.reserve bay)
/-- Groups of a slice that are not retired. -/
def Slice.liveGroups (x : Slice) : Nat := (x.groups.filter fun g => !g.retired).length
/-- The resident slices of a core, without one. -/
def State.residents (s : State) (core : Nat) (skip : Option Nat) : List Slice :=
  (s.slices.filter fun e => e.2.st == .resident && e.2.core == core && some e.1 != skip).map Prod.snd
/-- The physical arrays of a core that no resident slice holds, lowest first (R196). -/
def State.freeArrays (s : State) (core : Nat) : List Nat := [0, 1, 2, 3].filter fun n => (s.residents core none).all fun x => !x.phys.contains n
/-- What is free on a core, with one resident slice left out of account. -/
def State.roomOf (s : State) (core : Nat) (skip : Option Nat) : Room :=
  let l := s.residents core skip
  let gone := match skip.bind s.slice? with | some x => x.created | none => []
  let units := (s.harnesses.filter fun e => match e.2.unit, e.1 with
    | some (.core c _), .made k => c == core && !gone.contains k
    | _, _ => false).length
  { slots := (List.range Config.baysPerCore).map fun b =>
      let used := l.flatMap fun x => (x.groups.filter fun g => g.bay == b && !g.retired).map Group.slot
      (List.range Config.slotsPerBay).filter fun n => !used.contains n
    pool := (List.range Config.baysPerCore).map fun b =>
      Config.poolPerBay - l.foldl (fun n x => n + x.poolIn (passesOf (s.widthOf x)) b) 0
    scratch := Config.scratchBytes - l.foldl (fun n x => n + (s.hdrOf x).scratch) 0
    stack := Config.stackCacheBytes - l.foldl (fun n x => n + stackReserve (s.hdrOf x)) 0
    arrays := 4 - l.foldl (fun n x => n + arraysOf (s.hdrOf x).acc) 0
    users := 4 - (l.filter fun x => (s.hdrOf x).acc != 0).length
    units := Config.coreHarnessUnits - units
    resident := l.foldl (fun n x => n + x.liveGroups) 0 }
/-- Whether a bay has slots and pool registers for some groups. -/
def Room.has (r : Room) (bay cnt pool : Nat) : Bool := decide (cnt ≤ (r.slots.getD bay []).length) && decide (pool ≤ r.pool.getD bay 0)
/-- A bay's slots and pool registers taken. -/
def Room.take (r : Room) (bay cnt pool : Nat) : Room :=
  { r with slots := setAt r.slots bay ((r.slots.getD bay []).drop cnt), pool := setAt r.pool bay (r.pool.getD bay 0 - pool) }
/-- Whether the shared parts of a core suffice. -/
def Room.shared (r : Room) (h : KHeader) (units : Nat) : Bool :=
  decide (h.scratch ≤ r.scratch) && decide (stackReserve h ≤ r.stack) && (h.acc == 0 || (decide (arraysOf h.acc ≤ r.arrays) && decide (1 ≤ r.users))) && decide (units ≤ r.units)
/-- Equal groups put one by one into the lowest bay with room: the bay of each. -/
def Room.spread (pool : Nat) : Nat → Room → Option (List Nat)
  | 0, _ => some []
  | n + 1, r => match (List.range Config.baysPerCore).find? fun b => r.has b 1 pool with
    | none => none
    | some b => ((r.take b 1 pool).spread pool n).map fun l => b :: l
/-- Bays for sets of groups that stay together (R86): one for each set; two sets may share a bay that has room for both (R35). -/
def Room.together (r : Room) : List (Nat × Nat) → Option (List Nat)
  | [] => some []
  | (cnt, pool) :: rest => firstSome (fun b =>
      if r.has b cnt pool then ((r.take b cnt pool).together rest).map fun l => b :: l else none) (List.range Config.baysPerCore)
/-- The bays of a new slice's groups (R85): one bay where the quota fits in a bay and there are at most 16 groups. -/
def Room.newBays (r : Room) (h : KHeader) : Option (List Nat) :=
  let q := h.vregs * passesOf h.width
  if decide (h.groups * q ≤ Config.poolPerBay) && decide (h.groups ≤ Config.slotsPerBay) then
    ((List.range Config.baysPerCore).find? fun b => r.has b h.groups (h.groups * q)).map fun b => List.replicate h.groups b
  else r.spread q h.groups
/-- The bays that a slice's groups and reserves are in. -/
def Slice.bays (x : Slice) : List Nat := (List.range Config.baysPerCore).filter fun b => x.groups.any (fun g => g.bay == b) || x.reserve b != 0
/-- New bays for a slice that is restored (R86): old and new. -/
def Room.oldBays (r : Room) (x : Slice) (p : Nat) : Option (List (Nat × Nat)) :=
  let l := x.bays
  let need := l.map fun b => ((x.groups.filter fun g => g.bay == b && !g.retired).length, x.poolIn p b)
  (r.together need).map fun m => l.zip m

/-! ### Placement (R30, R80, R84, R85, R196, R234, R244) -/

/-- The lowest free slot of a bay, taken. -/
def Room.slotOf (r : Room) (bay : Nat) : Nat := (r.slots.getD bay []).headD 0
/-- The one strand with which a group starts (R48, R80, R92). -/
def launchStrand (j : Job) (clock : Nat) : Strand :=
  { sn := 0
    c := { pc := j.code + 65536 + j.hdr.entry, mask := lowMask j.hdr.width, p := List.replicate 7 0, fmt := 0, sp := j.hdr.stack, sl := 0,
           lo := 0, hi := 256, arm := none, own := [], held := [] }
    st := .ready, entry := .transfer, line := none, nextIssue := clock, runLen := 0, readySince := clock, lost := 0, fences := [],
    deferred := [], next := [], skipDebug := false, tracePc := 0 }
/-- A list of register values without those that are the default. -/
def sparseOf {α : Type} [DecidableEq α] (d : α) (l : List α) : List (Nat × α) := Sparse.putList d [] 0 l
/-- A group at launch (R80). -/
def launchGroup (j : Job) (chip owner clock bay slot : Nat) : Group :=
  { bay := bay, slot := slot, n := j.hdr.vregs, v := [], g := sparseOf 0 j.args, gp := 0
    h := sparseOf ⟨0, 0⟩ [⟨handleOf (keyTag j.rk) 0xFFE 0, chip⟩, ⟨handleOf (keyTag j.rk) 0xFFF 0, owner⟩]
    b := sparseOf 0 j.recs, th := [], sc := [], am := [], chk := j.hdr.chk, rerr := 0, rerrKind := none, replay := none, watch := none,
    strands := [launchStrand j clock], frames := [], fixed := [], inflight := [], stack := [], stackFailed := [], ecc := [], syncDue := true,
    sinceSync := 0, syncTime := clock, retired := false }
/-- The groups of a new slice in their bays. -/
def launchGroups (j : Job) (chip owner clock : Nat) : List Nat → Room → List Group
  | [], _ => []
  | b :: bays, r => launchGroup j chip owner clock b (r.slotOf b) :: launchGroups j chip owner clock bays (r.take b 1 0)
/-- The deadline of a slice of a job (R272). -/
def Job.deadlineOf (j : Job) (i : Nat) : Nat := min (j.deadline + i * j.dstep) (2 ^ 64 - 1)
/-- The chip that holds a job's h1 (R244). -/
def State.ownerOf (s : State) (j : Job) : Nat := match j.thief with | some o => o.job.chip | none => s.chip
/-- The groups of a slice become members of h0 and h1 (R244): on the owner they are counted among the Queued groups of h1 no longer. -/
def State.joinPresets (s : State) (sid jn index : Nat) (j : Job) : State :=
  let n := j.hdr.groups
  let mem := fun (base : Nat) => (List.range n).map fun gi => (⟨base + gi, .here ⟨sid, gi⟩, false, false⟩ : HMember)
  let h0 := { Harness.fresh (handleOf (keyTag j.rk) 0xFFE 0) s.chip j.rk .core none false 0 with members := mem 0 }
  let s := { s with harnesses := s.harnesses ++ [(HKey.slice sid, h0)] }
  s.modHarness (.job jn) fun h =>
    { h with members := h.members ++ mem (index * n), queued := if j.thief.isNone then h.queued - n else h.queued }
/-- A slice of a job with its groups in its bays, first placed now: its logical arrays lie on the lowest free ones of the core (R196; DESIGN CHOICE, notes/assumptions/13.md). -/
def State.newSlice (s : State) (jn index core : Nat) (bays : List Nat) (j : Job) (stolen : Option JobKey) : Slice :=
  let x : Slice :=
    { jn := jn, index := index, st := .resident, core := core, groups := launchGroups j s.chip (s.ownerOf j) s.clock bays (s.roomOf core none),
      budget := none, deadline := j.deadlineOf index, scratch := [], scratchFailed := [], tiles := [], tilesFailed := [],
      arrays := List.replicate (arraysOf j.hdr.acc) ArraySt.reset, reserves := [], claims := [], views := [0, 0, 0, 0], stopped := [],
      stoppedUpd := [], failCause := none, exhausted := none, preempt := none, saveWait := false, wantResume := false, stolen := stolen,
      image := none, log := [], logBlocks := [], logWait := [], created := [], late := false
      phys := (s.freeArrays core).take (arraysOf j.hdr.acc) }
  { x with budget := s.sliceBudget x }
/-- A new slice placed on a core (R30, R33): it is Resident, and its groups start. -/
def State.placeNew (s : State) (sid jn index core : Nat) (bays : List Nat) (stolen : Option JobKey) : State := match s.job? jn with
  | none => s
  | some j =>
    let x := s.newSlice jn index core bays j stolen
    ({ s with slices := Sparse.set s.slices sid x }).joinPresets sid jn index j

/-! ### Context save (R34, R234, R241, R259, R316) -/

/-- Bytes of a long range written in parts of one page. -/
def State.areaWrite (s : State) (vf va : Nat) (bs : List Byte) : State :=
  (List.range (ceilDiv bs.length 65536)).foldl (fun s k => s.devWrite vf (va + k * 65536) ((bs.drop (k * 65536)).take 65536)) s
/-- Whether a long range holds some bytes and meets no failed granule. -/
def State.areaHolds (s : State) (vf va : Nat) (bs : List Byte) : Bool :=
  (List.range (ceilDiv bs.length 65536)).all fun k =>
    let part := (bs.drop (k * 65536)).take 65536
    s.devRead vf (va + k * 65536) part.length == some part && !s.devFailed vf (va + k * 65536) part.length
/-- The bytes of an image (R316): its header, and a part whose layout is private. -/
def Image.bytes (im : Image) : List Byte := match im.whole with
  | some bs => bs
  | none => im.header ++ (List.range (im.size - 64)).map fun i => Config.imageByte im.num (64 + i)
/-- SIZE of a slice's image: the bound of R311. -/
def State.imageSize (s : State) (x : Slice) : Nat :=
  let h := s.hdrOf x
  let p := passesOf h.width
  let quota := (List.range Config.baysPerCore).foldl (fun n b => n + x.poolIn p b) 0
  65536 + 784 * 1024 * arraysOf h.acc + h.scratch + 192 * 1024 * h.groups + 128 * quota
/-- The header of a slice's image (R316). -/
def State.imageHeader (s : State) (x : Slice) (size : Nat) : List Byte :=
  let h := s.hdrOf x
  let job := match s.job? x.jn with | some j => j.ticket | none => 0
  let budget := match x.budget with | some b => b | none => 2 ^ 32 - 1
  bytesOf 64 (0x45474D49 + 2 ^ 32 + 0x0512 * 2 ^ 48 + size * 2 ^ 64 + x.index * 2 ^ 128 + job % 2 ^ 32 * 2 ^ 160 +
    keyTag (s.sliceRegion x) * 2 ^ 192 + s.chip * 2 ^ 204 + h.groups * 2 ^ 216 + h.width * 2 ^ 224 + h.acc * 2 ^ 232 +
    h.scratch * 2 ^ 256 + (if x.preempt == some .budget then 2 ^ 288 else 0) + (if x.stolen.isSome then 2 ^ 289 else 0) +
    budget % 2 ^ 32 * 2 ^ 320 + x.deadline % 2 ^ 64 * 2 ^ 384 + s.time % 2 ^ 64 * 2 ^ 448)
/-- Whether a slice that is to be pre-empted can be saved now (R34, R178, R220, R241): what it presented is complete, its stores
among it once what can go from its core's buffer has gone, its last passes have taken their budget and no split pair is half issued, and its arrays hold
nothing that can be performed. -/
def State.saveReady (s : State) (sid : Nat) (x : Slice) : Bool :=
  let k := s.core x.core
  let mine := fun (r : StrandRef) => r.sid == sid
  x.st == .resident && x.preempt.isSome && !x.saveWait && x.exhausted.isNone &&
    x.groups.all (fun g => g.inflight.all fun f => match f.body with
      | .mem _ => false
      | .scload .. => false
      | _ => true) &&
    !(((s.drainCore x.core).core x.core).buf.any fun e => mine e.who) && x.spends.isEmpty && x.groups.all (fun g => g.strands.all fun t => t.half.isNone) &&
    x.arrays.all (fun a => match a.queue with | [] => true | c :: _ => c.batch.isSome) &&
    k.chans.all (fun c => match c.entries with
      | [] => true
      | e :: _ => !mine e.who || e.matrix.isSome || !e.finished) &&
    (match k.upd with | [] => true | u :: _ => !mine u.who || !u.finished) &&
    !(s.remotes.any fun r => match r.owner with
      | .copyLoad c ch id => c == x.core && (s.chan c ch).entries.any fun e => e.id == id && mine e.who
      | .copyStore c ch id => c == x.core && (s.chan c ch).entries.any fun e => e.id == id && mine e.who
      | .updLoad c id => c == x.core && k.upd.any fun u => u.id == id && mine u.who
      | .updStore c id => c == x.core && k.upd.any fun u => u.id == id && mine u.who
      | .matrixLoad q _ _ => q == sid
      | .matrixStore r _ _ => mine r
      | _ => false)
/-- The strands of a group stopped at their stop points: a strand between two instructions is Ready again at restore, and one in Fault
wait meets its pages again. -/
def Group.stopped (g : Group) : Group :=
  let y := applyAll g (g.fixed.flatMap Fixed.wrs)
  { y with
    fixed := []
    strands := y.strands.map fun t => { t with
      line := none, runLen := 0, st := match t.st with
        | .issuing => .ready
        | .faultWait _ => .ready
        | .verify _ => .ready
        | w => w } }
/-- V_N of a channel for a slice (R234): the view position of the first unwritten byte of its earliest stopped copy, or else its view of
the pointer. -/
def Slice.savedView (x : Slice) (sid : Nat) (c : Chan) (n : Nat) : Nat :=
  let view := x.views.getD n 0
  let at_ := match c.entries.find? fun e => e.who.sid == sid && e.matrix.isNone && !e.finished with
    | some e => e.fin + e.done - e.len
    | none => c.cw
  (at_ + 2 ^ 64 - view % 2 ^ 64) % 2 ^ 64
/-- The copies of a slice on a channel as its image holds them: each with its end mark in the slice's view (R234). -/
def Slice.savedCopies (x : Slice) (sid : Nat) (c : Chan) (n : Nat) : List (Nat × CopyEntry) :=
  (c.entries.filter fun e => e.who.sid == sid && e.matrix.isNone).map fun e =>
    (n, { e with batch := none, got := [], lost := [], flight := none, fin := (e.fin + 2 ^ 64 - x.views.getD n 0 % 2 ^ 64) % 2 ^ 64 })
/-- A slice as its image holds it, with the copies and OPTSTEPs it had under way. -/
def Slice.imaged (x : Slice) (sid : Nat) (k : Core) (im : Image) : Slice :=
  let chans := k.chans.zip (List.range k.chans.length)
  { x with
    st := .swapped, image := some im, log := [], logBlocks := [], logWait := [], phys := []
    groups := x.groups.map Group.stopped
    views := chans.map fun c => x.savedView sid c.1 c.2
    stopped := chans.flatMap fun c => x.savedCopies sid c.1 c.2
    stoppedUpd := (k.upd.filter fun u => u.who.sid == sid).map fun u => { u with batch := none, got := [], lost := [], flight := none }
    arrays := x.arrays.map fun a => { a with queue := a.queue.map fun c => { c with batch := none, fetched := none, got := [] } } }
/-- Whether a fault batch belongs to a slice. -/
def BatchOwner.ofSlice (sid : Nat) (x : Slice) (k : Core) : BatchOwner → Bool
  | .strand r => r.sid == sid
  | .matrix q _ _ => q == sid
  | .copy c ch id => c == x.core && (k.chans.getD ch Chan.reset).entries.any fun e => e.id == id && e.who.sid == sid
  | .update c id => c == x.core && k.upd.any fun u => u.id == id && u.who.sid == sid
/-- What a slice holds on its core is released (R34): its places in the channels and the update engine, its runs, its watches, its fault
batches and its core-level harness units. -/
def State.leaveCore (s : State) (sid : Nat) (x : Slice) : State :=
  let k := s.core x.core
  let mine := fun (r : Option StrandRef) => match r with | some y => y.sid == sid | none => false
  let s := s.modCore x.core fun k =>
    { k with chans := k.chans.map fun c => { c with entries := c.entries.filter fun e => e.who.sid != sid }
             upd := k.upd.filter fun u => u.who.sid != sid
             bays := k.bays.map fun b => if mine b.run then { b with run := none } else b }
  { s with
    watches := s.watches.filter fun w => w.g.sid != sid
    batches := s.batches.filter fun b => !b.2.owner.ofSlice sid x k
    harnesses := s.harnesses.map fun e => match e.1, e.2.unit with
      | .made n, some (.core _ _) => if x.created.contains n then (e.1, { e.2 with unit := none }) else e
      | _, _ => e }
/-- CONTEXT_SAVE (R34): the image is written and the slice is Swapped; without room for it cause 321 is raised and the slice stays as it
is, stopped. -/
def State.saveSlice (s : State) (sid : Nat) : State := match s.slice? sid with
  | none => s
  | some x =>
    if !s.saveReady sid x then s
    else
      let rk := s.sliceRegion x
      let s := s.drainCore x.core
      let size := s.imageSize x
      match s.poolTake rk size with
      | none => (s.modSlice sid fun x => { x with saveWait := true }).sliceNotice sid 321
      | some (va, s) =>
        let (num, s) := s.fresh
        let im : Image := ⟨va, size, num, s.imageHeader x size, none⟩
        let s := s.areaWrite (keyVf rk) va im.bytes
        let k := s.core x.core
        (s.leaveCore sid x).modSlice sid fun x => x.imaged sid k im
/-- CONTEXT_SAVE (spec/02 R34; spec/14 R316). -/
def execContextSave (sid : Nat) (s : State) : Host.Outcome State Fault Refusal := .next (s.saveSlice sid)

/-! ### Context restore (R35, R86, R234, R259, R279, R285, R318) -/

/-- The cores on which a slice may be restored: those of a die where it holds membership in a die-span harness (R243). -/
def State.dieLimit (s : State) (sid : Nat) : Option Nat := firstSome (fun (e : HKey × Harness) => match e.2.unit with
  | some (.die d _) => if e.2.members.any fun m => (match m.who with | .here g => g.sid == sid | _ => false) then some d else none
  | _ => none) s.harnesses
/-- Core-level harness units given to the core-span harnesses of a slice on its new core. -/
def State.takeUnits (s : State) (core : Nat) (created : List Nat) : State := created.foldl (fun s n => match s.harness? (.made n) with
  | none => s
  | some h =>
    if h.span != .core then s
    else
      let used := s.harnesses.filterMap fun e => match e.2.unit with | some (.core c u) => if c == core then some u else none | _ => none
      s.modHarness (.made n) fun h => { h with unit := some (.core core (lowestFree used)) }) s
/-- The stopped copies of a slice on a channel taken back at its tail (R234). -/
def State.copiesBack (s : State) (sid core : Nat) (x : Slice) (n : Nat) : State :=
  let v := x.views.getD n 0
  let c := s.chan core n
  let l := (x.stopped.filter fun e => e.1 == n).map fun e => { e.2 with fin := c.tail + e.2.fin - v }
  let top := l.foldl (fun m e => max m e.fin) c.tail
  let s := s.modChan core n fun c => { c with tail := top, entries := c.entries ++ l }
  s.modSlice sid fun x => { x with views := setAt x.views n ((c.tail + 2 ^ 64 - v) % 2 ^ 64) }
/-- New bays and slots for the groups of a slice. -/
def placeOld (m : List (Nat × Nat)) : List Group → Room → List Group
  | [], _ => []
  | g :: rest, r =>
    let b := match m.find? fun e => e.1 == g.bay with | some e => e.2 | none => g.bay
    if g.retired then { g with bay := b } :: placeOld m rest r
    else { g with bay := b, slot := r.slotOf b, syncDue := true } :: placeOld m rest (r.take b 1 0)
/-- A group as it goes on after a restore: its watch is marked restored. -/
def Group.back (clock : Nat) (g : Group) : Group :=
  { g with
    watch := g.watch.map fun w => { w with restored := true }
    strands := g.strands.map fun t => { t with nextIssue := max t.nextIssue clock, readySince := clock } }
/-- Parked strands of a restored slice wake with cause 4, or with 1 or 3 where the watch had fired or was evicted before the slice was saved (R285). -/
def State.wakeParked (s : State) (sid : Nat) : State := match s.slice? sid with
  | none => s
  | some x => (List.range x.groups.length).foldl (fun s gi => match (s.group? sid gi).bind fun g => g.parked?.map fun p => (p, g.watch) with
      | some ((sn, _, id), w) => (match w with
        | some y => if y.fired then s.unpark ⟨sid, gi⟩ sn id 1 (some { y with fired := false })
          else if y.evicted then s.unpark ⟨sid, gi⟩ sn id 3 none else s.unpark ⟨sid, gi⟩ sn id 4 w
        | none => s.unpark ⟨sid, gi⟩ sn id 4 w)
      | none => s) s
/-- The image and the arrival log of a slice freed. -/
def State.dropImage (s : State) (sid : Nat) : State := match s.slice? sid with
  | none => s
  | some x =>
    let rk := s.sliceRegion x
    let s := match x.image with | some im => s.poolFree rk im.va | none => s
    let s := x.logBlocks.foldl (fun s va => s.poolFree rk va) s
    s.modSlice sid fun x => { x with image := none, logBlocks := [], log := [], logWait := [] }
/-- Whether an image and its log are as the device wrote them (R318). -/
def State.imageGood (s : State) (x : Slice) : Bool := match x.image with
  | none => false
  | some im =>
    let vf := keyVf (s.sliceRegion x)
    s.areaHolds vf im.va im.bytes &&
      (x.log.zip (List.range x.log.length)).all fun e => match x.logBlocks[e.2 / logEntries]? with
        | some va => s.areaHolds vf (va + 32 * (e.2 % logEntries)) e.1.bytes
        | none => false
/-- A slice of another module whose image does not hold here goes, and its source is told (R348). -/
def State.dropGuest (s : State) (sid : Nat) : State := match s.slice? sid with
  | none => s
  | some x =>
    let s := (match x.source, x.stolen with
      | some chip, some key => s.emit (.restored chip key x.index false)
      | _, _ => s).dropImage sid
    let s := s.modSlice sid fun x => { x with st := .failed, stolen := none, source := none }
    let s := s.modJob x.jn fun j => { j with finished := true }
    { s with harnesses := s.harnesses.filter fun e => e.1 != .job x.jn && e.1 != .slice sid }
/-- The source of a slice that another module has sent is told that it is restored here (R348). -/
def State.guestBack (s : State) (sid : Nat) (x : Slice) : State := match x.source, x.stolen with
  | some chip, some key => (s.emit (.restored chip key x.index true)).modSlice sid fun x => { x with source := none }
  | _, _ => s
/-- CONTEXT_RESTORE of a slice on a core with new bays (R318): its image and log are checked, its state is loaded, the log is applied and after it the
events that still waited in the units for the log to grow (R259), its copies are taken back, its watches are marked restored, and its strands go on. -/
def State.restoreOn (s : State) (sid core : Nat) (m : List (Nat × Nat)) : State := match s.slice? sid with
  | none => s
  | some x =>
    if !s.imageGood x then (match x.source with
      | some _ => s.dropGuest sid
      | none => s.killSlice sid 323)
    else
      let s := s.guestBack sid x
      let phys := (s.freeArrays core).take x.arrays.length
      let room := s.roomOf core none
      let newBay := fun (b : Nat) => match m.find? fun e => e.1 == b with | some e => e.2 | none => b
      let budget := if x.preempt == some .budget then s.sliceBudget x else x.budget
      let s := s.modSlice sid fun x =>
        { x with st := .resident, core := core, phys := phys, budget := budget, preempt := none, exhausted := none
                 groups := (placeOld m x.groups room).map (Group.back s.clock)
                 reserves := x.reserves.foldl (fun l r => Sparse.put 0 l (newBay r.1) (Sparse.get 0 l (newBay r.1) + r.2)) []
                 claims := x.claims.map fun c => { c with bay := newBay c.bay } }
      let s := s.takeUnits core x.created
      let s := (x.log ++ x.logWait).foldl (fun s e => (s.complete sid e.gi e.id e.wrs).wakeHarness ⟨sid, e.gi⟩ e.id) s
      let s := [0, 1, 2, 3].foldl (fun s n => s.copiesBack sid core x n) s
      let s := s.modCore core fun k => { k with upd := k.upd ++ x.stoppedUpd }
      let s := s.modSlice sid fun x => { x with stopped := [], stoppedUpd := [] }
      (s.wakeParked sid).dropImage sid

/-! ### Candidates (R260, R277, R287, R294, R299) -/

/-- A slice that may be placed: a Queued slice of a job, or a Swapped or Claimed one by its number; with what orders it. -/
structure Cand where
  jn : Nat
  index : Nat
  sid : Option Nat
  deadline : Nat
  prio : Nat
deriving DecidableEq, Repr, Inhabited
/-- Whether a module is lagging for a region G (R293): on a harness of G or of G's subtree. -/
def State.lagsFor (s : State) (g : Nat) : Bool := s.lagging.any fun l => s.isAncestor g l.rk
/-- The latest cycle at which a flag was set for a region above `rk`, or `rk` itself, for which this module lags (R294). -/
def State.lagSince (s : State) (rk : Nat) : Option Nat :=
  (s.lagging.filter fun l => (s.lineage rk).any fun g => s.isAncestor g l.rk).foldl (fun (m : Option Nat) l => match m with
    | none => some l.since
    | some n => some (max n l.since)) none
/-- Whether the Queued slices of a job are stealable (R294). -/
def State.stealable (s : State) (j : Job) : Bool :=
  j.hdr.steal && j.table.isSome && j.thief.isNone && !j.queued.isEmpty && !j.finished && (s.lagSince j.rk).isSome
/-- The priority of a region. -/
def State.prioOf (s : State) (rk : Nat) : Nat := match s.region? rk with | some r => r.prio | none => 0
/-- The lowest Queued index of a job. -/
def Job.firstQueued (j : Job) : Option Nat := j.queued.foldl (fun (m : Option Nat) r => match m with
  | none => some r.1
  | some n => some (min n r.1)) none
/-- Whether the dispatcher holds a job back: while 64 of its entries wait (R287). -/
def Job.entriesWait (j : Job) : Bool := decide (64 ≤ j.completions.length)
/-- Whether a Swapped slice is a candidate: all are, but for one that used up its budget and waits for a RESUME (R41, R277, R312), and one whose image is on its way to another module (R348). -/
def Slice.mayReturn (x : Slice) : Bool := x.st == .swapped && !x.wantResume && x.move.isNone
/-- Whether a Swapped slice may be placed: one swapped at a job barrier is restored once its log holds the completion of h1 (R260). -/
def Slice.logReady (x : Slice) : Bool := x.preempt != some .barrier ||
  x.log.any fun e => bitsAt (ofBytes (e.bytes.take 4)) 0 20 == 0xFFF00
/-- The candidates (R277, R299). On a failed module no Claimed slice is one (R17). -/
def State.candidates (s : State) : List Cand :=
  (s.jobs.filterMap fun e =>
    let j := e.2
    if j.thief.isSome || j.finished || j.entriesWait || (s.stealable j && !j.ordinary) then none
    else j.firstQueued.map fun i => (⟨e.1, i, none, j.deadlineOf i, s.prioOf j.rk⟩ : Cand)) ++
  (s.slices.filterMap fun e =>
    let x := e.2
    if x.st == .claimed && !s.mgmt.failed then some ⟨x.jn, x.index, some e.1, x.deadline, match s.job? x.jn with | some j => s.prioOf j.rk | none => 0⟩
    else if x.mayReturn then
      (match s.job? x.jn with
        | some j => if j.entriesWait then none else some ⟨x.jn, x.index, some e.1, x.deadline, s.prioOf j.rk⟩
        | none => none)
    else none)
/-- Whether a candidate goes before another (R277). -/
def Cand.before (a b : Cand) : Bool :=
  decide (a.deadline < b.deadline) || (a.deadline == b.deadline && (decide (b.prio < a.prio) || (a.prio == b.prio &&
    (decide (a.jn < b.jn) || (a.jn == b.jn && decide (a.index < b.index))))))
/-- The first of a list by an order. -/
def bestOf {α : Type} (lt : α → α → Bool) (l : List α) : Option α := l.foldl (fun (m : Option α) a => match m with
  | none => some a
  | some b => if lt a b then some a else some b) none
/-- How a candidate fits on a core, with a resident slice left out of account: the bays of a new slice's groups, or the new bays of a
Swapped slice's. -/
def State.fitOn (s : State) (c : Cand) (core : Nat) (skip : Option Nat) : Option (List Nat × List (Nat × Nat)) :=
  let room := s.roomOf core skip
  match s.job? c.jn with
  | none => none
  | some j => match c.sid.bind s.slice? with
    | some x =>
      if x.st == .claimed then
        (if room.shared j.hdr 0 then (room.newBays j.hdr).map fun l => (l, []) else none)
      else
        let units := (x.created.filter fun n => match s.harness? (.made n) with | some h => h.span == .core | none => false).length
        if !x.logReady then none
        else
        let die := match c.sid.bind s.dieLimit with | some d => d == dieOf core | none => true
        if die && room.shared j.hdr units then (room.oldBays x (passesOf j.hdr.width)).map fun m => ([], m) else none
    | none => if room.shared j.hdr 0 then (room.newBays j.hdr).map fun l => (l, []) else none
/-- Whether a core waits to be replaced by a spare: nothing is placed on it (R347). -/
def Mgmt.coreWaits (m : Mgmt) (core : Nat) : Bool := m.replacing.any fun e => e.1 == .core && e.2.2 == core
/-- The core on which a candidate is placed (R277): the one with the fewest resident groups, and among those the lowest. -/
def State.coreFor (s : State) (c : Cand) : Option Nat :=
  bestOf (fun a b => decide ((s.roomOf a none).resident < (s.roomOf b none).resident))
    ((List.range Config.cores).filter fun k => !s.mgmt.coreWaits k && (s.fitOn c k none).isSome)
/-- An index taken out of the ranges of Queued ones. -/
def takeIndex (l : List (Nat × Nat)) (i : Nat) : List (Nat × Nat) := l.flatMap fun r =>
  if r.1 ≤ i ∧ i < r.2 then (if r.1 < i then [(r.1, i)] else []) ++ (if i + 1 < r.2 then [(i + 1, r.2)] else []) else [r]
/-- A Queued slice placed by its owner: for a STEAL job once its word has changed to Started (R299). A word that no transition produces
ends the slice with cause 373 (R297), and a slice whose word cannot change is skipped: its holder is the one that the word names. -/
def State.startQueued (s : State) (c : Cand) (j : Job) (core : Nat) (bays : List Nat) : State :=
  let s := s.modJob c.jn fun j => { j with queued := takeIndex j.queued c.index }
  match s.ownMove j c.index .dispatch with
  | (.broken, s) => (s.loseQueued c.jn c.index j.hdr.groups).sliceCounted c.jn c.index true false 373 s.chip false
  | (.kept w, s) => s.modJob c.jn fun j => { j with claimed := j.claimed ++ [(c.index, ownChip w)] }
  | (_, s) =>
    let (sid, s) := s.fresh
    s.placeNew sid c.jn c.index core bays none
/-- A candidate placed. -/
def State.place (s : State) (c : Cand) (core : Nat) : State := match s.job? c.jn, s.fitOn c core none with
  | some j, some (bays, m) => match c.sid with
    | none => s.startQueued c j core bays
    | some sid => match s.slice? sid with
      | none => s
      | some x =>
        if x.st == .claimed then s.placeNew sid c.jn c.index core bays x.stolen else s.restoreOn sid core m
  | _, _ => s

/-! ### SLICE_DISPATCH (R277, R278, R260) -/

/-- Whether a resident slice is on its way out. -/
def Slice.leaving (x : Slice) : Bool := x.st == .resident && x.preempt.isSome && !x.saveWait
/-- The slice that a candidate which fits no core pre-empts (R278). -/
def State.victimOf (s : State) (c : Cand) : Option Nat :=
  if (c.sid.bind s.slice?).any fun x => x.st == .claimed then none else
    let l := s.slices.filter fun e =>
      e.2.st == .resident && e.2.preempt.isNone && decide (c.deadline < e.2.deadline) &&
        decide (s.prioOf (s.sliceRegion e.2) ≤ c.prio) && (s.fitOn c e.2.core (some e.1)).isSome
    (bestOf (fun (a b : Nat × Slice) => decide (b.2.deadline < a.2.deadline) || (a.2.deadline == b.2.deadline &&
      (decide (s.prioOf (s.sliceRegion a.2) < s.prioOf (s.sliceRegion b.2)) ||
        (s.prioOf (s.sliceRegion a.2) == s.prioOf (s.sliceRegion b.2) && decide (b.2.jn < a.2.jn))))) l).map Prod.fst
/-- Whether a group has retired, or waits in Harness wait on h1. -/
def State.atBarrier (s : State) (sid jn gi : Nat) (g : Group) : Bool :=
  g.retired || (match g.strands with
    | [t] => (match t.st with
      | .harness id => (match s.harness? (.job jn) with
        | some h => h.waiters.any fun w => w.g == ⟨sid, gi⟩ && w.id == id
        | none => false)
      | _ => false)
    | _ => false)
/-- Whether every group of a slice is at the job barrier. -/
def State.sliceAtBarrier (s : State) (sid : Nat) (x : Slice) : Bool :=
  (x.groups.zip (List.range x.groups.length)).all fun e => s.atBarrier sid x.jn e.2 e.1
/-- Whether every group of a slice that has not retired has arrived in the current phase of h1 (R260). -/
def State.sliceArrived (s : State) (sid jn : Nat) (x : Slice) : Bool := match s.harness? (.job jn) with
  | none => false
  | some h => (x.groups.zip (List.range x.groups.length)).all fun e => e.1.retired || (match h.member? (.here ⟨sid, e.2⟩) with
      | some m => h.reached m.idx
      | none => false)
/-- The slice that leaves at a barrier of its job (R260): every Resident slice of the job is at the barrier and some slice is Queued; of those
whose groups have all arrived, the one with the latest deadline. -/
def State.barrierVictim (s : State) (jn : Nat) (j : Job) : Option Nat :=
  let l := s.slices.filter fun e => e.2.jn == jn && e.2.st == .resident
  if j.queued.isEmpty || l.isEmpty || !l.all (fun e => s.sliceAtBarrier e.1 e.2) || l.any (fun e => e.2.preempt.isSome) then none
  else (bestOf (fun (a b : Nat × Slice) => decide (b.2.deadline < a.2.deadline)) (l.filter fun e => s.sliceArrived e.1 jn e.2)).map Prod.fst
/-- What SLICE_DISPATCH does next: it places a candidate, which for a Claimed slice comes with the change of its word (STEAL_CLAIM), or picks a slice to pre-empt and why. -/
inductive DispatchAct where
  | place (c : Cand) (core : Nat)
  | preempt (sid : Nat) (why : Preempt)
deriving DecidableEq, Repr, Inhabited
/-- The next act of the dispatcher (R277, R278, R260). On a failed module it goes on with the Queued and Swapped slices of jobs that were admitted before (R17; DESIGN CHOICE,
notes/assumptions/21.md). -/
def State.dispatchAct (s : State) : Option DispatchAct :=
  if s.mgmt.hold then none
  else
    let l := s.candidates.map fun c => (c, s.coreFor c)
    match bestOf (fun (a b : Cand × Option Nat) => a.1.before b.1) (l.filter fun e => e.2.isSome) with
    | some (c, some k) => some (.place c k)
    | _ =>
      if s.slices.any fun e => e.2.leaving then none
      else
        let order := sortBy (fun (c : Cand) => (l.filter fun e => e.1.before c).length) (l.map Prod.fst)
        match firstSome s.victimOf order with
        | some v => some (.preempt v .deadline)
        | none => (firstSome (fun (e : Nat × Job) => s.barrierVictim e.1 e.2) s.jobs).map fun v => .preempt v .barrier
/-- Whether a candidate is a Claimed slice. -/
def State.claimedCand (s : State) (c : Cand) : Bool := (c.sid.bind s.slice?).any fun x => x.st == .claimed
/-- A slice is to be pre-empted (R33, R34). -/
def State.startPreempt (s : State) (sid : Nat) (why : Preempt) : State := s.modSlice sid fun x =>
  if x.st == .resident && x.preempt.isNone then { x with preempt := some why } else x
/-- SLICE_DISPATCH. -/
def State.dispatch (s : State) : State := match s.dispatchAct with
  | none => s
  | some (.place c k) => if s.claimedCand c then s else s.place c k
  | some (.preempt sid why) => s.startPreempt sid why
/-- SLICE_DISPATCH (spec/12 R277, R278; spec/11 R260). -/
def execSliceDispatch (s : State) : Host.Outcome State Fault Refusal := .next s.dispatch
/-- CONTEXT_RESTORE (spec/14 R318): a Swapped slice is restored where it fits. -/
def execContextRestore (sid : Nat) (s : State) : Host.Outcome State Fault Refusal :=
  .next (match s.candidates.find? fun c => c.sid == some sid with
    | some c => match s.slice? sid, s.coreFor c with
      | some x, some k => if x.st == .swapped && !s.mgmt.hold then s.place c k else s
      | _, _ => s
    | none => s)

end Sys2Proof.Machine
end

