-- ==== Sys2Proof/Machine/Fabric.lean ====
section
/-!
DEFINITION. What comes over the fabric, and harness units as they act on their own (spec/11 R242 to R261; spec/13 R290 to R293, R302;
spec/14 R315; spec/16 R337 to R342; DESIGN CHOICE, notes/assumptions/9.md).
-/

namespace Sys2Proof.Machine

/-! ### Tenants across modules (R337) -/

/-- The virtual function bound to a fabric tenant id. -/
def State.vfOf (s : State) (ftid : Nat) : Option Nat :=
  if ftid == 0 then none else (s.tenants.find? fun e => e.2.valid && e.2.ftid == ftid).map Prod.fst
/-- The local region of a fabric tenant id and a region tag. -/
def State.regionOf (s : State) (ftid tag : Nat) : Option Nat := match s.vfOf ftid with
  | none => none
  | some vf => if (s.region? (regionKey vf tag)).isSome then some (regionKey vf tag) else none

/-! ### Harness messages (R247, R252 to R258, R315, R338) -/

/-- The checks of R250 that the module which holds a harness makes for a request of another module, in their order: the handle is stale, the harness has failed, its region is
none of those above the caller's, the caller is no member. -/
def State.askCheck (s : State) (h : Option Harness) (handle : W32) (ftid tag : Nat) (w : Member) (lost member : Bool) : Option Nat :=
  let failed := match h with | some y => y.failed | none => false
  if h.isNone || (match h with | some y => y.holder != s.chip || (hGen handle != 0 && hGen y.handle != hGen handle) | none => false) then some 208
  else if lost && failed then some 221
  else match s.regionOf ftid tag with
    | none => some 212
    | some rk =>
      if !s.isAncestor (regionKey (keyVf rk) (hTag handle)) rk then some 212
      else if member && (match h with | some y => (y.member? w).isNone | none => true) then some 210
      else none
/-- Which checks of R250 a request needs beyond the handle and the region: that the harness has not failed, and that the group is a member. -/
def askNeeds (failed : Bool) : HAsk → Bool × Bool
  | .free => (false, !failed)
  | .query _ => (true, false)
  | .join => (true, false)
  | .only op => askNeeds failed op
  | _ => (true, true)
/-- A request carried out by the module that holds the harness (R246, R252, R253, R256, R289, R373, R401): it answers the request's number with a grant or a refusal, and takes an
arrival with the others of its cycle. -/
def State.askDone (s : State) (key : HKey) (w : Member) (chip id ftid tag : Nat) (h : Harness) (op : HAsk) : State :=
  let reply := fun (s : State) (r : HReply) => s.emit (.released chip key ftid tag r)
  let grant := fun (s : State) (idx : Nat) (now : Bool) (value : W32) => reply s (.grant id idx h.phase.toNat now value)
  let refuse := fun (s : State) (cause : Nat) => reply s (.refuse id cause 0)
  let mine := match h.members.find? fun m => m.who == w with | some m => m.idx | none => 0
  match op with
  | .join =>
    if h.span != .sys then refuse s 213
    else if h.members.any fun m => m.who == w then refuse s 217
    else
      let s := s.joinHarness key w
      let m := (s.harness? key).bind fun y => y.members.find? fun m => m.who == w
      grant s (match m with | some m => m.idx | none => 0) (match m with | some m => !m.joining | none => false) 0
  | .arrive kind count value =>
    let coll := match kind with | .coll _ _ => true | _ => false
    if coll && (h.counted || decide (4096 < h.phaseMembers)) then refuse s 305
    else if h.reached mine then refuse s 214
    else s.modHarness key fun y => { y with coming := y.coming ++ [⟨mine, w, kind, count, value, s.clock, some id, 0, 0, 0, 0, 0, none⟩] }
  | .leave => grant (s.leaveHarness key w s.clock false false) mine true 0
  | .free =>
    let sole := h.members.length == 1 && h.queued == 0 && h.members.all fun m => m.who == w && !m.joining
    if !h.failed && !sole then refuse s 215 else grant (s.freeHarness key) mine true 0
  | .query sel => grant s mine true (h.query sel w)
  | .wait token => match h.waitFor token.toNat with
    | none => refuse s 214
    | some none => grant s mine false 0
    | some (some word) => grant s mine true word
  | .strag buf slots slotsz =>
    if mine != 0 || h.phase != 0 || h.strag.isSome then refuse s 218
    else match s.regionOf ftid tag with
      | none => refuse s 212
      | some rk => grant (s.modHarness key fun y => { y with strag := some ⟨buf, rk, slots, slotsz, [], 0, 0⟩ }) mine true 0
  | .check => grant s mine true 0
  | .only _ => reply s (.passed id)
/-- Whether a message's fabric tenant and region are bound here, to the tenant of the harness that it concerns (R337). -/
def State.boundFor (s : State) (ftid tag : Nat) (h : Option Harness) : Bool := match s.regionOf ftid tag, h with
  | none, _ => false
  | some _, none => true
  | some rk, some y => keyVf y.rk == keyVf rk
/-- HARNESS_ARRIVAL_RECEIVE (R247, R250, R337): a message of another module's member reaches the unit of a harness held here, or the arrivals of the cycles before are taken. -/
def State.harnessReceive (s : State) (key : HKey) (w : Member) (msg : HMsg) : State := match msg, w with
  | .take, _ => s.takeComing key s.clock
  | .ask id handle ftid tag op, .there chip _ =>
    let s := match op with | .join => s | _ => s.adopt key w
    let h := s.harness? key
    let need := askNeeds (match h with | some y => y.failed | none => false) op
    (match s.askCheck h handle ftid tag w need.1 need.2, h with
      | some c, _ => s.emit (.released chip key ftid tag (.refuse id c 0))
      | none, some y => s.askDone key w chip id ftid tag y op
      | none, none => s)
  | .blocks ftid tag _ bad l, _ => if !s.boundFor ftid tag (s.harness? key) then s
    else s.modHarness key fun y => { y with ranks := updFirst (fun r => r.who == w && r.data.isEmpty) (fun r => { r with data := l, zero := bad }) y.ranks }
  | .leave ftid tag, .there _ _ => if s.boundFor ftid tag (s.harness? key) then (s.adopt key w).leaveHarness key w s.clock false true else s
  | .loss ftid tag, .there _ _ => if s.boundFor ftid tag (s.harness? key) then (s.adopt key w).leaveHarness key w s.clock true true else s
  | _, .here _ => s
/-- HARNESS_ARRIVAL_RECEIVE (spec/11 R247). -/
def execHarnessArrivalReceive (key : HKey) (who : Member) (msg : HMsg) (s : State) : Host.Outcome State Fault Refusal :=
  .next (s.harnessReceive key who msg)
/-- The result of a collective held elsewhere, with its status, comes to the ranks of this module, or it has failed with a cause (R341, R342, R373, R374). -/
def State.collResult (s : State) (key : HKey) (phase : Nat) (cause : Option Nat) (status : W32) (blocks : List (List W32)) : State := match s.harness? key with
  | none => s
  | some h =>
    let mine := h.ranks.filter fun r => r.phase == phase && r.ending.isNone
    let s := s.modHarness key fun h => { h with ranks := h.ranks.filter fun r => r.phase != phase || r.ending.isSome }
    mine.foldl (fun s r =>
      if r.cause == some 312 || r.cause == some 311 then s
      else s.rankEnd key h r (if r.cause.isSome then r.cause else cause) (bitsAt status.toNat 0 24) (bitAt status.toNat 29) (bitAt status.toNat 28) (blocks.flatMap id)) s
/-- A strand that waits on a failed harness stops with cause 221 at its waiting instruction (R315). -/
def State.releaseFailed (s : State) (w : HWaiter) : State := match s.group? w.g.sid w.g.gi with
  | none => s
  | some g =>
    let want : SState := SState.harness w.id
    let cpc := match g.inflight? w.id with | some f => f.cpc | none => 0
    let s := s.complete w.g.sid w.g.gi w.id []
    match g.strands.find? fun t => t.st == want with
    | some t => s.takeTrap ⟨w.g.sid, w.g.gi, t.sn⟩ 221 0 0 cpc cpc false
    | none => s
/-- The completion of a phase of a harness held on another module (R247, R338): the strands of this module that wait for it receive their results, and an arrival, a join or a wait
whose answer has come in that phase is over with it. -/
def State.phaseReleased (s : State) (key : HKey) (phase : Nat) (lost : Bool) (value : W32) : State := match s.harness? key with
  | none => s.askPhase key (Harness.fresh 0 s.chip 0 .sys none false 0) phase lost value
  | some h =>
    if h.holder == s.chip then s
    else if signedOf 32 (phase + 2 ^ 32 - h.phase.toNat) < 0 then s.askPhase key h phase lost value
    else
      let h := { h with phase := BitVec.ofNat 32 phase }
      (s.modHarness key fun _ => h).finishPhase key h lost value
/-- The answer to the request with some number (R250): it is noted, and the strand goes on. The arrival of a COLL that its continuation has held takes the phase from its
grant, or fails. -/
def State.askReplied (s : State) (key : HKey) (id : Nat) (msg : HReply) : State :=
  let s := s.askAnswer id msg
  match (s.harness? key).bind fun h => (h.ranks.find? fun r => r.id == id).map fun r => (h, r) with
  | none => s
  | some (h, r) => match msg with
    | .grant _ _ phase _ _ => s.modHarness key fun h => { h with ranks := updFirst (fun r => r.id == id) (fun r => { r with phase := phase }) h.ranks }
    | .refuse _ cause _ =>
      let s := s.modHarness key fun h => { h with ranks := h.ranks.filter fun r => r.id != id }
      (match s.rankPlace r with
        | some (who, _, rk) => s.collFail who rk r.id r.pc r.d (if cause == 210 then 305 else cause) (collStatus 0 false false true) h
        | none => s)
    | _ => s
/-- HARNESS_COMPLETION_MESSAGE (R247, R250, R315, R337, R338): what the module that holds a harness sends, where its tenant and region are bound here. -/
def State.harnessReleased (s : State) (key : HKey) (ftid tag : Nat) (msg : HReply) : State :=
  if !s.boundFor ftid tag (s.harness? key) then s else match msg with
  | .phase phase lost value => s.phaseReleased key phase lost value
  | .collective phase cause status blocks => s.collResult key phase cause status blocks
  | .grant id _ _ _ _ => s.askReplied key id msg
  | .refuse id _ _ => s.askReplied key id msg
  | .passed id => s.askReplied key id msg
  | .failed => match s.harness? key with
    | none => s
    | some h =>
      let s := s.modHarness key fun h => { h with failed := true, waiters := [] }
      h.waiters.foldl State.releaseFailed s
/-- HARNESS_COMPLETION_MESSAGE (spec/16 R338). -/
def execHarnessCompletionMessage (key : HKey) (phase : Nat) (sent : HSent) (value : W32) (blocks : List (List W32)) (s : State) : Host.Outcome State Fault Refusal :=
  .next (s.harnessReleased key sent.ftid sent.tag (sent.news.reply phase value blocks))
/-- An arrival that its harness's failure finds not yet taken stops with cause 221 (R315). -/
def State.refuseFailed (s : State) (key : HKey) (h : Harness) (a : HComing) : State := match a.who, a.ask with
  | .here _, some id => s.askAnswer id (.refuse id 221 0)
  | .here g, none => s.refuseHere g a 221 0
  | .there chip _, id => s.sendReply h chip key (.refuse (id.getD 0) 221 0)
/-- An uncorrectable error of a harness unit (R315): every harness held in it fails, its waiters and arrivals here stop with cause 221, and the modules of its other members are
told. -/
def State.unitFails (s : State) (u : HUnit) : State :=
  (s.harnesses.filter fun e => e.2.unit == some u).foldl (fun s e =>
    let s := s.modHarness e.1 fun h => { h with failed := true, waiters := [], coming := h.coming.filter fun a => a.gone.isSome }
    let s := e.2.waiters.foldl State.releaseFailed s
    let s := (e.2.coming.filter fun a => a.gone.isNone).foldl (fun s a => s.refuseFailed e.1 e.2 a) s
    (e.2.farChips s.chip).foldl (fun s c => s.sendReply e.2 c e.1 .failed) s) s
/-- A granule of main memory or weight store that fails (R153). -/
def State.failGranule (s : State) (pa : Nat) : State :=
  if !paValid pa || s.failedAt pa then s else { s with memFailed := s.memFailed ++ [granuleOf pa] }
/-- An error in a sector of a die cache (R314): a clean sector is read again from memory with no visible effect, and a dirty one leaves its granule failed. -/
def State.sectorFails (s : State) (pa : Nat) : State :=
  let die := paDie pa
  let i := pa % 128 / 32
  match (Sparse.get [] s.dcache die).find? fun y => y.line == pa / 128 with
  | none => s
  | some y =>
    if !y.dirty.getLsbD i then s
    else
      let mark : CacheLine → CacheLine := fun y => { y with bad := y.bad ||| BitVec.ofNat 4 (2 ^ i) }
      { s.failGranule pa with dcache := Sparse.put [] s.dcache die (updFirst (fun y => y.line == pa / 128) mark (Sparse.get [] s.dcache die)) }
/-- A corrected single-bit error counts in the module's soft-error counter and, in the state of a group, in that of its core (R315, R328). -/
def State.softError (s : State) (g : Option GroupRef) : State :=
  let s := match g with
    | some g => match s.slice? g.sid with
      | some x => s.count x.core (s.sliceRegion x) .softErrors 1
      | none => s
    | none => s
  { s with mgmt := { s.mgmt with softErrors := s.mgmt.softErrors + 1 } }
/-- A storage error as it arises (R46, R153, R314, R315; DESIGN CHOICE, notes/assumptions/21.md). One that is corrected only counts. -/
def State.storageFails (s : State) (e : StorageError) : State := match e with
  | .unit u => s.unitFails u
  | .corrected g => s.softError g
  | .word g w => s.modGroup g.sid g.gi fun y => if y.ecc.contains w then y else { y with ecc := y.ecc ++ [w] }
  | .granule pa => s.failGranule pa
  | .scratch sid off => s.modSlice sid fun x => if x.scratchFailed.contains (off / 4 * 4) then x else { x with scratchFailed := x.scratchFailed ++ [off / 4 * 4] }
  | .stack g n => s.modGroup g.sid g.gi fun y => if y.stackFailed.contains n then y else { y with stackFailed := y.stackFailed ++ [n] }
  | .tile sid n => s.modSlice sid fun x => if x.tilesFailed.contains n then x else { x with tilesFailed := x.tilesFailed ++ [n] }
  | .plane sid arr p row =>
    let hit : Plane → Plane := fun y => if y.failed.contains row then y else { y with failed := y.failed ++ [row] }
    s.modArray sid arr fun a => if p == 0 then { a with p0 := hit a.p0 } else { a with p1 := hit a.p1 }
  | .sector pa => s.sectorFails pa
  | .line core vf va bytes => s.modCore core fun k =>
      { k with icache := k.icache.map fun l => if l.vf == vf && l.va == va then { l with bytes := bytes } else l }
/-- HARNESS_UNIT_FAILURE (spec/14 R314, R315): the event of the storage errors. -/
def execHarnessUnitFailure (err : StorageError) (s : State) : Host.Outcome State Fault Refusal := .next (s.storageFails err)
/-- LAG_NOTICE (spec/13 R293). -/
def execLagNotice (ftid tag : Nat) (on : Bool) (s : State) : Host.Outcome State Fault Refusal :=
  .next (match s.regionOf ftid tag with
    | some rk => s.lagNote rk on
    | none => s)

/-! ### Straggler entries (R290, R291) -/

/-- Bytes written by a unit through a straggler record, eight at a time; `none` where a page is not there or may not be written. -/
def State.stragPut (s : State) (g : Strag) (off : Nat) (bs : List Byte) : Option State :=
  let vf := keyVf g.rk
  (List.range (ceilDiv bs.length 8)).foldl (fun (o : Option State) k => match o with
    | none => none
    | some s =>
      let part := (bs.drop (8 * k)).take 8
      let va := recAddr g.buf (off + 8 * k)
      match s.translate vf .store va with
      | .ok (.mem pa) => some (s.writePa pa part).1
      | .ok (.host v a) => some (s.pokeHost v a part)
      | .ok (.peer c a) => some (s.emit (.remote c (s.tenant vf).ftid (keyTag g.rk) s.nextId a 8 (.store [(0, part)])))
      | _ => none) (some s)
/-- READ of a straggler record: of one that another module holds, which is asked, what it has answered; none where it cannot be read. -/
def State.stragRead (s : State) (g : Strag) (answer : Option Nat) : Option Nat × State := match s.translate (keyVf g.rk) .load (recAddr g.buf 16) with
  | .ok (.mem pa) => (some (ofBytes (s.readPa pa 4).1), s)
  | .ok (.host v a) => (some (ofBytes (s.peekHost v a 4)), s)
  | .ok (.peer c a) => (answer, s.emit (.remote c (s.tenant (keyVf g.rk)).ftid (keyTag g.rk) s.nextId (a / 32 * 32) 32 (.load (2 ^ (a % 128 / 32)))))
  | _ => (none, s)
/-- The words of the header that the unit keeps: WRITE at byte 12, DROP at byte 20, ERR at byte 24. -/
def State.stragCounts (s : State) (g : Strag) (err : Bool) : State :=
  let vf := keyVf g.rk
  let put := fun (s : State) (off : Nat) (bs : List Byte) => match s.translate vf .store (recAddr g.buf (off / 8 * 8) + off % 8) with
    | .ok (.mem pa) => (s.writePa pa bs).1
    | .ok (.host v a) => s.pokeHost v a bs
    | .ok (.peer c a) => s.emit (.remote c (s.tenant vf).ftid (keyTag g.rk) s.nextId a bs.length (.store [(0, bs)]))
    | _ => s
  let s := put (put s 12 (bytesOf 4 g.write)) 20 (bytesOf 4 g.drop)
  if err then put s 24 [1#8] else s
/-- Whether an entry of a straggler record goes to another module. -/
def State.stragAway (s : State) (g : Strag) (off : Nat) : Bool := match s.translate (keyVf g.rk) .store (recAddr g.buf off) with
  | .ok (.peer _ _) => true
  | _ => false
/-- STRAGGLER_ENTRY_WRITE (R291): the oldest waiting entry of a harness is written, or counted in DROP: where the ring is full, and with ERR where READ cannot be read or the entry
cannot be written (that READ counts there too is a DESIGN CHOICE, notes/assumptions/21.md). `seen` is what another module that holds the record has answered. -/
def State.stragWrite (s : State) (key : HKey) (seen : StragSeen) : State := match (s.harness? key).bind Harness.strag with
  | none => s
  | some g => match g.waiting with
    | [] => s
    | e :: rest =>
      let g := { g with waiting := rest }
      let drop := { g with drop := min (g.drop + 1) (2 ^ 32 - 1) }
      let done := fun (s : State) (g : Strag) (err : Bool) => (s.modHarness key fun h => { h with strag := some g }).stragCounts g err
      let off := 64 + g.write % g.slots * g.slotsz * 64
      match s.stragRead g seen.read with
      | (none, s) => done s drop true
      | (some rd, s) =>
        if decide (g.slots ≤ (g.write + 2 ^ 32 - rd % 2 ^ 32) % 2 ^ 32) then done s drop false
        else match s.stragPut g off e with
          | none => done s drop true
          | some s' => if seen.ok || !s.stragAway g off then done s' { g with write := (g.write + 1) % 2 ^ 32 } false else done s' drop true
/-- STRAGGLER_ENTRY_WRITE (spec/13 R291). -/
def execStragglerEntryWrite (key : HKey) (seen : StragSeen) (s : State) : Host.Outcome State Fault Refusal := .next (s.stragWrite key seen)

/-! ### Inbound accesses (R153, R337, R340) -/

/-- Whether the leaf of an address names a physical address outside this module's map (R136, R340). -/
def State.outsideMap (s : State) (va : Nat) : Nat → List (Nat × Nat × Option Nat) → Bool
  | _, [] => false
  | table, (lo, n, size) :: rest =>
    let e := ofBytes (s.peek (table + bitsAt va lo n * 8) 8)
    let pa := bitsAt e 8 40 * 256
    bitAt e 0 && (if bitAt e 1 then
        (match size with
          | some page => bitsAt e 48 12 == s.chip && (!paValid pa || !paValid (pa + page - 1))
          | none => false)
      else s.outsideMap va pa rest)
/-- The 32 bytes of an entry of the inbound fault log (R340): the fields in the order the rule names them (DESIGN CHOICE, notes/assumptions/17.md). -/
def faultEntry (time : Nat) (a : InAccess) (kind : Nat) : List Byte :=
  bytesOf 8 time ++ bytesOf 2 a.chip ++ bytesOf 2 a.ftid ++ bytesOf 2 a.tag ++ bytesOf 8 a.va ++ bytesOf 2 kind ++
    bytesOf 1 (match a.kind with | .load _ => 0 | .store _ => 1 | .atom .. => 2 | .probe => 3 | .limit => 3) ++ bytesOf 7 0
/-- An entry written to the ring, over the oldest where it is full. -/
def State.logFault (s : State) (bs : List Byte) : State :=
  let l := s.mgmt.faultLog
  if decide (Config.faultLogEntries ≤ l.length) then
    { s with mgmt := { s.mgmt with faultLog := l.tail ++ [bs], faultOverflow := s.mgmt.faultOverflow + 1 } }
  else { s with mgmt := { s.mgmt with faultLog := l ++ [bs] } }
/-- What a target finds for an inbound access: a physical address, or the kind of its NACK, which is 9 for one that it cannot complete within its own tenant's TMO. -/
def State.inboundPlace (s : State) (a : InAccess) : Except Nat (Nat × Nat) := match s.regionOf a.ftid a.tag with
  | none => .error 8
  | some rk =>
    let vf := keyVf rk
    if !inDevice a.va then .error 8
    else match s.walk vf a.va with
      | none => .error (if s.outsideMap a.va (s.tenant vf).root walkLevels then 15 else 8)
      | some l =>
        let perm := match a.kind with | .load _ => l.rd | .store _ => l.w | .atom .. => l.at_ | .probe => true | .limit => true
        if l.chip != s.chip || l.ws || !perm || decide (l.page < l.pa % l.page + a.size) then .error 8
        else if decide (tmoCycles (s.tenant vf).tmo < a.waited) then .error 9
        else .ok (rk, l.pa)
/-- The bytes of the sectors of a line that a mask names, in an access of `n` bytes from `va`, which lies at `pa`, with the offsets of the granules that have failed (R144,
R153). -/
def State.readSectors (s : State) (va pa n sectors : Nat) : List Byte × List Nat :=
  let l := (List.range n).map fun i => if bitAt sectors ((va % 128 + i) / 32) then (s.byteAt (pa + i), s.failedAt (pa + i)) else ((0#8 : Byte), false)
  (l.map fun b => if b.2 then 0#8 else b.1, ((l.zip (List.range n)).filterMap fun b => if b.1.2 then some (b.2 / 32 * 32) else none).eraseDups)
/-- INBOUND_REMOTE_ACCESS (R340): the access is performed at its home point as one access and answered with the failed granules it met (R153), or refused and logged.
A failed module serves none: it neither answers nor logs one (R17; DESIGN CHOICE, notes/assumptions/21.md). The controller answers a probe (R339) and records the entry of a
module that a critical limit has reset (R349). -/
def State.inbound (s : State) (a : InAccess) : State := match a.kind with
  | .probe => s.emit (.answer a.chip (.ack []))
  | .limit => s.logFault (faultEntry s.time a 369)
  | _ =>
  if s.mgmt.failed then s
  else match s.inboundPlace a with
    | .error k => (s.logFault (faultEntry s.time a k)).emit (.answer a.chip (.nack k))
    | .ok (_, pa) => match a.kind with
      | .load sectors => let (bs, bad) := s.readSectors a.va pa a.size sectors
        s.emit (.answer a.chip (.data bs bad))
      | .store pieces =>
        let (s, bad) := (memRuns (pieces.flatMap fun p => (p.2.zip (List.range p.2.length)).map fun b => (pa + p.1 + b.2, b.1))).foldl
          (fun (q : State × List Nat) r => let (s, bad) := q.1.writePa r.1 r.2; (s, q.2 ++ bad)) (s, [])
        s.emit (.answer a.chip (.ack (bad.map fun f => f - pa).eraseDups))
      | .atom op ty lanes =>
        let n := ty.width / 8
        let (b, bad) := s.readPa pa n
        let (s, _) := s.writePa pa (bytesOf n (atomLanes op ty (ofBytes b) lanes).2)
        s.emit (.answer a.chip (.data b (if bad.isEmpty then [] else [0])))
      | _ => s
/-- INBOUND_REMOTE_ACCESS (spec/16 R340). -/
def execInboundRemoteAccess (acc : InAccess) (s : State) : Host.Outcome State Fault Refusal := .next (s.inbound acc)

/-! ### Answers (R340) -/

/-- The fault kind of an answer: none where it acknowledges. -/
def answerKind : RemoteAnswer → Option Nat
  | .nack k => some (if k == 15 then 15 else if k == 9 then 9 else 8)
  | _ => none
/-- The bytes of an answer. -/
def answerBytes : RemoteAnswer → List Byte
  | .data b _ => b
  | _ => []
/-- The failed granules of an answer, by their offsets in the access (R153). -/
def answerBad : RemoteAnswer → List Nat
  | .ack l => l
  | .data _ l => l
  | .nack _ => []
/-- The value of a lane in the answer to its line or element, with the failed granules it overlaps: the lane's part of the line, or the old value of the element with the
earlier lanes' operations on it (R128, R153, R174, R358). -/
def MemOp.laneValue (m : MemOp) (chip va : Nat) (a : RemoteAnswer) (before : List LaneAcc) (y : LaneAcc) : Nat × List Nat := match m.atom, m.ty with
  | some op, .int ty =>
    let l := atomLanes op ty (ofBytes (answerBytes a)) ((before ++ [y]).map fun b => (b.arg, b.cmp))
    if (answerBad a).isEmpty then (l.1.getD before.length 0, []) else (0, [peerGranule chip va])
  | _, _ =>
    let at_ := (match y.loc with | some (.peer _ v) => v | _ => 0) - va
    let bad := (answerBad a).filter fun f => rangesMeet f 32 at_ m.ty.size
    (if bad.isEmpty then ofBytes (((answerBytes a).drop at_).take m.ty.size) else 0, bad.map fun f => peerGranule chip (va + f))
/-- The lanes of a load or atomic that one request covered, answered (R340): each has its value, or 0 with the cause it owes. -/
def State.lanesAnswer (s : State) (q : Remote) (r : StrandRef) (id : Nat) (lanes : List Nat) (a : RemoteAnswer) : State := match s.memOp? r.sid r.gi id with
  | none => s
  | some (_, m) =>
    let base := if m.atom.isSome then 160 else 128
    let rk := match s.slice? r.sid with | some x => s.sliceRegion x | none => 0
    let acc := m.acc.filter fun y => lanes.contains y.lane
    let put := fun (m : MemOp) (lane v : Nat) =>
      { m with acc := updFirst (fun (y : LaneAcc) => y.lane == lane) (fun (y : LaneAcc) => { y with val := some v }) m.acc }
    let (s, m) := (acc.zip (List.range acc.length)).foldl (fun (t : State × MemOp) e =>
      let y := e.1
      match answerKind a with
      | some k => (t.1, (put t.2 y.lane 0).fail (base + k) y.lane (y.va / 128 * 128))
      | none =>
        let (v, bad) := m.laneValue q.chip q.va a (acc.take e.2) y
        let (m', s) := (put t.2 y.lane v).meetBad t.1 rk bad
        (s, if m'.strict && !bad.isEmpty then m'.fail (base + 4) y.lane (y.va / 128 * 128) else m')) (s, m)
    s.setMemOp r.sid r.gi id m
/-- A failed remote store counted in sr.rerr; the first failure's kind, strictness and line are kept (R171, R308). -/
def State.countRerr (s : State) (r : StrandRef) (k : Nat) (strict : Bool) (va : Nat) : State := s.modGroup r.sid r.gi fun g =>
  { g with rerr := min (g.rerr + 1) (2 ^ 32 - 1), rerrKind := if g.rerrKind.isSome then g.rerrKind else some (k, strict, va) }
/-- What a strand's stores to another module come to (R153, R171, R340): a refusal counts once in sr.rerr. Failed granules there count as uncorrectable reads, and under
strictness they count in sr.rerr as kind 4, since the store has issued (DESIGN CHOICE, notes/assumptions/21.md). -/
def State.storeFails (s : State) (r : StrandRef) (rk : Nat) (strict : Bool) (va : Nat) (a : RemoteAnswer) : State := match answerKind a with
  | some k => s.countRerr r k strict va
  | none =>
    if (answerBad a).isEmpty then s
    else
      let s := s.countUncor rk (answerBad a).length
      if strict then s.countRerr r 4 true va else s
/-- The buffered stores of one request to another module answered: they leave the buffer. -/
def State.storeAnswer (s : State) (core : Nat) (ids : List Nat) (a : RemoteAnswer) : State :=
  let l := (s.core core).buf.filter fun e => ids.contains e.id
  match l with
  | [] => s
  | e :: _ =>
    let s := s.modCore core fun k => { k with buf := k.buf.filter fun y => !ids.contains y.id }
    let s := s.storeFails e.who e.rk (l.any StoreEntry.strict) (e.va / 128 * 128) a
    let s := match e.sample with
      | some n => if (s.core core).buf.any fun y => y.sample == some n then s else s.sampleDone core (some n)
      | none => s
    s.wakeCore core
/-- A scale or straggler record from another module answered (R153, R340). -/
def State.recordAnswer (s : State) (r : StrandRef) (id : Nat) (a : RemoteAnswer) : State :=
  let rk := match s.slice? r.sid with | some x => s.sliceRegion x | none => 0
  let bad := answerBad a
  let upd : Inflight → Inflight := fun f => match f.body with
    | .scload b va loc strict _ _ => { f with body := match answerKind a with
        | none => .scload b va loc strict (some (if bad.isEmpty then answerBytes a else List.replicate 128 0#8)) (if strict && !bad.isEmpty then some 132 else none)
        | some k => .scload b va loc strict none (some (128 + k)) }
    | _ => f
  let s := s.countUncor rk bad.length
  (s.modGroup r.sid r.gi fun g => { g with inflight := updFirst (fun f => f.id == id) upd g.inflight }).wakeGroup r.sid r.gi
/-- A line that a copy has written on another module (R231, R232): it is passed, or its refusal ends the copy. A failed granule there that the line covers only in part is
not written, as the status says. -/
def State.copyStored (s : State) (core ch id va : Nat) (a : RemoteAnswer) : State := match (s.chan core ch).entries.find? fun e => e.id == id with
  | none => s
  | some e =>
    let scratch := s.scratchOf e.who.sid
    let inLine := fun (f i : Nat) => match (e.byteAt scratch i).2.1 with
      | some o => sideAddr e.dst o / 32 == (va + f) / 32
      | none => false
    let e' := (answerBad a).foldl (fun (y : CopyEntry) f =>
      match ((List.range (e.flight.getD 0)).map fun k => e.done + k).find? (inLine f) with
      | some i => y.meet (peerGranule 4096 (va + f)) i
      | none => y) e
    (s.modCopy core ch id fun _ => e'.arrived (answerKind a).isNone).countUncor e.rk (e'.bad.length - e.bad.length)
/-- An answer given to what asked (R340). -/
def State.answered (s : State) (r : Remote) (a : RemoteAnswer) : State :=
  let s := { s with remotes := s.remotes.filter fun y => y.id != r.id }
  let ok := (answerKind a).isNone
  let line : PeerLine := ⟨r.chip, r.va / 128, answerBytes a, answerBad a⟩
  match r.owner with
  | .load who id lanes => s.lanesAnswer r who id lanes a
  | .store core ids => s.storeAnswer core ids a
  | .scload who id => s.recordAnswer who id a
  | .copyLoad core ch id => s.modCopy core ch id fun e => if ok then { e with got := e.got ++ [line] } else { e with lost := e.lost ++ [(r.chip, r.va / 128)] }
  | .copyStore core ch id => s.copyStored core ch id r.va a
  | .updLoad core id => s.modCore core fun k => { k with upd := updFirst (fun u => u.id == id) (fun u =>
      if ok then { u with got := u.got ++ [line] } else { u with lost := u.lost ++ [(r.chip, r.va / 128)] }) k.upd }
  | .updStore core id =>
    let last := !s.updRemote r.owner
    s.modCore core fun k => { k with upd := updFirst (fun u => u.id == id) (fun u => u.arrived ok last) k.upd }
  | .collLoad key id => s.modHarness key fun h => { h with ranks := updFirst (fun y => y.id == id) (fun y =>
      if ok then { y with got := y.got ++ [line] } else { y with lost := y.lost ++ [(r.chip, r.va / 128)] }) h.ranks }
  | .collStore key id => s.collStored key id ok
  | .matrixLoad sid arr id =>
    if ok then s.modCmd sid arr id fun (c : MCmd) => { c with got := c.got ++ [line] } else s.mxFail sid arr id 279
  | .matrixStore who _ strict => s.storeFails who (match s.slice? who.sid with | some x => s.sliceRegion x | none => 0) strict r.va a
/-- REMOTE_RESPONSE (spec/16 R340). -/
def execRemoteResponse (id : Nat) (ans : RemoteAnswer) (s : State) : Host.Outcome State Fault Refusal :=
  .next (match s.remotes.find? fun r => r.id == id with
    | some r => s.answered r ans
    | none => s)
/-- REMOTE_TIMEOUT (spec/16 R340): no answer within the initiator tenant's TMO. -/
def execRemoteTimeout (id : Nat) (s : State) : Host.Outcome State Fault Refusal :=
  .next (match s.remotes.find? fun r => r.id == id with
    | some r => if decide (r.since + tmoCycles r.tmo ≤ s.clock) then s.answered r (.nack 9) else s
    | none => s)
/-- FLIT_REPLAY (spec/16 R338): invisible to every transaction, and counted. -/
def execFlitReplay (port : Nat) (s : State) : Host.Outcome State Fault Refusal :=
  .next (if decide (port < Config.zuzinPorts) then { s with mgmt := { s.mgmt with softErrors := s.mgmt.softErrors + 1 } } else s)

/-! ### Reachability (R339) -/

/-- Whether some Zuzin port has a working route to a chip (R339). -/
def Mgmt.routed (m : Mgmt) (chip : Nat) : Bool := m.routes.any fun r => r.2.1 == chip && r.2.2
/-- Since when a chip has no working route, none where it has one. A chip for which no port has had a route has been without one since reset (R339). -/
def Mgmt.routeless (m : Mgmt) (chip : Nat) : Option Nat :=
  if m.routed chip then none else some (match m.noRoute.find? fun e => e.1 == chip with | some e => e.2 | none => 0)
/-- ROUTE_UPDATE (R338, R339): a route of one of the sixteen Zuzin ports works or stops working. With the last working one to a chip the count of 1 ms starts, and one that
works again ends it. -/
def execRouteUpdate (route : PortRoute) (up : Bool) (s : State) : Host.Outcome State Fault Refusal :=
  let port := route.port
  let chip := route.chip
  if decide (Config.zuzinPorts ≤ port) then .next s
  else
    let m : Mgmt := { s.mgmt with routes := (s.mgmt.routes.filter fun (r : Nat × Nat × Bool) => !(r.1 == port && r.2.1 == chip)) ++ [(port, chip, up)] }
    let rest := m.noRoute.filter fun e => e.1 != chip
    let l := if m.routed chip then rest else if s.mgmt.routed chip then rest ++ [(chip, s.clock)] else m.noRoute
    .next { s with mgmt := { m with noRoute := l } }
/-- The chips of a region's resolved steal set (R274). -/
def State.inStealSet (s : State) (rk chip : Nat) : Bool := match s.region? rk with
  | none => false
  | some r => r.stealVa != 0 && (match s.devRead (keyVf rk) (r.stealVa + chip / 8) 1 with
    | some b => bitAt (ofBytes b) (chip % 8)
    | none => false)
/-- Whether a harness has members on a chip, or is held there. -/
def Harness.touches (h : Harness) (chip : Nat) : Bool :=
  h.holder == chip || h.members.any fun m => match m.who with | .there c _ => c == chip | .here _ => false
/-- The members of a harness held here that lie on an unreachable chip leave it, each as a lost one (R258, R339), and a collective that
has a rank there fails with cause 311 (R342). -/
def State.loseMembers (s : State) (chip : Nat) (key : HKey) (h : Harness) : State :=
  let there := fun (m : HMember) => match m.who with | .there c _ => c == chip | .here _ => false
  let gone := fun (r : CollRank) => match r.who with | .there c _ => c == chip | .here _ => false
  let due := (h.members.any fun m => there m && !m.joining) && h.kind.any fun k => match k with | .coll _ _ => true | _ => false
  let hit := fun (r : CollRank) => r.cause.isNone && r.ending.isNone &&
    (h.holder == chip || (due && r.phase == h.phase.toNat) || h.ranks.any fun q => gone q && q.phase == r.phase)
  let s := (h.ranks.filter fun r => hit r).foldl (fun s r => match s.rankPlace r with
    | some (who, _, rk) => s.collFail who rk r.id r.pc r.d 311 (collStatus 0 false false true) h
    | none => s) s
  let s := s.modHarness key fun y => { y with ranks := y.ranks.map fun r => if hit r then { r with cause := some 311 } else r }
  let told := ((h.ranks.filter fun r => hit r && !gone r).filterMap fun r => match r.who with | .there c _ => some (c, r.phase) | .here _ => none).eraseDups
  let s := if h.holder != s.chip then s
    else told.foldl (fun s c => s.sendReply h c.1 key (.collective c.2 (some 311) (BitVec.ofNat 32 (collStatus 0 false false true)) [])) s
  if h.holder == s.chip then (h.members.filter there).foldl (fun s m => s.leaveHarness key m.who s.clock true true) s else s
/-- The Claimed and Started words that a chip holds become Done with FAILED, each with an entry of cause 372 (R298, R302). A word that is Done already has its completion
on the way. -/
def State.loseStolen (s : State) (chip jn : Nat) (j : Job) : State :=
  (j.claimed.filter fun c => c.2 == chip).foldl (fun s c =>
    let lose := fun (s : State) (cause : Nat) =>
      let s := s.modJob jn fun j => { j with claimed := j.claimed.filter fun y => y.1 != c.1 }
      (s.loseQueued jn c.1 j.hdr.groups).sliceCounted jn c.1 true false cause chip true
    match s.ownMove j c.1 .lost with
    | (.broken, s) => lose s 373
    | (.kept _, s) => s
    | (_, s) => lose s 372) s
/-- CHIP_UNREACHABLE (R339): after 1 ms without a route, new accesses to the chip fail, presented ones end as timed out, its harness
members leave as lost, requests about harnesses held there raise cause 222, the steals it holds fail, and a notice goes to each region that has to do with it. -/
def State.loseChip (s : State) (chip : Nat) : State :=
  let touched := (s.harnesses.filter fun e => e.2.touches chip).map fun e => e.2.rk
  let steals := (s.regions.map Prod.fst).filter fun rk => s.inStealSet rk chip
  let s := { s with mgmt := { s.mgmt with unreachable := s.mgmt.unreachable ++ [chip] } }
  let s := (s.remotes.filter fun r => r.chip == chip).foldl (fun s r => s.answered r (.nack 9)) s
  let s := s.harnesses.foldl (fun s e => match s.harness? e.1 with
    | some h => if h.touches chip then s.loseMembers chip e.1 h else s
    | none => s) s
  let s := s.modAsks (fun y => match y.body with
    | .ask k c none res => if c == chip then some (.ask k c (some (.refuse y.id 222 0)) res) else none
    | _ => none) none
  let s := s.jobs.foldl (fun s e => s.loseStolen chip e.1 e.2) s
  (touched ++ steals).eraseDups.foldl (fun s rk => s.notice rk 368 0 0 0) s
/-- CHIP_UNREACHABLE (spec/16 R339). -/
def execChipUnreachable (chip : Nat) (s : State) : Host.Outcome State Fault Refusal :=
  .next (match s.mgmt.routeless chip with
    | some since => if !s.mgmt.unreachable.contains chip && chip != s.chip && decide (since + Config.msCycles ≤ s.clock) then s.loseChip chip else s
    | none => s)
/-- Whether a probe of a chip is due (R339): 100 µs after the one before, or after none. -/
def State.probeDue (s : State) (chip : Nat) : Bool := match s.mgmt.probes.find? fun e => e.1 == chip with
  | some e => decide (e.2 + 140000 ≤ s.clock)
  | none => true
/-- REACHABILITY_PROBE (spec/16 R339): every 100 µs a probe goes out over each port that has a route towards an unreachable chip, whether or not it works, and one that succeeds
makes the chip reachable again. -/
def execReachabilityProbe (chip : Nat) (ok : Bool) (s : State) : Host.Outcome State Fault Refusal :=
  let ports := (s.mgmt.routes.filter fun r => r.2.1 == chip).map Prod.fst
  if !s.mgmt.unreachable.contains chip || !s.probeDue chip || ports.isEmpty then .next s
  else
    let s := ports.foldl (fun s p => s.emit (.probe chip p)) s
    let s := { s with mgmt := { s.mgmt with probes := (s.mgmt.probes.filter fun e => e.1 != chip) ++ [(chip, s.clock)] } }
    .next (if ok then
        { s with mgmt := { s.mgmt with unreachable := s.mgmt.unreachable.filter fun c => c != chip
                                       noRoute := s.mgmt.noRoute.filter fun e => e.1 != chip } }
      else s)

end Sys2Proof.Machine
end

