-- ==== Sys2Proof/Machine/Steal.lean ====
section
/-!
DEFINITION. Work stealing: offers, ownership words as the owner and the thief change them, and the completion of stolen slices (spec/13 R294 to
R302; DESIGN CHOICE, notes/assumptions/7.md).
-/

namespace Sys2Proof.Machine

/-! ### Offers of the owner (R294, R295) -/

/-- Cycles of a number of microseconds. -/
def usCycles (us : Nat) : Nat := us * 1400
/-- The regions above a job for which this module lags: its stealable slices are offered to the steal set of each (R294, R295). -/
def State.offerRegions (s : State) (j : Job) : List Nat := (s.lineage j.rk).filter s.lagsFor
/-- The chips to which a job is offered for a region: those of its steal set but for this one. -/
def State.offerChips (s : State) (g : Nat) : List Nat := (List.range 4096).filter fun c => c != s.chip && s.inStealSet g c
/-- The 128-byte entry of a job (R272), its deadline resolved. -/
def jobEntry (tag : Nat) (j : Job) : List Byte :=
  let args := (j.args.zip (List.range 8)).foldl (fun n e => n + e.1.toNat * 2 ^ (256 + 32 * e.2)) 0
  let recs := (j.recs.zip (List.range 4)).foldl (fun n e => n + e.1.toNat * 2 ^ (512 + 128 * e.2)) 0
  bytesOf 128 (j.code / 65536 * 2 ^ 16 + j.cq / 64 * 2 ^ 69 + (if j.cps then 2 ^ 120 else 0) + tag * 2 ^ 124 + (j.slices - 1) * 2 ^ 136 +
    j.dstep * 2 ^ 160 + j.deadline * 2 ^ 192 + args + recs)
/-- The highest Queued index of a job. -/
def Job.topQueued (j : Job) : Nat := j.queued.foldl (fun n r => max n (r.2 - 1)) 0
/-- The offer of a job to some chips (R295, R300). -/
def State.offerOf (s : State) (j : Job) (set : List Nat) : Offer :=
  { job := ⟨s.chip, (s.tenant (keyVf j.rk)).ftid, j.ticket⟩, tag := keyTag j.rk, entry := jobEntry (keyTag j.rk) j,
    table := j.table.getD 0, top := j.topQueued, deadline := j.deadline
    budget := match s.region? j.rk with | some r => r.budget | none => 0
    set := set }
/-- Whether the offer of a job for a region is to go out: at first at once, and then every 64 µs. -/
def State.offerDue (s : State) (jn g : Nat) : Bool := match s.made.find? fun m => m.jn == jn && m.rk == g with
  | some m => decide (m.last + usCycles 64 ≤ s.clock)
  | none => true
/-- STEAL_OFFER (R295): a job with stealable slices is offered to the steal set of each region above it for which this module lags. -/
def State.makeOffer (s : State) (jn : Nat) : State := match s.job? jn with
  | none => s
  | some j =>
    if !s.stealable j then s
    else ((s.offerRegions j).filter fun g => s.offerDue jn g).foldl (fun s g =>
      let chips := s.offerChips g
      if chips.isEmpty then s
      else
        let s := chips.foldl (fun s c => s.emit (.offer (s.offerOf j chips) c)) s
        { s with made := (s.made.filter fun m => !(m.jn == jn && m.rk == g)) ++ [⟨jn, g, s.clock⟩] }) s
/-- STEAL_OFFER (spec/13 R295). -/
def execStealOffer (jn : Nat) (s : State) : Host.Outcome State Fault Refusal := .next (s.makeOffer jn)
/-- Whether an offer that a job has made still stands: it has a Queued slice, and this module lags for the region of the offer. -/
def State.offerStands (s : State) (m : OfferMade) : Bool := (match s.job? m.jn with
  | some j => s.stealable j
  | none => false) && s.lagsFor m.rk
/-- OFFER_WITHDRAWAL (R295): the offers of a job that no longer stand are withdrawn from the chips of their regions' steal sets. -/
def State.withdrawOffer (s : State) (jn : Nat) : State :=
  let gone := s.made.filter fun m => m.jn == jn && !s.offerStands m
  let s := gone.foldl (fun s m => (s.offerChips m.rk).foldl (fun s c => s.emit (.withdraw jn c)) s) s
  { s with made := s.made.filter fun m => !gone.contains m }
/-- OFFER_WITHDRAWAL (spec/13 R295). -/
def execOfferWithdrawal (jn : Nat) (s : State) : Host.Outcome State Fault Refusal := .next (s.withdrawOffer jn)
/-- STEAL_DEFERRAL_EXPIRY (spec/13 R294): 1 ms after the later of a job's admission and the last setting of the flag, its stealable slices
are ordinary candidates. -/
def execStealDeferralExpiry (jn : Nat) (s : State) : Host.Outcome State Fault Refusal :=
  .next (match s.job? jn with
    | none => s
    | some j => match s.lagSince j.rk with
      | none => s
      | some since =>
        if decide (timeAt (max j.admitted since) + 1000000 ≤ s.time) then s.modJob jn fun j => { j with ordinary := true } else s)

/-! ### Offers received (R295, R296) -/

/-- Whether the local copy of an offer's code object passes R78: its signature, its header, and every page hash. -/
def State.copyGood (s : State) (o : Offer) : Bool := match s.regionOf o.job.ftid o.tag with
  | none => false
  | some rk =>
    let vf := keyVf rk
    let code := (parseEntry (ofBytes o.entry)).code
    let h := s.headerAt vf code
    s.sigVerdict vf code h.pages == .valid && s.pagesReadable vf code 1 && (match s.devRead vf code 256 with
      | some b => !headerBad (ofBytes b)
      | none => false) &&
    s.pagesReadable vf (code + 65536) h.codeSize && s.pagesReadable vf (code + h.dataOff) h.dataSize &&
    (List.range (sectionPages h.codeSize + sectionPages h.dataSize)).all fun k => s.pageHashOk vf code k
/-- OFFER_RECEIVE (spec/13 R295, R296): an offer is kept, or its repetition noted, with whether the local copy of the code object passes its checks. -/
def execOfferReceive (o : Offer) (s : State) : Host.Outcome State Fault Refusal :=
  let good := s.copyGood o
  .next (if s.got.any fun g => g.o.job == o.job then
      { s with got := updFirst (fun (g : OfferGot) => g.o.job == o.job) (fun g => { g with o := o, time := s.clock, good := good }) s.got }
    else { s with got := s.got ++ [⟨o, s.clock, good, o.top, Config.stealAttempts⟩] })
/-- OFFER_EXPIRY (spec/13 R295): an offer is dropped at its withdrawal, or 256 µs after its last repetition. -/
def execOfferExpiry (job : JobKey) (withdrawn : Bool) (s : State) : Host.Outcome State Fault Refusal :=
  .next { s with got := s.got.filter fun g => !(g.o.job == job && (withdrawn || decide (g.time + usCycles 256 ≤ s.clock))) }
/-- A slice that this module holds of a stolen job. -/
def State.stolenSlice (s : State) (job : JobKey) (index : Nat) : Option (Nat × Slice) :=
  s.slices.find? fun e => e.2.stolen == some job && e.2.index == index
/-- Whether this module has no work of its own (R296). -/
def State.ownQueuesEmpty (s : State) : Bool :=
  s.jobs.all (fun e => e.2.queued.isEmpty) && s.slices.all (fun e => !(e.2.st == .swapped || e.2.st == .claimed)) &&
    s.queues.all fun q => q.kind != 1 || q.tail == q.head
/-- The job that a stolen slice runs under on this module (R300): its region, its object and its entry are the thief's view. -/
def State.thiefJob (s : State) (o : Offer) (rk : Nat) : Job :=
  let e := parseEntry (ofBytes o.entry)
  let j := jobOf s.clock o.job.jid rk 0 e (s.headerAt (keyVf rk) e.code) o.deadline 0
  { j with thief := some o }
/-- Whether this module may take an offer (R296): its region, where this module is in the offer's steal set and does not lag, has no work of its own, has a good copy of the
code and a core on which a slice fits, and holds no slice of the job. A failed module takes no work (R17). -/
def State.mayTake (s : State) (g : OfferGot) : Option Nat := match s.regionOf g.o.job.ftid g.o.tag with
  | none => none
  | some rk =>
    let h := s.headerAt (keyVf rk) (parseEntry (ofBytes g.o.entry)).code
    let fits := (List.range Config.cores).any fun k => (s.roomOf k none).shared h 0 && ((s.roomOf k none).newBays h).isSome
    let holds := s.slices.any fun x => x.2.stolen == some g.o.job
    if g.good && g.o.set.contains s.chip && !s.lagsFor rk && !s.mgmt.failed && s.ownQueuesEmpty && fits && !holds then some rk else none
/-- The offer that this module takes (R296): the earliest deadline of slice 0, then the lower owner chip id, then the lower job id. -/
def State.chosenOffer (s : State) : Option OfferGot :=
  let before := fun (a b : OfferGot) => decide (a.o.deadline < b.o.deadline) || (a.o.deadline == b.o.deadline &&
    (decide (a.o.job.chip < b.o.job.chip) || (a.o.job.chip == b.o.job.chip && decide (a.o.job.jid < b.o.job.jid))))
  bestOf before (s.got.filter fun g => decide (0 < g.tries) && (s.mayTake g).isSome)

/-! ### Claims (R298, R299) -/

/-- The steal counters raised (R299, R335). -/
def State.countSteal (s : State) (won : Bool) : State :=
  { s with mgmt := { s.mgmt with stealTries := s.mgmt.stealTries + 1, stealWins := s.mgmt.stealWins + (if won then 1 else 0)
                                 stealFails := s.mgmt.stealFails + (if won then 0 else 1) } }
/-- A slice claimed: it is a Claimed candidate of this module. -/
def State.claimSlice (s : State) (o : Offer) (rk index : Nat) : State :=
  let j := s.thiefJob o rk
  let (jn, s) := s.fresh
  let (sid, s) := s.fresh
  let x := { (default : Slice) with jn := jn, index := index, st := .claimed, deadline := j.deadlineOf index, stolen := some o.job }
  let h1 := Harness.fresh (handleOf (keyTag rk) 0xFFF 0) o.job.chip rk .sys none false 0
  { s with jobs := Sparse.set s.jobs jn j, slices := Sparse.set s.slices sid x, harnesses := s.harnesses ++ [(HKey.job jn, h1)] }
/-- A Claimed slice dropped by its thief: its word could not change to Started (R299), or its owner has killed it. -/
def State.dropClaimed (s : State) (sid : Nat) : State := match s.slice? sid with
  | none => s
  | some x =>
    let s := s.modSlice sid fun x => { x with st := .failed, stolen := none }
    let s := s.modJob x.jn fun j => { j with finished := true }
    { s with harnesses := s.harnesses.filter fun e => e.1 != .job x.jn }
/-- STEAL_CLAIM (R299): a claim attempt on the offer that is taken, at the next index, which uses up one of the offer's attempts; or, for a slice already Claimed that the
dispatcher is to place next (R277), the change of its word to Started, with which it is placed. `word` is what the fabric load showed and `won` says whether the compare-and-swap succeeded. -/
def State.stealClaim (s : State) (job : JobKey) (index word : Nat) (won : Bool) : State := match s.stolenSlice job index with
  | some (sid, x) =>
    if x.st != .claimed then s
    else (match s.dispatchAct with
      | some (.place c k) =>
        if c.sid != some sid then s
        else
          let s := s.emit (.claim job index)
          if won && ownState word == 1 && ownValid job.chip word then s.place c k else s.dropClaimed sid
      | _ => s)
  | none => match s.chosenOffer with
    | none => s
    | some g =>
      if g.o.job != job || g.next != index then s
      else match s.mayTake g with
        | none => s
        | some rk =>
          let s := s.emit (.claim job index)
          let upd : OfferGot → OfferGot := fun y => { y with next := y.next - 1, tries := if index == 0 then 0 else y.tries - 1 }
          let s := { s with got := updFirst (fun (y : OfferGot) => y.o.job == job) upd s.got }
          if won && ownState word == 0 && ownValid job.chip word then (s.countSteal true).claimSlice g.o rk index else s.countSteal false
/-- STEAL_CLAIM (spec/13 R299). -/
def execStealClaim (job : JobKey) (index word : Nat) (won : Bool) (s : State) : Host.Outcome State Fault Refusal :=
  .next (s.stealClaim job index word won)
/-- A word that no transition produces acts as Done with FAILED at its next use (R297): a slice that is still Queued or held by a thief fails with cause 373. -/
def State.wordBroken (s : State) (jn index : Nat) (j : Job) : State :=
  let held := j.claimed.any fun c => c.1 == index
  let open_ := held || j.queued.any fun r => decide (r.1 ≤ index) && decide (index < r.2)
  let s := s.modJob jn fun j => { j with queued := takeIndex j.queued index, claimed := j.claimed.filter fun c => c.1 != index }
  if open_ then (s.loseQueued jn index j.hdr.groups).sliceCounted jn index true false 373 s.chip held else s
/-- Whether a thief's change of a word of an owner `own` is a transition of R298. -/
def ownStep (own old new : Nat) : Bool :=
  ownGen new == (ownGen old + 1) % 2 ^ 32 && ownValid own new && ownChip new != own &&
    ((ownState old == 0 && ownState new == 1) || (ownState old == 1 && ownState new == 2 && ownChip old == ownChip new) ||
      (ownState old == 2 && ownState new == 3 && ownChip old == ownChip new))
/-- OWNERSHIP_WORD_CAS (R298): the word of a slice changes to its next state where it holds what is expected. A Queued slice becomes
Claimed (R33). The old word is answered. A failed module serves none (R17). -/
def State.ownCas (s : State) (jn index expect new : Nat) : State := match (s.job? jn).filter fun _ => !s.mgmt.failed with
  | none => s
  | some j => match s.ownRead j index with
    | none => s
    | some w =>
      if !ownValid s.chip w then s.wordBroken jn index j
      else
        let s := s.emit (.answer (ownChip new) (.data (bytesOf 8 w) []))
        if w != expect || !ownStep s.chip w new then s
        else
          let s := match j.table with
            | some va => s.devWrite (keyVf j.rk) (va + 8 * index) (bytesOf 8 new)
            | none => s
          if ownState w == 0 then
            s.modJob jn fun j => { j with queued := takeIndex j.queued index, claimed := j.claimed ++ [(index, ownChip new)] }
          else s
/-- OWNERSHIP_WORD_CAS (spec/13 R298). -/
def execOwnershipWordCas (jn index expect new : Nat) (s : State) : Host.Outcome State Fault Refusal := .next (s.ownCas jn index expect new)

/-! ### The end of a stolen slice (R301, R302) -/

/-- Whether an outstanding access to another module is one of a slice's. -/
def State.remoteOf (s : State) (sid : Nat) (x : Slice) (o : RemoteOwner) : Bool :=
  let copies := fun (ch id : Nat) => (s.chan x.core ch).entries.any fun e => e.id == id && e.who.sid == sid
  let update := fun (id : Nat) => (s.core x.core).upd.any fun u => u.id == id && u.who.sid == sid
  let rank := fun (key : HKey) (id : Nat) => match s.harness? key with
    | some h => h.ranks.any fun r => r.id == id && (match r.who with | .here g => g.sid == sid | .there _ _ => false)
    | none => false
  match o with
  | .load w _ _ => w.sid == sid
  | .store c ids => (s.core c).buf.any fun e => ids.contains e.id && e.who.sid == sid
  | .scload w _ => w.sid == sid
  | .copyLoad c ch id => c == x.core && copies ch id
  | .copyStore c ch id => c == x.core && copies ch id
  | .updLoad c id => c == x.core && update id
  | .updStore c id => c == x.core && update id
  | .collLoad key id => rank key id
  | .collStore key id => rank key id
  | .matrixLoad q _ _ => q == sid
  | .matrixStore w _ _ => w.sid == sid
/-- Whether every access of a slice is complete at sys scope (R301): its stores, its copies, updates and matrix commands, and those on their way to other modules. -/
def State.quiet (s : State) (sid : Nat) (x : Slice) : Bool :=
  !((s.core x.core).buf.any fun e => e.who.sid == sid) && !(s.remotes.any fun r => s.remoteOf sid x r.owner) && s.engineIdle sid x
/-- STOLEN_SLICE_DONE (R301): a stolen slice that has ended has its word changed to Done, and where that succeeds (`won`) its completion
goes to its owner. -/
def State.stolenDone (s : State) (sid : Nat) (won : Bool) : State := match s.slice? sid with
  | none => s
  | some x => match x.stolen with
    | none => s
    | some key =>
      let ended := match x.st with | .retired => true | .failed => true | _ => false
      let s := if ended then s.drainCore x.core else s
      if !ended || !s.quiet sid x then s
      else
        let failed := x.st == .failed
        let s := if won then s.emit (.stolenDone key x.index failed x.late (x.failCause.getD 0)) else s
        let s := s.modSlice sid fun x => { x with stolen := none }
        let s := s.modJob x.jn fun j => { j with finished := true }
        { s with harnesses := s.harnesses.filter fun e => e.1 != .job x.jn }
/-- STOLEN_SLICE_DONE (spec/13 R301). -/
def execStolenSliceDone (sid : Nat) (won : Bool) (s : State) : Host.Outcome State Fault Refusal := .next (s.stolenDone sid won)
/-- STOLEN_COMPLETION_RECEIVE (spec/13 R301): the owner counts a slice that a thief has ended, in STOLN too, whether it retired or failed, and its entry goes to the job's CQ. -/
def execStolenCompletionReceive (jn index chip : Nat) (failed late : Bool) (cause : Nat) (s : State) : Host.Outcome State Fault Refusal :=
  .next (match s.job? jn with
    | none => s
    | some j =>
      if j.claimed.any fun c => c == (index, chip) then
        let s := s.modJob jn fun j => { j with claimed := j.claimed.filter fun c => c.1 != index, stolenN := j.stolenN + 1 }
        s.sliceCounted jn index failed late cause chip true
      else s)
/-- STEAL_KILL (spec/13 R302): the thief kills the slice, or drops it where it is only Claimed. -/
def execStealKill (job : JobKey) (index : Nat) (s : State) : Host.Outcome State Fault Refusal :=
  .next (match s.stolenSlice job index with
    | none => s
    | some (sid, x) => if x.st == .claimed then s.dropClaimed sid else s.killSlice sid 324)

end Sys2Proof.Machine
end

