-- ==== Sys2Proof/Machine/Regions.lean ====
section
/-!
DEFINITION. Regions as the queue engine reads them, and the commands that act on translation, slices, queues and the weight store (spec/02 R38;
spec/07 R138; spec/12 R265, R274 to R276, R285; spec/14 R311; spec/16 R345).
-/

namespace Sys2Proof.Machine

/-! ### RCBs (R38, R274, R311) -/

/-- Whether a reserved field of an RCB is not zero (R7, R274). -/
def rcbReserved (n : Nat) : Bool :=
  bitsAt n 896 1152 != 0 || bitsAt n 608 160 != 0 || bitsAt n 272 48 != 0 || bitsAt n 60 4 != 0 || bitAt n 51
/-- A field that inherits where it is 0. -/
def orElse (x d : Nat) : Nat := if x == 0 then d else x
/-- What a tenant's zero fields resolve to (R274, R292); a tenant's PRIO of 0 acts as 1, the lowest (DESIGN CHOICE, notes/assumptions/17.md). -/
def tenantDefaults : Region := { (default : Region) with prio := 1, hquota := 4096 }
/-- The region that an RCB describes under its parent (R38, R274, R311), or none where it breaks a rule: the magic, a reserved field, the
level, the priority, or a save area below 2 MiB. -/
def resolveRcb (vf va n : Nat) (parent : Option (Nat × Region)) : Option Region :=
  let p := match parent with | some (_, r) => r | none => tenantDefaults
  let prio := orElse (bitsAt n 52 4) p.prio
  let own := bitsAt n 576 32 != 0
  let size := if own then bitsAt n 576 32 else p.saveSize
  if bitsAt n 0 32 != 0x52424352 || rcbReserved n || bitsAt n 49 2 == 3 || bitsAt n 44 4 != p.level + 1 || decide (8 < p.level + 1) ||
      (parent.isSome && decide (p.prio < prio)) || decide (size < 2) then none
  else some
    { vf := vf, rcbVa := va, parent := parent.map Prod.fst, level := p.level + 1, sup := bitAt n 48
      strict := match bitsAt n 49 2 with | 0 => p.strict | 1 => false | _ => true
      prio := prio, lagCount := orElse (bitsAt n 56 4) p.lagCount, lagMin := orElse (bitsAt n 192 32) p.lagMin
      budget := orElse (bitsAt n 128 32) p.budget, period := orElse (bitsAt n 160 32) p.period
      hquota := orElse (bitsAt n 224 16) p.hquota, dcquota := orElse (bitsAt n 240 16) p.dcquota, fdom := orElse (bitsAt n 256 16) p.fdom
      stealVa := orElse (bitsAt n 320 64) p.stealVa, trapq := orElse (bitsAt n 384 64) p.trapq, jobq := bitsAt n 448 64
      save := if own then bitsAt n 512 64 else p.save
      saveSize := size, nextId := 0, out := [], waiting := [], poolUsed := [], raw := n }
/-- A region of a virtual function by the address of its RCB. -/
def State.regionByRcb (s : State) (vf va : Nat) : Option (Nat × Region) := s.regions.find? fun e => e.2.vf == vf && e.2.rcbVa == va
/-- The region that the RCB at an address describes now, with its key (R275). -/
def State.readRcb (s : State) (vf va : Nat) : Option (Nat × Region) :=
  if va % 256 != 0 || !inDevice va then none
  else match s.devRead vf va 256 with
    | none => none
    | some b =>
      let n := ofBytes b
      let up := bitsAt n 64 64
      let r := if up == 0 then resolveRcb vf va n none
        else match s.regionByRcb vf up with
          | none => none
          | some p => resolveRcb vf va n (some p)
      r.map fun r => (regionKey vf (bitsAt n 32 12), r)
/-- The queues that an RCB names become active (R265). -/
def State.watchRegion (s : State) (r : Region) : State :=
  let on := fun (s : State) (va : Nat) => if va == 0 then s else s.watchQueue r.vf va
  on (on s r.jobq) r.trapq
/-- REGION_CREATE (R265, R274, R275, R311): the RCB is read and the region exists from then on. A refused one is counted in the QERR of its
RCB. -/
def State.createRegion (s : State) (vf va : Nat) : State := match s.readRcb vf va with
  | none => s.devWrite vf (va + 108) (bytesOf 4 (min (ofBytes ((s.devRead vf (va + 108) 4).getD []) + 1) (2 ^ 32 - 1)))
  | some (rk, r) =>
    if (s.region? rk).isSome then s.countQerr rk
    else ({ s with regions := Sparse.set s.regions rk r }).watchRegion r
/-- REGION_CREATE (spec/12 R275). -/
def execRegionCreate (vf va : Nat) (s : State) : Host.Outcome State Fault Refusal := .next (s.createRegion vf va)
/-- A region with new fields that keeps its trap records and its pool. -/
def Region.reloaded (old new : Region) : Region :=
  { new with nextId := old.nextId, out := old.out, waiting := old.waiting, poolUsed := old.poolUsed }
/-- The descendants of a region resolved again, to a depth; `none` where one of them breaks a rule. -/
def State.reresolve : Nat → State → Nat → Option State
  | 0, s, _ => some s
  | n + 1, s, rk => match s.region? rk with
    | none => some s
    | some r => (s.regions.filter fun e => e.2.parent == some rk).foldl (fun (o : Option State) e => match o with
        | none => none
        | some s => match resolveRcb e.2.vf e.2.rcbVa e.2.raw (some (rk, r)) with
          | none => none
          | some r' => State.reresolve n { s with regions := Sparse.set s.regions e.1 (e.2.reloaded r') } e.1) (some s)
/-- Saves and logs of the region's subtree that waited for room are tried again (R34, R259). -/
def State.retrySaves (s : State) (rk : Nat) : State :=
  s.slices.foldl (fun s e =>
    if !s.isAncestor rk (s.sliceRegion e.2) then s
    else (s.modSlice e.1 fun x => { x with saveWait := false }).logRetry e.1) s
/-- REGION RELOAD (R275): the RCB is read again, and one that breaks R38 or R311 for the region or a descendant is refused. -/
def State.reloadRegion (s : State) (rk : Nat) : CmdRes := match s.region? rk with
  | none => .refuse
  | some old => match s.readRcb old.vf old.rcbVa with
    | none => .refuse
    | some (rk', new) =>
      if rk' != rk || new.parent == some rk then .refuse
      else match State.reresolve 8 { s with regions := Sparse.set s.regions rk (old.reloaded new) } rk with
        | none => .refuse
        | some s => .complete ((s.watchRegion new).retrySaves rk)
/-- REGION_RELOAD (spec/12 R275). -/
def execRegionReload (c : Cmd) (s : State) : Host.Outcome State Fault Refusal :=
  .next (s.command 9 c fun s => s.reloadRegion (cmdTarget c))

/-! ### Translation (R138, R285) -/

/-- Whether an address lies on a page, of some size, that a range touches (R138). -/
def onPages (page a n va : Nat) : Bool := decide (a < va / page * page + page) && decide (va / page * page < a + n)
/-- The watches of a tenant on addresses in a range are evicted: every address where the length is 0 (R276, R285). -/
def State.evictRange (s : State) (vf a n : Nat) : State :=
  s.watches.foldl (fun s w => match s.slice? w.g.sid, (s.group? w.g.sid w.g.gi).bind Group.watch with
    | some x, some t =>
      if keyVf (s.sliceRegion x) == vf && (n == 0 || onPages 65536 a n t.va) then
        (s.dropWatchEntry w.g).modGroup w.g.sid w.g.gi fun y => { y with watch := y.watch.map fun t => { t with evicted := true } }
      else s
    | _, _ => s) s
/-- Whether an access keeps a place of a tenant that it has found and will present later (R138): a load or atomic that waits for its order, and an MDRAIN with chunks still to
write. -/
def State.placesKept (s : State) (vf : Nat) (acc : LaneAcc → Bool) (drain : Loc → Bool) : Bool := s.slices.any fun e =>
  keyVf (s.sliceRegion e.2) == vf && ((e.2.groups.any fun g => g.inflight.any fun f => match f.body with
      | .mem m => !m.started && m.acc.any acc
      | _ => false) ||
    e.2.arrays.any fun a => a.queue.any fun c => !c.done && decide (0 < c.chunk) && c.dest.any fun d => d.2.any fun p => drain p.2)
/-- Whether an access of a tenant keeps a place of the device half in a range, every one where the length is 0, that it has found before (R138). -/
def State.devHeld (s : State) (vf va n : Nat) : Bool :=
  let dev := fun (l : Loc) => match l with | .mem _ => true | .peer _ _ => true | _ => false
  s.placesKept vf (fun a => (a.loc.map dev).getD false && (n == 0 || onPages 65536 va n a.va)) dev
/-- TRANSLATION_INVALIDATE (spec/07 R138): the walk reads the tables at every access, so the command is complete once no access keeps a place of the range that was found
before; a held access finds its place when it is presented. Watches on pages of the range are evicted (R285). -/
def execTranslationInvalidate (c : Cmd) (s : State) : Host.Outcome State Fault Refusal :=
  .next (s.command 7 c fun s =>
    let vf := keyVf (cmdTarget c)
    if s.devHeld vf c.a c.b then .later s
    else .complete (s.evictRange vf c.a c.b))
/-- Whether an access of a tenant that is not presented yet has a host-half translation in a range (R138): one in a held queue, one that waits for its order, or a chunk
that an MDRAIN has still to write. -/
def State.hostHeld (s : State) (vf va n : Nat) : Bool :=
  let use := fun (l : Loc) => match l with
    | .host v p => v == vf && onPages 4096 va n p
    | _ => false
  let uses := fun (a : LaneAcc) => (a.loc.map use).getD false
  s.placesKept vf uses use || s.slices.any fun e => e.2.groups.any fun g => g.strands.any fun t => t.c.held.any fun h => h.acc.any uses
/-- ATS_INVALIDATION (spec/07 R134, R138): the host changes its tables in a range. Once every access that uses the old translations is presented, they are gone, and
the pages that the host has present from then on take their place. -/
def execAtsInvalidation (vf va : Nat) (change : HostChange) (s : State) : Host.Outcome State Fault Refusal :=
  .next (if s.hostHeld vf va change.size then s
    else
      let gone := fun (e : Nat × Bool × Bool × Bool) => decide (hostKey vf va ≤ e.1 + 4095) && decide (e.1 < hostKey vf va + change.size)
      let new := change.leaves.filter fun e => !inDevice e.1 && e.1 % 4096 == 0 && decide (va ≤ e.1 + 4095) && decide (e.1 < va + change.size)
      { s with hostPages := s.hostPages.filter fun e => !gone e }.hostLeaves vf new)

/-! ### Slices and queues (R265, R276) -/

/-- PREEMPT (R276): the slice is pre-empted, and the command is complete when it is Swapped or was not Resident. -/
def State.preemptNamed (s : State) (c : Cmd) : CmdRes := match s.jobNamed (keyVf (cmdTarget c)) c.a c.c with
  | none => .refuse
  | some jn =>
    if !s.isAncestor (cmdTarget c) (match s.job? jn with | some j => j.rk | none => 0) then .refuse
    else match s.slices.find? fun e => e.2.jn == jn && e.2.index == c.b with
      | none => .complete s
      | some (sid, x) => if x.st == .resident then .later (s.startPreempt sid .command) else .complete s
/-- PREEMPT (spec/12 R276). -/
def execPreempt (c : Cmd) (s : State) : Host.Outcome State Fault Refusal := .next (s.command 8 c fun s => s.preemptNamed c)
/-- QUEUE_WATCH (spec/12 R265): the host alone makes a queue active by a command. -/
def execQueueWatch (c : Cmd) (s : State) : Host.Outcome State Fault Refusal :=
  .next (s.command 10 c fun s =>
    let vf := keyVf (cmdTarget c)
    if !s.byHost c then .refuse
    else
      let s := s.watchQueue vf c.a
      if (s.queue? vf c.a).isSome then .complete s else .refuse)

/-! ### The weight store (R345) -/

/-- Whether some job with a Resident or Swapped slice maps a physical page (R345). -/
def State.pageMapped (s : State) (pa : Nat) : Bool :=
  ((s.slices.filter fun e => match e.2.st with | .resident => true | .swapped => true | _ => false).map fun e =>
    keyVf (s.sliceRegion e.2)).eraseDups.any fun vf => s.tableNames pa (pa + 65536) (s.tenant vf).root walkLevels
/-- Whether a load is refused (R345). The source must be in the tenant's main memory (DESIGN CHOICE, notes/assumptions/17.md). -/
def State.loadBad (s : State) (vf dst src len : Nat) : Bool :=
  dst % 65536 != 0 || src % 65536 != 0 || len % 65536 != 0 || (List.range (len / 65536)).any fun k =>
    (match s.walk vf (dst + k * 65536) with
      | some l => l.chip != s.chip || !l.ws || s.pageMapped l.pa
      | none => true) ||
    (match s.walk vf (src + k * 65536) with
      | some l => l.chip != s.chip || l.ws
      | none => true)
/-- WEIGHT_LOAD (spec/16 R345): a load of the host's physical function is checked and starts, or is refused. -/
def execWeightLoad (c : Cmd) (s : State) : Host.Outcome State Fault Refusal :=
  .next (s.command 16 c fun s =>
    let vf := keyVf (cmdTarget c)
    if s.mgmt.loads.any fun w => w.queue == c.queue && w.dst == c.a && w.src == c.b && w.len == c.c then .later s
    else if !s.byPf c || s.loadBad vf c.a c.b c.c then .refuse
    else
      let (id, s) := s.fresh
      .later { s with mgmt := { s.mgmt with loads := s.mgmt.loads ++ [⟨id, c.queue, vf, c.a, c.b, c.c⟩] } })
/-- One page of a load written: the bytes, and as failed the granules whose source was not correctable. -/
def State.loadPage (s : State) (dst src : Nat) : State :=
  let bad := ((s.failedIn src 65536).map fun f => dst + (f - src) / 64 * 64).eraseDups
  let s := s.poke dst (s.peek src 65536)
  { s with memFailed := (s.memFailed.filter fun f => !(decide (dst ≤ f) && decide (f < dst + 65536))) ++ bad }
/-- WEIGHT_LOAD_COMPLETE (R345): the bytes are in the weight store, and HEAD passes the command. -/
def State.loadDone (s : State) (id : Nat) : State := match s.mgmt.loads.find? fun w => w.id == id with
  | none => s
  | some w =>
    let s := (List.range (w.len / 65536)).foldl (fun s k =>
      match s.wsPa w.vf (w.dst + k * 65536), s.devPa w.vf (w.src + k * 65536) with
      | some d, some p => s.loadPage d p
      | _, _ => s) s
    let s := { s with mgmt := { s.mgmt with loads := s.mgmt.loads.filter fun y => y.id != id } }
    match w.queue.bind s.queueOfKey with
    | some q => (s.popEntry q).2.2
    | none => s
/-- WEIGHT_LOAD_COMPLETE (spec/16 R345). -/
def execWeightLoadComplete (id : Nat) (s : State) : Host.Outcome State Fault Refusal := .next (s.loadDone id)

/-! ### Code pages (R159) -/

/-- The strands of a job that wait for a code page to be verified. -/
def State.verifiers (s : State) (jn page : Nat) : List StrandRef :=
  let want : SState := SState.verify page
  s.slices.flatMap fun e => if e.2.jn != jn then [] else
    (e.2.groups.zip (List.range e.2.groups.length)).flatMap fun g => (g.1.strands.filter fun t => t.st == want).map fun t => ⟨e.1, g.2, t.sn⟩
/-- What a page's verification comes to (R159): a page that matches its hash is marked verified for the job and its strands go on; one that does not stops
them with cause 353 and fails the job's fault domain. -/
def State.pageVerified (s : State) (jn page : Nat) (ok : Bool) : State := match s.job? jn with
  | none => s
  | some j =>
    if !j.verifying.contains page then s
    else
      let l := s.verifiers jn page
      let s := s.modJob jn fun j =>
        { j with verifying := j.verifying.filter fun p => p != page, verified := if ok then j.verified ++ [page] else j.verified }
      if ok then l.foldl State.makeReady s
      else
        let s := l.foldl (fun s r => match s.strand? r with
          | some t => s.takeTrap r 353 0 0 t.c.pc t.c.pc false
          | none => s) s
        s.failDomainOf jn 353
/-- CODE_PAGE_VERIFIED (spec/07 R159; spec/03 R78): the page's hash is compared with the one in its code object. -/
def execCodePageVerified (vf jn page : Nat) (s : State) : Host.Outcome State Fault Refusal := .next (match s.job? jn with
  | none => s
  | some j => if keyVf j.rk != vf then s else s.pageVerified jn page (s.pageHashOk vf j.code (page - codeBase j.code / 65536)))

end Sys2Proof.Machine
end

