-- ==== Sys2Proof/Machine/Service.lean ====
section
/-!
DEFINITION. The host link, resets, limits, spares, images that go to other modules and come from them, attestation, and the watch window (spec/01 R16, R17; spec/16 R335, R336,
R338, R344, R346 to R349).
-/

namespace Sys2Proof.Machine

/-! ### Spares (R16, R17, R347) -/

/-- The resident slices. -/
def State.residentIds (s : State) : List Nat := (s.slices.filter fun e => e.2.st == .resident).map Prod.fst
/-- Spares of a kind at one place: a die for cores and die-level harness units, an array, a bank, a layer, a port, a core, or the hub (R16). -/
def sparesOf : UnitKind → Nat
  | .core => 2 | .arrayRow => 1 | .arrayCol => 1 | .dramRow => 16 | .dramBank => 2 | .linkLane => 1 | .coreHarness => 2 | .dieHarness => 16
  | .hubHarness => 8 | .module => 0
/-- Spares of a kind in use at a place. -/
def Mgmt.usedAt (m : Mgmt) (k : UnitKind) (place : Nat) : Nat := match m.used.find? fun e => e.1 == k && e.2.1 == place with
  | some e => e.2.2
  | none => 0
/-- Spares of a kind left at a place that no unit in failure waits for. -/
def Mgmt.sparesFree (m : Mgmt) (k : UnitKind) (place : Nat) : Nat :=
  sparesOf k - m.usedAt k place - (m.replacing.filter fun e => e.1 == k && e.2.1 == place).length
/-- A spare brought into service (R16). A logical core moves to the physical core of the spare (R15): the spares of a die are its physical cores from 40 on, in turn
(DESIGN CHOICE, notes/assumptions/21.md). The last spare at a place makes the module degraded, and the host is told of the exhausted kind (R17). -/
def State.useSpare (s : State) (k : UnitKind) (place unit : Nat) : State :=
  let n := s.mgmt.usedAt k place + 1
  let m : Mgmt := { s.mgmt with
    used := (s.mgmt.used.filter fun e => !(e.1 == k && e.2.1 == place)) ++ [(k, place, n)]
    degraded := s.mgmt.degraded || n == sparesOf k
    replacing := s.mgmt.replacing.filter fun e => e != (k, place, unit)
    coreMap := if k == .core then (s.mgmt.coreMap.filter fun e => e.1 != unit) ++ [(unit, Config.coresPerDie + n - 1)] else s.mgmt.coreMap }
  let s := { s with mgmt := m }
  if n == sparesOf k then s.emit (.exhausted k place) else s
/-- The physical core, by its number on its die, on which a logical core lies (R15). -/
def Mgmt.physicalCore (m : Mgmt) (core : Nat) : Nat := match m.coreMap.find? fun e => e.1 == core with
  | some e => e.2
  | none => core % Config.coresPerDie
/-- The resident slices that use a core, or a row or column of an array, and keep it from being replaced (R347): those on the core, or the one that holds the array. The place of
a row or column is its array, numbered 4 × core + physical array. -/
def State.unitUsers (s : State) (k : UnitKind) (place unit : Nat) : List Nat :=
  let on := fun (p : Slice → Bool) => (s.slices.filter fun e => e.2.st == .resident && p e.2).map Prod.fst
  match k with
  | .core => on fun x => x.core == unit
  | .arrayRow => on fun x => x.core == place / 4 && x.phys.contains (place % 4)
  | .arrayCol => on fun x => x.core == place / 4 && x.phys.contains (place % 4)
  | _ => []
/-- A unit as a harness unit. -/
def harnessUnit (k : UnitKind) (place unit : Nat) : Option HUnit := match k with
  | .coreHarness => some (.core place unit)
  | .dieHarness => some (.die place unit)
  | .hubHarness => some (.hub unit)
  | _ => none
/-- Whether a harness unit holds a harness that has not failed (R315, R347). -/
def State.unitHolds (s : State) (k : UnitKind) (place unit : Nat) : Bool :=
  let u := harnessUnit k place unit
  u.isSome && s.harnesses.any fun e => e.2.unit == u && !e.2.failed
/-- The resident slices with a group in a harness that a unit holds. -/
def State.unitMembers (s : State) (k : UnitKind) (place unit : Nat) : List Nat :=
  let u := harnessUnit k place unit
  if u.isNone then []
  else s.residentIds.filter fun sid => s.harnesses.any fun e => e.2.unit == u && e.2.members.any fun m => match m.who with
    | .here g => g.sid == sid
    | .there _ _ => false
/-- SPARE_REPLACEMENT (R347): a unit is replaced once it is idle; until then it waits, and the slices on a core are pre-empted first. -/
def State.replaceUnit (s : State) (k : UnitKind) (place unit : Nat) : State :=
  let waits := s.mgmt.replacing.contains (k, place, unit)
  if !waits && s.mgmt.sparesFree k place == 0 then s
  else
    let l := s.unitUsers k place unit
    if l.isEmpty && !s.unitHolds k place unit then s.useSpare k place unit
    else
      let s : State := if waits then s else { s with mgmt := { s.mgmt with replacing := s.mgmt.replacing ++ [(k, place, unit)] } }
      if k == .core then l.foldl (fun s sid => s.startPreempt sid .spare) s else s
/-- UNIT_FAILURE (R17): a spare takes the unit's place once the unit is idle (R347), or, with none left, the module is failed and the slices that use the unit fail
with the cause that the fault raised: those on a core, with the array of a row or column, or in a harness of a unit, and those that the event names, which use a row, bank or lane. -/
def State.unitFailure (s : State) (k : UnitKind) (place unit cause : Nat) (l : List Nat) : State :=
  if s.mgmt.replacing.contains (k, place, unit) then s
  else if decide (0 < s.mgmt.sparesFree k place) then s.replaceUnit k place unit
  else (l ++ s.unitUsers k place unit ++ s.unitMembers k place unit).foldl (fun s sid => s.killSlice sid cause) { s with mgmt := { s.mgmt with failed := true, degraded := true } }
/-- UNIT_FAILURE (spec/01 R17). -/
def execUnitFailure (kind : UnitKind) (at_ : UnitPlace) (cause : Nat) (slices : List Nat) (s : State) : Host.Outcome State Fault Refusal :=
  .next (s.unitFailure kind at_.place at_.unit cause slices)
/-- The module has been serviced (R17): its units are sound, with all their spares (DESIGN CHOICE, notes/assumptions/17.md). -/
def State.serviced (s : State) : State :=
  { s with mgmt := { s.mgmt with used := [], replacing := [], coreMap := [], degraded := false, failed := false } }
/-- SPARE_REPLACEMENT (spec/16 R347); of the whole module it stands for its service. -/
def execSpareReplacement (kind : UnitKind) (die : Nat) (unit : Nat) (s : State) : Host.Outcome State Fault Refusal :=
  .next (if kind == .module then s.serviced else s.replaceUnit kind die unit)

/-! ### Resets (R336, R346, R349) -/

/-- MODULE_RESET (R346): the module as after reset, with the verdict of the controller on its firmware, and with the spares in service of the units that still waited for them.
Memory, the chip id, the spares in use, the core map and the flags of R17 are no part of what a reset restores (DESIGN CHOICE, notes/assumptions/17.md). -/
def State.moduleReset (s : State) : State :=
  s.mgmt.replacing.foldl (fun s e => s.useSpare e.1 e.2.1 e.2.2)
    { State.reset with
      chip := s.chip, mem := s.mem, memFailed := s.memFailed, hostMem := s.hostMem, agenda := s.agenda, out := s.out
      mgmt := { Mgmt.reset with used := s.mgmt.used, degraded := s.mgmt.degraded, failed := s.mgmt.failed, coreMap := s.mgmt.coreMap
                                firmware := Config.slhVerify Config.rootKey Config.firmware Config.firmwareSig } }
/-- MODULE_RESET (spec/16 R346). -/
def execModuleReset (s : State) : Host.Outcome State Fault Refusal := .next s.moduleReset
/-- An outstanding load or atomic whose host-half lanes end with a cause of kind 14 (R336): all of them, for until it returns none has its data. One that is not presented is not
outstanding on the link. -/
def MemOp.unlinked (m : MemOp) : MemOp :=
  let away := fun (a : LaneAcc) => match a.loc with | some (.host _ _) => true | _ => false
  let base := if m.atom.isSome then 160 else 128
  match if m.started then m.acc.filter away else [] with
  | [] => m
  | a :: _ => ({ m with acc := m.acc.map fun (a : LaneAcc) => if away a then { a with val := some 0 } else a }).fail (base + 14) a.lane (a.va / 128 * 128)
/-- A pending result whose host-half access ends (R336). -/
def Inflight.unlinked (f : Inflight) : Inflight := match f.body with
  | .mem m => { f with body := .mem m.unlinked }
  | .scload b va (some (.host v p)) strict none none => { f with body := .scload b va (some (.host v p)) strict none (some 142) }
  | _ => f
/-- The buffered host-half stores of a core end, each with cause 158 owed by its strand (R336). -/
def State.unlinkStores (s : State) (core : Nat) : State :=
  let gone := (s.core core).buf.filter fun e => match e.loc with | .host _ _ => true | _ => false
  let s := s.modCore core fun k => { k with buf := k.buf.filter fun e => match e.loc with | .host _ _ => false | _ => true }
  gone.foldl (fun s e => s.modStrand e.who fun t =>
    if t.deferred.any fun d => d.cause == 158 then t
    else { t with deferred := t.deferred ++ [⟨e.id, 158, t.c.pc, 0, e.va / 128 * 128, .next⟩] }) s
/-- HOST_LINK_RESET (R336): outstanding host-half accesses end with causes 142, 158 and 174, page requests fail, and a notice of cause 369 goes
to each tenant. -/
def State.linkReset (s : State) : State :=
  let upd : Nat × Slice → Nat × Slice := fun e =>
    (e.1, { e.2 with groups := e.2.groups.map fun g => { g with inflight := g.inflight.map Inflight.unlinked } })
  let s := { s with slices := s.slices.map upd }
  let s : State := (s.cores.map Prod.fst).foldl State.unlinkStores s
  let s : State := (s.batches.filter fun (b : Nat × Batch) => b.2.pri).foldl (fun (s : State) (b : Nat × Batch) => s.batchAnswer b.1 true false) s
  let roots := (s.regions.filter fun (e : Nat × Region) => e.2.parent.isNone && (s.tenant e.2.vf).valid).map Prod.fst
  roots.foldl (fun s rk => s.notice rk 369 0 0 0) s
/-- HOST_LINK_RESET (spec/16 R336). -/
def execHostLinkReset (s : State) : Host.Outcome State Fault Refusal := .next s.linkReset
/-- POWER_THERMAL_LIMIT (spec/16 R349): every resident slice is pre-empted, and dispatch is held. -/
def execPowerThermalLimit (s : State) : Host.Outcome State Fault Refusal :=
  let s := { s with mgmt := { s.mgmt with hold := true } }
  .next (s.residentIds.foldl (fun s sid => s.startPreempt sid .limit) s)
/-- LIMIT_RECOVERY (spec/16 R349): dispatch goes on. -/
def execLimitRecovery (s : State) : Host.Outcome State Fault Refusal := .next { s with mgmt := { s.mgmt with hold := false } }
/-- The modules that a slice reaches: those it has accesses outstanding to, and those its harnesses touch (DESIGN CHOICE, notes/assumptions/17.md). -/
def State.peersOf (s : State) (sid : Nat) (x : Slice) : List Nat :=
  let remote := (s.remotes.filter fun r => s.remoteOf sid x r.owner).map Remote.chip
  let harness := (s.harnesses.filter fun e => e.1 == .job x.jn || e.2.members.any fun m => match m.who with
    | .here g => g.sid == sid
    | .there _ _ => false).flatMap fun e => e.2.holder :: e.2.members.filterMap fun m => match m.who with
    | .there c _ => some c
    | .here _ => none
  ((remote ++ harness).filter fun c => c != s.chip).eraseDups
/-- CRITICAL_LIMIT_RESET (R349): each resident slice fails with cause 369, an entry of which goes to the fault log of each module that it reaches, and the
module is reset. -/
def State.criticalReset (s : State) : State :=
  (s.residentIds.foldl (fun s sid => match s.slice? sid with
    | none => s
    | some x =>
      let rk := s.sliceRegion x
      let a : InAccess := ⟨s.chip, (s.tenant (keyVf rk)).ftid, keyTag rk, 0, 0, .limit, 0⟩
      ((s.peersOf sid x).foldl (fun s c => s.emit (.peerFault c (faultEntry s.time a 369))) s).killSlice sid 369) s).moduleReset
/-- CRITICAL_LIMIT_RESET (spec/16 R349). -/
def execCriticalLimitReset (s : State) : Host.Outcome State Fault Refusal := .next s.criticalReset

/-! ### Images of other modules and attestation (R344, R348) -/

/-- The image of a Swapped slice sent to another module of its tenant, sealed again for it; the slice stays until the target has restored it (R348). A stolen slice is restored only
on its thief (R300). -/
def State.sendImage (s : State) (sid chip : Nat) : State := match s.slice? sid with
  | none => s
  | some x => match x.image, s.job? x.jn with
    | some im, some j =>
      let ftid := (s.tenant (keyVf j.rk)).ftid
      if x.st != .swapped || x.stolen.isSome || x.move.isSome || chip == s.chip || ftid == 0 || s.mgmt.unreachable.contains chip then s
      else (s.emit (.image chip ftid (keyTag j.rk) (Config.reseal chip im.bytes))).modSlice sid fun x => { x with move := some chip }
    | _, _ => s

end Sys2Proof.Machine

namespace Sys2Proof.Config

open Sys2Proof.Machine in
/-- What a context image holds, as the module for which it is sealed opens it: the slice, its job and its h0; none where the seal does not hold. The layout is private, and the
contents are left open (R316, R318, DESIGN CHOICE, notes/assumptions/8.md). -/
opaque openImage : List Byte → Option (Slice × Job × Harness)

end Sys2Proof.Config

namespace Sys2Proof.Machine

/-- An image that a module sends (R317, R348): where its tenant and region are bound here, its header and its seal hold, and the save area has room, the slice is a Swapped one of this
module, which dispatches it like any other and reports its end to the job's owner; otherwise the source is told. -/
def State.receiveImage (s : State) (chip ftid tag : Nat) (bytes : List Byte) : State :=
  let n := ofBytes (bytes.take 64)
  let key : JobKey := ⟨chip, ftid, bitsAt n 160 32⟩
  let index := bitsAt n 128 32
  let fresh := bitsAt n 0 32 == 0x45474D49 && bitsAt n 32 16 == 1 && bitsAt n 48 16 == 0x0512 && bitsAt n 204 12 == chip && bitsAt n 192 12 == tag
  let refuse := s.emit (.restored chip key index false)
  match s.regionOf ftid tag, Config.openImage bytes with
  | some rk, some (x, j, h) =>
    if !fresh || s.mgmt.failed then refuse
    else match s.poolTake rk bytes.length with
      | none => refuse
      | some (va, s) =>
        let (num, s) := s.fresh
        let (jn, s) := s.fresh
        let (sid, s) := s.fresh
        let s := s.areaWrite (keyVf rk) va bytes
        let x := { x with jn := jn, index := index, st := .swapped, image := some ⟨va, bytes.length, num, bytes.take 64, some bytes⟩, stolen := some key, source := some chip,
                          move := none, preempt := if bitAt n 288 then some .budget else none, saveWait := false, exhausted := none, log := [], logBlocks := [], logWait := [],
                          created := [], phys := [] }
        let j := { j with ticket := key.jid, rk := rk, queued := [], claimed := [], table := none, completions := [], finished := false, dying := false,
                          thief := some { (default : Offer) with job := key, tag := tag } }
        let mem := fun (base : Nat) => (List.range x.groups.length).filterMap fun gi =>
          if (x.groups[gi]?).any fun g => !g.retired then some (⟨base + gi, .here ⟨sid, gi⟩, false, false⟩ : HMember) else none
        let h0 := { h with rk := rk, holder := s.chip, unit := none, members := mem 0 }
        let h1 := { Harness.fresh (handleOf (keyTag rk) 0xFFF 0) chip rk .sys none false 0 with members := mem (index * x.groups.length) }
        { s with slices := Sparse.set s.slices sid x, jobs := Sparse.set s.jobs jn j, harnesses := s.harnesses ++ [(.slice sid, h0), (.job jn, h1)] }
  | _, _ => refuse
/-- A Swapped slice that now runs on another module, which reports its end: the source frees what it held of it (R348). -/
def State.freeSent (s : State) (sid chip : Nat) (x : Slice) : State :=
  let s := s.dropImage sid
  let s := s.releaseIds fun o => match o.who with | some r => r.sid == sid | none => false
  let move : HMember → HMember := fun m => match m.who with
    | .here g => if g.sid == sid then { m with who := .there chip m.idx } else m
    | .there _ _ => m
  let upd : HKey × Harness → HKey × Harness := fun e =>
    (e.1, { e.2 with members := e.2.members.map move, waiters := e.2.waiters.filter fun w => w.g.sid != sid })
  let s := { s with harnesses := (s.harnesses.filter fun (e : HKey × Harness) => e.1 != HKey.slice sid).map upd }
  let s := s.modJob x.jn fun j => { j with claimed := j.claimed ++ [(x.index, chip)] }
  s.modSlice sid fun x => { x with st := .retired, groups := [], scratch := [], tiles := [], arrays := [], stopped := [], stoppedUpd := [], move := none }
/-- The slice of a job, by its index, whose image was sent to a module that has not answered yet (R348). -/
def State.sentTo (s : State) (job : JobKey) (index chip : Nat) : Option (Nat × Slice) :=
  s.slices.find? fun e => e.2.index == index && e.2.move == some chip && e.2.stolen.isNone && (match s.job? e.2.jn with
    | some j => j.ticket == job.jid && (s.tenant (keyVf j.rk)).ftid == job.ftid
    | none => false)
/-- The target's answer for a slice that was sent to it: restored there, it is freed here, or, where it has ended here in the meantime, the target is to kill it; refused, it stays a
Swapped slice of this module (DESIGN CHOICE, notes/assumptions/8.md). -/
def State.imageAnswer (s : State) (job : JobKey) (index chip : Nat) (ok : Bool) : State :=
  match s.sentTo job index chip with
  | none => s
  | some (sid, x) =>
    if !ok then s.modSlice sid fun x => { x with move := none }
    else if x.st == .swapped then s.freeSent sid chip x
    else (s.emit (.killStolen chip job index)).modSlice sid fun x => { x with move := none }
/-- IMAGE_TRANSFER (spec/16 R338, R348). -/
def execImageTransfer (move : ImageMove) (chip : Nat) (s : State) : Host.Outcome State Fault Refusal := .next (match move with
  | .send sid => s.sendImage sid chip
  | .receive ftid tag bytes => s.receiveImage chip ftid tag bytes
  | .restored job index ok => s.imageAnswer job index chip ok)
/-- The spares of a kind left where the fewest are left. -/
def Mgmt.sparesLeft (m : Mgmt) (k : UnitKind) : Nat :=
  (m.used.filter fun e => e.1 == k).foldl (fun n e => min n (sparesOf k - e.2.2)) (sparesOf k)
/-- The fields of an attestation report in the order in which R344 names them (DESIGN CHOICE, notes/assumptions/17.md). -/
def State.report (s : State) (vf : Nat) (nonce : List Byte) : List Byte :=
  nonce ++ bytesOf 2 s.chip ++ bytesOf 2 0x0512 ++ bytesOf 32 (Config.sha256 Config.firmware).toNat ++
    ((s.tenant vf).keys.flatMap fun k => bytesOf 32 (Config.sha256 (bytesOf 48 k)).toNat) ++
    (([UnitKind.core, .arrayRow, .arrayCol, .dramRow, .dramBank, .linkLane, .coreHarness, .dieHarness, .hubHarness].flatMap fun k =>
      bytesOf 1 (s.mgmt.sparesLeft k)) ++ bytesOf 1 (if s.mgmt.degraded then 1 else 0))
/-- ATTESTATION_REQUEST (spec/16 R344): a report for one tenant, signed by the device key. -/
def execAttestationRequest (vf : Nat) (nonce : List Byte) (s : State) : Host.Outcome State Fault Refusal :=
  .next (if nonce.length != 32 then s
    else { s with mgmt := { s.mgmt with report := s.report vf nonce ++ Config.signature (s.report vf nonce) } })

/-! ### The watch window (R335, R177, R266) -/

/-- The function number of the physical function; a smaller number names a virtual function. -/
def pfNumber : Nat := 64
/-- What an aperture of a function maps: the tenant and the address (DESIGN CHOICE, notes/assumptions/12.md). -/
def State.aperture (s : State) (fn n : Nat) : Nat × Nat :=
  let v := Sparse.get 0 s.mgmt.apertures (fn * 16 + n)
  (if fn < pfNumber then fn else v / 2 ^ 58 % 64, v % 2 ^ 57)
/-- The place of window bytes within one page, where a leaf allows the access. -/
def State.windowPa (s : State) (vf va : Nat) (write : Bool) : Option Nat :=
  if !inDevice va then none
  else match s.walk vf va with
    | some l => if l.chip == s.chip && !l.ws && (if write then l.w else l.rd) then some l.pa else none
    | none => none
/-- The queue engine sees a write of the host, as the physical function or not, to the header of an active queue (R266). -/
def State.headerSeen (s : State) (pf : Bool) (vf va n : Nat) : State :=
  (s.queues.filter fun q => q.vf == vf && rangesMeet va n q.va 64).foldl (fun s q =>
    let word := fun (s : State) (off : Nat) => BitVec.ofNat 32 (ofBytes ((s.devRead vf (q.va + off) 4).getD []))
    let s := if q.prod && rangesMeet va n (q.va + 20) 4 then (match s.queue? vf q.va with
        | some q => s.hostTail q (word s 20) pf
        | none => s) else s
    if q.cons && rangesMeet va n (q.va + 24) 4 then (match s.queue? vf q.va with
        | some q => s.hostHead q (word s 24)
        | none => s) else s) s
/-- Whether a function accepts an access to an aperture (R334, R335): one of 1 to 4,096 bytes within the aperture of 256 MiB; aperture 16 of the physical function stands for its BAR0
of 64 MiB (DESIGN CHOICE, notes/assumptions/17.md). Any other changes nothing. -/
def barAccepts (fn n off size : Nat) : Bool :=
  decide (fn ≤ pfNumber) && decide (1 ≤ size) && decide (size ≤ 4096) &&
    (if n < 16 then decide (off + size ≤ 2 ^ 28) else n == 16 && fn == pfNumber && decide (off + size ≤ 2 ^ 26))
/-- A posted write of a function through an aperture (R335): each part of a posted write that has a leaf with W is applied in order; any other part is dropped and logged. -/
def State.windowWrite (s : State) (fn n off : Nat) (bs : List Byte) : State :=
  let (vf, base) := s.aperture fn n
  let va := base + off
  (pageParts va bs.length).foldl (fun s p => match s.windowPa vf p.1 true with
    | some pa => (s.writePa pa ((bs.drop (p.1 - va)).take p.2)).1.headerSeen (decide (pfNumber ≤ fn)) vf p.1 p.2
    | none => s.logFault (faultEntry s.time ⟨s.chip, (s.tenant vf).ftid, 0, p.1, p.2, .store [], 0⟩ 8)) s
/-- The answer to the last read of the host or the Sorser port. -/
def State.answerRead (s : State) (bs : List Byte) : State := { s with mgmt := { s.mgmt with readVal := bs } }
/-- What a read of a function through an aperture returns (R335): the bytes, and ones where there is no leaf with RD. -/
def State.windowRead (s : State) (fn n off size : Nat) : List Byte :=
  let (vf, base) := s.aperture fn n
  (pageParts (base + off) size).flatMap fun p => match s.windowPa vf p.1 false with
    | some pa => (s.readPa pa p.2).1
    | none => List.replicate p.2 0xFF#8

end Sys2Proof.Machine
end

