-- ==== Sys2Proof/Machine/DebugPort.lean ====
section
/-!
DEFINITION. The debug register block as the host and the Sorser port reach it, management registers, and the Sorser commands (spec/15 R319, R320,
R326, R328 to R330, R333; spec/16 R335, R337; spec/00 R6, R7).
-/

namespace Sys2Proof.Machine

/-! ### Debug registers (R319, R320, R329) -/

/-- A core's debug block changed. -/
def State.modDbg (s : State) (core : Nat) (f : Debug → Debug) : State := s.modCore core fun k => { k with dbg := f k.dbg }
/-- The groups of a core's slices need a sync before their next record (R325). -/
def State.syncCore (s : State) (core : Nat) : State :=
  { s with slices := s.slices.map fun e =>
      if e.2.core == core then (e.1, { e.2 with groups := e.2.groups.map fun g => { g with syncDue := true } }) else e }
/-- TCTL written (R320): reserved bits stay zero (R7). -/
def State.writeTctl (s : State) (core : Nat) (v : W32) : State :=
  let on := !bitAt (s.core core).dbg.tctl.toNat 0 && bitAt v.toNat 0
  let s := s.modDbg core fun d => { d with tctl := v &&& 0xFFF8F81F#32 }
  if on then s.syncCore core else s
/-- TCTL_WRITE (spec/15 R320). -/
def execTctlWrite (core : Nat) (value : W32) (s : State) : Host.Outcome State Fault Refusal := .next (s.writeTctl core value)
/-- TBASE written (R319): the count of bytes written starts again. -/
def State.writeTbase (s : State) (core : Nat) (v : W64) : State :=
  s.modDbg core fun d => { d with tbase := v &&& 0xFFFFFFFFFFFFF000#64, twp := 0 }
/-- TBASE_WRITE (spec/15 R319). -/
def execTbaseWrite (core : Nat) (value : W64) (s : State) : Host.Outcome State Fault Refusal := .next (s.writeTbase core value)
/-- TLOST_READ (spec/15 R319): reading returns the count and clears it. -/
def execTlostRead (core : Nat) (s : State) : Host.Outcome State Fault Refusal :=
  .next ((s.answerRead (bytesOf 8 (s.core core).dbg.tlost.toNat)).modDbg core fun d => { d with tlost := 0 })
/-- Whether every strand that HALT names on a core has stopped (R329, R330). -/
def State.halted (s : State) (core : Nat) : Bool := s.slices.all fun e =>
  e.2.st != .resident || e.2.core != core || !s.debugged core (s.sliceRegion e.2) ||
    e.2.groups.all fun g => g.strands.all fun t => match t.st with | .stopped _ => true | _ => false
/-- HALT clears once every strand it names has stopped (R329). -/
def State.clearHalt (s : State) (core : Nat) : State :=
  if bitAt (s.core core).dbg.dctl.toNat 7 && s.halted core then s.modDbg core fun d => { d with dctl := d.dctl &&& 0xFFFFFF7F#32 } else s
/-- HALT cleared on every core on which it has done its work (R329). -/
def State.settleHalts (s : State) : State := s.cores.foldl (fun s e => s.clearHalt e.1) s
/-- DCTL written (R329): HALT is set by a 1 and left by a 0, reserved bits stay zero. -/
def State.writeDctl (s : State) (core : Nat) (v : W32) : State :=
  (s.modDbg core fun d => { d with dctl := (v &&& 0xFFF800F0#32) ||| (d.dctl &&& 0x80#32) }).clearHalt core
/-- DCTL_HALT (spec/15 R330). -/
def execDctlHalt (core : Nat) (value : W32) (s : State) : Host.Outcome State Fault Refusal := .next (s.writeDctl core (value ||| 0x80#32))
/-- A register of the block written by its offset (R319, R328): offsets not listed and read-only registers ignore writes. -/
def State.writeDebug (s : State) (core off : Nat) (v : W64) : State :=
  let lo : W32 := v.setWidth 32
  match off with
  | 0x00 => s.writeTctl core lo
  | 0x08 => s.writeTbase core v
  | 0x10 => s.modDbg core fun d => { d with tsize := lo }
  | 0x20 => s.modDbg core fun d => { d with trp := v }
  | 0x30 => s.writeDctl core lo
  | 0x38 => s.modDbg core fun d => { d with dbgSel := lo &&& 0x80003FFF#32 }
  | 0x60 => s.modDbg core fun d => { d with wpa := setAt d.wpa 0 (v &&& 0xE1FFFFFFFFFFFFFF#64) }
  | 0x68 => s.modDbg core fun d => { d with wpl := setAt d.wpl 0 v }
  | 0x70 => s.modDbg core fun d => { d with wpa := setAt d.wpa 1 (v &&& 0xE1FFFFFFFFFFFFFF#64) }
  | 0x78 => s.modDbg core fun d => { d with wpl := setAt d.wpl 1 v }
  | _ =>
    if off % 8 == 0 && decide (0x40 ≤ off) && decide (off < 0x60) then
      s.modDbg core fun d => { d with ibp := setAt d.ibp ((off - 0x40) / 8) (v &&& 0xC1FFFFFFFFFFFFFF#64) }
    else if off % 8 == 0 && decide (0x80 ≤ off) && decide (off < 0x100) then
      s.modDbg core fun d => { d with counters := Sparse.set d.counters ((off - 0x80) / 8) v }
    else s
/-- A register of the block as it reads (R319). -/
def Debug.read (d : Debug) (off : Nat) : W64 := match off with
  | 0x00 => d.tctl.setWidth 64
  | 0x08 => d.tbase
  | 0x10 => d.tsize.setWidth 64
  | 0x18 => d.twp
  | 0x20 => d.trp
  | 0x28 => d.tlost
  | 0x30 => d.dctl.setWidth 64
  | 0x38 => d.dbgSel.setWidth 64
  | 0x60 => d.wpa.getD 0 0
  | 0x68 => d.wpl.getD 0 0
  | 0x70 => d.wpa.getD 1 0
  | 0x78 => d.wpl.getD 1 0
  | _ =>
    if off % 8 == 0 && decide (0x40 ≤ off) && decide (off < 0x60) then d.ibp.getD ((off - 0x40) / 8) 0
    else if off % 8 == 0 && decide (0x80 ≤ off) && decide (off < 0x100) then Sparse.get 0 d.counters ((off - 0x80) / 8)
    else 0

/-! ### Registers with no behaviour of their own (R6, R319, R335, R337) -/

/-- A tenant table entry changed (R337). -/
def State.modTenant (s : State) (vf : Nat) (f : Tenant → Tenant) : State := { s with tenants := Sparse.set s.tenants vf (f (s.tenant vf)) }
/-- Whether a register name names a register of this part: a core of it, one of the 64 tenant entries, a function (R15, R319, R334, R337). -/
def regKnown : MgmtReg → Bool
  | .tsize c => decide (c < Config.cores) | .trp c => decide (c < Config.cores) | .dctl c => decide (c < Config.cores)
  | .dsel c => decide (c < Config.cores) | .ibp c n => decide (c < Config.cores) && decide (n < 4) | .wpa c n => decide (c < Config.cores) && decide (n < 2)
  | .wpl c n => decide (c < Config.cores) && decide (n < 2) | .counter c n => decide (c < Config.cores) && decide (n < 16)
  | .tenantKey vf n => decide (vf < 64) && decide (n < 4) | .tenantRcb vf => decide (vf < 64) | .tenantRoot vf => decide (vf < 64)
  | .tenantTmo vf => decide (vf < 64) | .tenantFtid vf => decide (vf < 64) | .tenantPasid vf => decide (vf < 64) | .tenantAts vf => decide (vf < 64)
  | .tenantSys vf => decide (vf < 64) | .tenantValid vf => decide (vf < 64)
  | .aperture fn n => decide (fn ≤ pfNumber) && decide (n < 16)
  | .readOnly _ => true
/-- A register written by its name; a name that names none changes nothing. -/
def State.writeReg (s : State) (r : MgmtReg) (v : Nat) : State := if !regKnown r then s else match r with
  | .tsize c => s.writeDebug c 0x10 (BitVec.ofNat 64 v)
  | .trp c => s.writeDebug c 0x20 (BitVec.ofNat 64 v)
  | .dctl c => s.writeDebug c 0x30 (BitVec.ofNat 64 v)
  | .dsel c => s.writeDebug c 0x38 (BitVec.ofNat 64 v)
  | .ibp c n => s.writeDebug c (0x40 + 8 * n) (BitVec.ofNat 64 v)
  | .wpa c n => s.writeDebug c (0x60 + 16 * n) (BitVec.ofNat 64 v)
  | .wpl c n => s.writeDebug c (0x68 + 16 * n) (BitVec.ofNat 64 v)
  | .counter c n => s.writeDebug c (0x80 + 8 * n) (BitVec.ofNat 64 v)
  | .tenantKey vf n => s.modTenant vf fun t => { t with keys := setAt t.keys n (v % 2 ^ 384) }
  | .tenantRcb vf => s.modTenant vf fun t => { t with rcb := v % 2 ^ 64 }
  | .tenantRoot vf => s.modTenant vf fun t => { t with root := v % 2 ^ 64 }
  | .tenantTmo vf => s.modTenant vf fun t => { t with tmo := v % 2 ^ 32 }
  | .tenantFtid vf => s.modTenant vf fun t => { t with ftid := v % 2 ^ 16 }
  | .tenantPasid vf => s.modTenant vf fun t => { t with pasid := v % 2 ^ 20 }
  | .tenantAts vf => s.modTenant vf fun t => { t with ats := bitAt v 0 }
  | .tenantSys vf => s.modTenant vf fun t => { t with sys := bitAt v 0 }
  | .tenantValid vf => s.modTenant vf fun t => { t with valid := bitAt v 0 }
  | .aperture fn n => { s with mgmt := { s.mgmt with apertures := Sparse.put 0 s.mgmt.apertures (fn * 16 + n) (v % 2 ^ 64) } }
  | .readOnly _ => s
/-- The registers of the block that have 32 bits (R319). -/
def narrowDebug (off : Nat) : Bool := off == 0x00 || off == 0x10 || off == 0x30 || off == 0x38
/-- A write of the host to the block (R319): of 64 bits, or of one naturally aligned half of a register, whose other half stays. Any other is none. -/
def State.writeDebugPart (s : State) (core off : Nat) (bs : List Byte) : State :=
  let v := ofBytes bs
  let at_ := off / 8 * 8
  let old := ((s.core core).dbg.read at_).toNat
  if bs.length == 8 && off % 8 == 0 then s.writeDebug core off (BitVec.ofNat 64 v)
  else if bs.length == 4 && off % 8 == 0 then s.writeDebug core off (BitVec.ofNat 64 (old / 2 ^ 32 * 2 ^ 32 + v))
  else if bs.length == 4 && off % 8 == 4 && !narrowDebug at_ then s.writeDebug core at_ (BitVec.ofNat 64 (v * 2 ^ 32 + old % 2 ^ 32))
  else s
/-- The 256 bytes of a tenant table entry (R337). -/
def Tenant.bytes (t : Tenant) : List Byte :=
  bytesOf 256 ((t.keys.zip (List.range 4)).foldl (fun n e => n + e.1 * 2 ^ (384 + 384 * e.2)) 0 + t.rcb * 2 ^ 320 + t.root * 2 ^ 256 +
    t.tmo * 2 ^ 160 + t.ftid * 2 ^ 144 + t.pasid * 2 ^ 108 + (if t.ats then 2 ^ 107 else 0) + (if t.sys then 2 ^ 106 else 0) + (if t.valid then 1 else 0))
/-- A tenant table entry of its 256 bytes (R337). -/
def tenantOf (n : Nat) : Tenant :=
  { keys := (List.range 4).map fun k => bitsAt n (384 + 384 * k) 384, rcb := bitsAt n 320 64, root := bitsAt n 256 64, tmo := bitsAt n 160 32,
    ftid := bitsAt n 144 16, pasid := bitsAt n 108 20, ats := bitAt n 107, sys := bitAt n 106, valid := bitAt n 0 }
/-- Bytes written to the tenant table (R337): the rest of each entry stays. -/
def State.writeTenants (s : State) (off : Nat) (bs : List Byte) : State :=
  ((List.range 64).filter fun vf => rangesMeet off bs.length (256 * vf) 256).foldl (fun s vf =>
    let old := (s.tenant vf).bytes
    s.modTenant vf fun _ => tenantOf (ofBytes ((List.range 256).map fun i =>
      if decide (off ≤ 256 * vf + i) && decide (256 * vf + i < off + bs.length) then bs.getD (256 * vf + i - off) 0 else old.getD i 0))) s
/-- REGISTER_WRITE (spec/00 R6). -/
def execRegisterWrite (reg : MgmtReg) (value : Nat) (s : State) : Host.Outcome State Fault Refusal := .next (s.writeReg reg value)


/-! ### Management reads (R299, R335, R340) -/

/-- The core whose debug block lies at an offset of BAR0 (R15, R319). -/
def bar0Core (off : Nat) : Option Nat :=
  let n := (off - 0x1000000) / 256
  if decide (0x1000000 ≤ off) && decide (n % 64 < Config.coresPerDie) && decide (n / 64 < Config.dies) then some (n / 64 * Config.coresPerDie + n % 64) else none
/-- What the physical function reads at an offset of its BAR0 (R335): the tenant table, the inbound fault log with its overflow counter after the ring, the steal counters
(attempts, successes, failures) and the soft-error counter, and the debug blocks (the layout within each part is a DESIGN CHOICE, notes/assumptions/17.md). -/
def State.bar0 (s : State) (off size : Nat) : List Byte :=
  let part := fun (l : List Byte) (at_ : Nat) => ((l.drop at_) ++ List.replicate size 0#8).take size
  if decide (0x1000000 ≤ off) then match bar0Core off with
    | some core => bytesOf size (((s.core core).dbg.read (off % 256 / 8 * 8)).toNat / 2 ^ (8 * (off % 8)))
    | none => List.replicate size 0#8
  else if decide (0x300000 ≤ off) then
    part ([s.mgmt.stealTries, s.mgmt.stealWins, s.mgmt.stealFails, s.mgmt.softErrors].flatMap fun n => bytesOf 8 n) (off - 0x300000)
  else if decide (0x200000 ≤ off) then
    let ring := s.mgmt.faultLog.flatMap id
    part (ring ++ List.replicate (32 * Config.faultLogEntries - ring.length) 0#8 ++ bytesOf 8 s.mgmt.faultOverflow) (off - 0x200000)
  else if decide (0x100000 ≤ off) then part (s.tenant ((off - 0x100000) / 256)).bytes (off % 256)
  else List.replicate size 0#8
/-- BAR_WINDOW_READ (spec/16 R335). Aperture 16 of the physical function stands for its BAR0 (DESIGN CHOICE, notes/assumptions/17.md); TLOST clears as it is read there
(R319). -/
def execBarWindowRead (fn aperture offset size : Nat) (s : State) : Host.Outcome State Fault Refusal :=
  .next (if !barAccepts fn aperture offset size then s
    else if aperture < 16 then s.answerRead (s.windowRead fn aperture offset size)
    else
      let s' := s.answerRead (s.bar0 offset size)
      match bar0Core offset with
      | some core => if offset % 256 == 0x28 then s'.modDbg core fun d => { d with tlost := 0 } else s'
      | none => s')
/-- A write of the physical function to its BAR0 (R319, R335, R337): the debug blocks and the tenant table take it; the fault log, the counters and what lies between are
read-only (DESIGN CHOICE, notes/assumptions/17.md). -/
def State.bar0Write (s : State) (off : Nat) (bs : List Byte) : State := match bar0Core off with
  | some core => s.writeDebugPart core (off % 256) bs
  | none => if decide (0x100000 ≤ off) && decide (off < 0x104000) then s.writeTenants (off - 0x100000) bs else s
/-- BAR_WINDOW_WRITE (spec/16 R335). -/
def execBarWindowWrite (fn aperture offset : Nat) (bytes : List Byte) (s : State) : Host.Outcome State Fault Refusal :=
  .next (if !barAccepts fn aperture offset bytes.length then s
    else if aperture < 16 then s.windowWrite fn aperture offset bytes
    else s.bar0Write offset bytes)

/-! ### The Sorser port (R333) -/

/-- SORSER_UNLOCK (spec/15 R333): the port is unlocked where the controller has verified the token. -/
def execSorserUnlock (ok : Bool) (s : State) : Host.Outcome State Fault Refusal :=
  .next (if ok then { s with mgmt := { s.mgmt with locked := false } } else s)
/-- A Sorser command that answers `n` bytes: a locked port returns zero and performs nothing. -/
def State.sorser (s : State) (n : Nat) (f : State → State) : State := if s.mgmt.locked then s.answerRead (List.replicate n 0#8) else f s
/-- SORSER_READ (spec/15 R333). -/
def execSorserRead (core offset : Nat) (s : State) : Host.Outcome State Fault Refusal :=
  .next (s.sorser 8 fun s =>
    let s' := s.answerRead (bytesOf 8 ((s.core core).dbg.read offset).toNat)
    if offset == 0x28 then s'.modDbg core fun d => { d with tlost := 0 } else s')
/-- SORSER_WRITE (spec/15 R333). -/
def execSorserWrite (core offset : Nat) (value : W64) (s : State) : Host.Outcome State Fault Refusal :=
  .next (s.sorser 0 fun s => s.writeDebug core offset value)
/-- SORSER_POP (spec/15 R333): the oldest record, or zero where there is none. -/
def execSorserPop (s : State) : Host.Outcome State Fault Refusal :=
  .next (s.sorser 64 fun s => match s.mgmt.fifo with
    | [] => s.answerRead (List.replicate 64 0#8)
    | r :: rest => { s.answerRead r with mgmt := { (s.answerRead r).mgmt with fifo := rest } })
/-- The outstanding id of a record that went to the FIFO (R331, R333). -/
def State.debugId (s : State) (id : Nat) : Option OutId := firstSome (fun (e : Nat × Region) =>
  e.2.out.find? fun o => o.id == id % 2 ^ 24 && o.sorser) s.regions
/-- What a command leaves, whether it is complete or not. -/
def CmdRes.stateOr (r : CmdRes) (s : State) : State := match r with
  | .complete s' => s'
  | .later s' => s'
  | .refuse => s
/-- SORSER_RESUME (spec/15 R333): as RESUME, for an id from the FIFO. -/
def execSorserResume (named : SorserId) (s : State) : Host.Outcome State Fault Refusal :=
  .next (s.sorser 0 fun s => match s.debugId named.id with
    | some o => (s.resumeId o named.flag).stateOr s
    | none => s)
/-- SORSER_KILL (spec/15 R333): as KILL, for an id from the FIFO. -/
def execSorserKill (named : SorserId) (s : State) : Host.Outcome State Fault Refusal :=
  .next (s.sorser 0 fun s => match s.debugId named.id with
    | some o => (s.killId o named.flag).stateOr s
    | none => s)
/-- The bytes of one register of a class for DUMP: 0 v, 1 g, 2 p, 3 gp, 4 h, 5 b, 6 th, 7 sc, 8 am (DESIGN CHOICE, notes/assumptions/17.md). -/
def Group.dumpReg (g : Group) (t : Strand) (width cls n : Nat) : List Byte := match cls with
  | 0 => (List.range width).flatMap fun l => bytesOf 4 (g.vreg n l).toNat
  | 1 => bytesOf 4 (g.greg n).toNat
  | 2 => bytesOf 16 (t.c.p.getD n 0).toNat
  | 3 => bytesOf 1 (if g.gpred n then 1 else 0)
  | 4 => bytesOf 4 (g.hreg n).handle.toNat ++ bytesOf 2 (g.hreg n).chip
  | 5 => bytesOf 16 (g.breg n).toNat
  | 6 => bytesOf 32 (g.threg n).toNat
  | 7 => bytesOf 4 (g.screg n).toNat
  | 8 => bytesOf 4 (g.amreg n).toNat
  | _ => []
/-- A stopped strand of the resident group with a group id. -/
def State.stoppedGroup (s : State) (gid : Nat) : Option (Slice × Group × Strand) := firstSome (fun (e : Nat × Slice) =>
  if e.2.st != .resident then none
  else firstSome (fun (g : Group) =>
    if g.retired || groupId e.2 g != gid then none
    else (g.strands.find? fun t => match t.st with | .stopped _ => true | _ => false).map fun t => (e.2, g, t)) e.2.groups) s.slices
/-- SORSER_DUMP (spec/15 R333): for a Stopped group its id, strand, PC and mask, then up to 64 registers of one class. -/
def execSorserDump (id cls first count : Nat) (s : State) : Host.Outcome State Fault Refusal :=
  .next (s.sorser 8 fun s => match s.stoppedGroup id with
    | none => s.answerRead []
    | some (x, g, t) => s.answerRead (bytesOf 2 id ++ bytesOf 1 t.sn ++ bytesOf 8 t.c.pc ++ bytesOf 16 t.c.mask.toNat ++
        (List.range (min count 64)).flatMap fun i => (g.view s.clock).dumpReg t (s.widthOf x) cls (first + i)))

end Sys2Proof.Machine
end

