-- ==== Sys2Proof/Machine/IntAlu.lean ====
section
/-!
DEFINITION. The integer instructions, vector and uniform (spec/18_reference_g_to_l.md R389, R390 and the entries of spec/17 to
spec/19). An `eval` function computes the register writes; run-ahead (R155) uses the same.
-/

namespace Sys2Proof.Machine

/-- The result of an integer entry from its exact value (R390): wrapped or saturated to the type, narrow types extended to
32 bits. -/
def intOut (t : IntTy) (sat : Bool) (x : Int) : Nat :=
  let lo : Int := if t.signed then -(2 ^ (t.width - 1) : Nat) else 0
  let hi : Int := if t.signed then (2 ^ (t.width - 1) : Nat) - 1 else (2 ^ t.width : Nat) - 1
  let r := patternOf t.width (if sat then max lo (min hi x) else x)
  if t.wide then r
  else if t.signed then patternOf 32 (signedOf t.width r) else r
/-- The latency of an integer form (R66): 4 for every uniform form. -/
def intLat (uni : Bool) (n : Nat) : Nat := if uni then 4 else n
/-- A two-source integer operation over exact values. -/
def evalInt2 (uni : Bool) (t : IntTy) (sat : Bool) (d : Nat) (a b : Src) (f : Int → Int → Int) : Eval := fun x =>
  .ok (x.alu uni fun l => dstWr uni t.wide d l (intOut t sat (f (x.int t l a) (x.int t l b))))
/-- A one-source integer operation over exact values. -/
def evalInt1 (uni : Bool) (t : IntTy) (sat : Bool) (d : Nat) (a : Src) (f : Int → Int) : Eval := fun x =>
  .ok (x.alu uni fun l => dstWr uni t.wide d l (intOut t sat (f (x.int t l a))))
/-- A source of 32 or 64 raw bits; an immediate is zero-extended (R355, R429). -/
def X.bits (x : X) (wide : Bool) (lane : Nat) (a : Src) : Nat := if wide then x.src64 false lane a else x.src lane a
/-- Width in bits of a logic form. -/
def wbits (wide : Bool) : Nat := if wide then 64 else 32
/-- A two-source bitwise operation. -/
def evalBits2 (uni wide : Bool) (d : Nat) (a b : Src) (f : Nat → Nat → Nat) : Eval := fun x =>
  .ok (x.alu uni fun l => dstWr uni wide d l (f (x.bits wide l a) (x.bits wide l b)))
/-- A one-source bitwise operation whose result has 64 bits where `wd` holds. -/
def evalBits1 (uni wide wd : Bool) (d : Nat) (a : Src) (f : Nat → Nat) : Eval := fun x =>
  .ok (x.alu uni fun l => dstWr uni wd d l (f (x.bits wide l a)))
/-- The complement of n bits. -/
def notBits (n x : Nat) : Nat := 2 ^ n - 1 - x % 2 ^ n
/-- The bits of x reversed over n bits (R368). -/
def reverseBits : Nat → Nat → Nat
  | 0, _ => 0
  | n + 1, x => x % 2 * 2 ^ n + reverseBits n (x / 2)
/-- The number of set bits among the low n (R433). -/
def popCount : Nat → Nat → Nat
  | 0, _ => 0
  | n + 1, x => x % 2 + popCount n (x / 2)
/-- Leading zero bits of x over n bits (R368). -/
def leadingZeros (n x : Nat) : Nat := if x % 2 ^ n == 0 then n else n - 1 - Nat.log2 (x % 2 ^ n)
/-- pos and len of a control word, clamped (R361). -/
def fieldOf (w ctl : Nat) : Nat × Nat :=
  let p := min (bitsAt ctl 0 8) w
  (p, min (bitsAt ctl 8 8) (w - p))
/-- The pending result of a division (R66, R406): every lane's writes land together. -/
def issueTimed (i : Instr) (lat : Nat) (dst : List (Cls × Nat)) (ev : Eval) (s : State) : Host.Outcome State Fault Refusal :=
  issue i (fun x s => match ev x with
    | .error (cause, lane) => .trap cause lane 0
    | .ok l =>
      let (id, s) := s.fresh
      .ok (s.addInflight x.cur.who
        { id := id, sn := x.cur.who.sn, mask := x.mask, dst := dst, cpc := x.cur.pc, shadow := [],
          body := .timed (x.cur.cycle + (passCount i x.width - 1) + lat) l.flatten })) s
/-- Truncating quotient (R406). -/
def quotTrunc (a b : Int) : Int := Int.tdiv a b
/-- IDIV and IREM: a zero divisor in any lane of the mask traps with cause 64 (R406). -/
def evalDiv (uni : Bool) (t : IntTy) (d : Nat) (a b : Src) (f : Int → Int → Int) : Eval := fun x =>
  match (if uni then (if x.int t 0 b == 0 then some 0 else none) else x.lanes.find? fun l => x.int t l b == 0) with
  | some l => .error (64, l)
  | none => evalInt2 uni t false d a b f x
/-- The registers of an integer destination. -/
def intDst (uni wide : Bool) (d : Nat) : List (Cls × Nat) :=
  let c := if uni then Cls.g else Cls.v
  if wide then [(c, d), (c, d + 1)] else [(c, d)]

/-- What IADD computes (spec/18 R403). -/
def evalIadd (uni : Bool) (ty : IntTy) (sat : Bool) (d : Nat) (a b : Src) : Eval :=
  evalInt2 uni ty sat d a b fun p q => p + q
/-- IADD (spec/18 R403). -/
def execIadd (h : Hdr) (uni : Bool) (ty : IntTy) (sat : Bool) (d : Nat) (a b : Src) (s : State) : Host.Outcome State Fault Refusal :=
  issueFixed (.iadd h uni ty sat d a b) 4 (evalIadd uni ty sat d a b) s
/-- What ISUB computes (spec/18 R403). -/
def evalIsub (uni : Bool) (ty : IntTy) (sat : Bool) (d : Nat) (a b : Src) : Eval :=
  evalInt2 uni ty sat d a b fun p q => p - q
/-- ISUB (spec/18 R403). -/
def execIsub (h : Hdr) (uni : Bool) (ty : IntTy) (sat : Bool) (d : Nat) (a b : Src) (s : State) : Host.Outcome State Fault Refusal :=
  issueFixed (.isub h uni ty sat d a b) 4 (evalIsub uni ty sat d a b) s
/-- What IMIN computes (spec/18 R403). -/
def evalImin (uni : Bool) (ty : IntTy) (d : Nat) (a b : Src) : Eval :=
  evalInt2 uni ty false d a b min
/-- IMIN (spec/18 R403). -/
def execImin (h : Hdr) (uni : Bool) (ty : IntTy) (d : Nat) (a b : Src) (s : State) : Host.Outcome State Fault Refusal :=
  issueFixed (.imin h uni ty d a b) 4 (evalImin uni ty d a b) s
/-- What IMAX computes (spec/18 R403). -/
def evalImax (uni : Bool) (ty : IntTy) (d : Nat) (a b : Src) : Eval :=
  evalInt2 uni ty false d a b max
/-- IMAX (spec/18 R403). -/
def execImax (h : Hdr) (uni : Bool) (ty : IntTy) (d : Nat) (a b : Src) (s : State) : Host.Outcome State Fault Refusal :=
  issueFixed (.imax h uni ty d a b) 4 (evalImax uni ty d a b) s
/-- What IMUL computes (spec/18 R408). -/
def evalImul (uni : Bool) (ty : IntTy) (sat : Bool) (d : Nat) (a b : Src) : Eval :=
  evalInt2 uni ty sat d a b fun p q => p * q
/-- IMUL (spec/18 R408). -/
def execImul (h : Hdr) (uni : Bool) (ty : IntTy) (sat : Bool) (d : Nat) (a b : Src) (s : State) : Host.Outcome State Fault Refusal :=
  issueFixed (.imul h uni ty sat d a b) (intLat uni 6) (evalImul uni ty sat d a b) s
/-- What IMAD computes (spec/18 R408). -/
def evalImad (uni : Bool) (ty : IntTy) (sat : Bool) (d : Nat) (a b c : Src) : Eval :=
  fun x => .ok (x.alu uni fun l =>
    dstWr uni ty.wide d l (intOut ty sat (x.int ty l a * x.int ty l b + x.int ty l c)))
/-- IMAD (spec/18 R408). -/
def execImad (h : Hdr) (uni : Bool) (ty : IntTy) (sat : Bool) (d : Nat) (a b c : Src) (s : State) : Host.Outcome State Fault Refusal :=
  issueFixed (.imad h uni ty sat d a b c) (intLat uni 6) (evalImad uni ty sat d a b c) s
/-- What IMULH computes (spec/18 R408). -/
def evalImulh (uni : Bool) (ty : IntTy) (d : Nat) (a b : Src) : Eval :=
  evalInt2 uni ty false d a b fun p q => p * q / (2 ^ ty.width : Nat)
/-- IMULH (spec/18 R408). -/
def execImulh (h : Hdr) (uni : Bool) (ty : IntTy) (d : Nat) (a b : Src) (s : State) : Host.Outcome State Fault Refusal :=
  issueFixed (.imulh h uni ty d a b) (intLat uni 6) (evalImulh uni ty d a b) s
/-- What IDIV computes (spec/18 R406). -/
def evalIdiv (uni : Bool) (ty : IntTy) (d : Nat) (a b : Src) : Eval := evalDiv uni ty d a b quotTrunc
/-- IDIV (spec/18 R406). -/
def execIdiv (h : Hdr) (uni : Bool) (ty : IntTy) (d : Nat) (a b : Src) (s : State) : Host.Outcome State Fault Refusal :=
  issueTimed (.idiv h uni ty d a b) (if ty.wide then 72 else 40) (intDst uni ty.wide d) (evalIdiv uni ty d a b) s
/-- What IREM computes (spec/18 R406). -/
def evalIrem (uni : Bool) (ty : IntTy) (d : Nat) (a b : Src) : Eval :=
  evalDiv uni ty d a b fun p q => p - q * quotTrunc p q
/-- IREM (spec/18 R406). -/
def execIrem (h : Hdr) (uni : Bool) (ty : IntTy) (d : Nat) (a b : Src) (s : State) : Host.Outcome State Fault Refusal :=
  issueTimed (.irem h uni ty d a b) (if ty.wide then 72 else 40) (intDst uni ty.wide d) (evalIrem uni ty d a b) s
/-- What INEG computes (spec/18 R402). -/
def evalIneg (uni : Bool) (ty : IntTy) (sat : Bool) (d : Nat) (a : Src) : Eval :=
  evalInt1 uni ty sat d a fun p => -p
/-- INEG (spec/18 R402). -/
def execIneg (h : Hdr) (uni : Bool) (ty : IntTy) (sat : Bool) (d : Nat) (a : Src) (s : State) : Host.Outcome State Fault Refusal :=
  issueFixed (.ineg h uni ty sat d a) 4 (evalIneg uni ty sat d a) s
/-- What IABS computes (spec/18 R402). -/
def evalIabs (uni : Bool) (ty : IntTy) (sat : Bool) (d : Nat) (a : Src) : Eval :=
  evalInt1 uni ty sat d a fun p => p.natAbs
/-- IABS (spec/18 R402). -/
def execIabs (h : Hdr) (uni : Bool) (ty : IntTy) (sat : Bool) (d : Nat) (a : Src) (s : State) : Host.Outcome State Fault Refusal :=
  issueFixed (.iabs h uni ty sat d a) 4 (evalIabs uni ty sat d a) s
/-- What AND computes (spec/17 R355). -/
def evalAnd (uni wide : Bool) (d : Nat) (a b : Src) : Eval :=
  evalBits2 uni wide d a b fun p q => p &&& q
/-- AND (spec/17 R355). -/
def execAnd (h : Hdr) (uni wide : Bool) (d : Nat) (a b : Src) (s : State) : Host.Outcome State Fault Refusal :=
  issueFixed (.and h uni wide d a b) 4 (evalAnd uni wide d a b) s
/-- What OR computes (spec/19 R429). -/
def evalOr (uni wide : Bool) (d : Nat) (a b : Src) : Eval :=
  evalBits2 uni wide d a b fun p q => p ||| q
/-- OR (spec/19 R429). -/
def execOr (h : Hdr) (uni wide : Bool) (d : Nat) (a b : Src) (s : State) : Host.Outcome State Fault Refusal :=
  issueFixed (.or h uni wide d a b) 4 (evalOr uni wide d a b) s
/-- What XOR computes (spec/19 R429). -/
def evalXor (uni wide : Bool) (d : Nat) (a b : Src) : Eval :=
  evalBits2 uni wide d a b fun p q => p ^^^ q
/-- XOR (spec/19 R429). -/
def execXor (h : Hdr) (uni wide : Bool) (d : Nat) (a b : Src) (s : State) : Host.Outcome State Fault Refusal :=
  issueFixed (.xor h uni wide d a b) 4 (evalXor uni wide d a b) s
/-- What ANDN computes (spec/17 R355). -/
def evalAndn (uni wide : Bool) (d : Nat) (a b : Src) : Eval :=
  evalBits2 uni wide d a b fun p q => p &&& notBits (wbits wide) q
/-- ANDN (spec/17 R355). -/
def execAndn (h : Hdr) (uni wide : Bool) (d : Nat) (a b : Src) (s : State) : Host.Outcome State Fault Refusal :=
  issueFixed (.andn h uni wide d a b) 4 (evalAndn uni wide d a b) s
/-- What NOT computes (spec/19 R429). -/
def evalNot (uni wide : Bool) (d : Nat) (a : Src) : Eval :=
  evalBits1 uni wide wide d a fun p => notBits (wbits wide) p
/-- NOT (spec/19 R429). -/
def execNot (h : Hdr) (uni wide : Bool) (d : Nat) (a : Src) (s : State) : Host.Outcome State Fault Refusal :=
  issueFixed (.not h uni wide d a) 4 (evalNot uni wide d a) s
/-- What SHL computes (spec/19 R441). -/
def evalShl (uni : Bool) (ty : IntTy) (d : Nat) (a b : Src) : Eval :=
  fun x => .ok (x.alu uni fun l =>
    let c := x.src l b
    dstWr uni ty.wide d l (if ty.width ≤ c then 0 else x.bits ty.wide l a * 2 ^ c % 2 ^ ty.width))
/-- SHL (spec/19 R441). -/
def execShl (h : Hdr) (uni : Bool) (ty : IntTy) (d : Nat) (a b : Src) (s : State) : Host.Outcome State Fault Refusal :=
  issueFixed (.shl h uni ty d a b) 4 (evalShl uni ty d a b) s
/-- What SHR computes (spec/19 R441). -/
def evalShr (uni : Bool) (ty : IntTy) (d : Nat) (a b : Src) : Eval :=
  fun x => .ok (x.alu uni fun l =>
    let c := x.src l b
    dstWr uni ty.wide d l (if ty.width ≤ c then 0 else x.bits ty.wide l a / 2 ^ c))
/-- SHR (spec/19 R441). -/
def execShr (h : Hdr) (uni : Bool) (ty : IntTy) (d : Nat) (a b : Src) (s : State) : Host.Outcome State Fault Refusal :=
  issueFixed (.shr h uni ty d a b) 4 (evalShr uni ty d a b) s
/-- What SAR computes (spec/19 R441). -/
def evalSar (uni : Bool) (ty : IntTy) (d : Nat) (a b : Src) : Eval :=
  fun x => .ok (x.alu uni fun l =>
    let c := x.src l b
    dstWr uni ty.wide d l (patternOf ty.width (signedOf ty.width (x.bits ty.wide l a) / (2 ^ min c (ty.width - 1) : Nat))))
/-- SAR (spec/19 R441). -/
def execSar (h : Hdr) (uni : Bool) (ty : IntTy) (d : Nat) (a b : Src) (s : State) : Host.Outcome State Fault Refusal :=
  issueFixed (.sar h uni ty d a b) 4 (evalSar uni ty d a b) s
/-- What BFE computes (spec/17 R361). -/
def evalBfe (uni : Bool) (ty : IntTy) (d : Nat) (a b : Src) : Eval :=
  fun x => .ok (x.alu uni fun l =>
    let f := fieldOf ty.width (x.src l b)
    let v := bitsAt (x.bits ty.wide l a) f.1 f.2
    dstWr uni ty.wide d l
      (if f.2 == 0 then 0 else if ty.signed then patternOf ty.width (signedOf f.2 v) else v))
/-- BFE (spec/17 R361). -/
def execBfe (h : Hdr) (uni : Bool) (ty : IntTy) (d : Nat) (a b : Src) (s : State) : Host.Outcome State Fault Refusal :=
  issueFixed (.bfe h uni ty d a b) 4 (evalBfe uni ty d a b) s
/-- What BFI computes (spec/17 R362). -/
def evalBfi (uni wide : Bool) (d : Nat) (a b c : Src) : Eval :=
  fun x => .ok (x.alu uni fun l =>
    let f := fieldOf (wbits wide) (x.src l b)
    let base := x.bits wide l c
    let mk := (2 ^ f.2 - 1) * 2 ^ f.1
    dstWr uni wide d l
      (if f.2 == 0 then base else (base &&& notBits (wbits wide) mk) ||| (x.bits wide l a * 2 ^ f.1 &&& mk)))
/-- BFI (spec/17 R362). -/
def execBfi (h : Hdr) (uni wide : Bool) (d : Nat) (a b c : Src) (s : State) : Host.Outcome State Fault Refusal :=
  issueFixed (.bfi h uni wide d a b c) 4 (evalBfi uni wide d a b c) s
/-- What BREV computes (spec/17 R368). -/
def evalBrev (uni wide : Bool) (d : Nat) (a : Src) : Eval :=
  evalBits1 uni wide wide d a fun p => reverseBits (wbits wide) p
/-- BREV (spec/17 R368). -/
def execBrev (h : Hdr) (uni wide : Bool) (d : Nat) (a : Src) (s : State) : Host.Outcome State Fault Refusal :=
  issueFixed (.brev h uni wide d a) 4 (evalBrev uni wide d a) s
/-- What CLZ computes (spec/17 R368). -/
def evalClz (uni wide : Bool) (d : Nat) (a : Src) : Eval :=
  evalBits1 uni wide false d a fun p => leadingZeros (wbits wide) p
/-- CLZ (spec/17 R368). -/
def execClz (h : Hdr) (uni wide : Bool) (d : Nat) (a : Src) (s : State) : Host.Outcome State Fault Refusal :=
  issueFixed (.clz h uni wide d a) 4 (evalClz uni wide d a) s
/-- What POPC computes (spec/19 R433). -/
def evalPopc (uni wide : Bool) (d : Nat) (a : Src) : Eval :=
  evalBits1 uni wide false d a fun p => popCount (wbits wide) p
/-- POPC (spec/19 R433). -/
def execPopc (h : Hdr) (uni wide : Bool) (d : Nat) (a : Src) (s : State) : Host.Outcome State Fault Refusal :=
  issueFixed (.popc h uni wide d a) 4 (evalPopc uni wide d a) s
/-- What ISETP computes (spec/18 R409). -/
def evalIsetp (uni : Bool) (cmp : Cmp) (ty : IntTy) (d : Nat) (a b : Src) : Eval :=
  fun x => .ok (x.alu uni fun l =>
    let r := cmpInt cmp (x.int ty l a) (x.int ty l b)
    if uni then [.gp d r] else [.p x.cur.who.sn d l r])
/-- ISETP (spec/18 R409). -/
def execIsetp (h : Hdr) (uni : Bool) (cmp : Cmp) (ty : IntTy) (d : Nat) (a b : Src) (s : State) : Host.Outcome State Fault Refusal :=
  issueFixed (.isetp h uni cmp ty d a b) 4 (evalIsetp uni cmp ty d a b) s
/-- What SEL computes (spec/19 R444). -/
def evalSel (uni wide : Bool) (d : Nat) (a b : Src) (p : PredRef) : Eval :=
  fun x => .ok (x.alu uni fun l =>
    dstWr uni wide d l (if x.pref p l then x.bits wide l a else x.bits wide l b))
/-- SEL (spec/19 R444). -/
def execSel (h : Hdr) (uni wide : Bool) (d : Nat) (a b : Src) (p : PredRef) (s : State) : Host.Outcome State Fault Refusal :=
  issueFixed (.sel h uni wide d a b p) 4 (evalSel uni wide d a b p) s
/-- What IDP4 computes (spec/18 R407). -/
def evalIdp4 (uni sgn sat : Bool) (d : Nat) (a b c : Src) : Eval :=
  fun x => .ok (x.alu uni fun l =>
    let t : IntTy := if sgn then .s8 else .n8
    let byte := fun (w k : Nat) => if sgn then signedOf 8 (bitsAt w (8 * k) 8) else (bitsAt w (8 * k) 8 : Int)
    let p := fun k => byte (x.src l a) k * byte (x.src l b) k
    let t32 : IntTy := if t == .s8 then .s32 else .n32
    dstWr uni false d l (intOut t32 sat (x.int t32 l c + p 0 + p 1 + p 2 + p 3)))
/-- IDP4 (spec/18 R407). -/
def execIdp4 (h : Hdr) (uni sgn sat : Bool) (d : Nat) (a b c : Src) (s : State) : Host.Outcome State Fault Refusal :=
  issueFixed (.idp4 h uni sgn sat d a b c) (intLat uni 6) (evalIdp4 uni sgn sat d a b c) s
/-- What ISHRQ computes (spec/18 R410). -/
def evalIshrq (uni : Bool) (ty : IntTy) (d : Nat) (a b : Src) : Eval :=
  fun x => .ok (x.alu uni fun l =>
    let n := x.int .s32 l a
    let c := min (x.src l b) 31
    let r : Int := roundInt .rne (decide (n < 0)) n.natAbs (-(c : Int))
    dstWr uni false d l (intOut ty true (if n < 0 then -r else r)))
/-- ISHRQ (spec/18 R410). -/
def execIshrq (h : Hdr) (uni : Bool) (ty : IntTy) (d : Nat) (a b : Src) (s : State) : Host.Outcome State Fault Refusal :=
  issueFixed (.ishrq h uni ty d a b) 4 (evalIshrq uni ty d a b) s
/-- What MOV computes (spec/19 R424). -/
def evalMov (uni wide : Bool) (d : Nat) (a : Src) : Eval :=
  evalBits1 uni wide wide d a fun p => p
/-- MOV (spec/19 R424). -/
def execMov (h : Hdr) (uni wide : Bool) (d : Nat) (a : Src) (s : State) : Host.Outcome State Fault Refusal :=
  issueFixed (.mov h uni wide d a) 4 (evalMov uni wide d a) s
/-- What MOVI computes (spec/19 R424). -/
def evalMovi (uni : Bool) (d : Nat) (imm : W32) : Eval :=
  fun x => .ok (x.alu uni fun l => dstWr uni false d l imm.toNat)
/-- MOVI (spec/19 R424). -/
def execMovi (h : Hdr) (uni : Bool) (d : Nat) (imm : W32) (s : State) : Host.Outcome State Fault Refusal :=
  issueFixed (.movi h uni d imm) 4 (evalMovi uni d imm) s

end Sys2Proof.Machine
end

