-- ==== Sys2Proof/Machine/FloatAlu.lean ====
section
/-!
DEFINITION. The floating instructions (spec/06_number_formats.md; spec/17 R352 and the entries of spec/17 and spec/18).
-/

namespace Sys2Proof.Machine

/-- A per-lane operation whose results may trap: every lane of every pass is computed first, and no lane writes when an enabled
condition is met (R118). -/
def evalFltWr (f : X → Nat → List FOut × List RegWr) : Eval := fun x =>
  let all := x.lanes.map fun l => (l, f x l)
  match floatTrap x.fmt (all.flatMap fun e => e.2.1.map fun o => (e.1, o)) with
  | some e => .error e
  | none => .ok ((List.range (passesOf x.width)).map fun k =>
      (all.filter fun e => e.1 / 32 == k).flatMap fun e => e.2.2)
/-- A per-lane operation with one floating result in a v register. -/
def evalFlt (d : Nat) (f : X → Nat → FOut) : Eval :=
  evalFltWr fun x l => let o := f x l; ([o], [.v d l (BitVec.ofNat 32 o.bits)])
/-- A value rounded under the instruction's mode and FMT. -/
def X.pack (x : X) (t : FloatTy) (rm : Option Rm) (v : FVal × Bool) : FOut :=
  packV t (modeOf x.fmt rm) (fmtSatf x.fmt) (fmtFtz x.fmt) v.1 v.2
/-- A floating source under FTZ. -/
def X.f (x : X) (t : FloatTy) (l : Nat) (a : Src) : FVal := x.flt t (fmtFtz x.fmt) l a

/-- What FADD computes (spec/17 R381). -/
def evalFadd (rm : Option Rm) (ty : FloatTy) (d : Nat) (a b : Src) : Eval :=
  evalFlt d fun x l => x.pack ty rm (addV (modeOf x.fmt rm) (x.f ty l a) (x.f ty l b))
/-- FADD (spec/17 R381). -/
def execFadd (h : Hdr) (rm : Option Rm) (ty : FloatTy) (d : Nat) (a b : Src) (s : State) : Host.Outcome State Fault Refusal :=
  issueFixed (.fadd h rm ty d a b) 4 (evalFadd rm ty d a b) s
/-- What FSUB computes (spec/17 R381). -/
def evalFsub (rm : Option Rm) (ty : FloatTy) (d : Nat) (a b : Src) : Eval :=
  evalFlt d fun x l => x.pack ty rm (addV (modeOf x.fmt rm) (x.f ty l a) (negV (x.f ty l b)))
/-- FSUB (spec/17 R381). -/
def execFsub (h : Hdr) (rm : Option Rm) (ty : FloatTy) (d : Nat) (a b : Src) (s : State) : Host.Outcome State Fault Refusal :=
  issueFixed (.fsub h rm ty d a b) 4 (evalFsub rm ty d a b) s
/-- What FMUL computes (spec/17 R381). -/
def evalFmul (rm : Option Rm) (ty : FloatTy) (d : Nat) (a b : Src) : Eval :=
  evalFlt d fun x l => x.pack ty rm (mulV (x.f ty l a) (x.f ty l b))
/-- FMUL (spec/17 R381). -/
def execFmul (h : Hdr) (rm : Option Rm) (ty : FloatTy) (d : Nat) (a b : Src) (s : State) : Host.Outcome State Fault Refusal :=
  issueFixed (.fmul h rm ty d a b) 4 (evalFmul rm ty d a b) s
/-- What FMIN computes (spec/17 R381). -/
def evalFmin (ty : FloatTy) (d : Nat) (a b : Src) : Eval :=
  evalFlt d fun x l => .of (x.pack ty none (minmaxV false (x.f ty l a) (x.f ty l b), false)).bits
/-- FMIN (spec/17 R381). -/
def execFmin (h : Hdr) (ty : FloatTy) (d : Nat) (a b : Src) (s : State) : Host.Outcome State Fault Refusal :=
  issueFixed (.fmin h ty d a b) 4 (evalFmin ty d a b) s
/-- What FMAX computes (spec/17 R381). -/
def evalFmax (ty : FloatTy) (d : Nat) (a b : Src) : Eval :=
  evalFlt d fun x l => .of (x.pack ty none (minmaxV true (x.f ty l a) (x.f ty l b), false)).bits
/-- FMAX (spec/17 R381). -/
def execFmax (h : Hdr) (ty : FloatTy) (d : Nat) (a b : Src) (s : State) : Host.Outcome State Fault Refusal :=
  issueFixed (.fmax h ty d a b) 4 (evalFmax ty d a b) s
/-- What FFMA computes (spec/17 R386). -/
def evalFfma (rm : Option Rm) (ty : FloatTy) (d : Nat) (a b c : Src) : Eval :=
  evalFlt d fun x l => x.pack ty rm (fmaV (modeOf x.fmt rm) (x.f ty l a) (x.f ty l b) (x.f ty l c))
/-- FFMA (spec/17 R386). -/
def execFfma (h : Hdr) (rm : Option Rm) (ty : FloatTy) (d : Nat) (a b c : Src) (s : State) : Host.Outcome State Fault Refusal :=
  issueFixed (.ffma h rm ty d a b c) 4 (evalFfma rm ty d a b c) s
/-- What FSETP computes (spec/17 R388). -/
def evalFsetp (cmp : Cmp) (ty : FloatTy) (d : Nat) (a b : Src) : Eval :=
  fun x => .ok (x.each fun l => [.p x.cur.who.sn d l (cmpFloat cmp (x.f ty l a) (x.f ty l b))])
/-- FSETP (spec/17 R388). -/
def execFsetp (h : Hdr) (cmp : Cmp) (ty : FloatTy) (d : Nat) (a b : Src) (s : State) : Host.Outcome State Fault Refusal :=
  issueFixed (.fsetp h cmp ty d a b) 4 (evalFsetp cmp ty d a b) s
/-- What FCLASS computes (spec/17 R382). -/
def evalFclass (ty : FloatTy) (d : Nat) (a : Src) : Eval :=
  evalFlt d fun x l => .of (classOf ty (x.src l a))
/-- FCLASS (spec/17 R382). -/
def execFclass (h : Hdr) (ty : FloatTy) (d : Nat) (a : Src) (s : State) : Host.Outcome State Fault Refusal :=
  issueFixed (.fclass h ty d a) 4 (evalFclass ty d a) s
/-- What FRCP computes (spec/17 R384). -/
def evalFrcp (rm : Option Rm) (d : Nat) (a : Src) : Eval :=
  evalFlt d fun x l => frcpOf (modeOf x.fmt rm) (fmtFtz x.fmt) (x.src l a)
/-- FRCP (spec/17 R384). -/
def execFrcp (h : Hdr) (rm : Option Rm) (d : Nat) (a : Src) (s : State) : Host.Outcome State Fault Refusal :=
  issueFixed (.frcp h rm d a) 12 (evalFrcp rm d a) s
/-- What FRSQ computes (spec/17 R384, DESIGN CHOICE, notes/assumptions/6.md). -/
def evalFrsq (d : Nat) (a : Src) : Eval :=
  evalFlt d fun x l => frsqOf (fmtFtz x.fmt) (x.src l a)
/-- FRSQ (spec/17 R384, DESIGN CHOICE, notes/assumptions/6.md). -/
def execFrsq (h : Hdr) (d : Nat) (a : Src) (s : State) : Host.Outcome State Fault Refusal :=
  issueFixed (.frsq h d a) 12 (evalFrsq d a) s
/-- What FSQRT computes (spec/17 R384). -/
def evalFsqrt (rm : Option Rm) (d : Nat) (a : Src) : Eval :=
  evalFlt d fun x l => fsqrtOf (modeOf x.fmt rm) (fmtFtz x.fmt) (x.src l a)
/-- FSQRT (spec/17 R384). -/
def execFsqrt (h : Hdr) (rm : Option Rm) (d : Nat) (a : Src) (s : State) : Host.Outcome State Fault Refusal :=
  issueFixed (.fsqrt h rm d a) 12 (evalFsqrt rm d a) s
/-- What FEXP2 computes (spec/17 R384, DESIGN CHOICE, notes/assumptions/6.md). -/
def evalFexp2 (d : Nat) (a : Src) : Eval :=
  evalFlt d fun x l => fexp2Of (fmtFtz x.fmt) (x.src l a)
/-- FEXP2 (spec/17 R384, DESIGN CHOICE, notes/assumptions/6.md). -/
def execFexp2 (h : Hdr) (d : Nat) (a : Src) (s : State) : Host.Outcome State Fault Refusal :=
  issueFixed (.fexp2 h d a) 12 (evalFexp2 d a) s
/-- What FLOG2 computes (spec/17 R384, DESIGN CHOICE, notes/assumptions/6.md). -/
def evalFlog2 (d : Nat) (a : Src) : Eval :=
  evalFlt d fun x l => flog2Of (fmtFtz x.fmt) (x.src l a)
/-- FLOG2 (spec/17 R384, DESIGN CHOICE, notes/assumptions/6.md). -/
def execFlog2 (h : Hdr) (d : Nat) (a : Src) (s : State) : Host.Outcome State Fault Refusal :=
  issueFixed (.flog2 h d a) 12 (evalFlog2 d a) s
/-- What FSIN computes (spec/17 R384, DESIGN CHOICE, notes/assumptions/6.md). -/
def evalFsin (d : Nat) (a : Src) : Eval :=
  evalFlt d fun x l => fsinOf (fmtFtz x.fmt) (x.src l a)
/-- FSIN (spec/17 R384, DESIGN CHOICE, notes/assumptions/6.md). -/
def execFsin (h : Hdr) (d : Nat) (a : Src) (s : State) : Host.Outcome State Fault Refusal :=
  issueFixed (.fsin h d a) 12 (evalFsin d a) s
/-- What FCOS computes (spec/17 R384, DESIGN CHOICE, notes/assumptions/6.md). -/
def evalFcos (d : Nat) (a : Src) : Eval :=
  evalFlt d fun x l => fcosOf (fmtFtz x.fmt) (x.src l a)
/-- FCOS (spec/17 R384, DESIGN CHOICE, notes/assumptions/6.md). -/
def execFcos (h : Hdr) (d : Nat) (a : Src) (s : State) : Host.Outcome State Fault Refusal :=
  issueFixed (.fcos h d a) 12 (evalFcos d a) s
/-- What HFMA2 computes (spec/18 R396). -/
def evalHfma2 (rm : Option Rm) (ty : FloatTy) (d : Nat) (a b c : Src) : Eval :=
  evalFltWr fun x l =>
    let half := fun (s : Src) (k : Nat) => match s with
      | .imm w => decodeF ty (fmtFtz x.fmt) w.toNat
      | s => decodeF ty (fmtFtz x.fmt) (bitsAt (x.src l s) (16 * k) 16)
    let one := fun (k : Nat) => x.pack ty rm (fmaV (modeOf x.fmt rm) (half a k) (half b k) (half c k))
    let o0 := one 0
    let o1 := one 1
    ([o0, o1], [.v d l (BitVec.ofNat 32 (o0.bits + 2 ^ 16 * o1.bits))])
/-- HFMA2 (spec/18 R396). -/
def execHfma2 (h : Hdr) (rm : Option Rm) (ty : FloatTy) (d : Nat) (a b c : Src) (s : State) : Host.Outcome State Fault Refusal :=
  issueFixed (.hfma2 h rm ty d a b c) 4 (evalHfma2 rm ty d a b c) s
/-- One converted value (spec/06 R117; spec/17 R378): the bits of a destination register or pair, with the conditions met. -/
def cvtOf (fmt : W32) (rm : Option Rm) (sat : Bool) (dst : CvtTy) (iv : Int) (fv : FVal) (srcInt : Bool) : FOut :=
  let m := modeOf fmt rm
  match dst with
  | .int t =>
    if srcInt then .of (intOut t sat iv)
    else let r := floatToInt m t fv; ⟨intOut t false (if t.signed then signedOf t.width r.1 else r.1), r.2, false, false⟩
  | .flt t => packV t m (fmtSatf fmt) (fmtFtz fmt) (if srcInt then intV iv else fv) false
/-- What CVT computes (spec/17 R378). -/
def evalCvt (rm : Option Rm) (sat : Bool) (dst src : CvtTy) (d : Nat) (a : Src) : Eval :=
  evalFltWr fun x l =>
    let o := match src with
      | .int t => cvtOf x.fmt rm sat dst (x.int t l a) .nan true
      | .flt t => cvtOf x.fmt rm sat dst 0 (x.f t l a) false
    ([o], dstWr false dst.wide d l o.bits)
/-- CVT (spec/17 R378). -/
def execCvt (h : Hdr) (rm : Option Rm) (sat : Bool) (dst src : CvtTy) (d : Nat) (a : Src) (s : State) : Host.Outcome State Fault Refusal :=
  issueFixed (.cvt h rm sat dst src d a) 4 (evalCvt rm sat dst src d a) s
/-- What BPACK computes (spec/17 R365). -/
def evalBpack (rm : Option Rm) (w d a : Nat) : Eval :=
  fun x =>
    if w < 2 || 8 < w then .error (96, 0)
    else
      let val := fun l => if x.mask.getLsbD l then decodeF .f32 (fmtFtz x.fmt) (x.v a l) else .num false 0 0
      match (if fmtTiv x.fmt then x.lanes.find? fun l => anyNonFinite [val l] else none) with
      | some l => .error (80, l)
      | none => .ok ((List.range (passesOf x.width)).map fun k =>
          let b := bfpPack w (modeOf x.fmt rm) ((List.range 32).map fun i => val (32 * k + i))
          let str := bitString w b.2
          (x.passLanes k).map fun l =>
            .v d l (BitVec.ofNat 32 (if l % 32 < w then bitsAt str (32 * (l % 32)) 32 else b.1)))
/-- BPACK (spec/17 R365). -/
def execBpack (h : Hdr) (rm : Option Rm) (w d a : Nat) (s : State) : Host.Outcome State Fault Refusal :=
  issueFixed (.bpack h rm w d a) 4 (evalBpack rm w d a) s
/-- What BUNPACK computes (spec/17 R366). -/
def evalBunpack (rm : Option Rm) (w d a : Nat) : Eval :=
  fun x =>
    if w < 2 || 8 < w then .error (96, 0)
    else evalFlt d (fun x l =>
      let base := l / 32 * 32
      let word := fun i => if x.smask.getLsbD (base + i) then ((x.view l).vreg a (base + i)).toNat else 0
      let str := (List.range w).foldl (fun n i => n + word i * 2 ^ (32 * i)) 0
      x.pack .f32 rm (bfpVal w (word w % 256) (bitsAt str (w * (l % 32)) w), false)) x
/-- BUNPACK (spec/17 R366). -/
def execBunpack (h : Hdr) (rm : Option Rm) (w d a : Nat) (s : State) : Host.Outcome State Fault Refusal :=
  issueFixed (.bunpack h rm w d a) 4 (evalBunpack rm w d a) s
/-- What AMAX computes (spec/17 R354): one atomic maximum after the last pass; nothing in replay state or with an empty mask. -/
def evalAmax (ty : FloatTy) (d : Nat) (a : Src) : Eval := fun x =>
  let np := passesOf x.width
  if x.view0.replay.isSome || x.lanes.isEmpty then .ok (List.replicate np [])
  else
    let m := x.lanes.foldl (fun m l => minmaxV true m (absV (x.f ty l a))) (.num false 0 0)
    let b := (packV .f32 .rne false false m false).bits
    .ok (List.replicate (np - 1) [] ++ [[.am d (BitVec.ofNat 32 b)]])
/-- AMAX (spec/17 R354). -/
def execAmax (h : Hdr) (ty : FloatTy) (d : Nat) (a : Src) (s : State) : Host.Outcome State Fault Refusal :=
  issueFixed (.amax h ty d a) 4 (evalAmax ty d a) s

end Sys2Proof.Machine
end

