-- ==== Sys2Proof/Machine/Lane.lean ====
section
/-!
DEFINITION. The lane instructions: shuffles, votes, reductions and scans, and moves of predicates and lanes (spec/18 R391,
R392, R419, R420; spec/19 R431, R432, R439, R440, R454, R455).
-/

namespace Sys2Proof.Machine

/-! ### Reductions (R123, R420) -/

/-- An integer node of LRED and LSCAN over patterns of the type's width (R420). -/
def redInt (op : RedOp) (t : IntTy) (a b : Nat) : Nat :=
  let less := if t.signed then decide (signedOf t.width a < signedOf t.width b) else decide (a < b)
  match op with
  | .add => (a + b) % 2 ^ t.width
  | .min => if less then a else b
  | .max => if less then b else a
  | .and => a &&& b
  | .or => a ||| b
  | .xor => a ^^^ b
/-- A float node: a rounded sum, or the minimum or maximum of R124. -/
def redFlt (op : RedOp) (t : FloatTy) (rm : Rm) (ftz : Bool) : Option FOut → Option FOut → Option FOut :=
  match op with
  | .add => addNode t rm ftz
  | _ => fun a b => match a, b with
    | none, y => y
    | y, none => y
    | some p, some q =>
      some (packV t .rne false ftz (minmaxV (op == .max) (decodeF t ftz p.bits) (decodeF t ftz q.bits)) false)
/-- A node of a reduction by its type; absent plus x is x (R420). -/
def redNode (op : RedOp) (ty : CvtTy) (rm : Rm) (ftz : Bool) : Option FOut → Option FOut → Option FOut := match ty with
  | .flt t => redFlt op t rm ftz
  | .int t => fun a b => match a, b with
    | none, y => y
    | y, none => y
    | some p, some q => some (.of (redInt op t p.bits q.bits))
/-- The result of a reduction over absent lanes only (R420). -/
def redEmpty (op : RedOp) (ty : CvtTy) : Nat := match ty, op with
  | .flt t, .min => (packV t .rne false false (.inf false) false).bits
  | .flt t, .max => (packV t .rne false false (.inf true) false).bits
  | .flt _, _ => 0
  | .int t, .min => if t.signed then 2 ^ (t.width - 1) - 1 else 2 ^ t.width - 1
  | .int t, .max => if t.signed then 2 ^ (t.width - 1) else 0
  | .int t, .and => 2 ^ t.width - 1
  | .int _, _ => 0
/-- The leaf of a lane: absent outside the mask (R420), a float source after FTZ. -/
def X.redLeaf (x : X) (ty : CvtTy) (a l : Nat) : Option FOut :=
  if !x.mask.getLsbD l then none
  else some (match ty with
    | .int t => .of (if t.wide then x.v64 a l else x.v a l)
    | .flt t => packV t .rne false (fmtFtz x.fmt) (decodeF t (fmtFtz x.fmt) (x.v a l)) false)
/-- One doubling step of LSCAN (R123): every lane L ≥ d takes val[L − d] ⊕ val[L], all reads before writes. -/
def scanStep (f : Option FOut → Option FOut → Option FOut) (d : Nat) (l : List (Option FOut)) : List (Option FOut) :=
  l.take d ++ (l.zip (l.drop d)).map fun p => f p.1 p.2
/-- The prefix of LSCAN by doubling steps d = 1, 2, 4 … 64; a step of d at or above the width changes nothing. -/
def scanAll (f : Option FOut → Option FOut → Option FOut) (l : List (Option FOut)) : List (Option FOut) :=
  [1, 2, 4, 8, 16, 32, 64].foldl (fun l d => scanStep f d l) l

/-- What SHFL computes (spec/19 R440). -/
def evalShfl (mode : ShflMode) (d a : Nat) (b : Src) : Eval := fun x => .ok (x.each fun l =>
  let span : Nat := max x.width 32
  let n := x.src l b
  let s : Int := match mode with
    | .idx => (n : Int)
    | .up => (l : Int) - n
    | .down => (l : Int) + n
    | .xor => ((l ^^^ n : Nat) : Int)
  [.v d l (BitVec.ofNat 32 (
    if s < 0 ∨ (span : Int) ≤ s then x.v a l
    else if !x.smask.getLsbD s.toNat then 0
    else x.v a s.toNat))])
/-- SHFL (spec/19 R439, R440). -/
def execShfl (h : Hdr) (mode : ShflMode) (d a : Nat) (b : Src) (s : State) : Host.Outcome State Fault Refusal :=
  issueFixed (.shfl h mode d a b) 4 (evalShfl mode d a b) s
/-- What ROT computes (spec/19 R440). -/
def evalRot (d a : Nat) (b : Src) : Eval := fun x => .ok (x.each fun l =>
  let s := (l + x.src l b) % max x.width 32
  [.v d l (BitVec.ofNat 32 (if x.smask.getLsbD s then x.v a s else 0))])
/-- ROT (spec/19 R439, R440). -/
def execRot (h : Hdr) (d a : Nat) (b : Src) (s : State) : Host.Outcome State Fault Refusal :=
  issueFixed (.rot h d a b) 4 (evalRot d a b) s
/-- What VOTE computes (spec/19 R455). -/
def evalVote (fn : VoteFn) (d : Nat) (neg : Bool) (p : Nat) : Eval := fun x =>
  let t := fun (l : Nat) => x.smask.getLsbD l && (x.p p l != neg)
  let all := List.range x.width
  .ok [match fn with
    | .any => [.gp d (all.any t)]
    | .all => [.gp d (all.all fun l => !x.smask.getLsbD l || t l)]
    | .ballot => (List.range (passesOf x.width)).map fun k =>
        .g (d + k) (BitVec.ofNat 32 (loop (fun i n => if t (32 * k + i) then n + 2 ^ i else n) 32 0))
    | .cnt => [.g d (BitVec.ofNat 32 (all.filter t).length)]]
/-- VOTE (spec/19 R454, R455). -/
def execVote (h : Hdr) (fn : VoteFn) (d : Nat) (neg : Bool) (p : Nat) (s : State) : Host.Outcome State Fault Refusal :=
  issueFixed (.vote h fn d neg p) 4 (evalVote fn d neg p) s
/-- What LRED computes (spec/18 R420). A condition that a node of the tree meets is reported for the lowest active lane (DESIGN CHOICE, notes/assumptions/20.md). -/
def evalLred (toG : Bool) (rm : Option Rm) (op : RedOp) (ty : CvtTy) (d a : Nat) : Eval := fun x =>
  let r := (treeSum (redNode op ty (modeOf x.fmt rm) (fmtFtz x.fmt)) 7
    ((List.range x.width).map fun l => x.redLeaf ty a l)).getD (.of (redEmpty op ty))
  match condCause x.fmt r with
  | some c => .error (c, x.lanes.headD 0)
  | none => .ok (if toG then [dstWr true ty.wide d 0 r.bits] else x.each fun l => dstWr false ty.wide d l r.bits)
/-- LRED (spec/18 R419, R420). -/
def execLred (h : Hdr) (toG : Bool) (rm : Option Rm) (op : RedOp) (ty : CvtTy) (d a : Nat) (s : State) : Host.Outcome State Fault Refusal :=
  issueFixed (.lred h toG rm op ty d a) 8 (evalLred toG rm op ty d a) s
/-- What LSCAN computes (spec/18 R420). A condition that a node meets counts for the lowest active lane whose result took the node in, and for none where no active lane's did
(DESIGN CHOICE, notes/assumptions/22.md). -/
def evalLscan (excl : Bool) (rm : Option Rm) (op : RedOp) (ty : CvtTy) (d a : Nat) : Eval := fun x =>
  let leaves := (List.range x.width).map fun l => x.redLeaf ty a l
  let leaves := if excl then none :: leaves.dropLast else leaves
  let vals := scanAll (redNode op ty (modeOf x.fmt rm) (fmtFtz x.fmt)) leaves
  match floatTrap x.fmt (x.lanes.filterMap fun l => (vals.getD l none).map fun o => (l, o)) with
  | some e => .error e
  | none => .ok (x.each fun l =>
      dstWr false ty.wide d l (((vals.getD l none).map FOut.bits).getD (redEmpty op ty)))
/-- LSCAN (spec/18 R419, R420). -/
def execLscan (h : Hdr) (excl : Bool) (rm : Option Rm) (op : RedOp) (ty : CvtTy) (d a : Nat) (s : State) : Host.Outcome State Fault Refusal :=
  issueFixed (.lscan h excl rm op ty d a) 8 (evalLscan excl rm op ty d a) s
/-- What PLOG computes (spec/19 R431). -/
def evalPlog (op : PlogOp) (d : Nat) (a b : PredRef) : Eval := fun x => .ok (x.each fun l =>
  let p := x.pref a l
  let q := x.pref b l
  [.p x.cur.who.sn d l (match op with
    | .and => p && q
    | .or => p || q
    | .xor => p != q
    | .mov => p)])
/-- PLOG (spec/19 R431). -/
def execPlog (h : Hdr) (op : PlogOp) (d : Nat) (a b : PredRef) (s : State) : Host.Outcome State Fault Refusal :=
  issueFixed (.plog h op d a b) 4 (evalPlog op d a b) s
/-- What PMOV computes (spec/19 R432). -/
def evalPmov (form : PmovForm) : Eval := fun x => .ok (x.each fun l => match form with
  | .toReg d p => [.v d l (if x.p p l then 1 else 0)]
  | .toPred p a => [.p x.cur.who.sn p l (x.src l a != 0)])
/-- PMOV (spec/19 R432). -/
def execPmov (h : Hdr) (form : PmovForm) (s : State) : Host.Outcome State Fault Refusal :=
  issueFixed (.pmov h form) 4 (evalPmov form) s
/-- What GMOV computes (spec/18 R392). -/
def evalGmov (d a : Nat) (lane : GmovLane) : Eval := fun x =>
  let n : Option Nat := match lane with
    | .imm n => some n
    | .reg g => some (x.gr g)
    | .first => x.smask.lanes.head?
  .ok [[.g d (BitVec.ofNat 32 (match n with
    | none => 0
    | some l => if decide (l < x.width) && x.smask.getLsbD l then x.v a l else 0))]]
/-- GMOV (spec/18 R391, R392). -/
def execGmov (h : Hdr) (d a : Nat) (lane : GmovLane) (s : State) : Host.Outcome State Fault Refusal :=
  issueFixed (.gmov h d a lane) 4 (evalGmov d a lane) s

end Sys2Proof.Machine
end

