-- ==== Sys2Proof/Machine/Fetch.lean ====
section
/-!
DEFINITION. How a strand comes to its next instruction: fetch lines and their checks, decoding with the group's limits, what it must wait for,
arbitration of a bay, and page-fault run-ahead (spec/03 R43 to R48, R61, R62, R64, R65, R69; spec/07 R155 to R159; spec/12 R281, R282).
-/

namespace Sys2Proof.Machine

/-! ### Fetch (R47, R157, R159) -/

/-- What a fetch of a line meets. -/
inductive FetchRes where
  | line (bytes : List Byte)
  | absent (page : Nat)
  | trap (cause : Nat)
  | verify (page : Nat)
deriving DecidableEq, Repr, Inhabited
/-- Whether a program counter lies in a job's code section (R47). -/
def Job.inCode (j : Job) (pc : Nat) : Bool :=
  decide (codeBase j.code ≤ lineOf pc) && decide (lineOf pc < codeBase j.code + j.hdr.codeSize)
/-- Whether the page of a program counter is one of a job's code pages (R77). -/
def Job.inPages (j : Job) (pc : Nat) : Bool :=
  decide (codeBase j.code / 65536 ≤ pc / 65536) && decide (pc / 65536 < codeBase j.code / 65536 + sectionPages j.hdr.codeSize)
/-- The line of a program counter as a fetch from memory finds it (R157, R159, R314): cause 18 outside the code pages, 179 where the leaf names another module, is one of
the weight store, which nothing but LDW and MLDW reads (R150; DESIGN CHOICE, notes/assumptions/18.md), or lacks X, and 180 where the line lies in a failed granule. -/
def State.fetchLine (s : State) (j : Job) (pc : Nat) : FetchRes :=
  if !j.inPages pc then .trap 18
  else if !inDevice pc then .trap 179
  else match s.walk (keyVf j.rk) (lineOf pc) with
    | none => .absent (pageOf pc)
    | some l =>
      if l.chip != s.chip || l.ws || !l.x then .trap 179
      else if !j.verified.contains (pc / 65536) then .verify (pc / 65536)
      else if !(s.failedIn l.pa 64).isEmpty then .trap 180
      else .line (s.peek l.pa 64)
/-- The line of a program counter that the instruction cache of a core holds: a page that has been changed since may still be fetched as it was, until its ICINV (R13, R158;
DESIGN CHOICE, notes/assumptions/18.md). A page that is not verified is not fetched from (R159). -/
def State.cachedLine (s : State) (core : Nat) (j : Job) (pc : Nat) : Option (List Byte) :=
  if !j.inPages pc || !j.verified.contains (pc / 65536) then none
  else ((s.core core).icache.find? fun l => l.vf == keyVf j.rk && l.va == lineOf pc).map CodeLine.bytes
/-- The line that a strand issues from: the one it holds while it stays there, the one in its core's instruction cache, or the one in memory (R45, R158). -/
def State.lineFor (s : State) (core : Nat) (j : Job) (t : Strand) : FetchRes := match t.line with
  | some (a, l) => if a == lineOf t.c.pc then .line l else match s.cachedLine core j t.c.pc with
    | some l => .line l
    | none => s.fetchLine j t.c.pc
  | none => match s.cachedLine core j t.c.pc with
    | some l => .line l
    | none => s.fetchLine j t.c.pc
/-- The lines of an instruction cache without one (R46). -/
def dropLine (l : List CodeLine) (vf va : Nat) : List CodeLine := l.filter fun y => !(y.vf == vf && y.va == va)
/-- A line that a strand of a core issues from is held by the strand, and one that it has just fetched by the core's instruction cache too, which drops its oldest where it is full
(R13, R45, R158). -/
def State.keepLine (s : State) (core : Nat) (r : StrandRef) (vf va : Nat) (l : List Byte) : State :=
  let held := (s.core core).icache.any fun y => y.vf == vf && y.va == va
  let own := match s.strand? r with | some t => t.line.any fun e => e.1 == va | none => false
  let s := if held || own then s else s.modCore core fun k =>
    { k with icache := (if decide (Config.icacheLines ≤ k.icache.length) then k.icache.tail else k.icache) ++ [⟨vf, va, l⟩] }
  s.modStrand r fun t => { t with line := some (va, l) }
/-- A line discarded after a parity mismatch, and the soft error counted (R46). -/
def State.discardLine (s : State) (core rk : Nat) (r : StrandRef) (va : Nat) : State :=
  let s := s.modCore core fun k => { k with icache := dropLine k.icache (keyVf rk) va }
  let s := s.count core rk .softErrors 1
  { s.modStrand r (fun t => { t with line := none }) with mgmt := { s.mgmt with softErrors := s.mgmt.softErrors + 1 } }
/-- The fields of a slot of a line. -/
def lineFields (l : List Byte) (i : Nat) : Fields := Fields.ofWord (slotBits l i)
/-- The line causes of R45 for slots about to issue. -/
def lineCause (l : List Byte) (slots : List Nat) : Option Nat :=
  let w := lineWord l
  if !lineParity l || slots.any (fun i => !slotParity l i) then some 10
  else if bitsAt w 28 4 != 1 then some 11
  else if bitsAt w 15 13 != 0 then some 12
  else if [0, 1, 2].any fun j => pairBit l j && pairBit l (j + 1) then some 13
  else none
/-- The slots that issue together at a program counter (R69). -/
def slotsAt (l : List Byte) (pc : Nat) : List Nat :=
  if decide (4 < pc % 8) then [] else if pairBit l (pc % 8) then [pc % 8, pc % 8 + 1] else [pc % 8]
/-- The causes 18, 17, 16 and 52 of R62 for a strand at its program counter. -/
def targetCause (j : Job) (t : Strand) (l : List Byte) (chk : Bool) : Option Nat :=
  let i := t.c.pc % 8
  if !j.inCode t.c.pc then some 18
  else if t.entry == .seq then none
  else if decide (4 < i) then some 17
  else if t.entry == .transfer && !tgtBit l i then some 16
  else if chk && decide (0 < i) && pairBit l (i - 1) then some 52
  else none
/-- The instruction of a slot as a group decodes it (R51, R61). -/
def decodeSlot (j : Job) (g : Group) (t : Strand) (f : Fields) : Except Reject Instr :=
  let np := passesOf j.hdr.width
  let fmt := g.fmtOf t.c
  match encOf f with
  | none => decodeWith 1 np (fun _ => true) f
  | some e => decodeWith (fmtA fmt).quarterRegs np (fun o => !rangeBad g.n j.hdr.gregs j.hdr.acc e.instr o) f

/-! ### What an instruction must wait for (R65, R170) -/

/-- The operands of an instruction with its guard, as they are encoded. -/
def operandsOf (fmt : W32) (width : Nat) (f : Fields) : List Opnd := match encOf f with
  | some e => if majAssigned f.maj then f.guard.op :: e.instr.ops (fmtA fmt).quarterRegs (passesOf width) else []
  | none => []
/-- The wait that an instruction meets before it issues: pending operands, or a condition of a fence. -/
def waitBlock (clock : Nat) (g : Group) (t : Strand) (width : Nat) (fs : List Fields) (is : List Instr) : Option Block :=
  let ops := fs.flatMap (operandsOf (g.fmtOf t.c) width)
  if g.pendingOn clock t ops then some (.operands ops)
  else match is.find? t.fenced with
    | none => none
    | some i => some (.order (pathsOf i))

/-- The operands that the fields of an encoding name (R306), whether or not it would decode: where its entry lists no such FUNC, those of the first FUNC that the entry lists
(DEDUCED, notes/assumptions/19.md). -/
def namedBy (fmt : W32) (width : Nat) (f : Fields) : List Opnd := match encOf f with
  | some _ => operandsOf fmt width f
  | none => match firstSome (fun k => if (encOf { f with func := k }).isSome then some k else none) (List.range 64) with
    | some k => operandsOf fmt width { f with func := k }
    | none => []
/-- Whether fields encode an EXIT or ARMEND that has its effect: with a false group guard it has none (R356, R379). While its guard is pending it does not issue. -/
def endsStrand (f : Fields) (g : Group) (t : Strand) : Bool :=
  (f.maj == 0x74 || f.maj == 0x76) && (match f.guard with
    | .group n p => g.gpred p != n && !g.inflight.any fun y => y.touches t f.guard.op
    | .lane .. => true)
/-- The deferred trap that falls due before instructions with some fields: they read a register that it names, or end the strand. -/
def dueBy (g : Group) (t : Strand) (width : Nat) (fs : List Fields) : Option Deferred :=
  let rd := (fs.flatMap (namedBy (g.fmtOf t.c) width)).filter fun o => !o.wr
  let ends := fs.any fun f => endsStrand f g t
  t.deferred.find? fun d => match d.due with
    | .next => true
    | .reads l e => (e && ends) || l.any fun p => rd.any fun o => o.cls == p.1 && decide (o.num ≤ p.2) && decide (p.2 < o.num + o.cnt)

/-! ### Arbitration (R28, R281, R282) -/

/-- Whether the strands of a slice may issue: it is Resident, and neither pre-empted nor out of budget (R31, R34). -/
def Slice.issues (x : Slice) : Bool := x.st == .resident && x.preempt.isNone && x.exhausted.isNone
/-- The strands of a bay with their slices and groups. -/
def State.bayStrands (s : State) (core bay : Nat) : List (StrandRef × Slice × Group × Strand) :=
  s.slices.flatMap fun e =>
    if !(e.2.core == core && e.2.issues) then []
    else (e.2.groups.zip (List.range e.2.groups.length)).flatMap fun g =>
      if g.1.bay != bay || g.1.retired then [] else g.1.strands.map fun t => (⟨e.1, g.2, t.sn⟩, e.2, g.1, t)
/-- Whether a strand is eligible at the current cycle (R281). -/
def eligible (clock : Nat) (t : Strand) : Bool := t.st == .ready && decide (t.nextIssue ≤ clock)
/-- A Ready strand whose next instruction, in the line that it holds or in the one that it would fetch, has a pending operand enters Scoreboard wait (R28, R65); one that
would take a deferred trap or a cause of its line there does not. -/
def State.settleReady (s : State) (e : StrandRef × Slice × Group × Strand) : State :=
  let (r, x, g, t) := e
  if !eligible s.clock t || (g.inflight.isEmpty && g.fixed.isEmpty) then s
  else match s.job? x.jn with
    | none => s
    | some j => match s.lineFor x.core j t with
      | .line l =>
        let slots := slotsAt l t.c.pc
        let fs := slots.map (lineFields l)
        let ops := fs.flatMap (operandsOf (g.fmtOf t.c) j.hdr.width)
        if g.pendingOn s.clock t ops && (lineCause l slots).isNone && (dueBy g t j.hdr.width fs).isNone then s.block r (.operands ops) else s
      | _ => s
/-- The order of R281 among eligible strands. -/
def strandBefore (a b : StrandRef × Slice × Group × Strand) : Bool :=
  let forced := fun (e : StrandRef × Slice × Group × Strand) => if Config.lossLimit ≤ e.2.2.2.lost then e.2.2.2.lost else 0
  let ka := [(forced b : Nat), a.2.1.deadline, a.2.2.2.readySince, a.2.2.1.slot, a.2.2.2.sn]
  let kb := [(forced a : Nat), b.2.1.deadline, b.2.2.2.readySince, b.2.2.1.slot, b.2.2.2.sn]
  match (ka.zip kb).find? fun p => p.1 != p.2 with
  | some p => decide (p.1 < p.2)
  | none => false
/-- ISSUE_ARBITRATION (R64, R281): a bay with no run picks among its eligible strands; the winner begins a run, and every other has lost one
arbitration. -/
def State.arbitrate (s : State) (core bay : Nat) : State :=
  let b := (s.core core).bays.getD bay Bay.reset
  if b.run.isSome || decide (s.clock < b.free) then s
  else
    let s := (s.bayStrands core bay).foldl State.settleReady s
    let l := (s.bayStrands core bay).filter fun e => eligible s.clock e.2.2.2
    match bestOf strandBefore l with
    | none => s
    | some w =>
      let rk := s.sliceRegion w.2.1
      let s := if decide (Config.lossLimit ≤ w.2.2.2.lost) then s.count core rk .forcedWins 1 else s
      let s := l.foldl (fun s e => if e.1 == w.1 then s else s.modStrand e.1 fun t => { t with lost := t.lost + 1 }) s
      let s := s.modStrand w.1 fun t => { t with st := .issuing, lost := 0, runLen := 0 }
      (s.modCore core fun k => { k with bays := setAt k.bays bay { (k.bays.getD bay Bay.reset) with run := some w.1 } })
/-- ISSUE_ARBITRATION (spec/12 R281); a bay is named by 4 × core + bay. -/
def execIssueArbitration (bay : Nat) (s : State) : Host.Outcome State Fault Refusal := .next (s.arbitrate (bay / 4) (bay % 4))

/-! ### Page-fault run-ahead (R155, R156) -/

/-- What the instructions that compute register results compute, for run-ahead; none for any other instruction. -/
def evalOf : Instr → Option Eval
  | .iadd _ u t sat d a b => some (evalIadd u t sat d a b)
  | .isub _ u t sat d a b => some (evalIsub u t sat d a b)
  | .imin _ u t d a b => some (evalImin u t d a b)
  | .imax _ u t d a b => some (evalImax u t d a b)
  | .imul _ u t sat d a b => some (evalImul u t sat d a b)
  | .imad _ u t sat d a b c => some (evalImad u t sat d a b c)
  | .imulh _ u t d a b => some (evalImulh u t d a b)
  | .idiv _ u t d a b => some (evalIdiv u t d a b)
  | .irem _ u t d a b => some (evalIrem u t d a b)
  | .ineg _ u t sat d a => some (evalIneg u t sat d a)
  | .iabs _ u t sat d a => some (evalIabs u t sat d a)
  | .and _ u w d a b => some (evalAnd u w d a b)
  | .or _ u w d a b => some (evalOr u w d a b)
  | .xor _ u w d a b => some (evalXor u w d a b)
  | .andn _ u w d a b => some (evalAndn u w d a b)
  | .not _ u w d a => some (evalNot u w d a)
  | .shl _ u t d a b => some (evalShl u t d a b)
  | .shr _ u t d a b => some (evalShr u t d a b)
  | .sar _ u t d a b => some (evalSar u t d a b)
  | .bfe _ u t d a b => some (evalBfe u t d a b)
  | .bfi _ u w d a b c => some (evalBfi u w d a b c)
  | .brev _ u w d a => some (evalBrev u w d a)
  | .clz _ u w d a => some (evalClz u w d a)
  | .popc _ u w d a => some (evalPopc u w d a)
  | .isetp _ u c t d a b => some (evalIsetp u c t d a b)
  | .sel _ u w d a b p => some (evalSel u w d a b p)
  | .idp4 _ u sgn sat d a b c => some (evalIdp4 u sgn sat d a b c)
  | .ishrq _ u t d a b => some (evalIshrq u t d a b)
  | .mov _ u w d a => some (evalMov u w d a)
  | .movi _ u d i => some (evalMovi u d i)
  | .fadd _ rm t d a b => some (evalFadd rm t d a b)
  | .fsub _ rm t d a b => some (evalFsub rm t d a b)
  | .fmul _ rm t d a b => some (evalFmul rm t d a b)
  | .fmin _ t d a b => some (evalFmin t d a b)
  | .fmax _ t d a b => some (evalFmax t d a b)
  | .ffma _ rm t d a b c => some (evalFfma rm t d a b c)
  | .fsetp _ c t d a b => some (evalFsetp c t d a b)
  | .fclass _ t d a => some (evalFclass t d a)
  | .frcp _ rm d a => some (evalFrcp rm d a)
  | .frsq _ d a => some (evalFrsq d a)
  | .fsqrt _ rm d a => some (evalFsqrt rm d a)
  | .fexp2 _ d a => some (evalFexp2 d a)
  | .flog2 _ d a => some (evalFlog2 d a)
  | .fsin _ d a => some (evalFsin d a)
  | .fcos _ d a => some (evalFcos d a)
  | .hfma2 _ rm t d a b c => some (evalHfma2 rm t d a b c)
  | .cvt _ rm sat dst src d a => some (evalCvt rm sat dst src d a)
  | .bpack _ rm w d a => some (evalBpack rm w d a)
  | .bunpack _ rm w d a => some (evalBunpack rm w d a)
  | .amax _ t d a => some (evalAmax t d a)
  | .shfl _ m d a b => some (evalShfl m d a b)
  | .rot _ d a b => some (evalRot d a b)
  | .vote _ fn d neg p => some (evalVote fn d neg p)
  | .lred _ toG rm op t d a => some (evalLred toG rm op t d a)
  | .lscan _ ex rm op t d a => some (evalLscan ex rm op t d a)
  | .plog _ op d a b => some (evalPlog op d a b)
  | .pmov _ f => some (evalPmov f)
  | .gmov _ d a l => some (evalGmov d a l)
  | _ => none
/-- What an instruction does in run-ahead: it ends it, or it goes on with register writes, pages, a change of the working copy, a target, and whether
its destinations are poisoned, or keep what they are where it writes none of them. -/
inductive AheadRes where
  | stop
  | go (wrs : List RegWr) (pages : List Nat) (f : Group → Group) (target : Option (Nat × Entry)) (poison : Option Bool)
deriving Inhabited
/-- The addresses of a load or store in run-ahead: its not-present pages, or none where it would trap otherwise. -/
def aheadAcc (r : Except Res (List LaneAcc × Bool)) : Option (List Nat) := match r with
  | .ok _ => some []
  | .error (.absent pages _ _ _) => some pages
  | .error _ => none
/-- The not-present pages of a PREF, which never traps and drops a line of the host half (R434). -/
def X.prefPages (x : X) (s : State) (xi : Src) (b : Nat) (imm : W32) : List Nat :=
  let r := x.view0.breg b
  if r == 0 || !recPr r then []
  else
    let offs := (x.lanes.map fun l => signedOf 32 (x.src l xi) * (recStride r : Int) + signedOf 32 imm.toNat).filter fun o =>
      decide (0 ≤ o) && decide (o < (recWindow r : Int))
    (sortBy (fun (v : Nat) => v / 128) (offs.map fun o => recAddr r o.toNat)).filterMap fun va => if !inDevice va then none else
      match s.translate (keyVf x.rk) .load va with | .absent p => some p | _ => none
/-- Whether a strict store of run-ahead would raise cause 148 (R155, R314). -/
def X.aheadBad (x : X) (s : State) (size : Nat) (r : List LaneAcc × Bool) : Bool :=
  r.2 && ((x.allRuns size r.1).any (fun e => !(s.runPart x.x e.2).isEmpty) ||
    r.1.any fun a => match a.loc with | some (.stk l y) => !(x.g.stackBad x.width l y size).isEmpty | _ => false)
/-- An instruction in run-ahead (R155). `bad` says that a source is poisoned, `addr` that an address source or the guard is, and `first` that it
is the faulting instruction. A load or store whose guard is false without poison does nothing. -/
def X.ahead (x : X) (s : State) (i : Instr) (bad addr guardBad first : Bool) : AheadRes :=
  let skip := AheadRes.go [] [] id none none
  let mem := fun (r : Except Res (List LaneAcc × Bool)) => if x.gfalse && !guardBad then skip else if addr then AheadRes.go [] [] id none (some true)
    else match aheadAcc r with | some p => AheadRes.go [] p id none (some true) | none => .stop
  let store := fun (size : Nat) (r : Except Res (List LaneAcc × Bool)) => if x.gfalse && !guardBad then skip else if addr then skip
    else match aheadAcc r with
      | some p => if (match r with | .ok a => x.aheadBad s size a | .error _ => false) then .stop else AheadRes.go [] p id none (some false)
      | none => .stop
  let jump := fun (t : Nat) => if guardBad || bad then AheadRes.stop else if x.gfalse then skip else .go [] [] id (some (t, .transfer)) (some false)
  let ctx := fun (f : Ctx → Ctx) (g : Group) => g.modStrand x.cur.who.sn fun t => { t with c := f t.c }
  match i with
  | .ld _ ty _ xi b _ imm => mem (x.recordAcc s .load true false b xi imm ty.size x.lanes)
  | .ldw _ ty xi b _ imm => mem (x.recordAcc s .ldw false false b xi imm ty.size x.lanes)
  | .mwatch _ w _ xi b imm => mem (x.recordAcc s .load false false b (.g xi) imm (if w then 8 else 4) [0])
  | .lds _ ty _ xi _ imm => mem (x.scratchAcc s .load xi imm ty.size x.lanes)
  | .ldk _ ty _ imm => mem (x.stackAcc s .load imm (ty.width / 8) x.lanes)
  | .st _ ty _ xi b _ imm => store ty.size (x.recordAcc s .store false true b xi imm ty.size x.lanes)
  | .sts _ ty _ xi _ imm => store ty.size (x.scratchAcc s .store xi imm ty.size x.lanes)
  | .stk _ ty _ imm => store (ty.width / 8) (x.stackAcc s .store imm (ty.width / 8) x.lanes)
  | .pref _ xi b imm => .go [] (if addr || (x.gfalse && !guardBad) then [] else x.prefPages s xi b imm) id none (some false)
  | .atom .. => if first then .go [] [] id none (some true) else .stop
  | .bra _ t => jump (targetOf x.cur.pc t)
  | .jmpx _ a =>
    let t := x.gr a
    if x.gfalse && !guardBad then skip
    else if bitsAt t 3 3 != 0 || decide (4 < bitsAt t 0 3) || decide (x.hdr.codeSize ≤ bitsAt t 6 26 * 64) then .stop
    else jump (codeBase x.code + bitsAt t 6 26 * 64 + bitsAt t 0 3)
  | .call _ n t =>
    let sp := x.t.c.sp
    if guardBad then .stop
    else if x.gfalse then skip
    else if decide (sp < x.t.c.sl + 16 + 16 * n) || x.aboveBase ((sp - 16 - 16 * n : Nat) + 16) then .stop
    else
      let nsp := sp - 16 - 16 * n
      let cells := x.smask.lanes.map fun l => (l, nsp, linkBytes sp x.cur.nextPc)
      if s.strictRegion x.rk && !(x.g.writeStack x.width cells).2.isEmpty then .stop
      else
      .go [] [] (fun g => ctx (fun c => { c with sp := nsp }) (g.writeStack x.width cells).1) (some (targetOf x.cur.pc t, .transfer)) (some false)
  | .ret _ =>
    let sp := x.t.c.sp
    let links := x.smask.lanes.map fun l => (l, ofBytes (x.g.peekStack l sp 16))
    let first := (links.headD (0, 0)).2
    let osp := bitsAt first 64 32
    if guardBad then .stop
    else if x.gfalse then skip
    else if x.aboveBase (sp + 16) || decide (x.hdr.stack < sp + 16) || links.isEmpty || links.any (fun e =>
        !(x.g.stackBad x.width e.1 sp 16).isEmpty || bitsAt e.2 96 32 != 0x4B4E494C || bitsAt e.2 64 32 != osp ||
        bitsAt e.2 0 57 != bitsAt first 0 57 || decide (osp < sp + 16) || decide (x.hdr.stack < osp)) then .stop
    else .go [] [] (ctx fun c => { c with sp := osp }) (some (bitsAt first 0 57, .ret)) (some false)
  | .nop _ => skip
  | .fence .. => skip
  | .fenceCounting .. => .go [] [] id none (some true)
  | .xfence .. => skip
  | .screc _ xi b imm => store 128 (x.recordAcc s .store false false b (.g xi) imm 128 [0])
  | .scloadEnd _ => if x.gfalse then skip else .go [] [] (fun g => { g with replay := none }) none (some false)
  | .brset _ d sr =>
    let r : BitVec 128 := BitVec.ofNat 128 ((List.range 4).foldl (fun n i => n + x.gr (sr + i) * 2 ^ (32 * i)) 0)
    if bad then .go [] [] id none (some true)
    else if x.gfalse then skip
    else if (if r == 0 then none else recCheck r).isSome then .stop else .go [.b d r] [] id none (some false)
  | .setfmt _ a =>
    if bad then .stop
    else if x.gfalse then skip
    else
      let v := x.gr a
      if codeReserved (bitsAt v 16 4) || codeReserved (bitsAt v 20 4) then .stop
      else .go [] [] (ctx fun c => { c with fmt := BitVec.ofNat 32 v &&& fmtMask }) none (some false)
  | .setfmtSc _ d a => if bad then .go [] [] id none (some true) else if x.gfalse then skip else .go [.sc d (BitVec.ofNat 32 (canonF32 (x.gr a)))] [] id none (some false)
  | .setfmtClr .. => skip
  | i => match evalOf i with
    | none => .stop
    | some ev =>
      if bad then .go [] [] id none (some true)
      else if x.gfalse then skip
      else match ev x with
        | .error _ => .stop
        | .ok l => .go l.flatten [] id none (some false)
/-- Poisoned registers. -/
abbrev Poison := List (Cls × Nat)
/-- Whether an operand is poisoned. -/
def poisoned (p : Poison) (o : Opnd) : Bool := p.any fun e => e.1 == o.cls && decide (o.num ≤ e.2) && decide (e.2 < o.num + o.cnt)
/-- Whether an operand forms the address of a load, store or PREF. -/
def addrOp (i : Instr) (o : Opnd) : Bool := !o.wr && (match i with
  | .st _ _ _ xi .. => o.cls == .b || (xi.ops false).contains o
  | .sts _ _ _ xi .. => (xi.ops false).contains o
  | .stk .. => false
  | _ => true)
/-- Whether the debug unit would stop a strand at its program counter (R330). -/
def State.debugStops (s : State) (core rk gid sn pc : Nat) : Bool :=
  let d := (s.core core).dbg
  s.debugged core rk && (bitAt d.dctl.toNat 7 || d.breaks gid pc || (bitAt d.dctl.toNat 6 && d.selects gid && bitsAt d.dctl.toNat 4 2 == sn))
/-- The instructions that run-ahead issues together: those of the slots at a program counter, with their own program counters. -/
def State.aheadUnit (s : State) (core gid : Nat) (j : Job) (g : Group) (t : Strand) (first : Bool) : Except (Option Nat) (List (Nat × Instr)) :=
  match s.lineFor core j t with
  | .absent page => .error (some page)
  | .trap _ => .error none
  | .verify _ => .error none
  | .line l =>
    let slots := slotsAt l t.c.pc
    if (lineCause l slots).isSome || (targetCause j t l g.chk).isSome || (dueBy g t j.hdr.width (slots.map (lineFields l))).isSome ||
        (!first && s.debugStops core j.rk gid t.sn t.c.pc) then .error none
    else
      let is := slots.map fun i => (lineOf t.c.pc + i, decodeSlot j g t (lineFields l i))
      if is.all fun e => match e.2 with | .ok _ => true | .error _ => false then
        .ok (is.filterMap fun e => match e.2 with | .ok i => some (e.1, i) | .error _ => none)
      else .error none
/-- One instruction of a unit in run-ahead, on the registers before the unit, with the destinations that it can poison and those that it writes in every lane. -/
def State.aheadOne (s : State) (r : StrandRef) (next : Nat) (p : Poison) (first : Bool) (e : Nat × Instr) : AheadRes × List Opnd × List Opnd := match e.2.hdr with
  | none => (.stop, [], [])
  | some h =>
    let cur : Cursor := { who := r, pc := e.1, nextPc := next, cycle := s.clock + 1000, charge := false, trace := false, second := false,
                          pairPc := none, passes := 0, src := none, met := none, held := none }
    match mkX cur e.2 h s with
    | none => (.stop, [], [])
    | some x =>
      let ops := x.ops e.2 h
      let g := poisoned p h.guard.op
      let bad := g || ops.any fun o => !o.wr && poisoned p o
      let addr := g || ops.any fun o => addrOp e.2 o && poisoned p o
      if ops.any (rangeBad x.vregs x.gregs x.acc e.2) || (encCause e.2).isSome || x.windowBad e.2 ops || (noFork e.2 && x.underFork) ||
          x.eccBad e.2 ops then (.stop, [], [])
      else
        let dst := ops.filter Opnd.wr
        (x.ahead s e.2 bad addr g first, dst, dst.filter fun o => !(o.cls == .v || o.cls == .p) || x.mask == x.smask)
/-- Poison after an instruction: its destinations gain it, or those that it writes in every lane of its strand lose it. -/
def poisonAfter (p : Poison) (dst full : List Opnd) (on : Option Bool) : Poison :=
  let regs := fun (l : List Opnd) => l.flatMap fun o => (List.range o.cnt).map fun i => (o.cls, o.num + i)
  match on with
  | none => p
  | some true => p ++ regs dst
  | some false => p.filter fun e => !(regs full).contains e
/-- Run-ahead (R155) on a working copy of the state: the pages of the batch and how many instructions it issued. -/
def State.aheadLoop (r : StrandRef) : Nat → State → Poison → Bool → List Nat → Nat → List Nat × Nat
  | 0, _, _, _, pages, n => (pages, n)
  | fuel + 1, s, p, first, pages, n =>
    match s.slice? r.sid, s.group? r.sid r.gi, s.strand? r with
    | some x, some g, some t => (match s.job? x.jn with
      | none => (pages, n)
      | some j => match s.aheadUnit x.core (groupId x g) j g t first with
        | .error (some page) => ((pages ++ [page]).eraseDups.take Config.batchPages, n)
        | .error none => (pages, n)
        | .ok unit =>
          let next := if unit.length == 2 then nextSlot (nextSlot t.c.pc) else nextSlot t.c.pc
          let res := unit.map fun e => s.aheadOne r next p first e
          if (!first && decide (Config.runAheadLimit < n + unit.length)) || res.any fun e => match e.1 with | .stop => true | _ => false then (pages, n)
          else
            let s := s.modStrand r fun t => { t with c := { t.c with pc := next }, entry := .seq, skipDebug := false }
            let (s, p, pages) := res.foldl (fun (a : State × Poison × List Nat) e => match e.1 with
              | .stop => a
              | .go wrs pg f target on =>
                let s := a.1.modGroup r.sid r.gi fun g => applyAll g wrs
                let s := s.modGroup r.sid r.gi f
                let s := match target with
                  | some (pc, e) => s.modStrand r fun t => { t with c := { t.c with pc := pc }, entry := e }
                  | none => s
                (s, poisonAfter a.2.1 e.2.1 e.2.2 on, (a.2.2 ++ pg).eraseDups.take Config.batchPages)) (s, p, pages)
            let n := if first then n else n + unit.length
            if decide (Config.batchPages ≤ pages.length) || decide (Config.runAheadLimit ≤ n) then (pages, n)
            else State.aheadLoop r fuel s p false pages n)
    | _, _, _ => (pages, n)
/-- PAGE_FAULT_RUN_AHEAD (R154 to R156): with no other Ready strand in its bay, a strand in Fault wait runs ahead on a working copy, and its
batch is sent. Results that are pending when it starts are poisoned. -/
def State.runAhead (s : State) (r : StrandRef) : State := match s.slice? r.sid, s.group? r.sid r.gi, s.strand? r with
  | some x, some g, some t => match t.st with
    | .faultWait id => (match Sparse.find s.batches id with
      | none => s
      | some b =>
        let busy := (s.bayStrands x.core g.bay).any fun e => e.1 != r && (match e.2.2.2.st with | .ready => true | .issuing => true | _ => false)
        if !b.filling || busy then s
        else
          let p : Poison := (g.inflight.filter fun f => (f.mask &&& t.c.mask) != 0 || f.sn == r.sn).flatMap Inflight.dst
          let w := s.modGroup r.sid r.gi fun g => { g.view (s.clock + 1000) with fixed := [] }
          let (pages, n) := State.aheadLoop r (Config.runAheadLimit + 2) w p true b.pages 0
          let s := s.count x.core (s.sliceRegion x) .runAhead n
          let s := { s with batches := Sparse.set s.batches id { b with pages := pages } }
          s.sendBatch id (s.trapRecord r b.cause 1 0 0 t.c.pc b.cpc false))
    | _ => s
  | _, _, _ => s
/-- PAGE_FAULT_RUN_AHEAD (spec/07 R155). -/
def execPageFaultRunAhead (st : StrandRef) (s : State) : Host.Outcome State Fault Refusal := .next (s.runAhead st)

end Sys2Proof.Machine
end

