-- ==== Sys2Proof/Machine/System.lean ====
section
/-!
DEFINITION. The system instructions: MOVS, SETS, SVC, TRAP, BKPT and ICINV (spec/04 R82, R83; spec/07 R151, R158, R159; spec/17
R363; spec/18 R404, R405; spec/19 R425, R426, R447, R452).
-/

namespace Sys2Proof.Machine

/-- sr.wswin at a cycle (R83, R151): the next bank group's window and the cycles until it opens. -/
def wswin (clock : Nat) : Nat :=
  let ph := clock % 89600
  let opens := (List.range 16).find? fun g => decide (5600 * g ≤ ph) && decide (ph < 5600 * g + 2100)
  match opens with
  | some g => g * 2 ^ 28
  | none =>
    let g := (ph / 5600 + 1) % 16
    g * 2 ^ 28 + ((ph / 5600 + 1) * 5600 - ph)
/-- A special register as a strand reads it at its issue (R82, R426), before the other instruction of its pair has written (R69): the budget as the issue cycles
before have left it. -/
def X.special (x : X) (s : State) (n lane : Nat) : Nat :=
  let y := x.was.slice
  let g := x.was.group
  match n with
  | 0x00 => lane
  | 0x01 => groupId y g
  | 0x02 => x.cur.cycle
  | 0x03 => timeAt x.cur.cycle
  | 0x04 => (y.spendTo x.cur.cycle).budget.getD 0xFFFFFFFF
  | 0x05 => if g.chk then 1 else 0
  | 0x06 => g.rerr
  | 0x07 => wswin x.cur.cycle
  | 0x0C => s.chip
  | 0x0D => y.index
  | 0x0E => x.cur.who.gi
  | 0x0F => g.n
  | 0x10 => Sparse.get 0 y.reserves g.bay
  | 0x11 => x.cur.who.sn
  | 0x12 => y.deadline
  | 0x13 => if x.hdr.dataSize == 0 then 0 else x.code + x.hdr.dataOff
  | n =>
    let c := n - 0x08
    ((x.was.core.chans.getD c Chan.reset).cw + 2 ^ 64 - y.views.getD c 0 % 2 ^ 64) % 2 ^ 64
/-- What MOVS reads for a lane (R426). -/
def X.movsValue (x : X) (s : State) (src : MovsSrc) (lane : Nat) : Nat := match src with
  | .sr n => x.special s n lane
  | .sc n => (x.view0.screg n).toNat
  | .am n => (x.view0.amreg n).toNat
  | .fmt => x.fmt.toNat
/-- MOVS (spec/19 R425, R426). -/
def execMovs (h : Hdr) (vd : Bool) (src : MovsSrc) (d : Nat) (s : State) : Host.Outcome State Fault Refusal :=
  let i : Instr := .movs h vd src d
  issue i (fun x s =>
    .ok (s.addFixed x.cur.who (x.fixed 4 (x.alu (!vd) fun l => dstWr (!vd) src.wide d l (x.movsValue s src l))))) s
/-- SETS (spec/19 R447): sr.chk is the only register it can write. -/
def execSets (h : Hdr) (n a : Nat) (s : State) : Host.Outcome State Fault Refusal :=
  issue (.sets h n a) (fun x s =>
    if x.isArm then .trap 192 0 0
    else .ok (s.modGroup x.cur.who.sid x.cur.who.gi fun g => { g with chk := bitAt (x.gr a) 0 })) s
/-- An instruction that has issued owes a deferred trap at the next slot, and its run ends (R64, R306). -/
def X.owe (x : X) (cause : Nat) (s : State) : Res :=
  let (id, s) := s.fresh
  .ok ((s.endRun x.cur.who).modStrand x.cur.who fun t => { t with deferred := t.deferred ++ [⟨id, cause, x.cur.pc, 0, 0, .next⟩] })
/-- SVC (spec/19 R452). -/
def execSvc (h : Hdr) (n : W32) (s : State) : Host.Outcome State Fault Refusal := issue (.svc h n) (fun x s => x.owe 35 s) s
/-- TRAP (spec/19 R452). -/
def execTrap (h : Hdr) (n : W32) (s : State) : Host.Outcome State Fault Refusal := issue (.trap h n) (fun x s => x.owe 36 s) s
/-- BKPT (spec/17 R363). -/
def execBkpt (h : Hdr) (s : State) : Host.Outcome State Fault Refusal := issue (.bkpt h) (fun x s => x.owe 336 s) s
/-- ICINV (spec/18 R404, R405; spec/07 R158, R159). -/
def execIcinv (h : Hdr) (d sr : Nat) (s : State) : Host.Outcome State Fault Refusal :=
  issue (.icinv h d sr) (fun x s =>
    let hi := x.gr (sr + 1)
    let va := x.gr sr + hi % 2 ^ 25 * 2 ^ 32
    if decide (2 ^ 25 ≤ hi) then .trap 6 0 0
    else
      let vf := keyVf x.rk
      let has := inDevice va && (match s.walk vf va with | some l => l.x | none => false)
      if !has then .ok (s.addFixed x.cur.who (x.fixed 4 [[.g d 0]]))
      else
        let page := va / 65536
        let clear : Nat × Job → Nat × Job := fun e =>
          if keyVf e.2.rk == vf then (e.1, { e.2 with verified := e.2.verified.filter fun p => p != page }) else e
        let drop : Nat × Core → Nat × Core := fun e =>
          (e.1, { e.2 with icache := e.2.icache.filter fun l => !(l.vf == vf && l.va / 65536 == page) })
        .ok (x.result [.g d 1] [(.g, d)] { s with jobs := s.jobs.map clear, cores := s.cores.map drop })) s

end Sys2Proof.Machine
end

