-- ==== Sys2Proof/Machine/Dispatch.lean ====
section
/-!
DEFINITION. The meaning of every step: one arm per constructor of `Instr`, each a direct call of that step's meaning.
-/

namespace Sys2Proof.Machine

/-- The meaning of one step of the machine. -/
def exec (i : Instr) (s : State) : Host.Outcome State Fault Refusal :=
  match i with
  | .iadd a0 a1 a2 a3 a4 a5 a6 => Sys2Proof.Machine.execIadd a0 a1 a2 a3 a4 a5 a6 s
  | .isub a0 a1 a2 a3 a4 a5 a6 => Sys2Proof.Machine.execIsub a0 a1 a2 a3 a4 a5 a6 s
  | .imin a0 a1 a2 a3 a4 a5 => Sys2Proof.Machine.execImin a0 a1 a2 a3 a4 a5 s
  | .imax a0 a1 a2 a3 a4 a5 => Sys2Proof.Machine.execImax a0 a1 a2 a3 a4 a5 s
  | .imul a0 a1 a2 a3 a4 a5 a6 => Sys2Proof.Machine.execImul a0 a1 a2 a3 a4 a5 a6 s
  | .imad a0 a1 a2 a3 a4 a5 a6 a7 => Sys2Proof.Machine.execImad a0 a1 a2 a3 a4 a5 a6 a7 s
  | .imulh a0 a1 a2 a3 a4 a5 => Sys2Proof.Machine.execImulh a0 a1 a2 a3 a4 a5 s
  | .idiv a0 a1 a2 a3 a4 a5 => Sys2Proof.Machine.execIdiv a0 a1 a2 a3 a4 a5 s
  | .irem a0 a1 a2 a3 a4 a5 => Sys2Proof.Machine.execIrem a0 a1 a2 a3 a4 a5 s
  | .ineg a0 a1 a2 a3 a4 a5 => Sys2Proof.Machine.execIneg a0 a1 a2 a3 a4 a5 s
  | .iabs a0 a1 a2 a3 a4 a5 => Sys2Proof.Machine.execIabs a0 a1 a2 a3 a4 a5 s
  | .and a0 a1 a2 a3 a4 a5 => Sys2Proof.Machine.execAnd a0 a1 a2 a3 a4 a5 s
  | .or a0 a1 a2 a3 a4 a5 => Sys2Proof.Machine.execOr a0 a1 a2 a3 a4 a5 s
  | .xor a0 a1 a2 a3 a4 a5 => Sys2Proof.Machine.execXor a0 a1 a2 a3 a4 a5 s
  | .andn a0 a1 a2 a3 a4 a5 => Sys2Proof.Machine.execAndn a0 a1 a2 a3 a4 a5 s
  | .not a0 a1 a2 a3 a4 => Sys2Proof.Machine.execNot a0 a1 a2 a3 a4 s
  | .shl a0 a1 a2 a3 a4 a5 => Sys2Proof.Machine.execShl a0 a1 a2 a3 a4 a5 s
  | .shr a0 a1 a2 a3 a4 a5 => Sys2Proof.Machine.execShr a0 a1 a2 a3 a4 a5 s
  | .sar a0 a1 a2 a3 a4 a5 => Sys2Proof.Machine.execSar a0 a1 a2 a3 a4 a5 s
  | .bfe a0 a1 a2 a3 a4 a5 => Sys2Proof.Machine.execBfe a0 a1 a2 a3 a4 a5 s
  | .bfi a0 a1 a2 a3 a4 a5 a6 => Sys2Proof.Machine.execBfi a0 a1 a2 a3 a4 a5 a6 s
  | .brev a0 a1 a2 a3 a4 => Sys2Proof.Machine.execBrev a0 a1 a2 a3 a4 s
  | .clz a0 a1 a2 a3 a4 => Sys2Proof.Machine.execClz a0 a1 a2 a3 a4 s
  | .popc a0 a1 a2 a3 a4 => Sys2Proof.Machine.execPopc a0 a1 a2 a3 a4 s
  | .isetp a0 a1 a2 a3 a4 a5 a6 => Sys2Proof.Machine.execIsetp a0 a1 a2 a3 a4 a5 a6 s
  | .sel a0 a1 a2 a3 a4 a5 a6 => Sys2Proof.Machine.execSel a0 a1 a2 a3 a4 a5 a6 s
  | .idp4 a0 a1 a2 a3 a4 a5 a6 a7 => Sys2Proof.Machine.execIdp4 a0 a1 a2 a3 a4 a5 a6 a7 s
  | .ishrq a0 a1 a2 a3 a4 a5 => Sys2Proof.Machine.execIshrq a0 a1 a2 a3 a4 a5 s
  | .mov a0 a1 a2 a3 a4 => Sys2Proof.Machine.execMov a0 a1 a2 a3 a4 s
  | .movi a0 a1 a2 a3 => Sys2Proof.Machine.execMovi a0 a1 a2 a3 s
  | .fadd a0 a1 a2 a3 a4 a5 => Sys2Proof.Machine.execFadd a0 a1 a2 a3 a4 a5 s
  | .fsub a0 a1 a2 a3 a4 a5 => Sys2Proof.Machine.execFsub a0 a1 a2 a3 a4 a5 s
  | .fmul a0 a1 a2 a3 a4 a5 => Sys2Proof.Machine.execFmul a0 a1 a2 a3 a4 a5 s
  | .fmin a0 a1 a2 a3 a4 => Sys2Proof.Machine.execFmin a0 a1 a2 a3 a4 s
  | .fmax a0 a1 a2 a3 a4 => Sys2Proof.Machine.execFmax a0 a1 a2 a3 a4 s
  | .ffma a0 a1 a2 a3 a4 a5 a6 => Sys2Proof.Machine.execFfma a0 a1 a2 a3 a4 a5 a6 s
  | .fsetp a0 a1 a2 a3 a4 a5 => Sys2Proof.Machine.execFsetp a0 a1 a2 a3 a4 a5 s
  | .fclass a0 a1 a2 a3 => Sys2Proof.Machine.execFclass a0 a1 a2 a3 s
  | .frcp a0 a1 a2 a3 => Sys2Proof.Machine.execFrcp a0 a1 a2 a3 s
  | .frsq a0 a1 a2 => Sys2Proof.Machine.execFrsq a0 a1 a2 s
  | .fsqrt a0 a1 a2 a3 => Sys2Proof.Machine.execFsqrt a0 a1 a2 a3 s
  | .fexp2 a0 a1 a2 => Sys2Proof.Machine.execFexp2 a0 a1 a2 s
  | .flog2 a0 a1 a2 => Sys2Proof.Machine.execFlog2 a0 a1 a2 s
  | .fsin a0 a1 a2 => Sys2Proof.Machine.execFsin a0 a1 a2 s
  | .fcos a0 a1 a2 => Sys2Proof.Machine.execFcos a0 a1 a2 s
  | .hfma2 a0 a1 a2 a3 a4 a5 a6 => Sys2Proof.Machine.execHfma2 a0 a1 a2 a3 a4 a5 a6 s
  | .cvt a0 a1 a2 a3 a4 a5 a6 => Sys2Proof.Machine.execCvt a0 a1 a2 a3 a4 a5 a6 s
  | .bpack a0 a1 a2 a3 a4 => Sys2Proof.Machine.execBpack a0 a1 a2 a3 a4 s
  | .bunpack a0 a1 a2 a3 a4 => Sys2Proof.Machine.execBunpack a0 a1 a2 a3 a4 s
  | .amax a0 a1 a2 a3 => Sys2Proof.Machine.execAmax a0 a1 a2 a3 s
  | .shfl a0 a1 a2 a3 a4 => Sys2Proof.Machine.execShfl a0 a1 a2 a3 a4 s
  | .rot a0 a1 a2 a3 => Sys2Proof.Machine.execRot a0 a1 a2 a3 s
  | .vote a0 a1 a2 a3 a4 => Sys2Proof.Machine.execVote a0 a1 a2 a3 a4 s
  | .lred a0 a1 a2 a3 a4 a5 a6 => Sys2Proof.Machine.execLred a0 a1 a2 a3 a4 a5 a6 s
  | .lscan a0 a1 a2 a3 a4 a5 a6 => Sys2Proof.Machine.execLscan a0 a1 a2 a3 a4 a5 a6 s
  | .plog a0 a1 a2 a3 a4 => Sys2Proof.Machine.execPlog a0 a1 a2 a3 a4 s
  | .pmov a0 a1 => Sys2Proof.Machine.execPmov a0 a1 s
  | .gmov a0 a1 a2 a3 => Sys2Proof.Machine.execGmov a0 a1 a2 a3 s
  | .bra a0 a1 => Sys2Proof.Machine.execBra a0 a1 s
  | .jmpx a0 a1 => Sys2Proof.Machine.execJmpx a0 a1 s
  | .call a0 a1 a2 => Sys2Proof.Machine.execCall a0 a1 a2 s
  | .ret a0 => Sys2Proof.Machine.execRet a0 s
  | .exit a0 => Sys2Proof.Machine.execExit a0 s
  | .fork a0 a1 a2 a3 a4 a5 a6 => Sys2Proof.Machine.execFork a0 a1 a2 a3 a4 a5 a6 s
  | .armend a0 => Sys2Proof.Machine.execArmend a0 s
  | .jset a0 a1 a2 => Sys2Proof.Machine.execJset a0 a1 a2 s
  | .join a0 a1 a2 => Sys2Proof.Machine.execJoin a0 a1 a2 s
  | .jwait a0 => Sys2Proof.Machine.execJwait a0 s
  | .nop a0 => Sys2Proof.Machine.execNop a0 s
  | .ld a0 a1 a2 a3 a4 a5 a6 => Sys2Proof.Machine.execLd a0 a1 a2 a3 a4 a5 a6 s
  | .st a0 a1 a2 a3 a4 a5 a6 => Sys2Proof.Machine.execSt a0 a1 a2 a3 a4 a5 a6 s
  | .atom a0 a1 a2 a3 a4 a5 a6 a7 a8 => Sys2Proof.Machine.execAtom a0 a1 a2 a3 a4 a5 a6 a7 a8 s
  | .atoms a0 a1 a2 a3 a4 a5 a6 a7 => Sys2Proof.Machine.execAtoms a0 a1 a2 a3 a4 a5 a6 a7 s
  | .lds a0 a1 a2 a3 a4 a5 => Sys2Proof.Machine.execLds a0 a1 a2 a3 a4 a5 s
  | .sts a0 a1 a2 a3 a4 a5 => Sys2Proof.Machine.execSts a0 a1 a2 a3 a4 a5 s
  | .ldk a0 a1 a2 a3 => Sys2Proof.Machine.execLdk a0 a1 a2 a3 s
  | .stk a0 a1 a2 a3 => Sys2Proof.Machine.execStk a0 a1 a2 a3 s
  | .ldw a0 a1 a2 a3 a4 a5 => Sys2Proof.Machine.execLdw a0 a1 a2 a3 a4 a5 s
  | .pref a0 a1 a2 a3 => Sys2Proof.Machine.execPref a0 a1 a2 a3 s
  | .fence a0 a1 a2 a3 => Sys2Proof.Machine.execFence a0 a1 a2 a3 s
  | .fenceCounting a0 a1 a2 a3 => Sys2Proof.Machine.execFenceCounting a0 a1 a2 a3 s
  | .xfence a0 a1 a2 a3 => Sys2Proof.Machine.execXfence a0 a1 a2 a3 s
  | .mwatch a0 a1 a2 a3 a4 a5 => Sys2Proof.Machine.execMwatch a0 a1 a2 a3 a4 a5 s
  | .mwait a0 a1 a2 => Sys2Proof.Machine.execMwait a0 a1 a2 s
  | .brset a0 a1 a2 => Sys2Proof.Machine.execBrset a0 a1 a2 s
  | .cpy a0 a1 a2 a3 a4 a5 a6 a7 => Sys2Proof.Machine.execCpy a0 a1 a2 a3 a4 a5 a6 a7 s
  | .cpyt a0 a1 a2 a3 a4 a5 a6 a7 => Sys2Proof.Machine.execCpyt a0 a1 a2 a3 a4 a5 a6 a7 s
  | .cpkill a0 a1 a2 => Sys2Proof.Machine.execCpkill a0 a1 a2 s
  | .optstep a0 a1 a2 a3 a4 a5 a6 a7 => Sys2Proof.Machine.execOptstep a0 a1 a2 a3 a4 a5 a6 a7 s
  | .thset a0 a1 a2 a3 => Sys2Proof.Machine.execThset a0 a1 a2 a3 s
  | .coll a0 a1 a2 a3 a4 a5 a6 => Sys2Proof.Machine.execColl a0 a1 a2 a3 a4 a5 a6 s
  | .mma a0 a1 a2 a3 a4 a5 => Sys2Proof.Machine.execMma a0 a1 a2 a3 a4 a5 s
  | .mmat a0 a1 a2 a3 a4 a5 => Sys2Proof.Machine.execMmat a0 a1 a2 a3 a4 a5 s
  | .mmad a0 a1 a2 a3 a4 a5 a6 a7 => Sys2Proof.Machine.execMmad a0 a1 a2 a3 a4 a5 a6 a7 s
  | .mldw a0 a1 a2 a3 a4 => Sys2Proof.Machine.execMldw a0 a1 a2 a3 a4 s
  | .mswap a0 a1 a2 a3 => Sys2Proof.Machine.execMswap a0 a1 a2 a3 s
  | .mdrain a0 a1 a2 a3 a4 a5 a6 a7 a8 a9 a10 => Sys2Proof.Machine.execMdrain a0 a1 a2 a3 a4 a5 a6 a7 a8 a9 a10 s
  | .mzero a0 a1 a2 a3 a4 a5 => Sys2Proof.Machine.execMzero a0 a1 a2 a3 a4 a5 s
  | .mfill a0 a1 a2 a3 a4 a5 a6 => Sys2Proof.Machine.execMfill a0 a1 a2 a3 a4 a5 a6 s
  | .setfmt a0 a1 => Sys2Proof.Machine.execSetfmt a0 a1 s
  | .setfmtSc a0 a1 a2 => Sys2Proof.Machine.execSetfmtSc a0 a1 a2 s
  | .setfmtClr a0 a1 => Sys2Proof.Machine.execSetfmtClr a0 a1 s
  | .screc a0 a1 a2 a3 => Sys2Proof.Machine.execScrec a0 a1 a2 a3 s
  | .scload a0 a1 a2 a3 => Sys2Proof.Machine.execScload a0 a1 a2 a3 s
  | .scloadEnd a0 => Sys2Proof.Machine.execScloadEnd a0 s
  | .hcreate a0 a1 a2 a3 a4 => Sys2Proof.Machine.execHcreate a0 a1 a2 a3 a4 s
  | .hfree a0 a1 => Sys2Proof.Machine.execHfree a0 a1 s
  | .hquery a0 a1 a2 a3 => Sys2Proof.Machine.execHquery a0 a1 a2 a3 s
  | .hstrag a0 a1 a2 => Sys2Proof.Machine.execHstrag a0 a1 a2 s
  | .hjoin a0 a1 a2 => Sys2Proof.Machine.execHjoin a0 a1 a2 s
  | .hleave a0 a1 => Sys2Proof.Machine.execHleave a0 a1 s
  | .harr a0 a1 a2 a3 => Sys2Proof.Machine.execHarr a0 a1 a2 a3 s
  | .hbar a0 a1 a2 a3 => Sys2Proof.Machine.execHbar a0 a1 a2 a3 s
  | .hvote a0 a1 a2 a3 a4 a5 => Sys2Proof.Machine.execHvote a0 a1 a2 a3 a4 a5 s
  | .hred a0 a1 a2 a3 a4 a5 a6 => Sys2Proof.Machine.execHred a0 a1 a2 a3 a4 a5 a6 s
  | .hwait a0 a1 a2 a3 => Sys2Proof.Machine.execHwait a0 a1 a2 a3 s
  | .spawn a0 a1 a2 a3 a4 a5 => Sys2Proof.Machine.execSpawn a0 a1 a2 a3 a4 a5 s
  | .qpush a0 a1 a2 a3 a4 => Sys2Proof.Machine.execQpush a0 a1 a2 a3 a4 s
  | .qpop a0 a1 a2 a3 => Sys2Proof.Machine.execQpop a0 a1 a2 a3 s
  | .yield a0 => Sys2Proof.Machine.execYield a0 s
  | .rclaim a0 a1 a2 => Sys2Proof.Machine.execRclaim a0 a1 a2 s
  | .rclaimTry a0 a1 a2 => Sys2Proof.Machine.execRclaimTry a0 a1 a2 s
  | .rgive a0 a1 a2 => Sys2Proof.Machine.execRgive a0 a1 a2 s
  | .movs a0 a1 a2 a3 => Sys2Proof.Machine.execMovs a0 a1 a2 a3 s
  | .sets a0 a1 a2 => Sys2Proof.Machine.execSets a0 a1 a2 s
  | .svc a0 a1 => Sys2Proof.Machine.execSvc a0 a1 s
  | .trap a0 a1 => Sys2Proof.Machine.execTrap a0 a1 s
  | .bkpt a0 => Sys2Proof.Machine.execBkpt a0 s
  | .icinv a0 a1 a2 => Sys2Proof.Machine.execIcinv a0 a1 a2 s
  | .issueArbitration a0 => Sys2Proof.Machine.execIssueArbitration a0 s
  | .trapRecordPush a0 => Sys2Proof.Machine.execTrapRecordPush a0 s
  | .budgetExhausted a0 => Sys2Proof.Machine.execBudgetExhausted a0 s
  | .scoreboardResultWrite a0 => Sys2Proof.Machine.execScoreboardResultWrite a0 s
  | .loadDataReturn a0 => Sys2Proof.Machine.execLoadDataReturn a0 s
  | .pageFaultRunAhead a0 => Sys2Proof.Machine.execPageFaultRunAhead a0 s
  | .priResponse a0 a1 a2 => Sys2Proof.Machine.execPriResponse a0 a1 a2 s
  | .atsInvalidation a0 a1 a2 => Sys2Proof.Machine.execAtsInvalidation a0 a1 a2 s
  | .codePageVerified a0 a1 a2 => Sys2Proof.Machine.execCodePageVerified a0 a1 a2 s
  | .fenceConditionMet a0 => Sys2Proof.Machine.execFenceConditionMet a0 s
  | .heldQueueRelease a0 => Sys2Proof.Machine.execHeldQueueRelease a0 s
  | .groupRetire a0 => Sys2Proof.Machine.execGroupRetire a0 s
  | .completionEntryWrite a0 => Sys2Proof.Machine.execCompletionEntryWrite a0 s
  | .jobAdmission a0 a1 a2 => Sys2Proof.Machine.execJobAdmission a0 a1 a2 s
  | .qpushPublish a0 => Sys2Proof.Machine.execQpushPublish a0 s
  | .htailWrite a0 a1 => Sys2Proof.Machine.execHtailWrite a0 a1 s
  | .hheadWrite a0 a1 => Sys2Proof.Machine.execHheadWrite a0 a1 s
  | .sliceDispatch => Sys2Proof.Machine.execSliceDispatch s
  | .contextSave a0 => Sys2Proof.Machine.execContextSave a0 s
  | .contextRestore a0 => Sys2Proof.Machine.execContextRestore a0 s
  | .claimDeadlock a0 a1 => Sys2Proof.Machine.execClaimDeadlock a0 a1 s
  | .harnessArrivalReceive a0 a1 a2 => Sys2Proof.Machine.execHarnessArrivalReceive a0 a1 a2 s
  | .stragglerEntryWrite a0 a1 => Sys2Proof.Machine.execStragglerEntryWrite a0 a1 s
  | .lagNotice a0 a1 a2 => Sys2Proof.Machine.execLagNotice a0 a1 a2 s
  | .harnessUnitFailure a0 => Sys2Proof.Machine.execHarnessUnitFailure a0 s
  | .watchFire a0 => Sys2Proof.Machine.execWatchFire a0 s
  | .mwaitTimeout a0 => Sys2Proof.Machine.execMwaitTimeout a0 s
  | .watchEviction a0 => Sys2Proof.Machine.execWatchEviction a0 s
  | .copyEntryFree a0 a1 => Sys2Proof.Machine.execCopyEntryFree a0 a1 s
  | .copyByteProgress a0 a1 a2 => Sys2Proof.Machine.execCopyByteProgress a0 a1 a2 s
  | .copyComplete a0 a1 => Sys2Proof.Machine.execCopyComplete a0 a1 s
  | .arrayCommand a0 a1 => Sys2Proof.Machine.execArrayCommand a0 a1 s
  | .matrixOperandFetch a0 a1 => Sys2Proof.Machine.execMatrixOperandFetch a0 a1 s
  | .planeSwapEffect a0 a1 => Sys2Proof.Machine.execPlaneSwapEffect a0 a1 s
  | .shadowPlaneWrite a0 a1 => Sys2Proof.Machine.execShadowPlaneWrite a0 a1 s
  | .matrixCommandComplete a0 a1 => Sys2Proof.Machine.execMatrixCommandComplete a0 a1 s
  | .updateSpan a0 => Sys2Proof.Machine.execUpdateSpan a0 s
  | .updateComplete a0 => Sys2Proof.Machine.execUpdateComplete a0 s
  | .collectiveComplete a0 => Sys2Proof.Machine.execCollectiveComplete a0 s
  | .collectiveTimeout a0 a1 => Sys2Proof.Machine.execCollectiveTimeout a0 a1 s
  | .shutterWindow a0 a1 => Sys2Proof.Machine.execShutterWindow a0 a1 s
  | .inboundRemoteAccess a0 => Sys2Proof.Machine.execInboundRemoteAccess a0 s
  | .remoteResponse a0 a1 => Sys2Proof.Machine.execRemoteResponse a0 a1 s
  | .remoteTimeout a0 => Sys2Proof.Machine.execRemoteTimeout a0 s
  | .flitReplay a0 => Sys2Proof.Machine.execFlitReplay a0 s
  | .chipUnreachable a0 => Sys2Proof.Machine.execChipUnreachable a0 s
  | .reachabilityProbe a0 a1 => Sys2Proof.Machine.execReachabilityProbe a0 a1 s
  | .stealOffer a0 => Sys2Proof.Machine.execStealOffer a0 s
  | .offerWithdrawal a0 => Sys2Proof.Machine.execOfferWithdrawal a0 s
  | .offerReceive a0 => Sys2Proof.Machine.execOfferReceive a0 s
  | .offerExpiry a0 a1 => Sys2Proof.Machine.execOfferExpiry a0 a1 s
  | .stealClaim a0 a1 a2 a3 => Sys2Proof.Machine.execStealClaim a0 a1 a2 a3 s
  | .ownershipWordCas a0 a1 a2 a3 => Sys2Proof.Machine.execOwnershipWordCas a0 a1 a2 a3 s
  | .stealDeferralExpiry a0 => Sys2Proof.Machine.execStealDeferralExpiry a0 s
  | .stolenSliceDone a0 a1 => Sys2Proof.Machine.execStolenSliceDone a0 a1 s
  | .stolenCompletionReceive a0 a1 a2 a3 a4 a5 => Sys2Proof.Machine.execStolenCompletionReceive a0 a1 a2 a3 a4 a5 s
  | .stealKill a0 a1 => Sys2Proof.Machine.execStealKill a0 a1 s
  | .resume a0 => Sys2Proof.Machine.execResume a0 s
  | .kill a0 => Sys2Proof.Machine.execKill a0 s
  | .killJob a0 => Sys2Proof.Machine.execKillJob a0 s
  | .failDomain a0 => Sys2Proof.Machine.execFailDomain a0 s
  | .batchResume a0 => Sys2Proof.Machine.execBatchResume a0 s
  | .batchFail a0 => Sys2Proof.Machine.execBatchFail a0 s
  | .translationInvalidate a0 => Sys2Proof.Machine.execTranslationInvalidate a0 s
  | .preempt a0 => Sys2Proof.Machine.execPreempt a0 s
  | .regionReload a0 => Sys2Proof.Machine.execRegionReload a0 s
  | .queueWatch a0 => Sys2Proof.Machine.execQueueWatch a0 s
  | .weightLoad a0 => Sys2Proof.Machine.execWeightLoad a0 s
  | .weightLoadComplete a0 => Sys2Proof.Machine.execWeightLoadComplete a0 s
  | .regionCreate a0 a1 => Sys2Proof.Machine.execRegionCreate a0 a1 s
  | .moduleReset => Sys2Proof.Machine.execModuleReset s
  | .hostLinkReset => Sys2Proof.Machine.execHostLinkReset s
  | .powerThermalLimit => Sys2Proof.Machine.execPowerThermalLimit s
  | .limitRecovery => Sys2Proof.Machine.execLimitRecovery s
  | .criticalLimitReset => Sys2Proof.Machine.execCriticalLimitReset s
  | .unitFailure a0 a1 a2 a3 => Sys2Proof.Machine.execUnitFailure a0 a1 a2 a3 s
  | .spareReplacement a0 a1 a2 => Sys2Proof.Machine.execSpareReplacement a0 a1 a2 s
  | .imageTransfer a0 a1 => Sys2Proof.Machine.execImageTransfer a0 a1 s
  | .attestationRequest a0 a1 => Sys2Proof.Machine.execAttestationRequest a0 a1 s
  | .barWindowWrite a0 a1 a2 a3 => Sys2Proof.Machine.execBarWindowWrite a0 a1 a2 a3 s
  | .barWindowRead a0 a1 a2 a3 => Sys2Proof.Machine.execBarWindowRead a0 a1 a2 a3 s
  | .tctlWrite a0 a1 => Sys2Proof.Machine.execTctlWrite a0 a1 s
  | .tbaseWrite a0 a1 => Sys2Proof.Machine.execTbaseWrite a0 a1 s
  | .tlostRead a0 => Sys2Proof.Machine.execTlostRead a0 s
  | .dctlHalt a0 a1 => Sys2Proof.Machine.execDctlHalt a0 a1 s
  | .registerWrite a0 a1 => Sys2Proof.Machine.execRegisterWrite a0 a1 s
  | .tracePacketCommit a0 => Sys2Proof.Machine.execTracePacketCommit a0 s
  | .samplePacket a0 a1 => Sys2Proof.Machine.execSamplePacket a0 a1 s
  | .sorserUnlock a0 => Sys2Proof.Machine.execSorserUnlock a0 s
  | .sorserRead a0 a1 => Sys2Proof.Machine.execSorserRead a0 a1 s
  | .sorserWrite a0 a1 a2 => Sys2Proof.Machine.execSorserWrite a0 a1 a2 s
  | .sorserPop => Sys2Proof.Machine.execSorserPop s
  | .sorserResume a0 => Sys2Proof.Machine.execSorserResume a0 s
  | .sorserKill a0 => Sys2Proof.Machine.execSorserKill a0 s
  | .sorserDump a0 a1 a2 a3 => Sys2Proof.Machine.execSorserDump a0 a1 a2 a3 s
  | .storeAcknowledgement a0 a1 => Sys2Proof.Machine.execStoreAcknowledgement a0 a1 s
  | .routeUpdate a0 a1 => Sys2Proof.Machine.execRouteUpdate a0 a1 s
  | .harnessCompletionMessage a0 a1 a2 a3 a4 => Sys2Proof.Machine.execHarnessCompletionMessage a0 a1 a2 a3 a4 s

end Sys2Proof.Machine
end

