-- ==== Sys2Proof/Machine/Schedule.lean ====
section
/-!
DEFINITION. The order in which the machine carries out what it does by itself where `agenda` asks for nothing (DESIGN CHOICE, notes/assumptions/2.md): the
events that some part of the state makes possible, and the first of them that changes the state.
-/

namespace Sys2Proof.Machine

/-- Events of the strands and results of a group. -/
def State.groupEvents (s : State) (sid gi : Nat) (g : Group) : List Instr :=
  (g.inflight.filterMap fun f => match f.body with
    | .timed due _ => if decide (due ≤ s.clock) then some (Instr.scoreboardResultWrite f.id) else none
    | .join .. => some (.scoreboardResultWrite f.id)
    | .mem _ => some (.loadDataReturn f.id)
    | .scload .. => some (.loadDataReturn f.id)
    | _ => none) ++
  (g.strands.flatMap fun t =>
    (if t.fences.isEmpty then [] else [Instr.fenceConditionMet ⟨sid, gi, t.sn⟩]) ++
    (if t.c.held.isEmpty then [] else [.heldQueueRelease ⟨sid, gi, t.sn⟩]) ++
    (match t.st with
      | .faultWait id => (match Sparse.find s.batches id with
        | some b => if b.filling then [.pageFaultRunAhead ⟨sid, gi, t.sn⟩] else []
        | none => [])
      | .parked _ _ => [.watchFire ⟨sid, gi⟩, .mwaitTimeout ⟨sid, gi⟩]
      | _ => [])) ++
  (if g.strands.isEmpty && !g.retired then [.groupRetire ⟨sid, gi⟩] else [])
/-- Events of the arrays of a slice. -/
def arrayEvents (sid : Nat) (x : Slice) : List Instr :=
  (x.arrays.zip (List.range x.arrays.length)).flatMap fun a => if a.1.queue.isEmpty then [] else
    [.matrixOperandFetch sid a.2, .shadowPlaneWrite sid a.2, .planeSwapEffect sid a.2, .arrayCommand sid a.2, .matrixCommandComplete sid a.2]
/-- Events of a slice. The matrix commands of one that has ended run on (R29, R313). -/
def State.sliceEvents (s : State) (e : Nat × Slice) : List Instr :=
  let (sid, x) := e
  if x.st != .resident then (match x.st with | .retired => arrayEvents sid x | .failed => arrayEvents sid x | _ => [])
  else
    ((x.groups.zip (List.range x.groups.length)).flatMap fun g => s.groupEvents sid g.2 g.1) ++ arrayEvents sid x ++
    (if x.exhausted.isSome then [.budgetExhausted sid] else []) ++
    (x.claims.map fun c => .claimDeadlock sid c.bay) ++
    (if x.preempt.isSome && !x.saveWait then [.contextSave sid] else [])
/-- Events of the engines, buffers and trace unit of a core. -/
def coreEvents (e : Nat × Core) : List Instr :=
  let (c, k) := e
  (k.buf.map fun y => .storeAcknowledgement c y.id) ++
  ((k.chans.zip (List.range k.chans.length)).flatMap fun ch => if ch.1.entries.isEmpty then [] else
    [.copyByteProgress c ch.2 1048576, .copyComplete c ch.2]) ++
  (if k.upd.isEmpty then [] else [.updateSpan c, .updateComplete c]) ++
  (k.trace.samples.map fun m => .samplePacket c m.id) ++
  (if k.trace.packets.isEmpty then [] else [.tracePacketCommit c])
/-- The command at the head of a command queue (R276); an entry that is no command is refused by whichever event takes it. -/
def State.headCommand (s : State) (q : Queue) : List Instr :=
  if q.kind != 3 || q.tail == q.head then []
  else
    let w := ofBytes ((s.devRead q.vf (q.slot q.head.toNat) 32).getD [])
    let key := hostKey q.vf q.va
    match decodeCommand (some key) w with
    | some i => [i]
    | none => [.resume ⟨some key, bitsAt w 52 12, bitsAt w 64 64, bitsAt w 128 64, bitsAt w 192 64⟩]
/-- Events of a queue (R266, R269, R276). -/
def State.queueEvents (s : State) (q : Queue) : List Instr :=
  let key := hostKey q.vf q.va
  let seen := fun (off : Nat) (old : W32) (mk : Nat → Instr) => match s.devRead q.vf (q.va + off) 4 with
    | some b => if ofBytes b == old.toNat then [] else [mk (ofBytes b)]
    | none => []
  (if q.written.isEmpty then [] else [.qpushPublish key]) ++
  (if q.prod then seen 20 q.htail fun v => .htailWrite key v else []) ++
  (if q.cons then seen 24 q.hhead fun v => .hheadWrite key v else []) ++ s.headCommand q
/-- Events of a harness: the arrivals of the cycles before are taken, collectives go on, and straggler entries are written, but for those
whose record another module holds, whose answer comes from outside. -/
def State.harnessEvents (s : State) (e : HKey × Harness) : List Instr :=
  (match e.2.coming.find? fun a => decide (a.time < s.clock) with
    | some a => [Instr.harnessArrivalReceive e.1 a.who .take]
    | none => []) ++
  (if e.2.ranks.isEmpty then [] else .collectiveComplete e.1 :: e.2.ranks.filterMap fun r => match r.who with
    | .here g => some (.collectiveTimeout e.1 g)
    | .there _ _ => none) ++
  (match e.2.strag with
    | some g => if g.waiting.isEmpty || s.stragAway g 16 || s.stragAway g (64 + g.write % g.slots * g.slotsz * 64) then [] else [.stragglerEntryWrite e.1 ⟨true, none⟩]
    | none => [])
/-- Events of jobs, their admission and the verification of their code pages, offers, remote accesses, routes, weight loads and units that wait to be replaced. -/
def State.hubEvents (s : State) : List Instr :=
  (s.jobs.flatMap fun e =>
    (if e.2.completions.isEmpty then [] else [.completionEntryWrite e.1]) ++ (e.2.verifying.map fun p => .codePageVerified (keyVf e.2.rk) e.1 p) ++
    (if e.2.table.isSome && !e.2.finished then [.stealDeferralExpiry e.1, .stealOffer e.1] else [])) ++
  (match s.nextAdmission with
    | some q => [.jobAdmission q.vf q.va q.head.toNat]
    | none => []) ++
  (s.made.map fun m => .offerWithdrawal m.jn) ++ (s.got.map fun g => .offerExpiry g.o.job false) ++
  (s.remotes.map fun r => .remoteTimeout r.id) ++ (s.mgmt.noRoute.map fun e => .chipUnreachable e.1) ++
  (s.mgmt.loads.map fun w => .weightLoadComplete w.id) ++ (s.mgmt.replacing.map fun e => .spareReplacement e.1 e.2.1 e.2.2)
/-- Every event that the state may make possible, in the order in which they are looked at. -/
def State.candidateEvents (s : State) : List Instr :=
  s.slices.flatMap s.sliceEvents ++ s.cores.flatMap coreEvents ++
  ((List.range Config.dies).flatMap fun d => if (s.evictedParked d).isEmpty then [] else [.watchEviction d]) ++
  s.harnesses.flatMap s.harnessEvents ++
  (s.regions.flatMap fun e => if e.2.waiting.isEmpty then [] else [.trapRecordPush e.1]) ++
  s.queues.flatMap s.queueEvents ++ s.hubEvents ++ (if s.dispatchAct.isSome then [.sliceDispatch] else [])
/-- Whether an event changes the state. -/
def State.changes (s : State) (i : Instr) : Bool := match exec i s with
  | .next s' => s' != s
  | _ => false
/-- The event that the machine carries out by itself now. -/
def State.schedule (s : State) : Option Instr := s.candidateEvents.find? s.changes

end Sys2Proof.Machine
end

