-- ==== Sys2Proof/Machine/Run.lean ====
section
/-!
DEFINITION. The issue of a bay's run: stop points, the line, the checks before issue, pairs, and the passing of cycles (spec/02 R24, R34; spec/03
R44 to R48, R62, R64 to R70; spec/14 R306; spec/15 R330; DESIGN CHOICE, notes/assumptions/2.md).
-/

namespace Sys2Proof.Machine

/-! ### One instruction (R66, R68) -/

/-- An instruction carried out for a cursor; where it does not issue, the cursor stays. -/
def State.tryIssue (s : State) (c : Cursor) (i : Instr) : State := match exec i { s with cur := some c } with
  | .next s' => s'
  | _ => { s with cur := some c }
/-- The register that a write goes to, with its lane. -/
def RegWr.place : RegWr → Cls × Nat × Nat
  | .v r l _ => (.v, r, l)
  | .g r _ => (.g, r, 0)
  | .p _ i l _ => (.p, i, l)
  | .gp i _ => (.gp, i, 0)
  | .h i _ => (.h, i, 0)
  | .b i _ => (.b, i, 0)
  | .th i _ => (.th, i, 0)
  | .am i _ => (.am, i, 0)
  | .sc i _ => (.sc, i, 0)
/-- The register, with the pass, that a write belongs to: two writes of one register land in order whatever their lanes (R68). -/
def RegWr.passPlace (w : RegWr) : Cls × Nat × Nat := (w.place.1, w.place.2.1, w.place.2.2 / 32)
/-- Cycles by which an issue must wait so that its fixed-latency results land after older ones of the strand to the same registers (R68). -/
def landDelay (sn : Nat) (old new : List Fixed) : Nat :=
  (old.filter fun f => f.sn == sn).foldl (fun n o => (new.filter fun f => f.sn == sn).foldl (fun n y =>
    if decide (y.at_ < o.at_) && o.wrs.any fun a => y.wrs.any fun b => a.passPlace == b.passPlace && a.place.1 != .am then max n (o.at_ + 1 - y.at_)
    else n) n) 0
/-- The same for the scoreboarded results that it leaves pending: one may be written in the cycle after its issue, so it issues no earlier than an older fixed-latency
result of the strand to one of its registers lands (R68; DEDUCED, notes/assumptions/19.md). -/
def boardDelay (clock sn : Nat) (old : List Fixed) (new : List Inflight) : Nat :=
  (old.filter fun f => f.sn == sn).foldl (fun n o =>
    if decide (clock < o.at_) && new.any fun y => o.wrs.any fun a => y.dst.contains (a.place.1, a.place.2.1) then max n (o.at_ - clock) else n) 0
/-- The fixed-latency results of a strand's group. -/
def State.fixedOf (s : State) (r : StrandRef) : List Fixed := match s.group? r.sid r.gi with
  | some g => g.fixed
  | none => []
/-- The results pending in a strand's group that were not pending in a state before. -/
def State.newPending (s s' : State) (r : StrandRef) : List Inflight := match s.group? r.sid r.gi, s'.group? r.sid r.gi with
  | some g, some g' => g'.inflight.filter fun f => f.sn == r.sn && !g.inflight.any fun e => e.id == f.id
  | _, _ => []
/-- What an attempt to issue leaves: the state after it, unless its results must land later, which delays the strand. -/
def State.settleIssue (s s' : State) (r : StrandRef) : State :=
  let old := s.fixedOf r
  let n := max (landDelay r.sn old ((s'.fixedOf r).drop old.length)) (boardDelay s.clock r.sn old (s.newPending s' r))
  if s'.cur.isNone && decide (0 < n) then s.modStrand r fun t => { t with nextIssue := s.clock + n }
  else { s' with cur := none }

/-! ### Pairs (R69, R70) -/

/-- How much an instruction disturbs the strand that issues it: a pair's instructions are carried out in ascending order of it, so that a
transfer, a wait or the end of the strand comes after both have issued. -/
def lateness : Instr → Nat
  | .bra .. => 1 | .jmpx .. => 1 | .call .. => 1 | .ret .. => 1 | .fork .. => 1
  | .svc .. => 2 | .trap .. => 2 | .bkpt .. => 2 | .jwait .. => 2 | .mwait .. => 2 | .hwait .. => 2 | .hbar .. => 2 | .rclaim .. => 2
  | .scload .. => 2
  | .armend .. => 3 | .exit .. => 3
  | _ => 0
/-- Whether an instruction transfers control or ends its strand: the first of a split pair takes that effect after the second has issued (R69, R70). -/
def transfers (i : Instr) : Bool := lateness i == 1 || lateness i == 3
/-- Whether an instruction arrives at a harness (R254). -/
def arrives : Instr → Bool
  | .harr .. => true | .hbar .. => true | .hvote .. => true | .hred .. => true
  | _ => false
/-- The cursor of an instruction. -/
def cursorAt (r : StrandRef) (pc next cycle : Nat) : Cursor :=
  { who := r, pc := pc, nextPc := next, cycle := cycle, charge := true, trace := true, second := false, pairPc := none, passes := 0,
    src := none, met := none, held := none }
/-- The instruction that fields encode, where the group decodes it. -/
def decodeOr (j : Job) (g : Group) (t : Strand) (f : Fields) (d : Instr) : Instr := match decodeSlot j g t f with
  | .ok i => i
  | .error _ => d
/-- The number of an instruction's unit in a trace record (R323). -/
def unitNumber (f : Fields) : Nat := match unitOfMaj f.maj with | .v => 0 | .f => 1 | .u => 2 | .l => 3 | .h => 4
/-- The registers and lanes that results write. -/
def writtenBy (fixed : List Fixed) (inflight : List Inflight) : List (Cls × Nat × Mask) :=
  (fixed.flatMap fun y => y.wrs.map fun w => (w.place.1, w.place.2.1, BitVec.ofNat 128 (2 ^ w.place.2.2))) ++
    inflight.flatMap fun f => f.dst.map fun d => (d.1, d.2, f.mask)
/-- Whether a write goes to one of some registers and lanes. -/
def RegWr.within (w : RegWr) (l : List (Cls × Nat × Mask)) : Bool := l.any fun e =>
  w.hits e.1 e.2.1 && (!(e.1 == .v || e.1 == .p) || e.2.2.getLsbD w.lane)
/-- The results of a pair's instructions in its group: where both write a register, the second's value remains (R69). The first
instruction's results are those added between `a` and `b`, the second's those added between `c` and `d`. -/
def pairShadow (a b c d g : Group) : Group :=
  let newIn := fun (x y : Group) => y.inflight.filter fun f => !x.inflight.any fun e => e.id == f.id
  let first := newIn a b
  let last := writtenBy (d.fixed.drop c.fixed.length) (newIn c d)
  let lo := a.fixed.length
  let hi := b.fixed.length
  { g with
    fixed := (g.fixed.zip (List.range g.fixed.length)).map fun e =>
      if decide (lo ≤ e.2) && decide (e.2 < hi) then { e.1 with wrs := e.1.wrs.filter fun w => !w.within last } else e.1
    inflight := g.inflight.map fun f =>
      if first.any fun e => e.id == f.id then { f with shadow := f.shadow ++ last.filter fun e => f.dst.contains (e.1, e.2.1) } else f }
/-- The trap that kept a cursor's instruction from issuing. -/
def State.metTrap (s : State) : Option (Nat × Nat × Nat) := s.cur.bind Cursor.met
/-- An issue ended without its cursor. -/
def State.dropCur (s : State) : State := { s with cur := none }
/-- A strand's program counter at a slot that it reaches in sequence. -/
def State.standAt (s : State) (r : StrandRef) (pc : Nat) : State := s.modStrand r fun t => { t with c := { t.c with pc := pc }, entry := .seq }
/-- Whether a strand can go on with its run, or its run has ended but it is Ready. -/
def State.goesOn (s : State) (r : StrandRef) : Bool := match s.strand? r with
  | some t => t.st == .ready || t.st == .issuing
  | none => false
/-- Whether a strand holds its bay. -/
def State.running (s : State) (r : StrandRef) : Bool := match s.strand? r with
  | some t => t.st == .issuing
  | none => false
/-- The second instruction of a pair could not issue after the first had: with a trap neither has issued, and the record names the second while the strand stops at the first
(R62); `alone` is the second tried by itself before the pair. With a wait that the second does not meet by itself the first has issued, and the strand goes on with the second
slot in `back`. -/
def State.pairFails (s s2 alone : State) (r : StrandRef) (pc cpc : Nat) (back : State) : State := match s2.metTrap with
  | some (cause, lane, detail) => if alone.metTrap == s2.metTrap then alone.dropCur else s.takeTrap r cause lane detail pc cpc false
  | none => if alone.cur.isSome then alone.dropCur else back
/-- A split pair's first instruction has issued (R70): the strand keeps its bay and stands at the second slot, which is to issue next, a cycle after the first's last pass.
Where the first has ended the run, the run ends after the second. -/
def State.halfIssued (s : State) (r : StrandRef) (pc core bay runLen : Nat) (first : Option (Instr × Nat × List RegWr)) : State :=
  let ended := !s.running r
  let s := s.modStrand r fun t => { t with half := some ⟨pc, ended, first⟩, st := .issuing, runLen := runLen }
  s.modCore core fun k => { k with bays := setAt k.bays bay { (k.bays.getD bay Bay.reset) with run := some r } }
/-- The first instruction of a split pair that transfers control issues (R69, R70): it pays, and it keeps what it has read for its effect, which comes after the second has
issued. -/
def State.issueFirst (s : State) (r : StrandRef) (x : Instr) (pc : Nat) : Option (State × List RegWr) :=
  let c := { cursorAt r pc (nextSlot pc) s.clock with pairPc := some pc }
  match x.hdr.bind fun h => (mkX c x h s).map fun y => (y, h) with
  | none => none
  | some (y, h) =>
    let preds := (y.ops x h).flatMap fun o => if o.wr || o.cls != .p then [] else (List.range o.cnt).flatMap fun k =>
      if o.num + k == 7 then [] else y.smask.lanes.map fun l => RegWr.p r.sn (o.num + k) l (y.p (o.num + k) l)
    some (charge y x h s, y.snapshot x h ++ preds)
/-- A split pair (R70): the first instruction issues, with STALL 0, and the second a cycle after the first's last pass, once what it reads is there (R65). `x` is the first
without its END and `xe` with it, `y` and `ye` likewise; the END of either counts after the second. Both are tried here, for with a trap of either neither issues (R62).
Where both transfer control the first's target stands (DESIGN CHOICE, notes/assumptions/19.md). -/
def State.issueSplit (s : State) (r : StrandRef) (j : Job) (fb : Fields) (x xe y ye : Instr) (pc core bay rk : Nat) : State :=
  let pc2 := nextSlot pc
  let next := nextSlot pc2
  let cyc2 := s.clock + passCount x j.hdr.width
  let run := (match s.strand? r with | some t => t.runLen | none => 0) + 1
  let alone := s.tryIssue { cursorAt r pc2 next cyc2 with pairPc := some pc } ye
  if transfers x then
    let s1 := s.tryIssue { cursorAt r pc2 next cyc2 with pairPc := some pc } y
    let lone := s.tryIssue { cursorAt r pc next s.clock with pairPc := some pc } xe
    if lone.cur.isSome then lone.dropCur
    else if s1.cur.isSome then alone.dropCur
    else
      let s2 := s1.tryIssue { cursorAt r pc next s.clock with pairPc := some pc, second := true } xe
      if s2.cur.isSome then s.pairFails s2 lone r pc pc lone
      else match s.issueFirst r xe pc with
        | some (s', l) => (s'.count core rk .pairSplits 1).halfIssued r pc core bay run (some (xe, s.clock, l))
        | none => s
  else
    let s1 := s.tryIssue { cursorAt r pc pc2 s.clock with pairPc := some pc } x
    if s1.cur.isSome then s1.dropCur
    else
      let s1 := s1.count core rk .pairSplits 1
      if !s1.goesOn r then s1
      else
        let wait := match s1.group? r.sid r.gi, s1.strand? r with
          | some g, some t => waitBlock s.clock g t j.hdr.width [fb] [ye]
          | _, _ => none
        let s2 := (s1.standAt r next).tryIssue { cursorAt r pc2 next cyc2 with pairPc := some pc, second := true } ye
        match wait.isSome, s2.metTrap with
        | false, some _ => s.pairFails s2 alone r pc pc2 s1
        | _, _ => s1.halfIssued r pc core bay run none
/-- A pair whose units differ (R24, R69): both instructions read their sources before either writes and issue in the same cycles, and the one that disturbs the strand
more is carried out last. Where one cannot issue, neither does; the first slot's trap is found before the second's, but an arrival does not go to its unit before the second is
known to issue (DEDUCED, notes/assumptions/19.md). -/
def State.issueTogether (s : State) (r : StrandRef) (j : Job) (was : Before) (fa fb : Fields) (a b ae be : Instr) (pc : Nat) : State :=
  let pc2 := nextSlot pc
  let next := nextSlot pc2
  let swap := decide (lateness b < lateness a)
  let passes := max (passCount a j.hdr.width) (passCount b j.hdr.width)
  let at_ := fun (p : Nat) => { cursorAt r p next s.clock with src := some was, pairPc := some pc, passes := passes }
  let loneA := s.tryIssue (at_ pc) ae
  if loneA.cur.isSome then match loneA.metTrap, arrives a, (s.tryIssue (at_ pc2) be).metTrap with
    | none, true, some (cause, lane, detail) => s.takeTrap r cause lane detail pc pc2 false
    | _, _, _ => loneA.dropCur
  else
    let s0 := if swap then (s.traceInstr r pc (unitNumber fa) s.clock).traceInstr r pc2 (unitNumber fb) s.clock else s
    let s1 := if swap then s0.tryIssue { at_ pc2 with trace := false } b else s0.tryIssue (at_ pc) a
    if s1.cur.isSome then (s.tryIssue (at_ pc2) be).dropCur
    else
      let s2 := if swap then s1.tryIssue { at_ pc with trace := false, second := true, charge := false } ae
        else s1.tryIssue { at_ pc2 with second := true, charge := false } be
      if s2.cur.isSome then
        let back := ((s1.standAt r pc2).tryIssue (cursorAt r pc2 next s.clock) be).dropCur
        if swap then s.pairFails s2 loneA r pc pc loneA else s.pairFails s2 (s.tryIssue (at_ pc2) be) r pc pc2 back
      else
        let s2 := match s.group? r.sid r.gi, s1.group? r.sid r.gi, s2.group? r.sid r.gi with
          | some g0, some g1, some g2 => s2.modGroup r.sid r.gi (if swap then pairShadow g1 g2 g0 g1 else pairShadow g0 g1 g1 g2)
          | _, _, _ => s2
        match s1.strand? r, s2.strand? r with
        | some u, some v =>
          if u.st == .issuing then s2
          else if v.st == .issuing then (if u.st == .ready then s2.endRun r else s2.putWait r u.st)
          else s2
        | _, _ => s2
/-- A pair issued (R69, R70), split where its instructions use the same unit. -/
def State.issuePair (s : State) (r : StrandRef) (j : Job) (x : Slice) (g : Group) (t : Strand) (fa fb : Fields) (a b : Instr) (core rk : Nat) : State :=
  let endb := fa.endb ||| fb.endb
  let split := unitOfMaj fa.maj == unitOfMaj fb.maj
  let stall := if split then 0 else fa.stall
  let a0 := decodeOr j g t { fa with endb := 0, stall := stall } a
  let a1 := decodeOr j g t { fa with endb := endb, stall := stall } a
  let b0 := decodeOr j g t { fb with endb := 0 } b
  let b1 := decodeOr j g t { fb with endb := endb } b
  if split then s.issueSplit r j fb a0 a1 b0 b1 t.c.pc core g.bay rk else s.issueTogether r j ⟨x, g, s.core core⟩ fa fb a0 b0 a1 b1 t.c.pc

/-! ### The next unit of a run (R45, R62, R64, R65, R306, R330) -/

/-- A deferred trap raised at the strand's next slot (R306). -/
def State.raiseDeferred (s : State) (r : StrandRef) (t : Strand) (d : Deferred) : State :=
  (s.modStrand r fun t => { t with deferred := t.deferred.filter fun y => y.key != d.key || y.cause != d.cause }).takeTrap
    r d.cause d.lane d.detail t.c.pc d.cpc true
/-- Whether two instructions of a pair write one register (R69). -/
def writeConflict (a b : List Opnd) : Bool := (a.filter Opnd.wr).any fun o => (b.filter Opnd.wr).any fun p =>
  o.cls == p.cls && rangesMeet o.num o.cnt p.num p.cnt
/-- What the debug unit adds after an issue (R330): cause 339 for the strand under single step. -/
def State.afterIssue (s : State) (r : StrandRef) (core rk gid pc : Nat) : State :=
  let d := (s.core core).dbg
  if !(s.debugged core rk && bitAt d.dctl.toNat 6 && d.selects gid && bitsAt d.dctl.toNat 4 2 == r.sn) then s
  else
    let (key, s) := s.fresh
    s.modStrand r fun t => { t with deferred := t.deferred ++ [⟨key, 339, pc, 0, 0, .next⟩] }
/-- The fields of the single slot at a program counter: after a split pair's first instruction its END still counts (R64, R70). -/
def singleFields (l : List Byte) (t : Strand) : Fields :=
  let i := t.c.pc % 8
  let f := lineFields l i
  if t.entry == .seq && decide (0 < i) && pairBit l (i - 1) then { f with endb := f.endb ||| (lineFields l (i - 1)).endb } else f
/-- The place to go on at where a run may hold no more (R64): one that would exceed 24 instructions ends after its 24th, or its 23rd where a pair comes next, in the line that
the strand holds or in the next one as it would be fetched, and is counted. With sr.chk set the next instruction takes cause 49 instead. -/
def State.cutRun (s : State) (r : StrandRef) (core : Nat) (j : Job) : State := match s.group? r.sid r.gi, s.strand? r with
  | some g, some t =>
    let n := match s.lineFor core j t with
      | .line l => (slotsAt l t.c.pc).length
      | _ => 1
    if !g.chk && t.st == .issuing && t.half.isNone && decide (Config.runLimit < t.runLen + n) then (s.endRun r).count core j.rk .runOverlength 1
    else s
  | _, _ => s
/-- A run's next unit issued from a line that the strand holds (R62, R64, R65, R69, R306): the deferred traps that fall due, the line causes, an
instruction breakpoint, the target causes, the decode causes, the length of the run, what must be waited for, and the pair causes. Where both slots of a pair fail their
decode checks, the first slot's cause is reported (DESIGN CHOICE, notes/assumptions/19.md). -/
def State.issueLine (s : State) (r : StrandRef) (x : Slice) (g : Group) (t : Strand) (j : Job) (l : List Byte) : State :=
  let pc := t.c.pc
  let fmt := g.fmtOf t.c
  let gid := groupId x g
  let slots := slotsAt l pc
  let fs := match slots with
    | [_] => [singleFields l t]
    | _ => slots.map (lineFields l)
  let stop := fun (s : State) (cause cpc : Nat) => s.takeTrap r cause 0 0 pc cpc false
  match dueBy g t j.hdr.width fs with
  | some d => s.raiseDeferred r t d
  | none => match lineCause l slots with
    | some c => stop s c (if c == 10 && lineParity l && slotParity l (pc % 8) then pc + 1 else pc)
    | none =>
      if s.debugged x.core j.rk && !t.skipDebug && (s.core x.core).dbg.breaks gid pc then stop s 337 pc
      else match targetCause j t l g.chk with
        | some c => stop s c pc
        | none =>
          let ds := fs.map (decodeSlot j g t)
          match (ds.zip slots).find? fun d => match d.1 with | .error _ => true | .ok _ => false with
          | some (.error e, i) => stop s e.cause (lineOf pc + i)
          | _ =>
            let is := ds.filterMap fun d => match d with | .ok i => some i | .error _ => none
            if decide (Config.runLimit < t.runLen + fs.length) then
              (if g.chk then stop s 49 pc else (s.endRun r).count x.core j.rk .runOverlength 1)
            else match waitBlock s.clock g t j.hdr.width fs is with
            | some b => (if decide (0 < t.runLen) then s.count x.core j.rk .runBreaks 1 else s).block r b
            | none => match is, fs with
              | [i], _ => (s.settleIssue (s.tryIssue (cursorAt r pc (nextSlot pc) s.clock) i) r).cutRun r x.core j
              | [a, b], [fa, fb] =>
                if g.chk && unitOfMaj fa.maj == unitOfMaj fb.maj then stop s 50 pc
                else if g.chk && writeConflict (operandsOf fmt j.hdr.width fa) (operandsOf fmt j.hdr.width fb) then stop s 51 pc
                else (s.settleIssue (s.issuePair r j x g t fa fb a b x.core j.rk) r).cutRun r x.core j
              | _, _ => s
/-- The second instruction of a split pair issued from the line that the strand holds (R69, R70), and after it the effect of a first one that transfers control. No stop
point lies between the two. Where the second cannot issue although it could be tried with the first, it stops or waits at its own slot. -/
def State.issueHalf (s : State) (r : StrandRef) (x : Slice) (g : Group) (t : Strand) (j : Job) (h : Half) (l : List Byte) : State :=
  let pc := t.c.pc
  let next := nextSlot pc
  let f := match h.first with | some _ => { lineFields l (pc % 8) with endb := 0 } | none => singleFields l t
  let keep := fun (s : State) => s.modStrand r fun t => { t with half := h.first.map fun _ => h }
  match decodeSlot j g t f with
  | .error e => (keep s).takeTrap r e.cause 0 0 pc pc false
  | .ok i => match waitBlock s.clock g t j.hdr.width [f] [i] with
    | some b => ((keep s).count x.core j.rk .runBreaks 1).block r b
    | none =>
      let s1 := s.modStrand r fun t => { t with half := none }
      let s2 := s1.settleIssue (s1.tryIssue { cursorAt r pc next s.clock with second := true } i) r
      match s2.strand? r with
      | none => s2
      | some u =>
        if u.c.pc == pc && decide (u.runLen ≤ t.runLen) then s2.modStrand r fun u => { u with half := if u.st == .issuing then some h else h.first.map fun _ => h }
        else
          let s3 := match h.first with
            | some (a, cycle, regs) => (s2.tryIssue { cursorAt r h.pc next cycle with second := true, charge := false, trace := false, sources := regs, paid := true } a).dropCur
            | none => s2
          if h.ends && s3.running r then s3.endRun r else s3
/-- Whether a bay is issuing a pass at the current cycle or later (R25). -/
def State.bayBusy (s : State) (core bay : Nat) : Bool := decide (s.clock < ((s.core core).bays.getD bay Bay.reset).free)
/-- The line that a strand issues from, where its parity holds; on a mismatch the line is discarded, the soft error counted, and the line fetched once more from memory
(R46). -/
def State.soundLine (s : State) (r : StrandRef) (core : Nat) (j : Job) (t : Strand) : FetchRes × State := match s.lineFor core j t with
  | .line l =>
    if lineCause l (slotsAt l t.c.pc) == some 10 then
      let s := s.discardLine core j.rk r (lineOf t.c.pc)
      (s.fetchLine j t.c.pc, s)
    else (.line l, s)
  | f => (f, s)
/-- The deferred trap that reads of a strand's next unit make due, where its line is at hand (R306). -/
def dueAt (g : Group) (t : Strand) (j : Job) : FetchRes → Option Deferred
  | .line l => dueBy g t j.hdr.width (match slotsAt l t.c.pc with | [_] => [singleFields l t] | is => is.map (lineFields l))
  | _ => none
/-- The strand that holds a bay goes on (R64): its slice may have to stop, a deferred trap or a debug halt may fall due, in this order (R306), its line is fetched, and
its next unit issues. -/
def State.issueRun (s : State) (core bay : Nat) (r : StrandRef) : State :=
  match s.slice? r.sid, s.group? r.sid r.gi, s.strand? r with
  | some x, some g, some t => (match s.job? x.jn with
    | none => s
    | some j =>
      let pc := t.c.pc
      if !x.issues && t.half.isNone then s.endRun r
      else if decide (s.clock < t.nextIssue) then s
      else match (if t.half.isSome then none else t.deferred.find? fun d => d.due == .next) with
        | some d => s.raiseDeferred r t d
        | none =>
          let halted := s.debugged core j.rk && bitAt (s.core core).dbg.dctl.toNat 7
          let (f, s) := s.soundLine r core j t
          let s := match f with
            | .line l => s.keepLine core r (keyVf j.rk) (lineOf pc) l
            | _ => s
          if halted && t.half.isNone && (dueAt g t j f).isNone then s.takeTrap r 340 0 0 pc pc false
          else match f with
            | .absent page => s.pageFault r j.rk [page] 178 0 (lineOf pc) pc pc false
            | .trap c =>
              if c == 18 && s.debugged core j.rk && !t.skipDebug && (s.core core).dbg.breaks (groupId x g) pc then s.takeTrap r 337 0 0 pc pc false
              else s.takeTrap r c 0 (if c == 18 then 0 else lineOf pc) pc pc false
            | .verify page => (s.putWait r (.verify page)).modJob x.jn fun j =>
                { j with verifying := if j.verifying.contains page then j.verifying else j.verifying ++ [page] }
            | .line l =>
              let s' := match t.half with
                | some h => (s.issueHalf r x g t j h l).cutRun r core j
                | none => s.issueLine r x g t j l
              let ended := match s'.strand? r with | some u => u.half.isNone | none => true
              if s'.bayBusy core bay && ended then s'.afterIssue r core j.rk (groupId x g) ((t.half.map Half.pc).getD pc) else s')
  | _, _, _ => s.modCore core fun k => { k with bays := setAt k.bays bay { (k.bays.getD bay Bay.reset) with run := none } }

/-! ### Cycles (DESIGN CHOICE, notes/assumptions/2.md) -/

/-- Whether a resident slice has a group in a bay, named by 4 × core + bay. -/
def Slice.inBay (x : Slice) (key : Nat) : Bool :=
  x.st == .resident && x.core == key / 4 && x.groups.any fun g => g.bay == key % 4 && !g.retired
/-- The next bay whose turn it is in this cycle: the lowest occupied one from `turn` on. -/
def State.nextBay (s : State) : Option Nat :=
  (s.slices.flatMap fun e => (List.range Config.baysPerCore).filterMap fun b =>
    let key := 4 * e.2.core + b
    if decide (s.turn ≤ key) && e.2.inBay key then some key else none).foldl (fun (m : Option Nat) k => match m with
      | none => some k
      | some n => some (min n k)) none
/-- An idle cycle of a bay counted (R65, R328). -/
def State.countIdle (s : State) (key : Nat) : State := match s.slices.find? fun e => e.2.inBay key with
  | some e => s.count (key / 4) (s.sliceRegion e.2) .idleCycles 1
  | none => s
/-- A cycle passes: its passes have taken their budget (R31), results land, and strands whose waits are over become Ready. -/
def State.tick (s : State) : State :=
  let s := { s with clock := s.clock + 1, turn := 0 }
  let land : Nat × Slice → Nat × Slice := fun e =>
    if e.2.st == .resident then (e.1, { e.2.spendTo s.clock with groups := e.2.groups.map fun g => g.land s.clock }) else e
  let s : State := { s with slices := s.slices.map land }
  let s := if s.promoted.isEmpty then s else s.settleEvicted
  s.slices.foldl (fun (s : State) (e : Nat × Slice) => if e.2.st == .resident then
    (List.range e.2.groups.length).foldl (fun s gi => s.wakeGroup e.1 gi) s else s) s
/-- A bay's turn: it arbitrates, or its run goes on; its turn is over once it issues, is busy, or has nothing to issue in this cycle. -/
def State.bayTurn (s : State) (key : Nat) : State :=
  let core := key / 4
  let bay := key % 4
  let turnDone := fun (s : State) => { s with turn := key + 1 }
  if s.bayBusy core bay then turnDone s
  else match ((s.core core).bays.getD bay Bay.reset).run with
    | none =>
      let s' := s.arbitrate core bay
      if (((s'.core core).bays.getD bay Bay.reset).run).isSome then s' else turnDone (s'.countIdle key)
    | some r =>
      let s' := s.issueRun core bay r
      if s'.bayBusy core bay then turnDone s'
      else if ((s'.core core).bays.getD bay Bay.reset).run == some r then turnDone (s'.countIdle key)
      else s'
/-- The machine's own turn: the turn of the next bay, or the next cycle. -/
def State.ownTurn (s : State) : State := match s.nextBay with
  | some k => s.bayTurn k
  | none => s.tick
/-- One step where `agenda` asks for nothing: the event that the machine carries out by itself, or its own turn. -/
def State.advance (s : State) : Host.Outcome State Fault Refusal := match s.schedule with
  | some i => exec i s
  | none => .next s.ownTurn
/-- One step, from a state in which a debug halt whose strands have all stopped is over (R329): the event at the head of `agenda`, or what the machine does by itself. An instruction is no event: at the head of `agenda` it stands for the
machine's own turn, taken before any event that is already possible. -/
def State.stepOnce (was : State) : Host.Outcome State Fault Refusal :=
  let s := was.settleHalts
  match was.agenda with
  | i :: rest =>
    let s : State := { s with agenda := rest, cur := none }
    if i.hdr.isSome then .next s.ownTurn else exec i s
  | [] => State.advance { s with cur := none }

/-! ### A state that fetches a given word (DESIGN CHOICE, notes/assumptions/4.md) -/

/-- The line word of a line whose first slot holds a word and whose other slots are zero (R44): slot 0 may be entered. -/
def firstLineWord (w : Nat) : Nat :=
  let n := 1 + (if evenOnes 96 w then 0 else 2 ^ 9) + 2 ^ 28
  if evenOnes 32 n then n else n + 2 ^ 14
/-- The 64 bytes of that line. -/
def firstLine (w : Nat) : List Byte := bytesOf 12 w ++ List.replicate 48 0#8 ++ bytesOf 4 (firstLineWord w)
/-- The job that such a state runs: one slice of one group of 32 lanes, with every register the classes have. -/
def fetchJob : Job :=
  let h : KHeader := { width := 32, groups := 1, vregs := 256, gregs := 64, harn := 8, acc := 192, scratch := 65536, stack := 4096, budget := 0,
                       entry := 0, codeSize := 65536, dataOff := 0, dataSize := 0, pages := 1, steal := false, chk := false }
  { jobOf 0 0 (regionKey 0 1) 0 { deadline := 0, dstep := 0, slices := 1, tag := 1, cps := false, cq := 0, code := 2 ^ 56, args := [], recs := [] }
      h (2 ^ 64 - 1) 0 with verified := [(2 ^ 56 + 65536) / 65536] }
/-- The state with a word at the program counter of the one strand that holds a bay. -/
def State.fetchState (s : State) (w : Nat) : State :=
  let root := bytesOf 8 (1 + 0x120000)
  let leaf := bytesOf 8 (63 + 0x10000000 + s.chip * 2 ^ 48)
  let mem := Sparse.putList 0#8 (Sparse.putList 0#8 (Sparse.putList 0#8 s.mem 0x100000 root) 0x120000 leaf) 0x10010000 (firstLine (w % 2 ^ 96))
  let region : Region := { tenantDefaults with level := 1, rcbVa := 2 ^ 56 + 0x20000, save := 2 ^ 56 + 0x1000000, saveSize := 16 }
  let rk := regionKey 0 1
  let h1 := { Harness.fresh (handleOf (keyTag rk) 0xFFF 0) s.chip rk .dev none false 0 with queued := 1 }
  let s := { s with
    mem := mem, memFailed := []
    tenants := Sparse.set s.tenants 0 { (s.tenant 0) with root := 0x100000, valid := true }
    regions := [(rk, region)], jobs := [(0, fetchJob)], slices := [], cores := [], harnesses := [(.job 0, h1)], queues := [], remotes := [], batches := []
    watches := [], made := [], got := [], agenda := [], turn := 0, cur := none, nextId := max 2 s.nextId }
  let s := s.placeNew 1 0 0 0 [0] none
  let r : StrandRef := ⟨1, 0, 0⟩
  let s := s.modStrand r fun t => { t with st := .issuing }
  s.modCore 0 fun k => { k with bays := setAt k.bays 0 { (k.bays.getD 0 Bay.reset) with run := some r } }

end Sys2Proof.Machine
end

