-- ==== Sys2Proof/Machine/Step.lean ====
section
/-!
DEFINITION. One step of the machine, and a state that fetches a given word next.
-/

namespace Sys2Proof.Machine

/-- One step (DESIGN CHOICE, notes/assumptions/2.md). -/
def step (s : State) : Host.Outcome State Fault Refusal := s.stepOnce

/-- `s` with an instruction where `step` fetches the next one (DESIGN CHOICE, notes/assumptions/4.md): the tenant, tables, region, job, slice and run that a
fetch needs, and the word in the line at the program counter. A 256-bit entry is a queue command, which the next step carries out. -/
def State.withFetchWord (s : State) (nbits w : Nat) : State :=
  if nbits == 256 then { s with agenda := (decodeCommand none w).toList } else s.fetchState w

end Sys2Proof.Machine
end

