-- ==== Sys2Proof/Safety.lean ====
section
/-!
DEFINITION. What counts as a well-formed state, and the terms in which claims about the machine are stated: the value of a register at a cycle,
when an instruction may issue with its effect, and what it leaves unchanged.
-/

namespace Sys2Proof.Machine

/-- The memories of a state are in their canonical form (DESIGN CHOICE, notes/assumptions/1.md). -/
def State.memOk (s : State) : Bool := Memory.wf s.mem && Memory.wf s.hostMem

/-! ### Registers at a cycle (R25, R67) -/

/-- A strand's group as a pass at a cycle reads it. -/
def State.groupAt (s : State) (r : StrandRef) (cycle : Nat) : Group := match s.group? r.sid r.gi with
  | some g => g.view cycle
  | none => default
/-- The value of register `n` of a class, in a lane, for a strand of a group: v and p registers by lane, a harness handle with its chip id above
its 32 bits, a scale register as it is kept. Classes k and j are not kept in the group and give 0. -/
def Group.reg (g : Group) (sn : Nat) (c : Cls) (n lane : Nat) : Nat := match c with
  | .v => (g.vreg n lane).toNat
  | .g => (g.greg n).toNat
  | .p => (match g.strand? sn with | some t => if (t.c.p.getD n 0).getLsbD lane then 1 else 0 | none => 0)
  | .gp => if g.gp.getLsbD n then 1 else 0
  | .b => (g.breg n).toNat
  | .th => (g.threg n).toNat
  | .h => (g.hreg n).handle.toNat + 2 ^ 32 * (g.hreg n).chip
  | .sc => (Sparse.get 0x3F800000 g.sc n).toNat
  | .am => (Sparse.get 0 g.am n).toNat
  | .k => 0
  | .j => 0
/-- The value of a register as a pass of a strand at a cycle reads it. -/
def State.reg (s : State) (r : StrandRef) (cycle : Nat) (c : Cls) (n lane : Nat) : Nat := (s.groupAt r cycle).reg r.sn c n lane

/-! ### When an instruction issues (R50, R62, R67, R93 to R95) -/

/-- What an instruction sees where nothing shared by all instructions stops it: the cursor names a live strand and is not presented from the
held queue, no check of R62 on its registers or encoding fails, its group guard is true, no source is read too early in checked mode (R67), its
registers lie in the strand's window and an arm may write them (R94) but for the instructions that trap with 224 under a fork (R95, R436), it is allowed under a fork (R95), and it
reads no word with an uncorrectable error (R315). -/
def State.clear (s : State) (i : Instr) : Option X := match s.cur, i.hdr with
  | some c, some h => (mkX c i h s).bind fun x =>
      let ops := x.ops i h
      if c.held.isNone && !ops.any (rangeBad x.vregs x.gregs x.acc i) && (encCause i).isNone && !x.gfalse &&
          !(x.was.group.chk && (x.earlyRead ops).isSome) && !(x.windowBad i ops && !(claims i && x.underFork)) && !(noFork i && x.underFork) && !x.eccBad i ops
      then some x else none
  | _, _ => none
/-- The cursor's strand as it stands; what an instruction of a pair reads of it may be older (R69). -/
def X.now (x : X) : Strand := (x.g.strand? x.cur.who.sn).getD x.t
/-- The state after an instruction has paid for its issue (R25, R31, R64) and before its effect. -/
def State.charged (s : State) (x : X) (i : Instr) : State := charge x i (i.hdr.getD default) s
/-- The state after the effect: the END bit ends the run (R64), and the cursor is cleared. -/
def State.issued (s : State) (x : X) (i : Instr) : State :=
  { (if (i.hdr.getD default).endRun then s.endRun x.cur.who else s) with cur := none }
/-- Where the trap of an instruction resumes: its own slot, or the first slot of its pair (R69). -/
def X.trapPc (x : X) : Nat := x.cur.pairPc.getD x.cur.pc
/-- The state after an instruction has trapped before it issued (R306); the cursor keeps the trap. -/
def State.trapped (s : State) (x : X) (cause lane detail : Nat) : State :=
  { s.takeTrap x.cur.who cause lane detail x.trapPc x.cur.pc false with cur := some { x.cur with met := some (cause, lane, detail) } }

/-- An instruction that nothing shared stops runs to a next state with a property. -/
def completes (i : Instr) (s : State) (P : X → State → Prop) : Prop := ∀ x, s.clear i = some x → ∃ t, exec i s = .next t ∧ P x t

/-! ### Results (R23, R25, R66) -/

/-- The lanes of the mask that a pass of the declared width issues (R23). -/
def X.laneOk (x : X) (L : Nat) : Prop := x.mask.getLsbD L = true ∧ L < 32 * passesOf x.width
/-- Lane `L` of a v register reads `f L` from `lat` cycles after its pass on. -/
def X.wroteV (x : X) (t : State) (d lat : Nat) (f : Nat → Nat) : Prop :=
  ∀ L, x.laneOk L → ∀ cycle, x.cur.cycle + L / 32 + lat ≤ cycle → t.reg x.cur.who cycle .v d L = f L % 2 ^ 32
/-- A g register reads a value from `lat` cycles after the issue on. -/
def X.wroteG (x : X) (t : State) (d lat v : Nat) : Prop :=
  ∀ cycle, x.cur.cycle + lat ≤ cycle → t.reg x.cur.who cycle .g d 0 = v % 2 ^ 32
/-- Lane `L` of a lane predicate reads `f L`. -/
def X.wroteP (x : X) (t : State) (d lat : Nat) (f : Nat → Bool) : Prop :=
  ∀ L, x.laneOk L → ∀ cycle, x.cur.cycle + L / 32 + lat ≤ cycle → t.reg x.cur.who cycle .p d L = if f L then 1 else 0
/-- A group predicate reads a value. -/
def X.wroteGp (x : X) (t : State) (d lat : Nat) (v : Bool) : Prop :=
  ∀ cycle, x.cur.cycle + lat ≤ cycle → t.reg x.cur.who cycle .gp d 0 = if v then 1 else 0
/-- A 32-bit result, or the even-odd pair of a 64-bit one, in v registers lane by lane or, in a uniform form, in g registers (R59, R108). -/
def X.wroteInt (x : X) (t : State) (uni wide : Bool) (d lat : Nat) (f : Nat → Nat) : Prop :=
  if uni then x.wroteG t d lat (f 0) ∧ (wide = true → x.wroteG t (d + 1) lat (f 0 / 2 ^ 32))
  else x.wroteV t d lat f ∧ (wide = true → x.wroteV t (d + 1) lat fun L => f L / 2 ^ 32)

/-- A result is pending (R66): the registers that wait for it, when it is due, and the writes that it makes. -/
def X.pends (x : X) (t : State) (dst : List (Cls × Nat)) (due : Nat) (wrs : List RegWr) : Prop :=
  ∃ g f, t.group? x.cur.who.sid x.cur.who.gi = some g ∧ f ∈ g.inflight ∧ f.sn = x.cur.who.sn ∧ f.dst = dst ∧ f.mask = x.mask ∧
    f.shadow = [] ∧ f.body = .timed due wrs

/-- The group of the instruction, after it, holds one pending result more: the registers that wait for it and what it waits for. -/
def X.gains (x : X) (t : State) (dst : List (Cls × Nat)) (P : Inflight → Prop) : Prop :=
  ∃ g f, t.group? x.cur.who.sid x.cur.who.gi = some g ∧ g.inflight = x.g.inflight ++ [f] ∧ f.sn = x.cur.who.sn ∧ f.mask = x.mask ∧
    f.dst = dst ∧ f.cpc = x.cur.pc ∧ P f
/-- The strand owes a deferred trap (R306). -/
def X.owes (x : X) (t : State) (cause : Nat) (due : Due) : Prop :=
  ∃ u e, t.strand? x.cur.who = some u ∧ e ∈ u.deferred ∧ e.cause = cause ∧ e.cpc = x.cur.pc ∧ e.due = due
/-- The deferred traps that a strand owes for its commands (R96, R306): the last of the parts of a serialised fork that it still runs owes them. -/
def Strand.owed (u : Strand) : List Deferred := match u.next.getLast? with
  | none => u.deferred
  | some p => p.owed
/-- The strand owes the deferred trap of a command. -/
def X.owesLast (x : X) (t : State) (cause : Nat) (due : Due) : Prop :=
  ∃ u e, t.strand? x.cur.who = some u ∧ e ∈ u.owed ∧ e.cause = cause ∧ e.cpc = x.cur.pc ∧ e.due = due

/-- A request to the module that holds a harness: it carries the fabric tenant and the tag of the region that asks (R337). -/
def X.askMsg (x : X) (s : State) (key : HKey) (v : HVal) (op : HAsk) (id : Nat) : OutMsg :=
  .harness v.chip key (.here x.me) (.ask id v.handle (s.tenant (keyVf x.rk)).ftid (keyTag x.rk) op)
/-- The strand waits for the module that holds a harness, to which a request has gone out (R250). -/
def X.asks (x : X) (s t : State) (key : HKey) (v : HVal) (op : HAsk) : Prop := x.gains t [] fun f => f.body = .ask key v.chip none none ∧
  (∃ u, t.strand? x.cur.who = some u ∧ u.st = .scoreboard (.answer f.id)) ∧ x.askMsg s key v op f.id ∈ t.out
/-- What an instruction does with the answer to its request (R250): none yet, it waits; one that has come, with the phase's completion where that has come too, leads to what
the property says of it. -/
def X.replied (x : X) (s : State) (i : Instr) (P : Nat → HReply → Option (Bool × W32) → Prop) : Prop :=
  ∀ f k c reply res, x.asked = some f → f.body = .ask k c reply res → match reply with
    | none => exec i s = .next (x.waits (.answer f.id) s)
    | some r => P f.id r res
/-- The trap of an instruction whose request is forgotten with it (R250). -/
def X.refusal (x : X) (s : State) (id cause detail : Nat) : State := (x.forget id s).trapped x cause 0 detail
/-- What an instruction does whose harness another module holds (R250): it asks that module and waits before issue, a refusal traps with the cause that it names, and
a grant lets it go on, with the request's number, the member's index, the phase, whether a join took effect at once, the value and the phase's completion. -/
def X.remote (x : X) (s : State) (i : Instr) (key : HKey) (v : HVal) (op : HAsk)
    (P : Nat → Nat → Nat → Bool → W32 → Option (Bool × W32) → Prop) : Prop :=
  (x.asked = none → ∃ t, exec i s = .next t ∧ x.asks s t key v op) ∧
  x.replied s i fun id r res => match r with
    | .refuse _ cause detail => exec i s = .next (x.refusal s id cause detail)
    | .grant _ idx phase now value => P id idx phase now value res
    | _ => True

/-- The 64 bytes of a straggler record's header, all of it in sound memory of this module, with no store on its way (R289). -/
def X.stragReads (x : X) (s : State) (r : BitVec 128) (bs : List Byte) : Prop :=
  let u := s.drainCore x.x.core
  recPw r = true ∧ recPr r = true ∧ recElem r = 8 ∧ recStride r = 8 ∧ 64 ≤ recWindow r ∧ (∀ c, (u.core c).buf = []) ∧
  (∀ f ∈ x.g.inflight, ∀ va loc st b e, f.body ≠ .scload 16 va loc st b e) ∧ ∃ at_ : Nat → Nat, bs = (List.range 8).flatMap (fun j => u.peek (at_ j) 8) ∧
    ∀ j, j < 8 → u.translate (keyVf x.rk) .load (recAddr r (8 * j)) = .ok (.mem (at_ j)) ∧ u.failedIn (at_ j) 8 = []

/-- The strand has gone to a program counter and its run has ended (R64). -/
def X.goesTo (x : X) (t : State) (pc : Nat) (e : Entry) : Prop :=
  ∃ u, t.strand? x.cur.who = some u ∧ u.c.pc = pc ∧ u.entry = e ∧ u.st = .ready ∧ u.runLen = 0
/-! ### What an instruction leaves -/

/-- Whether an instruction's operands name register `n` of a class as written, in a lane of its mask where the class has lanes. -/
def X.writes (x : X) (i : Instr) (c : Cls) (n lane : Nat) : Bool :=
  (x.ops i (i.hdr.getD default)).any fun o => o.wr && o.cls == c && decide (o.num ≤ n) && decide (n < o.num + o.cnt) &&
    (!(c == .v || c == .p) || x.mask.getLsbD lane)
/-- Memory, failed granules, the host's memory, tenants, regions, jobs, queues and harnesses are as before. -/
def sameMachine (s t : State) : Prop :=
  t.mem = s.mem ∧ t.memFailed = s.memFailed ∧ t.hostMem = s.hostMem ∧ t.hostPages = s.hostPages ∧ t.tenants = s.tenants ∧
  t.regions = s.regions ∧ t.jobs = s.jobs ∧ t.queues = s.queues ∧ t.harnesses = s.harnesses
/-- Every register of the strand's group but those listed reads as before, at every cycle. -/
def X.keepsBut (x : X) (l : List (Cls × Nat)) (s t : State) : Prop :=
  ∀ cycle c n lane, (c, n) ∉ l → t.reg x.cur.who cycle c n lane = s.reg x.cur.who cycle c n lane
/-- Every register of the strand's group reads as before, at every cycle, and the machine around it is as before. -/
def X.sameRegs (x : X) (s t : State) : Prop :=
  (∀ cycle c n lane, t.reg x.cur.who cycle c n lane = s.reg x.cur.who cycle c n lane) ∧ sameMachine s t

/-- What a group shares and no integer, floating or lane instruction writes (R80): records of it beside the registers. -/
def sameShared (g k : Group) : Prop :=
  k.chk = g.chk ∧ k.rerr = g.rerr ∧ k.replay = g.replay ∧ k.watch = g.watch ∧ k.frames = g.frames ∧ k.stack = g.stack ∧
  k.ecc = g.ecc ∧ k.retired = g.retired ∧ k.n = g.n ∧ k.bay = g.bay ∧ k.slot = g.slot
/-- What a strand keeps (R27): its mask, FMT, stack pointer and limit, window, role, frames and held queue. -/
def sameContext (a b : Ctx) : Prop :=
  b.mask = a.mask ∧ b.fmt = a.fmt ∧ b.sp = a.sp ∧ b.sl = a.sl ∧ b.lo = a.lo ∧ b.hi = a.hi ∧ b.arm = a.arm ∧ b.own = a.own ∧
  b.held = a.held

end Sys2Proof.Machine
end

