-- ==== Sys2Proof/Certificates/Slice0/Obligations.lean ====
section
/-!
DEFINITION. The statements about the model: one `Obligations.<Name> : Prop` each, listed in OBLIGATIONS.json. `completes` and the other
terms they are stated in are in Sys2Proof/Safety.lean.
-/

open Sys2Proof Sys2Proof.Machine

/-! ### Integer instructions -/

/-- The result of an integer entry (R390): wrapped, or under `.sat` clamped, to the range of the type, and a narrow result extended to 32 bits by
its signedness.
IADD, ISUB, IMIN and IMAX complete with the exact sum, difference, lesser and greater of their operands, brought into the type, readable 4
cycles after each pass (R403, R390, R25).
INEG and IABS complete with the exact negation and magnitude, brought into the type: without `.sat` the most negative number gives itself
(R402, R390). -/
def Obligations.IntegerSums : Prop :=
  (∀ (ty : IntTy) (v : Int),
     let w := ty.width
     let lo : Int := if ty.signed then -(2 ^ (w - 1)) else 0
     let hi : Int := if ty.signed then 2 ^ (w - 1) - 1 else 2 ^ w - 1
     let read := fun (r : Nat) => if ty.signed then signedOf w r else (r % 2 ^ w : Nat)
     let wrapped := intOut ty false v
     let clamped := intOut ty true v
     lo ≤ read wrapped ∧ read wrapped ≤ hi ∧ (2 ^ w : Int) ∣ read wrapped - v ∧
     read clamped = max lo (min hi v) ∧
     (ty.wide = false → wrapped < 2 ^ 32 ∧ (if ty.signed then signedOf 32 wrapped else (wrapped : Int)) = read wrapped) ∧
     (ty.wide = true → wrapped < 2 ^ 64)) ∧
  (∀ (h : Hdr) (u : Bool) (ty : IntTy) (sat : Bool) (d : Nat) (a b : Src) (s : State),
     completes (.iadd h u ty sat d a b) s (fun x t => x.wroteInt t u ty.wide d 4 fun L => intOut ty sat (x.int ty L a + x.int ty L b)) ∧
     completes (.isub h u ty sat d a b) s (fun x t => x.wroteInt t u ty.wide d 4 fun L => intOut ty sat (x.int ty L a - x.int ty L b)) ∧
     completes (.imin h u ty d a b) s (fun x t => x.wroteInt t u ty.wide d 4 fun L =>
       intOut ty false (if x.int ty L a ≤ x.int ty L b then x.int ty L a else x.int ty L b)) ∧
     completes (.imax h u ty d a b) s (fun x t => x.wroteInt t u ty.wide d 4 fun L =>
       intOut ty false (if x.int ty L a ≤ x.int ty L b then x.int ty L b else x.int ty L a))) ∧
  (∀ (h : Hdr) (u : Bool) (ty : IntTy) (sat : Bool) (d : Nat) (a : Src) (s : State),
     completes (.ineg h u ty sat d a) s (fun x t => x.wroteInt t u ty.wide d 4 fun L => intOut ty sat (-x.int ty L a)) ∧
     completes (.iabs h u ty sat d a) s (fun x t => x.wroteInt t u ty.wide d 4 fun L =>
       intOut ty sat (if x.int ty L a < 0 then -x.int ty L a else x.int ty L a)))

/-- IMUL, IMAD and IMULH complete with the product, the product plus the addend, and the high half of the exact product; their results are
readable 6 cycles after each pass, or 4 in a uniform form (R408, R66). -/
def Obligations.IntegerProducts : Prop := ∀ (h : Hdr) (u : Bool) (ty : IntTy) (sat : Bool) (d : Nat) (a b c : Src) (s : State),
  let lat := if u then 4 else 6
  completes (.imul h u ty sat d a b) s (fun x t => x.wroteInt t u ty.wide d lat fun L => intOut ty sat (x.int ty L a * x.int ty L b)) ∧
  completes (.imad h u ty sat d a b c) s (fun x t => x.wroteInt t u ty.wide d lat fun L =>
    intOut ty sat (x.int ty L a * x.int ty L b + x.int ty L c)) ∧
  completes (.imulh h u ty d a b) s (fun x t => x.wroteInt t u ty.wide d lat fun L =>
    intOut ty false ((x.int ty L a * x.int ty L b) >>> ty.width))

/-- IDIV and IREM, with no zero divisor among their lanes, complete with a scoreboarded result: the quotient truncated toward zero, and the
remainder with the dividend's sign, due 40 cycles after the last pass, or 72 for a 64-bit type; the uniform form divides once (R406, R66).
IDIV and IREM with a zero divisor in a lane of the mask take the trap of cause 64, whose lane is the lowest such lane, and write nothing
(R406, R306). -/
def Obligations.Division : Prop :=
  (∀ (h : Hdr) (u : Bool) (ty : IntTy) (d : Nat) (a b : Src) (s : State) (x : X) (L : Nat),
     let due := x.cur.cycle + (if u then 0 else passesOf x.width - 1) + (if ty.wide then 72 else 40)
     let reg := if u then Cls.g else Cls.v
     let dst := if ty.wide then [(reg, d), (reg, d + 1)] else [(reg, d)]
     let wr := fun (n : Nat) (v : Nat) => if u then RegWr.g n (BitVec.ofNat 32 v) else .v n L (BitVec.ofNat 32 v)
     let gives := fun (i : Instr) (v : Int) => s.clear i = some x → ∃ t wrs, exec i s = .next t ∧ x.pends t dst due wrs ∧
       wr d (intOut ty false v) ∈ wrs ∧ (ty.wide = true → wr (d + 1) (intOut ty false v / 2 ^ 32) ∈ wrs)
     let p := x.int ty L a
     let q := x.int ty L b
     (if u then L = 0 else x.laneOk L) → (∀ K ∈ if u then [0] else x.lanes, x.int ty K b ≠ 0) →
     gives (.idiv h u ty d a b) ((if (p < 0 ↔ q < 0) then (1 : Int) else -1) * ((p.natAbs / q.natAbs : Nat) : Int)) ∧
     gives (.irem h u ty d a b) ((if p < 0 then (-1 : Int) else 1) * ((p.natAbs % q.natAbs : Nat) : Int))) ∧
  (∀ (h : Hdr) (u : Bool) (ty : IntTy) (d : Nat) (a b : Src) (s : State) (x : X) (L : Nat),
     let lanes := if u then [0] else x.lanes
     L ∈ lanes → x.int ty L b = 0 → (∀ K ∈ lanes, K < L → x.int ty K b ≠ 0) →
     (s.clear (.idiv h u ty d a b) = some x → exec (.idiv h u ty d a b) s = .next (s.trapped x 64 L 0)) ∧
     (s.clear (.irem h u ty d a b) = some x → exec (.irem h u ty d a b) s = .next (s.trapped x 64 L 0)))

/-- AND, OR, XOR, ANDN, NOT and MOV complete bit by bit over 32 or 64 bits, and MOVI with its immediate (R355, R429, R424). -/
def Obligations.BitwiseResults : Prop := ∀ (h : Hdr) (u w : Bool) (d : Nat) (a b : Src) (imm : W32) (s : State),
  completes (.and h u w d a b) s (fun x t => x.wroteInt t u w d 4 fun L => x.bits w L a &&& x.bits w L b) ∧
  completes (.or h u w d a b) s (fun x t => x.wroteInt t u w d 4 fun L => x.bits w L a ||| x.bits w L b) ∧
  completes (.xor h u w d a b) s (fun x t => x.wroteInt t u w d 4 fun L => x.bits w L a ^^^ x.bits w L b) ∧
  completes (.andn h u w d a b) s (fun x t => x.wroteInt t u w d 4 fun L => x.bits w L a &&& (x.bits w L a ^^^ x.bits w L b)) ∧
  completes (.not h u w d a) s (fun x t => x.wroteInt t u w d 4 fun L => (if w then 2 ^ 64 else 2 ^ 32) - 1 - x.bits w L a) ∧
  completes (.mov h u w d a) s (fun x t => x.wroteInt t u w d 4 fun L => x.bits w L a) ∧
  completes (.movi h u d imm) s (fun x t => x.wroteInt t u false d 4 fun _ => imm.toNat)

/-- SHL, SHR and SAR complete with the operand shifted by the whole count, which is not reduced: at the width and above SHL and SHR give 0 and
SAR copies of the sign (R441).
ISHRQ completes with the operand divided by two to the count, at most 31, rounded to the nearest with ties to even, and clamped to the type
(R410). -/
def Obligations.ShiftResults : Prop :=
  (∀ (h : Hdr) (u : Bool) (ty : IntTy) (d : Nat) (a b : Src) (s : State),
     let val := fun (x : X) L => BitVec.ofNat ty.width (x.bits ty.wide L a)
     completes (.shl h u ty d a b) s (fun x t => x.wroteInt t u ty.wide d 4 fun L => (val x L <<< x.src L b).toNat) ∧
     completes (.shr h u ty d a b) s (fun x t => ty.width = 32 ∨ ty.wide = true →
       x.wroteInt t u ty.wide d 4 fun L => (val x L >>> x.src L b).toNat) ∧
     completes (.sar h u ty d a b) s (fun x t => x.wroteInt t u ty.wide d 4 fun L => ((val x L).sshiftRight (x.src L b)).toNat)) ∧
  (∀ (h : Hdr) (u : Bool) (ty : IntTy) (d : Nat) (a b : Src) (s : State),
     completes (.ishrq h u ty d a b) s fun x t => ∃ q : Nat → Int,
       (∀ L, let m : Int := 2 ^ min (x.src L b) 31
         2 * (x.int .s32 L a - q L * m).natAbs ≤ m ∧ (2 * (x.int .s32 L a - q L * m).natAbs = m → q L % 2 = 0)) ∧
       x.wroteInt t u false d 4 fun L => intOut ty true (q L))

/-- BFE and BFI complete with the field that bits 7:0 and 15:8 of the control word name, clamped to the width: BFE extends it by the type's
sign, BFI replaces it in the base (R361, R362).
BREV, CLZ and POPC complete with the bits reversed, the number of leading zero bits and the number of set bits (R368, R433). -/
def Obligations.BitFieldsAndCounts : Prop :=
  (∀ (h : Hdr) (u w : Bool) (ty : IntTy) (d : Nat) (a b c : Src) (s : State),
     let pos := fun (n ctl : Nat) => min (ctl % 256) n
     let len := fun (n ctl : Nat) => min (ctl / 256 % 256) (n - pos n ctl)
     completes (.bfe h u ty d a b) s (fun x t => ty.width = 32 ∨ ty.wide = true → x.wroteInt t u ty.wide d 4 fun L =>
       let n := ty.width
       let ctl := x.src L b
       let top := (BitVec.ofNat n (x.bits ty.wide L a) >>> pos n ctl) <<< (n - len n ctl)
       (if ty.signed then top.sshiftRight (n - len n ctl) else top >>> (n - len n ctl)).toNat) ∧
     completes (.bfi h u w d a b c) s (fun x t => x.wroteInt t u w d 4 fun L =>
       let n := if w then 64 else 32
       let ctl := x.src L b
       let mk := BitVec.ofNat n (2 ^ len n ctl - 1) <<< pos n ctl
       let base := BitVec.ofNat n (x.bits w L c)
       ((base &&& ~~~mk) ||| ((BitVec.ofNat n (x.bits w L a) <<< pos n ctl) &&& mk)).toNat)) ∧
  (∀ (h : Hdr) (u w : Bool) (d : Nat) (a : Src) (s : State),
     let n := if w then 64 else 32
     completes (.brev h u w d a) s (fun x t => x.wroteInt t u w d 4 fun L => (BitVec.ofNat n (x.bits w L a)).reverse.toNat) ∧
     completes (.clz h u w d a) s (fun x t => x.wroteInt t u false d 4 fun L => (BitVec.ofNat n (x.bits w L a)).clz.toNat) ∧
     completes (.popc h u w d a) s (fun x t => x.wroteInt t u false d 4 fun L => (List.range n).countP fun k => (x.bits w L a).testBit k))

/-- ISETP writes the comparison of the exact operands to a lane predicate, or in the uniform form to a group predicate; SEL takes A where the
predicate holds and B where not; IDP4 adds four byte products to C (R409, R444, R407). -/
def Obligations.CompareSelectDot : Prop := ∀ (h : Hdr) (u w sgn sat : Bool) (c : Cmp) (ty : IntTy) (d : Nat) (a b e : Src) (p : PredRef) (s : State),
  let holds := fun (x : X) L => match c with
    | .eq => x.int ty L a = x.int ty L b
    | .ne => x.int ty L a ≠ x.int ty L b
    | .lt => x.int ty L a < x.int ty L b
    | .le => x.int ty L a ≤ x.int ty L b
    | .gt => x.int ty L a > x.int ty L b
    | .ge => x.int ty L a ≥ x.int ty L b
    | .num => False
    | .nan => False
  (d < 7 → completes (.isetp h u c ty d a b) s (fun x t => ∀ r : Nat → Bool, (∀ L, r L = true ↔ holds x L) →
    if u then x.wroteGp t d 4 (r 0) else x.wroteP t d 4 r)) ∧
  completes (.sel h u w d a b p) s (fun x t => x.wroteInt t u w d 4 fun L => if x.pref p L then x.bits w L a else x.bits w L b) ∧
  completes (.idp4 h u sgn sat d a b e) s (fun x t => x.wroteInt t u false d (if u then 4 else 6) fun L =>
    let byte := fun (v k : Nat) => if sgn then (BitVec.ofNat 8 (v / 256 ^ k)).toInt else ((v / 256 ^ k % 256 : Nat) : Int)
    let dot := (List.range 4).foldl (fun n k => n + byte (x.src L a) k * byte (x.src L b) k) (x.int (if sgn then .s32 else .n32) L e)
    intOut (if sgn then .s32 else .n32) sat dot)

/-! ### Floating and lane instructions -/

/-- Sums and products of finite values are exact before rounding (R115): the sum and the product of two dyadic numbers, in any unit that divides
both.
Rounding to an integer (R115): nearest with ties to even, toward zero, down and up, for a number m / 2^k with its sign. -/
def Obligations.RoundingAndExactness : Prop :=
  (∀ (rm : Rm) (na nb : Bool) (ma mb : Nat) (ea eb q r : Int), q ≤ ea → r ≤ eb →
     (∃ n m e, (addV rm (.num na ma ea) (.num nb mb eb)).1 = .num n m e ∧
       ∀ p : Int, p ≤ ea → p ≤ eb → p ≤ e → scaledInt n m e p = scaledInt na ma ea p + scaledInt nb mb eb p) ∧
     (∃ n m e, (mulV (.num na ma ea) (.num nb mb eb)).1 = .num n m e ∧
       scaledInt n m e (q + r) = scaledInt na ma ea q * scaledInt nb mb eb r)) ∧
  (∀ (neg : Bool) (m k : Nat),
     let d := 2 ^ k
     let near := roundInt .rne neg m (-(k : Int))
     (2 * ((near * d : Int) - m).natAbs ≤ d ∧ (2 * ((near * d : Int) - m).natAbs = d → near % 2 = 0)) ∧
     roundInt .rz neg m (-(k : Int)) = m / d ∧
     (roundInt .rdn neg m (-(k : Int)) = if neg then (m + d - 1) / d else m / d) ∧
     (roundInt .rup neg m (-(k : Int)) = if neg then m / d else (m + d - 1) / d))

/-- FADD, FSUB, FMUL, FMIN, FMAX and FFMA, where no lane meets an enabled condition, complete with the exact result of their operands rounded
once under the mode of the instruction or of FMT, readable 4 cycles after each pass (R381, R386, R118, R352).
A floating instruction of which some lane meets an enabled condition writes nothing and takes the trap of the lowest such lane: 80 for an
invalid operation, 81 for a division by zero, 82 for an overflow, the lowest cause first (R118). -/
def Obligations.FloatArithmetic : Prop :=
  (∀ (h : Hdr) (rm : Option Rm) (ty : FloatTy) (d : Nat) (a b c : Src) (s : State),
     let gives := fun (i : Instr) (f : X → Nat → FOut) => ∀ x, s.clear i = some x → (∀ L ∈ x.lanes, condCause x.fmt (f x L) = none) →
       ∃ t, exec i s = .next t ∧ x.wroteV t d 4 fun L => (f x L).bits
     let mode := fun (x : X) => match rm with | some m => m | none => fmtRm x.fmt
     let val := fun (x : X) (v : FVal × Bool) => packV ty (mode x) (fmtSatf x.fmt) (fmtFtz x.fmt) v.1 v.2
     let sign := fun (v : FVal) => match v with | .nan => FVal.nan | .inf n => .inf (!n) | .num n m e => .num (!n) m e
     gives (.fadd h rm ty d a b) (fun x L => val x (addV (mode x) (x.f ty L a) (x.f ty L b))) ∧
     gives (.fsub h rm ty d a b) (fun x L => val x (addV (mode x) (x.f ty L a) (sign (x.f ty L b)))) ∧
     gives (.fmul h rm ty d a b) (fun x L => val x (mulV (x.f ty L a) (x.f ty L b))) ∧
     gives (.ffma h rm ty d a b c) (fun x L => val x (fmaV (mode x) (x.f ty L a) (x.f ty L b) (x.f ty L c))) ∧
     completes (.fmin h ty d a b) s (fun x t => x.wroteV t d 4 fun L =>
       (packV ty (fmtRm x.fmt) (fmtSatf x.fmt) (fmtFtz x.fmt) (minmaxV false (x.f ty L a) (x.f ty L b)) false).bits) ∧
     completes (.fmax h ty d a b) s (fun x t => x.wroteV t d 4 fun L =>
       (packV ty (fmtRm x.fmt) (fmtSatf x.fmt) (fmtFtz x.fmt) (minmaxV true (x.f ty L a) (x.f ty L b)) false).bits)) ∧
  (∀ (h : Hdr) (rm : Option Rm) (ty : FloatTy) (d : Nat) (a b : Src) (s : State) (x : X) (L cause : Nat),
     let mode := match rm with | some m => m | none => fmtRm x.fmt
     let out := fun (K : Nat) => packV ty mode (fmtSatf x.fmt) (fmtFtz x.fmt) (mulV (x.f ty K a) (x.f ty K b)).1 (mulV (x.f ty K a) (x.f ty K b)).2
     let rcp := fun (K : Nat) => frcpOf mode (fmtFtz x.fmt) (x.src K a)
     let met := fun (o : FOut) => if o.inv = true ∧ fmtTiv x.fmt = true then some 80
       else if o.dz = true ∧ fmtTdz x.fmt = true then some 81
       else if o.ovf = true ∧ fmtTof x.fmt = true then some 82 else none
     (s.clear (.fmul h rm ty d a b) = some x → L ∈ x.lanes → met (out L) = some cause → (∀ K ∈ x.lanes, K < L → met (out K) = none) →
       exec (.fmul h rm ty d a b) s = .next (s.trapped x cause L 0)) ∧
     (s.clear (.frcp h rm d a) = some x → L ∈ x.lanes → met (rcp L) = some cause → (∀ K ∈ x.lanes, K < L → met (rcp K) = none) →
       exec (.frcp h rm d a) s = .next (s.trapped x cause L 0)))

/-- HFMA2, CVT, BPACK and BUNPACK complete with two half products, a converted value, a packed block and its unpacked elements, where no lane
meets an enabled condition (R396, R378, R365, R366). -/
def Obligations.PackedAndConverted : Prop := ∀ (h : Hdr) (rm : Option Rm) (ty : FloatTy) (sat : Bool) (dt st : CvtTy) (w d a : Nat) (p q r : Src)
    (s : State),
  let mode := fun (x : X) => match rm with | some m => m | none => fmtRm x.fmt
  let half := fun (x : X) (L k : Nat) (o : Src) => decodeF ty (fmtFtz x.fmt) (match o with
    | .imm v => v.toNat
    | o => x.src L o / 2 ^ (16 * k) % 2 ^ 16)
  let fma2 := fun (x : X) (L k : Nat) =>
    let v := fmaV (mode x) (half x L k p) (half x L k q) (half x L k r)
    packV ty (mode x) (fmtSatf x.fmt) (fmtFtz x.fmt) v.1 v.2
  let conv := fun (x : X) (L : Nat) => match st, dt with
    | .int si, .int di => FOut.of (intOut di sat (x.int si L p))
    | .int si, .flt df => packV df (mode x) (fmtSatf x.fmt) (fmtFtz x.fmt) (.num (decide (x.int si L p < 0)) (x.int si L p).natAbs 0) false
    | .flt sf, .int di => ⟨intOut di false (if di.signed then signedOf di.width (floatToInt (mode x) di (x.f sf L p)).1
        else (floatToInt (mode x) di (x.f sf L p)).1), (floatToInt (mode x) di (x.f sf L p)).2, false, false⟩
    | .flt sf, .flt df => packV df (mode x) (fmtSatf x.fmt) (fmtFtz x.fmt) (x.f sf L p) false
  let block := fun (x : X) (k : Nat) => bfpPack w (mode x) ((List.range 32).map fun i =>
    if x.mask.getLsbD (32 * k + i) then decodeF .f32 (fmtFtz x.fmt) (x.v a (32 * k + i)) else .num false 0 0)
  (∀ x, s.clear (.hfma2 h rm ty d p q r) = some x → (∀ L ∈ x.lanes, ∀ k < 2, condCause x.fmt (fma2 x L k) = none) →
    ∃ t, exec (.hfma2 h rm ty d p q r) s = .next t ∧ x.wroteV t d 4 fun L => (fma2 x L 0).bits + 2 ^ 16 * (fma2 x L 1).bits) ∧
  (∀ x, s.clear (.cvt h rm sat dt st d p) = some x → (∀ L ∈ x.lanes, condCause x.fmt (conv x L) = none) →
    ∃ t, exec (.cvt h rm sat dt st d p) s = .next t ∧ x.wroteInt t false dt.wide d 4 fun L => (conv x L).bits) ∧
  (2 ≤ w → w ≤ 8 → ∀ x, s.clear (.bpack h rm w d a) = some x →
    (fmtTiv x.fmt = true → ∀ L ∈ x.lanes, anyNonFinite [decodeF .f32 (fmtFtz x.fmt) (x.v a L)] = false) →
    ∃ t, exec (.bpack h rm w d a) s = .next t ∧ x.wroteV t d 4 fun L =>
      if L % 32 < w then bitString w (block x (L / 32)).2 / 2 ^ (32 * (L % 32)) % 2 ^ 32 else (block x (L / 32)).1) ∧
  (2 ≤ w → w ≤ 8 → ∀ x, s.clear (.bunpack h rm w d a) = some x →
    let word := fun (L i : Nat) => if x.smask.getLsbD (L / 32 * 32 + i) then ((x.view L).vreg a (L / 32 * 32 + i)).toNat else 0
    let bits := fun (L : Nat) => (List.range w).foldl (fun n i => n + word L i * 2 ^ (32 * i)) 0 / 2 ^ (w * (L % 32)) % 2 ^ w
    let out := fun (L : Nat) => packV .f32 (mode x) (fmtSatf x.fmt) (fmtFtz x.fmt) (bfpVal w (word L w % 256) (bits L)) false
    (∀ L ∈ x.lanes, condCause x.fmt (out L) = none) →
    ∃ t, exec (.bunpack h rm w d a) s = .next t ∧ x.wroteV t d 4 fun L => (out L).bits)

/-- FSETP, FCLASS, FRCP, FSQRT, FRSQ, FEXP2, FLOG2, FSIN, FCOS and AMAX complete, where no lane meets an enabled condition: FSETP with a
comparison that is false for a NaN but for `.ne` and `.nan`, FCLASS with one class bit, the others 12 cycles after each pass with the f32 of their
entry (R388, R382, R384, R354). For FRSQ, FEXP2, FLOG2, FSIN and FCOS the value within the bound of R384 is the model's free step (log entry 6).
The special values of R384: FRCP of a zero is an infinity of its sign and a division by zero, FSQRT of a negative number is NaN and invalid,
FLOG2 of a zero is −∞ and a division by zero, FEXP2 of −∞ is +0, FCOS of a zero is 1, FSIN of a zero is that zero, and FSIN and FCOS of an
infinity are NaN and invalid. -/
def Obligations.FloatFunctions : Prop :=
  (∀ (h : Hdr) (rm : Option Rm) (c : Cmp) (ty : FloatTy) (d : Nat) (a b : Src) (s : State),
     let gives := fun (i : Instr) (f : X → Nat → FOut) => ∀ x, s.clear i = some x → (∀ L ∈ x.lanes, condCause x.fmt (f x L) = none) →
       ∃ t, exec i s = .next t ∧ x.wroteV t d 12 fun L => (f x L).bits
     let mode := fun (x : X) => match rm with | some m => m | none => fmtRm x.fmt
     let holds := fun (p q : FVal) => if p = .nan ∨ q = .nan then c = .ne ∨ c = .nan else match c with
       | .eq => cmpV p q = .eq
       | .ne => cmpV p q ≠ .eq
       | .lt => cmpV p q = .lt
       | .le => cmpV p q ≠ .gt
       | .gt => cmpV p q = .gt
       | .ge => cmpV p q ≠ .lt
       | .num => True
       | .nan => False
     (d < 7 → completes (.fsetp h c ty d a b) s (fun x t => ∀ r : Nat → Bool, (∀ L, r L = true ↔ holds (x.f ty L a) (x.f ty L b)) → x.wroteP t d 4 r)) ∧
     completes (.fclass h ty d a) s (fun x t => x.wroteV t d 4 fun L => match decodeF ty false (x.src L a) with
       | .nan => 2 ^ 8
       | .inf n => if n then 2 ^ 0 else 2 ^ 7
       | .num n m _ => if m = 0 then (if n then 2 ^ 3 else 2 ^ 4) else if m < 2 ^ manOf ty then (if n then 2 ^ 2 else 2 ^ 5) else if n then 2 ^ 1 else 2 ^ 6) ∧
     gives (.frcp h rm d a) (fun x L => frcpOf (mode x) (fmtFtz x.fmt) (x.src L a)) ∧
     gives (.fsqrt h rm d a) (fun x L => fsqrtOf (mode x) (fmtFtz x.fmt) (x.src L a)) ∧
     gives (.frsq h d a) (fun x L => frsqOf (fmtFtz x.fmt) (x.src L a)) ∧
     gives (.fexp2 h d a) (fun x L => fexp2Of (fmtFtz x.fmt) (x.src L a)) ∧
     gives (.flog2 h d a) (fun x L => flog2Of (fmtFtz x.fmt) (x.src L a)) ∧
     gives (.fsin h d a) (fun x L => fsinOf (fmtFtz x.fmt) (x.src L a)) ∧
     gives (.fcos h d a) (fun x L => fcosOf (fmtFtz x.fmt) (x.src L a)) ∧
     completes (.amax h ty d a) s (fun x t => ∀ cycle, x.cur.cycle + (passesOf x.width - 1) + 4 ≤ cycle →
       let old := s.reg x.cur.who cycle .am d 0
       let top := (packV .f32 .rne false false (x.lanes.foldl (fun m L => minmaxV true m (absV (x.f ty L a))) (.num false 0 0)) false).bits
       t.reg x.cur.who cycle .am d 0 = if x.view0.replay.isSome ∨ x.lanes = [] then old else max old (top % 2 ^ 32))) ∧
  (∀ (rm : Rm) (ftz neg : Bool) (m : Nat),
     let sign := if neg then 0x80000000 else 0
     frcpOf rm ftz sign = ⟨sign + 0x7F800000, false, true, false⟩ ∧
     frcpOf rm ftz (sign + 0x7F800000) = ⟨sign, false, false, false⟩ ∧
     fsqrtOf rm ftz 0x80000000 = ⟨0x80000000, false, false, false⟩ ∧
     (0 < m → m < 0x7F800000 → ftz = false → fsqrtOf rm ftz (0x80000000 + m) = ⟨0x7FC00000, true, false, false⟩) ∧
     fsqrtOf rm ftz 0x7F800000 = ⟨0x7F800000, false, false, false⟩ ∧
     frsqOf ftz sign = ⟨sign + 0x7F800000, false, true, false⟩ ∧
     frsqOf ftz 0x7F800000 = ⟨0, false, false, false⟩ ∧
     fexp2Of ftz 0xFF800000 = ⟨0, false, false, false⟩ ∧
     fexp2Of ftz 0x7F800000 = ⟨0x7F800000, false, false, false⟩ ∧
     flog2Of ftz sign = ⟨0xFF800000, false, true, false⟩ ∧
     flog2Of ftz 0x7F800000 = ⟨0x7F800000, false, false, false⟩ ∧
     fsinOf ftz sign = ⟨sign, false, false, false⟩ ∧
     fcosOf ftz sign = ⟨0x3F800000, false, false, false⟩ ∧
     fsinOf ftz (sign + 0x7F800000) = ⟨0x7FC00000, true, false, false⟩ ∧
     fcosOf ftz (sign + 0x7F800000) = ⟨0x7FC00000, true, false, false⟩)

/-- SHFL, ROT, VOTE and GMOV complete with the value of the lane they name, or with what the lanes of the strand vote (R440, R455, R392). -/
def Obligations.LaneExchange : Prop := ∀ (h : Hdr) (m : ShflMode) (fn : VoteFn) (neg : Bool) (p d a : Nat) (b : Src) (l : GmovLane) (s : State),
  completes (.shfl h m d a b) s (fun x t => x.wroteV t d 4 fun L =>
    let n := x.src L b
    let k : Int := match m with | .idx => n | .up => (L : Int) - n | .down => L + n | .xor => (L ^^^ n : Nat)
    if k < 0 ∨ (max x.width 32 : Nat) ≤ k then x.v a L else if x.smask.getLsbD k.toNat then x.v a k.toNat else 0) ∧
  completes (.rot h d a b) s (fun x t => x.wroteV t d 4 fun L =>
    let k := (L + x.src L b) % max x.width 32
    if x.smask.getLsbD k then x.v a k else 0) ∧
  completes (.vote h fn d neg p) s (fun x t =>
    let yes := fun (L : Nat) => x.smask.getLsbD L && (x.p p L != neg)
    match fn with
    | .any => d < 8 → x.wroteGp t d 4 ((List.range x.width).any yes)
    | .all => d < 8 → x.wroteGp t d 4 ((List.range x.width).all fun L => yes L || !x.smask.getLsbD L)
    | .cnt => x.wroteG t d 4 ((List.range x.width).countP yes)
    | .ballot => ∀ k, k < passesOf x.width → ∃ v, x.wroteG t (d + k) 4 v ∧ v < 2 ^ 32 ∧ ∀ i, i < 32 → v.testBit i = yes (32 * k + i)) ∧
  completes (.gmov h d a l) s (fun x t => x.wroteG t d 4 (
    let n := match l with | .imm n => some n | .reg g => some (x.gr g) | .first => (List.range 128).find? fun L => x.smask.getLsbD L
    match n with
    | some L => if L < x.width ∧ x.smask.getLsbD L = true then x.v a L else 0
    | none => 0))

/-- LRED, LSCAN, PLOG and PMOV complete: the reduction over the lanes of the mask in the tree of R123, its prefixes, a logic operation on
predicates, and a predicate moved to or from a register (R420, R431, R432). -/
def Obligations.LaneReduction : Prop := ∀ (h : Hdr) (toG excl : Bool) (rm : Option Rm) (op : RedOp) (ty : CvtTy) (d a p : Nat) (lop : PlogOp)
    (q r : PredRef) (b : Src) (s : State),
  let node := fun (x : X) => redNode op ty (match rm with | some m => m | none => fmtRm x.fmt) (fmtFtz x.fmt)
  let leaves := fun (x : X) => (List.range x.width).map fun L => x.redLeaf ty a L
  let total := fun (x : X) => (treeSum (node x) 7 (leaves x)).getD ⟨redEmpty op ty, false, false, false⟩
  let prefixes := fun (x : X) => scanAll (node x) (if excl then none :: (leaves x).dropLast else leaves x)
  (∀ x, s.clear (.lred h toG rm op ty d a) = some x → condCause x.fmt (total x) = none →
    ∃ t, exec (.lred h toG rm op ty d a) s = .next t ∧ x.wroteInt t toG ty.wide d 8 fun _ => (total x).bits) ∧
  (∀ x, s.clear (.lscan h excl rm op ty d a) = some x →
    (∀ L o, L < x.width → (prefixes x)[L]? = some (some o) → condCause x.fmt o = none) →
    ∃ t, exec (.lscan h excl rm op ty d a) s = .next t ∧ x.wroteInt t false ty.wide d 8 fun L => match (prefixes x)[L]? with
      | some (some o) => o.bits
      | _ => redEmpty op ty) ∧
  (d < 7 → completes (.plog h lop d q r) s (fun x t => x.wroteP t d 4 fun L => match lop with
    | .and => x.pref q L && x.pref r L
    | .or => x.pref q L || x.pref r L
    | .xor => x.pref q L ^^ x.pref r L
    | .mov => x.pref q L)) ∧
  completes (.pmov h (.toReg d p)) s (fun x t => x.wroteV t d 4 fun L => if x.p p L then 1 else 0) ∧
  (p < 7 → completes (.pmov h (.toPred p b)) s (fun x t => x.wroteP t p 4 fun L => decide (x.src L b ≠ 0)))

/-- An integer, floating or lane instruction that raises no trap leaves every register that it does not name as destination as it reads before, at
every cycle, in its own lanes and outside its mask; the other strands' predicates, the strand's context but for its program counter, what the
group shares, every other group, and all memory too (R23, R27, R80). -/
def Obligations.AluFrame : Prop := ∀ (i : Instr) (s : State) (x : X) (ev : Eval) (l : List (List RegWr)),
  s.clear i = some x → i.wellFormed = true → evalOf i = some ev → ev x = .ok l → ∃ t, exec i s = .next t ∧ sameMachine s t ∧
    (∀ cycle c n lane, lane < 128 → x.writes i c n lane = false → t.reg x.cur.who cycle c n lane = s.reg x.cur.who cycle c n lane) ∧
    (∀ sn cycle n lane, sn ≠ x.cur.who.sn → lane < 128 →
      t.reg ⟨x.cur.who.sid, x.cur.who.gi, sn⟩ cycle .p n lane = s.reg ⟨x.cur.who.sid, x.cur.who.gi, sn⟩ cycle .p n lane) ∧
    (∃ g k, s.group? x.cur.who.sid x.cur.who.gi = some g ∧ t.group? x.cur.who.sid x.cur.who.gi = some k ∧ sameShared g k ∧
      ∀ sn u, g.strand? sn = some u → ∃ v, k.strand? sn = some v ∧ sameContext u.c v.c) ∧
    (∀ sid gi, (sid, gi) ≠ (x.cur.who.sid, x.cur.who.gi) → t.group? sid gi = s.group? sid gi) ∧
    (∀ a, t.byteAt a = s.byteAt a)

/-- What an instruction reads (R24, R25): v registers and lane predicates at the cycle of their lane's pass, registers of the group at the first
pass, all from the group as it stood before the instruction. -/
def Obligations.SourcesReadByPass : Prop := ∀ (i : Instr) (s : State) (x : X) (n L : Nat), s.clear i = some x → x.cur.src = none → x.cur.sources = [] →
  isPerLane i = true → L < 32 * passesOf x.width →
  x.v n L = s.reg x.cur.who (x.cur.cycle + L / 32) .v n L ∧
  (n < 7 → x.p n L = decide (s.reg x.cur.who (x.cur.cycle + L / 32) .p n L = 1)) ∧
  x.gr n = s.reg x.cur.who x.cur.cycle .g n 0 ∧
  (n < 7 → x.gp n = decide (s.reg x.cur.who x.cur.cycle .gp n 0 = 1))

/-! ### Control, fork and join -/

/-- BRA, JMPX, CALL, RET and NOP: a transfer goes to its target and ends the run; JMPX traps with 19, 17 or 18 on a bad target; CALL pushes the link
of every lane and moves SP, or traps with 155, or with 192 where the link would reach the stack of an open continuation; RET goes to the return address of a valid link and restores SP; NOP goes on (R57, R367, R411, R370,
R371, R438, R428). -/
def Obligations.ControlTransfers : Prop := ∀ (h : Hdr) (tg : Target) (a n : Nat) (s : State) (x : X),
  let line : Int := x.cur.pc / 64 + tg.line
  let target := (64 * line).toNat + tg.slot
  let c := x.t.c
  let v := x.gr a
  let sp := c.sp - 16 - 16 * n
  (0 ≤ line → 64 * line < 2 ^ 57 →
    (s.clear (.bra h tg) = some x → ∃ t, exec (.bra h tg) s = .next t ∧ x.goesTo t target .transfer ∧ x.sameRegs s t) ∧
    (s.clear (.call h n tg) = some x → c.sl + 16 + 16 * n ≤ c.sp → x.aboveBase (sp + 16) = false → x.g.stackFailed = [] →
      ∃ t k u, exec (.call h n tg) s = .next t ∧ x.goesTo t target .transfer ∧ t.group? x.cur.who.sid x.cur.who.gi = some k ∧
        t.strand? x.cur.who = some u ∧ u.c.sp = sp ∧ t.mem = s.mem ∧
        ∀ L, x.smask.getLsbD L = true → ofBytes (k.peekStack L sp 16) = x.cur.nextPc % 2 ^ 57 + 2 ^ 64 * (c.sp % 2 ^ 32) + 2 ^ 96 * 0x4B4E494C)) ∧
  (s.clear (.call h n tg) = some x → c.sp < c.sl + 16 + 16 * n →
    exec (.call h n tg) s = .next (s.trapped x 155 0 (patternOf 64 ((c.sp : Int) - 16 - 16 * n)))) ∧
  (s.clear (.call h n tg) = some x → c.sl + 16 + 16 * n ≤ c.sp → x.aboveBase (sp + 16) = true → exec (.call h n tg) s = .next (s.trapped x 192 0 0)) ∧
  (s.clear (.jmpx h a) = some x →
    if v / 8 % 8 ≠ 0 then exec (.jmpx h a) s = .next (s.trapped x 19 0 0)
    else if 4 < v % 8 then exec (.jmpx h a) s = .next (s.trapped x 17 0 0)
    else if x.hdr.codeSize ≤ v / 64 * 64 then exec (.jmpx h a) s = .next (s.trapped x 18 0 0)
    else ∃ t, exec (.jmpx h a) s = .next t ∧ x.goesTo t (x.code + 0x10000 + v / 64 * 64 + v % 8) .transfer ∧ x.sameRegs s t) ∧
  (∀ rpc osp, s.clear (.ret h) = some x → x.aboveBase (c.sp + 16) = false → x.g.stackFailed = [] → c.held = [] → x.smask ≠ 0 →
    rpc < 2 ^ 57 → c.sp + 16 ≤ osp → osp ≤ x.hdr.stack → osp < 2 ^ 32 →
    (∀ L, x.smask.getLsbD L = true → ofBytes (x.g.peekStack L c.sp 16) = rpc + 2 ^ 64 * osp + 2 ^ 96 * 0x4B4E494C) →
    ∃ t u, exec (.ret h) s = .next t ∧ x.goesTo t rpc .ret ∧ t.strand? x.cur.who = some u ∧ u.c.sp = osp ∧ x.sameRegs s t) ∧
  (s.clear (.nop h) = some x → x.cur.second = false → x.cur.paid = false →
    ∃ t u, exec (.nop h) s = .next t ∧ t.strand? x.cur.who = some u ∧ u.c.pc = x.cur.nextPc ∧ x.sameRegs s t)

/-- EXIT with no open frame ends its strand and leaves the others and every register as they are (R379). FORK opens a frame, its strand goes on as
the continuation with the window above the split and the stack below the gap, and each nonempty arm becomes a Ready strand with its lanes, the
window below the split and the frame as its role; where the group would hold more than 4 strands the fork is serialised and the parts run one
after another in the strand (R91 to R97, R387). -/
def Obligations.ExitAndFork : Prop := ∀ (h : Hdr) (neg : Bool) (p split gap : Nat) (cont taken : Target) (s : State) (x : X),
  let c := x.t.c
  let i : Instr := .fork h neg p split gap cont taken
  let mT := maskOf fun L => x.smask.getLsbD L && (x.p p L != neg)
  let mF := x.smask &&& ~~~mT
  let arms := (if mF = 0 then 0 else 1) + (if mT = 0 then 0 else 1)
  let isArm := fun (id : Nat) (m : Mask) (u : Ctx) => u.mask = m ∧ u.lo = c.lo ∧ u.hi = split ∧ u.sl = c.sp - 256 * gap ∧ u.sp = c.sp ∧
    u.arm = some id ∧ u.own = [] ∧ u.held = [] ∧ u.p = c.p ∧ u.fmt = c.fmt
  (s.clear (.exit h) = some x → x.g.frames = [] → ∃ t, exec (.exit h) s = .next t ∧ t.strand? x.cur.who = none ∧ sameMachine s t ∧
    (∀ cycle cls n lane, cls ≠ .p → t.reg x.cur.who cycle cls n lane = s.reg x.cur.who cycle cls n lane) ∧
    ∀ sn, sn ≠ x.cur.who.sn → ((t.strand? ⟨x.cur.who.sid, x.cur.who.gi, sn⟩).isSome = (s.strand? ⟨x.cur.who.sid, x.cur.who.gi, sn⟩).isSome)) ∧
  (s.clear i = some x → split % 8 = 0 → c.lo < split → split < min c.hi x.g.n → c.sl + 256 * gap ≤ c.sp → x.g.frames.length < 8 → x.smask ≠ 0 →
    ∃ t y f, exec i s = .next t ∧ t.group? x.cur.who.sid x.cur.who.gi = some y ∧ y.frames = x.g.frames ++ [f] ∧ f.base = c.sp - 256 * gap ∧
      f.lo = c.lo ∧ f.split = split ∧ f.arms = arms ∧ (∀ j < 8, f.deposited.getD j 0 = 0 ∧ f.absent.getD j 0 = 0) ∧
      if x.g.strands.length + arms ≤ 4 then
        (∃ u, y.strand? x.cur.who.sn = some u ∧ u.c.mask = x.smask ∧ u.c.pc = targetOf x.cur.pc cont ∧ u.entry = .transfer ∧ u.c.lo = split ∧
          u.c.sp = c.sp - 256 * gap ∧ u.c.own = f.id :: x.now.c.own ∧ u.next = x.now.next) ∧
        (mT ≠ 0 → ∃ sn u, x.g.strand? sn = none ∧ y.strand? sn = some u ∧ u.st = .ready ∧ u.entry = .transfer ∧ isArm f.id mT u.c ∧
          u.c.pc = targetOf x.cur.pc taken) ∧
        (mF ≠ 0 → ∃ sn u, x.g.strand? sn = none ∧ y.strand? sn = some u ∧ u.st = .ready ∧ u.entry = .seq ∧ isArm f.id mF u.c ∧
          u.c.pc = x.cur.nextPc)
      else ∃ u rest, y.strand? x.cur.who.sn = some u ∧ u.next = rest ++ x.now.next ∧ rest.length = arms ∧
        (mF ≠ 0 → isArm f.id mF u.c ∧ u.c.pc = x.cur.nextPc) ∧ (mF = 0 → isArm f.id mT u.c ∧ u.c.pc = targetOf x.cur.pc taken))

/-- ARMEND ends its arm and marks the lanes that have not deposited as absent in every slot; JSET deposits the values of its lanes in a slot; JOIN
waits for the slot of its own frame; JWAIT closes a frame with no live arm and no result pending below its split and gives the continuation its window back,
and else waits for the frame (R98 to R102).
The traps of the fork and join instructions: 193 for a split outside the window, 199 for a stack too small for the gap, 198 for a ninth frame,
196 for EXIT or ARMEND with an open frame, 195 without the role that an instruction needs, 194 for a second deposit of a lane (R97 to R102). -/
def Obligations.JoinInstructions : Prop :=
  (∀ (h : Hdr) (j v : Nat) (s : State) (x : X) (f : Frame),
     let who := x.cur.who
     let whole := f.deposited.length = 8 ∧ f.absent.length = 8
     let after := fun (t : State) (P : Frame → Prop) => ∃ k f', t.group? who.sid who.gi = some k ∧ k.frames.find? (fun y => y.id == f.id) = some f' ∧ P f'
     (s.clear (.armend h) = some x → x.armFrame = some f → whole → x.t.c.own = [] → x.t.next = [] →
       ∃ t, exec (.armend h) s = .next t ∧ t.strand? who = none ∧ sameMachine s t ∧ after t fun f' => f'.arms = f.arms - 1 ∧ f'.vals = f.vals ∧
         ∀ k < 8, f'.deposited.getD k 0 = f.deposited.getD k 0 ∧
           f'.absent.getD k 0 = f.absent.getD k 0 ||| (x.smask &&& ~~~f.deposited.getD k 0)) ∧
     (∀ c rest, s.clear (.armend h) = some x → x.armFrame = some f → whole → x.t.c.own = [] → x.t.next = c :: rest →
       ∃ t u, exec (.armend h) s = .next t ∧ t.strand? who = some u ∧ u.c = c.c ∧ u.next.map Part.c = rest.map Part.c ∧
         (x.t.deferred = [] → u.next = rest ∧ u.deferred = c.owed) ∧ after t fun f' => f'.arms = f.arms - 1) ∧
     (s.clear (.jset h j v) = some x → x.armFrame = some f → whole → j < 8 → x.mask &&& f.deposited.getD j 0 = 0 →
       ∃ t, exec (.jset h j v) s = .next t ∧ x.sameRegs s t ∧ after t fun f' => f'.arms = f.arms ∧
         f'.deposited.getD j 0 = f.deposited.getD j 0 ||| x.mask ∧
         (∀ k < 8, k ≠ j → f'.deposited.getD k 0 = f.deposited.getD k 0) ∧
         ∀ L, x.mask.getLsbD L = true → (Sparse.get 0 f'.vals (j * 128 + L)).toNat = x.v v L) ∧
     (s.clear (.join h v j) = some x → x.ownFrame = some f → ∃ t k y, exec (.join h v j) s = .next t ∧ t.group? who.sid who.gi = some k ∧
       k.inflight = x.g.inflight ++ [y] ∧ y.dst = [(.v, v)] ∧ y.mask = x.mask ∧
       y.body = .join f.id j v x.mask (x.cur.cycle + passesOf x.width - 1) ∧ x.sameRegs s t) ∧
     (s.clear (.jwait h) = some x → x.ownFrame = some f → x.g.canClose x.t f = true →
       ∃ t k u, exec (.jwait h) s = .next t ∧ t.group? who.sid who.gi = some k ∧ (∀ y ∈ k.frames, y.id ≠ f.id) ∧ t.strand? who = some u ∧
         u.c.lo = f.lo ∧ u.c.own = x.now.c.own.tail ∧ u.st = .ready ∧ x.sameRegs s t) ∧
     (s.clear (.jwait h) = some x → x.ownFrame = some f → x.g.canClose x.t f = false →
       ∃ t u, exec (.jwait h) s = .next t ∧ t.strand? who = some u ∧ u.st = .frame .jwait ∧ x.sameRegs s t)) ∧
  (∀ (h : Hdr) (neg : Bool) (p split gap j v L : Nat) (cont taken : Target) (s : State) (x : X) (f : Frame),
     let c := x.t.c
     let i : Instr := .fork h neg p split gap cont taken
     (s.clear i = some x → (split % 8 ≠ 0 ∨ split ≤ c.lo ∨ min c.hi x.g.n ≤ split) → exec i s = .next (s.trapped x 193 0 0)) ∧
     (s.clear i = some x → split % 8 = 0 → c.lo < split → split < min c.hi x.g.n → c.sp < c.sl + 256 * gap → exec i s = .next (s.trapped x 199 0 0)) ∧
     (s.clear i = some x → split % 8 = 0 → c.lo < split → split < min c.hi x.g.n → c.sl + 256 * gap ≤ c.sp → 8 ≤ x.g.frames.length →
       exec i s = .next (s.trapped x 198 0 0)) ∧
     (s.clear (.exit h) = some x → x.g.frames ≠ [] → exec (.exit h) s = .next (s.trapped x 196 0 0)) ∧
     (s.clear (.armend h) = some x → c.arm = none → exec (.armend h) s = .next (s.trapped x 195 0 0)) ∧
     (s.clear (.armend h) = some x → c.arm ≠ none → c.own ≠ [] → exec (.armend h) s = .next (s.trapped x 196 0 0)) ∧
     (s.clear (.jset h j v) = some x → x.armFrame = none → exec (.jset h j v) s = .next (s.trapped x 195 0 0)) ∧
     (s.clear (.jset h j v) = some x → x.armFrame = some f → L ∈ x.lanes → (f.deposited.getD j 0).getLsbD L = true →
       (∀ K ∈ x.lanes, K < L → (f.deposited.getD j 0).getLsbD K = false) → exec (.jset h j v) s = .next (s.trapped x 194 L 0)) ∧
     (s.clear (.join h v j) = some x → x.ownFrame = none → exec (.join h v j) s = .next (s.trapped x 195 0 0)) ∧
     (s.clear (.jwait h) = some x → x.ownFrame = none → exec (.jwait h) s = .next (s.trapped x 195 0 0)))

/-! ### Memory instructions -/

/-- The addresses of an access through a record (R141, R143, R144): where they give no trap, every lane of the mask has an entry in order; its byte
offset is X times STRIDE plus the immediate; out of the window it has no place, and otherwise its address is the base plus the swizzled offset, is a
multiple of the size, and is translated for the kind of access. -/
def Obligations.RecordAddresses : Prop := ∀ (s : State) (x : X) (k : AccessKind) (ld st : Bool) (b : Nat) (xi : Src) (imm : W32) (size : Nat)
    (acc : List LaneAcc) (strict : Bool),
  let r := x.view0.breg b
  let off := fun (L : Nat) => signedOf 32 (x.src L xi) * (recStride r : Int) + signedOf 32 imm.toNat
  x.recordAcc s k ld st b xi imm size x.lanes = .ok (acc, strict) →
    r ≠ 0 ∧ recPermits r k = true ∧ strict = (recStrict r || s.strictRegion x.rk) ∧ acc.map LaneAcc.lane = x.lanes ∧
    ∀ a ∈ acc, if 0 ≤ off a.lane ∧ off a.lane + size ≤ recExtent r * recStride r then
        a.va = recAddr r (off a.lane).toNat ∧ a.va % size = 0 ∧ ∃ p, a.loc = some p ∧ s.translate (keyVf x.rk) k a.va = .ok p
      else a.loc = none ∧ strict = false

/-- LD, LDW, LDS, LDK, ATOM and ATOMS, whose addresses give no trap and which nothing holds back, complete with a pending result for their
registers: every lane's place as its entry computes it, a load's out-of-bounds lane as zero, an atomic's operands as read at issue; no register
changes. Where no store of the module waits and no granule has failed, the access is presented at once unless it orders itself behind others, a load's
lanes in this module's memory have the bytes there as their values, and no byte of memory changes but those of an atomic's elements, where no lane is out of
bounds (R414, R416, R417, R418, R358, R360, R66; that an access is performed as it is presented is the model's choice, DEDUCED, notes/assumptions/10.md). -/
def Obligations.LoadsAndAtomicsPend : Prop := ∀ (h : Hdr) (ty : MemTy) (it : IntTy) (op : AtomOp) (o : MemOrd) (xi : Src) (b d c : Nat) (imm : W32)
    (s : State) (x : X) (acc : List LaneAcc) (strict : Bool),
  let still := (∀ c, (s.core c).buf = []) ∧ s.memFailed = [] ∧ x.x.scratchFailed = [] ∧ x.g.stackFailed = []
  let pends := fun (i : Instr) (n size : Nat) (ord : MemOrd) (P : State → MemOp → Prop) => ∃ t k y m, exec i s = .next t ∧
    t.group? x.cur.who.sid x.cur.who.gi = some k ∧ k.inflight = x.g.inflight ++ [y] ∧ y.sn = x.cur.who.sn ∧ y.mask = x.mask ∧
    y.dst = (List.range n).map (fun j => (Cls.v, d + j)) ∧ y.body = .mem m ∧ m.acc.map LaneAcc.lane = acc.map LaneAcc.lane ∧
    m.acc.map LaneAcc.loc = acc.map LaneAcc.loc ∧ m.acc.map LaneAcc.va = acc.map LaneAcc.va ∧ m.d = d ∧ m.strict = strict ∧
    (strict = false → m.err = none) ∧ m.watch = false ∧ m.ord = ord ∧ (still → ord.rel = false → (ord.acq && ord.rp) = false → m.started = true) ∧ P t m ∧
    (∀ cycle c n lane, t.reg x.cur.who cycle c n lane = s.reg x.cur.who cycle c n lane) ∧
    (still → (∀ a ∈ acc, a.loc ≠ none) → ∀ p, (∀ a ∈ acc, ∀ q, a.loc = some (.mem q) → p < q ∨ q + size ≤ p) → t.byteAt p = s.byteAt p)
  let load := fun (size : Nat) (t : State) (m : MemOp) => m.atom = none ∧ (∀ a ∈ m.acc, a.loc = none → a.val = some 0) ∧
    (m.started = false → ∀ a ∈ m.acc, a.loc ≠ none → a.val = none) ∧
    (still → m.started = true → x.now.c.held = [] → ∀ a ∈ m.acc, ∀ p, a.loc = some (.mem p) → a.val = some (ofBytes (s.peek p size))) ∧
    (still → (∀ a ∈ acc, a.loc ≠ none) → t.mem = s.mem)
  let rd := fun (wide : Bool) (r L : Nat) => if wide then x.v r L + 2 ^ 32 * x.v (r + 1) L else x.v r L
  let atom := fun (_ : State) (m : MemOp) => m.atom = some op ∧ ∀ a ∈ m.acc, (m.started = false ∨ a.loc = none → a.val = none) ∧
    (if op = .cas then a.cmp = rd it.wide c a.lane ∧ a.arg = rd it.wide (c + if it.wide then 2 else 1) a.lane else a.arg = rd it.wide c a.lane)
  let held := fun (i : Instr) => s.clear i = some x ∧ (∀ a ∈ acc, a.val = none)
  let at_ := fun (i : Instr) => s.charged x i
  (held (.ld h ty o xi b d imm) → x.recordAcc (at_ (.ld h ty o xi b d imm)) .load true false b xi imm ty.size x.lanes = .ok (acc, strict) →
    x.loadHeld acc ty.size = false → x.behind (at_ (.ld h ty o xi b d imm)) acc ty.size = none →
    pends (.ld h ty o xi b d imm) ty.regs ty.size o fun t m => load ty.size t m ∧ m.ty = ty) ∧
  (held (.ldw h ty xi b d imm) → x.recordAcc (at_ (.ldw h ty xi b d imm)) .ldw false false b xi imm ty.size x.lanes = .ok (acc, strict) →
    x.loadHeld acc ty.size = false → x.behind (at_ (.ldw h ty xi b d imm)) acc ty.size = none →
    pends (.ldw h ty xi b d imm) ty.regs ty.size plainOrd fun t m => load ty.size t m ∧ m.ty = ty) ∧
  (held (.lds h ty o xi d imm) → x.scratchAcc (at_ (.lds h ty o xi d imm)) .load xi imm ty.size x.lanes = .ok (acc, strict) →
    x.loadHeld acc ty.size = false → x.behind (at_ (.lds h ty o xi d imm)) acc ty.size = none →
    pends (.lds h ty o xi d imm) ty.regs ty.size o fun t m => load ty.size t m ∧ m.ty = ty) ∧
  (held (.ldk h it d imm) → x.stackAcc (at_ (.ldk h it d imm)) .load imm (it.width / 8) x.lanes = .ok (acc, strict) →
    x.loadHeld acc (it.width / 8) = false → x.behind (at_ (.ldk h it d imm)) acc (it.width / 8) = none →
    pends (.ldk h it d imm) (if it.wide then 2 else 1) (it.width / 8) plainOrd fun t m => load (it.width / 8) t m ∧ m.ty = .int it) ∧
  (held (.atom h op it o xi b d c imm) → x.recordAcc (at_ (.atom h op it o xi b d c imm)) .atom true true b xi imm (it.width / 8) x.lanes = .ok (acc, strict) →
    x.holds = false → x.behind (at_ (.atom h op it o xi b d c imm)) acc (it.width / 8) = none →
    pends (.atom h op it o xi b d c imm) (if it.wide then 2 else 1) (it.width / 8) o fun t m => atom t m ∧ m.ty = .int it) ∧
  (held (.atoms h op it o xi d c imm) → x.scratchAcc (at_ (.atoms h op it o xi d c imm)) .atom xi imm (it.width / 8) x.lanes = .ok (acc, strict) →
    x.holds = false → x.behind (at_ (.atoms h op it o xi d c imm)) acc (it.width / 8) = none →
    pends (.atoms h op it o xi d c imm) (if it.wide then 2 else 1) (it.width / 8) o fun t m => atom t m ∧ m.ty = .int it)

/-- ST, STS and STK, whose addresses give no trap and which nothing holds back, complete: ST puts the bytes of every pass, line by line and the
highest lane last, into the core's merge buffer and changes no memory; STS and STK write a lane's bytes where no other lane writes, and nothing
outside the lanes' bytes (R161, R163, R449, R451, R450). -/
def Obligations.StoresComplete : Prop := ∀ (h : Hdr) (ty : MemTy) (it : IntTy) (o : MemOrd) (xi : Src) (b d : Nat) (imm : W32) (s : State) (x : X)
    (acc : List LaneAcc) (strict : Bool) (a : LaneAcc) (off : Nat),
  let quiet := x.holds = false ∧ o.rel = false ∧ x.g.inflight = [] ∧ (∀ a ∈ acc, a.loc ≠ none)
  let alone := fun (size : Nat) => a ∈ acc ∧ ∀ e ∈ acc, e.lane ≠ a.lane → e.va + size ≤ a.va ∨ a.va + size ≤ e.va
  let data := fun (n L : Nat) => (List.range n).foldl (fun v j => v + x.v (d + j) L * 2 ^ (32 * j)) 0
  let with_ := fun (n : Nat) => acc.map fun e => { e with arg := data n e.lane }
  let at_ := fun (i : Instr) => s.charged x i
  (s.clear (.st h ty o xi b d imm) = some x → x.recordAcc (at_ (.st h ty o xi b d imm)) .store false true b xi imm ty.size x.lanes = .ok (acc, strict) →
    quiet → strict = false → (∀ e ∈ acc, ∃ p, e.loc = some (.mem p)) →
    ∃ t, exec (.st h ty o xi b d imm) s = .next t ∧ x.sameRegs s t ∧
      (t.core x.x.core).buf.map (fun e => (e.va, e.loc, e.bytes, e.lanes)) =
        (s.core x.x.core).buf.map (fun e => (e.va, e.loc, e.bytes, e.lanes)) ++
          (x.allRuns ty.size (with_ ty.regs)).map fun r => (r.2.va, r.2.loc, r.2.bytes, r.2.lanes)) ∧
  (s.clear (.sts h ty o xi d imm) = some x → x.scratchAcc (at_ (.sts h ty o xi d imm)) .store xi imm ty.size x.lanes = .ok (acc, strict) →
    quiet → x.x.scratchFailed = [] → (∀ L ∈ x.lanes, L < 32 * passesOf x.width) →
    (∀ e ∈ (s.core x.x.core).buf, ∀ n, e.loc = .sx n → e.who.sid ≠ x.cur.who.sid) →
    ∃ t y, exec (.sts h ty o xi d imm) s = .next t ∧ x.sameRegs s t ∧ t.slice? x.cur.who.sid = some y ∧
      (alone ty.size → Sparse.getList 0#8 y.scratch a.va ty.size = bytesOf ty.size (data ty.regs a.lane)) ∧
      ((∀ e ∈ acc, ¬(e.va ≤ off ∧ off < e.va + ty.size)) → Sparse.get 0#8 y.scratch off = Sparse.get 0#8 x.x.scratch off)) ∧
  (s.clear (.stk h it d imm) = some x → x.stackAcc (at_ (.stk h it d imm)) .store imm (it.width / 8) x.lanes = .ok (acc, strict) →
    x.holds = false → x.g.inflight = [] → x.g.stackFailed = [] → ∃ t k, exec (.stk h it d imm) s = .next t ∧ x.sameRegs s t ∧
      t.group? x.cur.who.sid x.cur.who.gi = some k ∧
      (a ∈ acc → k.peekStack a.lane a.va (it.width / 8) = bytesOf (it.width / 8) (data (if it.wide then 2 else 1) a.lane)) ∧
      (∀ L, (∀ e ∈ acc, ¬(e.lane = L ∧ e.va ≤ off ∧ off < e.va + it.width / 8)) → L < 128 →
        Sparse.get 0#8 k.stack (off * 128 + L) = Sparse.get 0#8 x.g.stack (off * 128 + L)))

/-- PREF changes no register and, whatever its lanes name, nothing but the cost of its issue and what the die caches hold; FENCE, its counting form and XFENCE add a condition
to the strand: what must be complete at which scope, and which later instructions it holds back, a FENCE every memory or engine instruction and an XFENCE
those of its second path (R434, R170, R171, R173).
MWATCH whose address gives no trap completes as a load of lane 0 that starts a watch, at once where no store of the module waits: on the line it read, where that
is of main memory here; MWAIT completes with code 5 without a watch or with one that cannot watch its line, with 4, 3 and 1 where the watch was restored, evicted
or fired, and otherwise parks the strand, with the timeout that its register names (R283 to R285, R427). -/
def Obligations.FencesAndWatches : Prop :=
  (∀ (h : Hdr) (xi : Src) (b d : Nat) (imm : W32) (acq rel : Bool) (scope : Scope) (p q : Path) (s : State)
       (x : X),
     let gains := fun (i : Instr) (P : FenceCond → Prop) => ∃ t u f, exec i s = .next t ∧ t.strand? x.cur.who = some u ∧ u.fences = x.now.fences ++ [f] ∧
       f.cpc = x.cur.pc ∧ P f ∧ x.sameRegs s t
     let open_ := fun (i : Instr) => (s.charged x i).openAccesses x.cur.who x.x.core x.mask
     let wide := scope = .die ∨ scope = .dev ∨ scope = .sys
     (s.clear (.pref h xi b imm) = some x → x.loadHeld [] 0 = false → ∃ dc pr, exec (.pref h xi b imm) s =
         .next (({ s.charged x (.pref h xi b imm) with dcache := dc, promoted := pr } : State).issued x (.pref h xi b imm))) ∧
     (s.clear (.fence h acq rel scope) = some x → x.mask ≠ 0 → x.holds = false → gains (.fence h acq rel scope) fun f =>
       f.path = none ∧ f.scope = scope ∧ f.sys = decide (scope = .sys) ∧ f.count = none ∧
       (∀ n ∈ (open_ (.fence h acq rel scope)).1, n ∈ f.ids) ∧
       (rel = true → if wide then ∀ e ∈ (s.core x.x.core).buf, e.id ∈ f.ids else ∀ n ∈ (open_ (.fence h acq rel scope)).2, n ∈ f.ids)) ∧
     (s.clear (.fenceCounting h acq rel d) = some x → x.mask ≠ 0 → x.holds = false → gains (.fenceCounting h acq rel d) fun f =>
       f.path = none ∧ f.scope = .sys ∧ f.sys = true ∧ (∃ n, f.count = some (n, d)) ∧
       (∀ n ∈ (open_ (.fenceCounting h acq rel d)).1, n ∈ f.ids) ∧ (rel = true → ∀ e ∈ (s.core x.x.core).buf, e.id ∈ f.ids)) ∧
     (s.clear (.xfence h p q scope) = some x → x.holds = false → gains (.xfence h p q scope) fun f =>
       f.path = some q ∧ f.scope = scope ∧ f.sys = false ∧ f.count = none ∧
       f.ids = x.pathIds (s.charged x (.xfence h p q scope)) p)) ∧
  (∀ (h : Hdr) (wide : Bool) (d xi b tr : Nat) (imm : W32) (s : State) (x : X) (acc : List LaneAcc) (strict : Bool),
     let i : Instr := .mwatch h wide d xi b imm
     let code := fun (n : Nat) => ∃ t, exec (.mwait h d tr) s = .next t ∧ x.pends t [(.g, d)] (x.cur.cycle + Config.shortResult) [.g d (BitVec.ofNat 32 n)]
     let watch := fun (n : Nat) (w : Option Watch) => ∃ t k, exec (.mwait h d tr) s = .next t ∧
       x.pends t [(.g, d)] (x.cur.cycle + Config.shortResult) [.g d (BitVec.ofNat 32 n)] ∧ t.group? x.cur.who.sid x.cur.who.gi = some k ∧ k.watch = w
     (s.clear i = some x → x.recordAcc (s.charged x i) .load false false b (.g xi) imm (if wide then 8 else 4) [0] = .ok (acc, strict) →
       x.loadHeld acc (if wide then 8 else 4) = false → x.behind (s.charged x i) acc (if wide then 8 else 4) = none → (∀ a ∈ acc, a.loc ≠ none) →
       ∃ t k y m, exec i s = .next t ∧ t.group? x.cur.who.sid x.cur.who.gi = some k ∧ k.inflight = x.g.inflight ++ [y] ∧
         y.dst = (if wide then [(.g, d), (.g, d + 1)] else [(.g, d)]) ∧ y.body = .mem m ∧ m.watch = true ∧ m.acc.map LaneAcc.loc = acc.map LaneAcc.loc ∧
         m.acc.map LaneAcc.va = acc.map LaneAcc.va ∧ (∀ cycle c n lane, t.reg x.cur.who cycle c n lane = s.reg x.cur.who cycle c n lane) ∧
         ((∀ c, (s.core c).buf = []) → s.memFailed = [] → sameMachine s t ∧ ∀ a p, acc = [a] → a.loc = some (.mem p) → paIsWs p = false →
           ∃ w, k.watch = some w ∧ w.line = some (p / 128) ∧ w.va = a.va ∧ w.fired = false ∧ w.evicted = false ∧ w.restored = false)) ∧
     (s.clear (.mwait h d tr) = some x → match x.g.watch with
       | none => code 5
       | some w => if w.line = none then code 5 else if w.restored then watch 4 none else if w.evicted then watch 3 none
         else if w.fired then watch 1 (some { w with fired := false })
         else ∃ t u id, exec (.mwait h d tr) s = .next t ∧ t.strand? x.cur.who = some u ∧
           u.st = .parked (if x.gr tr = 0 then none else some (x.cur.cycle + x.gr tr)) id ∧ x.sameRegs s t))

/-- SETFMT writes FMT with its reserved bits 0 or traps with 112 on a reserved code; its other forms write a scale register, a NaN made canonical, and
clear an amax register; SCREC puts its strand's record as bytes into the merge buffer and SCLOAD waits for its record, in a continuation too, neither of them held; its `.end` form ends replay state
(R119, R130, R442 to R446).
BRSET completes with the record of its four registers where R140 accepts it, and traps with the cause that R140 gives where not; the null record
is accepted (R369, R140). -/
def Obligations.FormatsAndRecords : Prop :=
  (∀ (h : Hdr) (a d xi b : Nat) (imm : W32) (acc : List LaneAcc) (strict : Bool) (s : State) (x : X),
     let v := x.gr a
     let who := x.cur.who
     let nan := 0x7F800000 < v % 2 ^ 31
     (s.clear (.setfmt h a) = some x →
       if codeReserved (bitsAt v 16 4) || codeReserved (bitsAt v 20 4) then exec (.setfmt h a) s = .next (s.trapped x 112 0 0)
       else ∃ t u, exec (.setfmt h a) s = .next t ∧ x.sameRegs s t ∧ t.strand? who = some u ∧ u.c.fmt = BitVec.ofNat 32 v &&& fmtMask ∧
         sameContext { x.now.c with fmt := u.c.fmt } u.c) ∧
     (s.clear (.setfmtSc h d a) = some x → ∃ t g, exec (.setfmtSc h d a) s = .next t ∧ x.keepsBut [(.sc, d)] s t ∧ sameMachine s t ∧
       t.group? who.sid who.gi = some g ∧ Sparse.get 0x3F800000 g.sc d = if nan then 0x7FC00000 else BitVec.ofNat 32 v) ∧
     (s.clear (.setfmtClr h d) = some x → ∃ t g, exec (.setfmtClr h d) s = .next t ∧ x.keepsBut [(.am, d)] s t ∧ sameMachine s t ∧
       t.group? who.sid who.gi = some g ∧ Sparse.get 0 g.am d = 0) ∧
     (s.clear (.screc h xi b imm) = some x → x.recordAcc (s.charged x (.screc h xi b imm)) .store false false b (.g xi) imm 128 [0] = .ok (acc, false) →
       x.g.inflight = [] → (∀ e ∈ acc, ∃ p, e.loc = some (.mem p)) →
       ∃ t, exec (.screc h xi b imm) s = .next t ∧ x.sameRegs s t ∧
         (t.core x.x.core).buf.map (fun e => (e.va, e.loc, e.bytes)) = (s.core x.x.core).buf.map (fun e => (e.va, e.loc, e.bytes)) ++
           (storeRuns 128 (acc.map fun e => { e with arg := ofBytes (recordBytes x.fmt ((List.range 8).map x.view0.screg)
             ((List.range 8).map x.view0.amreg) (x.cur.cycle * 5 / 7)) })).map fun r => (r.va, r.loc, r.bytes)) ∧
     (s.clear (.scload h xi b imm) = some x → x.recordAcc (s.charged x (.scload h xi b imm)) .load false false b (.g xi) imm 128 [0] = .ok (acc, strict) →
       (∀ e ∈ acc, e.loc ≠ none) → x.behind (s.charged x (.scload h xi b imm)) acc 128 = none →
       (∀ c, (s.core c).buf = []) → ∃ t u, exec (.scload h xi b imm) s = .next t ∧ (∀ cycle c n lane, t.reg who cycle c n lane = s.reg who cycle c n lane) ∧
         (s.memFailed = [] → sameMachine s t) ∧ t.strand? who = some u ∧ x.gains t [] fun f =>
         u.st = .scoreboard (.result f.id) ∧ ∃ got err, f.body = .scload b (acc.headD default).va (acc.headD default).loc strict got err ∧
           ((∃ c va, (acc.headD default).loc = some (.peer c va)) → got = none ∧ err = none) ∧
           ∀ p, (acc.headD default).loc = some (.mem p) → x.now.c.held = [] → s.memFailed = [] → got = some (s.peek p 128) ∧ err = none) ∧
     (s.clear (.scloadEnd h) = some x → ∃ t g, exec (.scloadEnd h) s = .next t ∧ sameMachine s t ∧ t.group? who.sid who.gi = some g ∧ g.replay = none ∧
       x.sameRegs s t)) ∧
  (∀ (h : Hdr) (d sr : Nat) (s : State) (x : X), s.clear (.brset h d sr) = some x →
     let r := BitVec.ofNat 128 (x.gr sr + 2 ^ 32 * x.gr (sr + 1) + 2 ^ 64 * x.gr (sr + 2) + 2 ^ 96 * x.gr (sr + 3))
     match (if r = 0 then none else recCheck r) with
     | some cause => exec (.brset h d sr) s = .next (s.trapped x cause 0 0)
     | none => ∃ t, exec (.brset h d sr) s = .next t ∧ x.pends t [(.b, d)] (x.cur.cycle + Config.shortResult) [.b d r] ∧ x.sameRegs s t)

/-! ### Engines -/

/-- CPY and CPYT: a descriptor that R227 refuses traps with the first cause of its order, and its out-of-bounds elements are counted; with a free entry the copy joins its channel at the tail,
the mark register reads the position past it as the slice sees it and pv reads 1 from four cycles after the issue on, and the status register waits;
with the channel full a form with pv writes 0 to it and nothing else (R225 to R229, R234).
CPKILL ends every copy of its slice that the channel still passes; with none to end its result is 0, and otherwise it waits for the status of
the last one, which then gives their number (R233). -/
def Obligations.CopyIssue : Prop :=
  (∀ (h : Hdr) (tile : Bool) (ez ch d : Nat) (dst src : CopySide) (l : Nat) (pv : Option Nat) (s : State) (x : X),
     let i : Instr := if tile then .cpyt h ez ch d dst src l pv else .cpy h ez ch d dst src l pv
     let w := (List.range (if tile then 8 else 3)).map fun k => x.gr (l + k)
     let strict := x.strict s (sideStrict (x.side dst) || sideStrict (x.side src))
     let c := s.chan x.x.core ch
     let fin := c.tail + copyLen tile (2 ^ ez) w
     s.clear i = some x → ch < 4 → (∀ p, pv = some p → p < 8) →
       match copyCheck tile (2 ^ ez) w x.hdr.scratch (x.side dst) (x.side src) (x.strict s (sideStrict (x.side dst))) (x.strict s (sideStrict (x.side src))) with
       | some cause => exec i s = .next ((if cause = 260 then s.countOob x.rk (copyOut tile (2 ^ ez) w x.hdr.scratch (x.side dst) (x.side src)) else s).trapped x cause 0 0)
       | none => x.holds = false →
         if c.entries.length < 12 then ∃ t, exec i s = .next t ∧ x.wroteG t d 4 (fin + 2 ^ 64 - x.x.views.getD ch 0 % 2 ^ 64) ∧
             (∀ p, pv = some p → x.wroteGp t p 4 true) ∧ (∀ l : List (Cls × Nat), (.g, d) ∈ l → (∀ p, pv = some p → (.gp, p) ∈ l) → x.keepsBut l s t) ∧
             sameMachine s t ∧ x.gains t [(.g, d + 1)] fun f => f.body = .await ∧ ∃ e : CopyEntry, t.chan x.x.core ch = ⟨fin, c.entries ++ [e]⟩ ∧
               e.id = f.id ∧ e.who = x.cur.who ∧ e.tile = tile ∧ e.esz = 2 ^ ez ∧ e.words = w ∧ e.len = copyLen tile (2 ^ ez) w ∧ e.dst = x.side dst ∧
               e.src = x.side src ∧ e.strict = strict ∧ e.d = d ∧ e.fin = fin ∧ e.done = 0 ∧ e.stop = false
         else ∀ p, pv = some p → ∃ t, exec i s = .next t ∧ x.wroteGp t p 4 false ∧ x.keepsBut [(.gp, p)] s t ∧ t.chan x.x.core ch = c ∧ sameMachine s t) ∧
  (∀ (h : Hdr) (ch d : Nat) (s : State) (x : X),
     let hit := (s.chan x.x.core ch).entries.filter (endable x.cur.who.sid)
     s.clear (.cpkill h ch d) = some x → ch < 4 → x.holds = false → ∃ t, exec (.cpkill h ch d) s = .next t ∧ x.sameRegs s t ∧
       (t.chan x.x.core ch).tail = (s.chan x.x.core ch).tail ∧ (t.chan x.x.core ch).entries.length = (s.chan x.x.core ch).entries.length ∧
       (∀ e ∈ (t.chan x.x.core ch).entries, endable x.cur.who.sid e = false) ∧
       (hit = [] → x.gains t [(.g, d)] fun f => f.body = .timed (x.cur.cycle + Config.shortResult) [.g d 0]) ∧
       (hit ≠ [] → x.gains t [(.g, d)] fun f => f.body = .await ∧ ∃ e ∈ (t.chan x.x.core ch).entries, e.kill = some (f.id, d, hit.length)))

/-- OPTSTEP: what R237 refuses traps with its cause, and its out-of-bounds elements are counted; otherwise the command joins the update engine's queue with its parameters and records as they are,
to start at the span of its first element, and its two results wait (R236 to R241). THSET writes the handle and the bytes it spans, or traps with 273.
COLL: a bad handle traps; a COLL that R373 refuses writes a status with FAIL and owes its cause at the first read of that status; a second arrival
in a phase traps with 214 and one of another kind with 219; otherwise the rank arrives, its mark register reads the phase, and its status waits. Where another
module holds the harness, COLL asks it, traps with what it refuses but for 305 and 210, which its status owes as 305, and its rank stands in the phase that it grants; one that R373
refuses here asks for the checks alone. -/
def Obligations.UpdateHandleCollective : Prop :=
  (∀ (h : Hdr) (bf : Bool) (d bW bG p bM bV t_ sr : Nat) (s : State) (x : X),
     let i : Instr := .optstep h bf d bW bG p bM bV
     let params := (List.range 8).map fun k => x.gr (p + k)
     let recs := [bW, bM, bV, bG].map x.view0.breg
     let strict := x.strict s (recs.any recStrict)
     let th : BitVec 256 := BitVec.ofNat 256 ((List.range 8).foldl (fun n w => n + x.gr (sr + w) * 2 ^ (32 * w)) 0)
     (s.clear i = some x → match optCheck bf params recs strict with
       | some c => exec i s = .next ((if c = 290 then s.countOob x.rk (optOut params recs) else s).trapped x c 0 0)
       | none => x.holds = false → ∃ t, exec i s = .next t ∧ x.sameRegs s t ∧ x.gains t [(.g, d), (.g, d + 1)] fun f => f.body = .await ∧
           ∃ u : UpdEntry, (t.core x.x.core).upd = (s.core x.x.core).upd ++ [u] ∧ u.id = f.id ∧ u.who = x.cur.who ∧ u.bf = bf ∧
             u.params = params.map (BitVec.ofNat 32) ∧ u.recs = recs ∧ u.strict = strict ∧ u.d = d ∧ u.next = params.getD 1 0 / 16 ∧
             u.updated = 0 ∧ u.drop = 0 ∧ u.stop = false) ∧
     (s.clear (.thset h d t_ sr) = some x →
       if thInvalid th then exec (.thset h d t_ sr) s = .next (s.trapped x 273 0 0)
       else ∃ t, exec (.thset h d t_ sr) s = .next t ∧ x.sameRegs s t ∧
         x.pends t [(.th, t_), (.g, d)] (x.cur.cycle + Config.shortResult) [.th t_ th, .g d (BitVec.ofNat 32 (thBytes th))])) ∧
  (∀ (h : Hdr) (w d bD bS l hH : Nat) (s : State) (x : X),
     let i : Instr := .coll h w d bD bS l hH
     let v := x.view0.hreg hH
     let y := s.harness? (x.keyOf v)
     let z := y.getD (Harness.fresh v.handle v.chip x.rk .sys none false 0)
     let before := x.collBefore s y w (x.gr l) (x.gr (l + 1)) (x.gr (l + 2)) (x.gr (l + 3)) (x.view0.breg bD) (x.view0.breg bS)
     let away := v.chip ≠ s.chip
     let refused := fun (c phase : Nat) => ∃ t, exec i s = .next t ∧ x.wroteG t d 4 phase ∧ x.keepsBut [(.g, d)] s t ∧ sameMachine s t ∧
       x.owesLast t c (.reads [(.g, d + 1)] false) ∧
       x.pends t [(.g, d + 1)] (x.cur.cycle + Config.shortResult) [.g (d + 1) (BitVec.ofNat 32 (2 ^ 31 + 2 ^ 27))]
     s.clear i = some x → match x.handleCheck s v false true, before with
       | some c, _ => exec i s = .next (s.trapped x c 0 0)
       | none, some c => x.holds = false → x.g.retired = false →
         (¬away → refused c z.phase.toNat) ∧
         (away → (x.asked = none → ∃ t, exec i s = .next t ∧ x.asks s t (x.keyOf v) v (.only (.query 1))) ∧
           x.replied s i fun id r _ => match r with
             | .refuse _ e detail => if e = 305 ∨ e = 210 then refused 305 z.phase.toNat else exec i s = .next (x.refusal s id e detail)
             | .passed _ => refused c z.phase.toNat
             | _ => True)
       | none, none => ∀ m, z.member? (.here x.me) = some m →
         if z.arrived m.idx ∨ ∃ a ∈ z.coming, a.idx = m.idx ∧ a.gone = none then exec i s = .next (s.trapped x 214 0 0)
         else if z.arrivals ≠ [] ∧ ∃ k, z.kind = some k ∧ sameKind (.coll w (x.gr l)) k = false then exec i s = .next (s.trapped x 219 0 0)
         else x.holds = false →
           (away → (x.asked = none → ∃ t, exec i s = .next t ∧ x.asks s t (x.keyOf v) v (.arrive (.coll w (x.gr l)) none none)) ∧
             x.replied s i fun id r _ => match r with
               | .refuse _ e detail => if e = 305 ∨ e = 210 then x.g.retired = false → refused 305 z.phase.toNat else exec i s = .next (x.refusal s id e detail)
               | .grant _ _ phase _ _ => ∃ t z' r, exec i s = .next t ∧ x.wroteG t d 4 phase ∧ t.harness? (x.keyOf v) = some z' ∧ z'.ranks = z.ranks ++ [r] ∧
                 r.phase = phase % 2 ^ 32 ∧ r.who = .here x.me ∧ r.w = w ∧ r.blocks = x.gr l
               | _ => True) ∧
           (¬away → z.holder = s.chip → z.coming = [] → z.arrivals.length + 1 < (if z.kind.isSome then z.count else z.phaseMembers) →
           ∃ t z' a r, exec i s = .next t ∧ x.wroteG t d 4 z.phase.toNat ∧ x.keepsBut [(.g, d)] s t ∧ t.mem = s.mem ∧
             (x.gains t [(.g, d + 1)] fun f => f.body = .await ∧ r.id = f.id) ∧ t.harness? (x.keyOf v) = some z' ∧ z'.phase = z.phase ∧
             z'.arrivals = z.arrivals ++ [a] ∧ a.idx = m.idx ∧ a.gone = false ∧ z'.kind = some (z.kind.getD (.coll w (x.gr l))) ∧
             z'.ranks = z.ranks ++ [r] ∧ r.idx = m.idx ∧ r.phase = z.phase.toNat ∧ r.w = w ∧ r.blocks = x.gr l ∧ r.d = d ∧
             r.src = x.view0.breg bS ∧ r.dst = x.view0.breg bD ∧ r.cause = none))

/-- The eight matrix instructions: the first check of R219 that fails traps with its cause; otherwise the command joins the queue of its array with the
FMT, mask, handles, records, scale and register rows that it reads when it issues, and its status (with a kind-0 MDRAIN, its registers) waits. -/
def Obligations.MatrixIssue : Prop := ∀ (h : Hdr) (kind : MKind) (fmt : MFmt) (amx clr : Bool) (k a b c0 sr sc am n : Nat) (s : State) (x : X),
  let enters := fun (i : Instr) (q : MxAsk) (sc : Option Nat) => s.clear i = some x → match x.mxCheck q with
    | some c => exec i s = .next (s.trapped x c 0 0)
    | none => ∀ A, x.holds = false → (sc.isSome → ∀ f ∈ x.g.inflight, ∀ b va loc st r e, b < 16 → f.body ≠ .scload b va loc st r e) →
        x.x.arrays[q.arr]? = some A →
      ∃ t c, exec i s = .next t ∧ x.sameRegs s t ∧ (x.gains t ((.g, q.st) :: q.dst) fun f => f.body = .await ∧ c.id = f.id) ∧
        t.array? x.cur.who.sid q.arr = some { A with queue := A.queue ++ [c] } ∧ c.gi = x.cur.who.gi ∧ c.sn = x.cur.who.sn ∧ c.instr = i ∧
        c.fmt = x.fmt ∧ c.mask = x.mask ∧ c.ths = q.ths.map x.view0.threg ∧ c.recs = c.ths.map (fun th => x.view0.breg (thRec th)) ∧
        (∀ m, sc = some m → c.scale = x.view0.screg m) ∧ (∀ m, q.take = some m → c.regRows = x.regRows q.fmt m.1 m.2) ∧ c.done = false
  enters (.mma h kind k a sr n) (x.mmaAsk kind k a sr n) none ∧ enters (.mmat h kind k a sr n) (x.mmaAsk kind k a sr n) none ∧
  enters (.mmad h kind k b a c0 sr n) (x.mmadAsk kind k b a c0 sr n) none ∧ enters (.mldw h kind k a sr) (x.mldwAsk kind k a sr) none ∧
  enters (.mswap h kind k sr) (plainAsk kind k sr none) none ∧
  enters (.mdrain h fmt kind amx clr k a sr sc am n) (x.mdrainAsk fmt kind k a sr n) (some sc) ∧
  enters (.mzero h kind k sr n c0) (plainAsk kind (k / 48) sr (if 64 < n + c0 then some 274 else none)) none ∧
  enters (.mfill h fmt kind k a sr n) (x.mfillAsk fmt kind k a sr n) none

/-! ### Harnesses -/

/-- HCREATE, HFREE, HJOIN and HLEAVE: a handle register below h2 traps with 216 and a count of 0 or of 2^30 and more with 220; a creation that fails
gives the null handle and 0; else the harness exists with its creator as member 0. Only a sole member, or a lost harness, is freed, else 215. A join of a
harness held here enters it at once where it is Idle and with the next phase otherwise. Where another module holds the harness, HFREE, HJOIN and HLEAVE ask it, trap with what it refuses, and go on with what it grants (R250 to R253, R256). A leave reaches the unit with the arrivals of its cycle. -/
def Obligations.HarnessMembership : Prop := ∀ (h : Hdr) (cnt : Option Nat) (span : Span) (d gp n sr : Nat) (s : State) (x : X),
  let who := x.cur.who
  let me : Member := .here x.me
  let cleared := fun (t : State) => ∃ g, t.group? who.sid who.gi = some g ∧ g.hreg n = ⟨0, 0⟩
  let v := x.view0.hreg n
  let y := s.harness? (x.keyOf v)
  (let i : Instr := .hcreate h cnt span d gp
   let k := match cnt with | some r => x.gr r | none => 1
   s.clear i = some x →
    if d < 2 then exec i s = .next (s.trapped x 216 0 0)
    else if k = 0 ∨ 2 ^ 30 ≤ k then exec i s = .next (s.trapped x 220 0 0)
    else if x.createFails s span then ∃ t, exec i s = .next t ∧ x.sameRegs s t ∧
      x.pends t [(.h, d), (.gp, gp)] (x.cur.cycle + Config.shortResult) [.h d ⟨0, 0⟩, .gp gp false]
    else ∃ t z i_ gen, exec i s = .next t ∧ x.keepsBut [] s t ∧ t.mem = s.mem ∧ 1 ≤ gen ∧
      t.harnesses = s.harnesses ++ [(madeKey s.chip i_, z)] ∧ z.handle = handleOf (keyTag x.rk) i_ gen ∧ z.holder = s.chip ∧ z.rk = x.rk ∧
      z.members = [⟨0, me, false, false⟩] ∧ z.phase = 0 ∧ z.arrivals = [] ∧ z.counted = cnt.isSome ∧ z.created = k ∧ z.span = span ∧
      (∀ e ∈ s.harnesses, e.1 = madeKey s.chip i_ → e.2.holder ≠ s.chip) ∧
      x.pends t [(.h, d), (.gp, gp)] (x.cur.cycle + Config.shortResult) [.h d ⟨z.handle, s.chip⟩, .gp gp true]) ∧
  (let i : Instr := .hfree h n
   let lost := match y with | some z => z.failed | none => false
   s.clear i = some x → match handleEarly n (!lost) false x s with
    | some c => exec i s = .next (s.trapped x c.1 c.2.1 c.2.2)
    | none => if n < 2 then exec i s = .next (s.trapped x 216 0 0)
      else if v.chip ≠ s.chip then x.remote s i (x.keyOf v) v .free fun _ _ _ _ _ _ =>
        ∃ t, exec i s = .next t ∧ t.harness? (x.keyOf v) = none ∧ cleared t
      else match y with
      | some z => if z.failed || (match z.members with | [m] => m.who == me && !m.joining | _ => false) then
            ∃ t, exec i s = .next t ∧ t.harness? (x.keyOf v) = none ∧ cleared t ∧ x.keepsBut [(.h, n)] s t ∧ t.mem = s.mem
          else exec i s = .next (s.trapped x 215 0 0)
      | none => ∃ t, exec i s = .next t ∧ cleared t ∧ x.keepsBut [(.h, n)] s t ∧ sameMachine s t) ∧
  (let i : Instr := .hjoin h d sr
   let v : HVal := ⟨BitVec.ofNat 32 (x.gr sr), x.gr (sr + 1) % 4096⟩
   (s.clear i = some x → x.gr (sr + 1) < 4096 → 2 ≤ d → (v.handle = 0 ∨ hGen v.handle ≠ 0) → x.handleCheck s v false true = none → v.chip ≠ s.chip →
    x.remote s i (x.keyOf v) v .join fun _ idx _ now _ res => ∃ t g z', exec i s = .next t ∧ t.group? who.sid who.gi = some g ∧ g.hreg d = v ∧
      t.harness? (x.keyOf v) = some z' ∧ ∃ m ∈ z'.members, m.who = me ∧ m.idx = idx ∧ m.leaving = false ∧ m.joining = (!now && res.isNone)) ∧
   (s.clear i = some x →
    if 4096 ≤ x.gr (sr + 1) then exec i s = .next (s.trapped x 217 0 0)
    else if d < 2 ∨ (v.handle ≠ 0 ∧ hGen v.handle = 0) then exec i s = .next (s.trapped x 216 0 0)
    else match x.handleCheck s v false true, s.harness? (x.keyOf v) with
      | some c, _ => exec i s = .next (s.trapped x c 0 0)
      | none, some z => v.chip = s.chip →
        if !(match z.span, z.unit, x.keyOf v with
          | .core, _, .made k => x.x.created.contains k
          | .die, some (.die di _), _ => di == dieOf x.x.core
          | _, _, _ => true) then exec i s = .next (s.trapped x 213 0 0)
        else if z.members.any fun m => m.who == me then exec i s = .next (s.trapped x 217 0 0)
        else ∃ t z' m, exec i s = .next t ∧ t.harness? (x.keyOf v) = some z' ∧ z'.members = z.members ++ [m] ∧ m.who = me ∧ m.leaving = false ∧
          (∀ q ∈ z.members, q.idx ≠ m.idx) ∧ x.keepsBut [(.h, d)] s t ∧ t.mem = s.mem ∧
          (∃ g, t.group? who.sid who.gi = some g ∧ g.hreg d = v) ∧
          if z.counted = false ∧ z.members = [] ∧ z.queued = 0 ∧ z.arrivals = [] then m.joining = false ∧
            x.pends t [(.h, d)] (x.cur.cycle + Config.shortResult) []
          else m.joining = true ∧ x.gains t [(.h, d)] fun f => f.body = .await ∧ ⟨x.me, f.id, z.phase.toNat, d, 2⟩ ∈ z'.waiters
      | none, none => True)) ∧
  (let i : Instr := .hleave h n
   s.clear i = some x → match handleEarly n true true x s, y with
    | some c, _ => exec i s = .next (s.trapped x c.1 c.2.1 c.2.2)
    | none, z? => if n < 2 then exec i s = .next (s.trapped x 216 0 0)
      else if v.chip ≠ s.chip then x.arriveWait (s.charged x i) false = none → x.remote s i (x.keyOf v) v .leave fun _ _ _ _ _ _ =>
        ∃ t, exec i s = .next t ∧ cleared t ∧ ∀ z', t.harness? (x.keyOf v) = some z' → ∀ q ∈ z'.members, q.who ≠ me
      else ∀ z m, z? = some z → z.holder = s.chip → z.members.find? (fun q => q.who == me) = some m → match x.arriveWait (s.charged x i) ((s.charged x i).onOneCore z) with
        | some b => exec i s = .next (x.waits b s)
        | none => ∃ t z' a, exec i s = .next t ∧ cleared t ∧ t.harness? (x.keyOf v) = some z' ∧ x.keepsBut [(.h, n)] s t ∧
            z' = { z with coming := z.coming ++ [a] } ∧ a.idx = m.idx ∧ a.who = me ∧ a.time = x.cur.cycle ∧ a.gone = some (false, false))

/-- HARR, HBAR, HVOTE and HRED of a member of a harness held here (R245 to R247, R254, R394): a second arrival in a phase traps with 214, and in a phase that the
other arrivals of the cycle do not complete another kind than the phase's with 219, a count of 0 or of 2^30 and more with 220 and a wrong count with 211; every
other arrival reaches the unit, with the phase's number in HARR's register and the others' strands in Harness wait; one that issues in a pair reaches it before the pair issues, and
waits for the answer (the model's reading of R62 and R246, DEDUCED, notes/assumptions/19.md). Where another module holds the
harness they ask it, trap with what it refuses, and go on with the phase that it grants. An arrival that has reached the unit and suits the phase is recorded when it is
taken, and the last one opens the next phase; one that does not is not recorded. A leave that is taken takes a joining member out, marks one that has arrived, and else counts as the
member's arrival, with LOST where it was killed (R253, R258, R261).
What completes a phase of a harness held here: every waiter of the phase gets its result word, DONE with the phase's number and LOST where a member
was lost, HVOTE and HRED with the value before it (R247, R254, R255). -/
def Obligations.HarnessArrivals : Prop :=
  (∀ (h : Hdr) (fn : HVoteFn) (op : HRedOp) (ty : HRedTy) (d n sr : Nat) (k : Option Nat) (s : State) (x : X)
       (z : Harness) (m : HMember),
     let key := x.keyOf (x.view0.hreg n)
     let v := x.view0.hreg n
     let arrives := fun (i : Instr) (kind : HKind) (value : Option W32) (dst : List (Cls × Nat)) =>
       let granted := fun (i : Instr) (_ _ phase : Nat) (_ : Bool) (_ : W32) (done : Option (Bool × W32)) => ∃ t, exec i s = .next t ∧
         if dst = [] then x.wroteG t d 4 phase else match done with
           | some (lost, w) => x.pends t dst (x.cur.cycle + Config.shortResult)
               (if dst.length = 1 then [.g d (resultWord lost phase)] else [.g d w, .g (d + 1) (resultWord lost phase)])
           | none => ∃ g f u, t.group? x.cur.who.sid x.cur.who.gi = some g ∧ f ∈ g.inflight ∧ f.dst = dst ∧ f.body = .await ∧
               t.strand? x.cur.who = some u ∧ u.st = .harness f.id
       let open_ := z.arrivals ≠ [] ∧ z.kind.isSome = true
       let c := k.map x.gr
       let need := if open_ then z.count else if z.counted then c.getD z.created else z.phaseMembers
       s.clear i = some x → match handleEarly n true true x s with
       | some c => exec i s = .next (s.trapped x c.1 c.2.1 c.2.2)
       | none => (v.chip ≠ s.chip → (x.asked = none → x.arriveWait (s.charged x i) false = none) → x.remote s i key v (.arrive kind c value) (granted i)) ∧
         (v.chip = s.chip → x.asked = none → s.harness? key = some z → z.member? (.here x.me) = some m →
         if z.reached m.idx then exec i s = .next (s.trapped x 214 0 0)
         else if z.mayClose m.idx = false ∧ open_ ∧ z.kind ≠ some kind then exec i s = .next (s.trapped x 219 0 0)
         else if z.mayClose m.idx = false ∧ ∃ v, c = some v ∧ (v = 0 ∨ 2 ^ 30 ≤ v) then exec i s = .next (s.trapped x 220 0 0)
         else if z.mayClose m.idx = false ∧ ∃ v, c = some v ∧ v ≠ need then exec i s = .next (s.trapped x 211 0 need)
         else match x.arriveWait (s.charged x i) ((s.charged x i).onOneCore z) with
         | some b => exec i s = .next (x.waits b s)
         | none => ∃ t z' a, exec i s = .next t ∧ t.harness? key = some z' ∧ z' = { z with coming := z.coming ++ [a] } ∧
           a.idx = m.idx ∧ a.who = .here x.me ∧ a.kind = kind ∧ a.count = c ∧ a.value = value ∧ a.time = x.cur.cycle ∧ a.gone = none ∧
           x.keepsBut (if dst = [] ∧ x.cur.src.isNone = true then [(.g, d)] else []) s t ∧
           if x.cur.src.isSome then x.gains t [] fun f => f.body = .ask key v.chip none none ∧ a.ask = some f.id ∧
             ∃ u, t.strand? x.cur.who = some u ∧ u.st = .scoreboard (.answer f.id)
           else a.ask = none ∧ if dst = [] then x.wroteG t d 4 z.phase.toNat
             else x.gains t dst fun f => f.body = .await ∧ a.id = f.id ∧ ∃ u, t.strand? x.cur.who = some u ∧ u.st = .harness f.id) ∧
         (v.chip = s.chip → x.replied s i fun id r res => match r with
           | .refuse _ cause detail => exec i s = .next (x.refusal s id cause detail)
           | .grant _ idx phase now w => granted i id idx phase now w res
           | _ => True)
     let taken := fun (a : HComing) => a.gone = none →
       let need := if z.kind.isSome then z.count else a.count.getD (if z.counted then z.created else z.phaseMembers)
       s.harness? key = some z → z.holder = s.chip → (z.members.find? fun q => q.who == a.who && !q.joining) = some m →
         ∃ z', (s.takeOne key a).harness? key = some z' ∧ z'.coming = z.coming.erase a ∧ match z.judge m.idx a.kind a.count with
           | some _ => z'.arrivals = z.arrivals ∧ z'.phase = z.phase
           | none => if z.arrivals.length + 1 < need then z'.phase = z.phase ∧ z'.kind = some (z.kind.getD a.kind) ∧
                 z'.arrivals = z.arrivals ++ [⟨a.idx, a.value, a.time, s.memberChip a.who, false⟩]
               else z'.phase = z.phase + 1 ∧ z'.arrivals = [] ∧ z'.kind = none
     let gone := fun (a : HComing) => ∀ lost forced, a.gone = some (lost, forced) →
       s.harness? key = some z → z.holder = s.chip → (z.members.find? fun q => q.who == a.who) = some m →
         let rest := z.members.filter fun q => q.who != a.who
         let left : Harness := { z with members := rest, arrivals := z.arrivals ++ [⟨m.idx, none, a.time, s.memberChip a.who, true⟩] }
         ∃ z', (s.takeOne key a).harness? key = some z' ∧ z'.coming = z.coming.erase a ∧
           if m.joining ∨ (m.leaving ∧ forced) then z'.members = rest ∧ z'.arrivals = z.arrivals ∧ z'.phase = z.phase
           else if z.arrived m.idx then z'.arrivals = z.arrivals ∧ z'.phase = z.phase ∧ ∃ q ∈ z'.members, q.who = a.who ∧ q.idx = m.idx ∧ q.leaving = true
           else if left.arrivals.length < left.need then z'.members = rest ∧ z'.arrivals = left.arrivals ∧ z'.lost = (z.lost || lost) ∧ z'.phase = z.phase
           else z'.phase = z.phase + 1 ∧ z'.arrivals = [] ∧ (∀ q ∈ z'.members, q.who ≠ a.who)
     (∀ a, taken a ∧ gone a) ∧ arrives (.harr h d n k) .barrier none [] ∧ arrives (.hbar h d n k) .barrier none [(.g, d)] ∧
     arrives (.hvote h fn d n sr k) (.vote fn) (some (BitVec.ofNat 32 (x.gr sr))) [(.g, d), (.g, d + 1)] ∧
     arrives (.hred h op ty d n sr k) (.red op ty) (some (BitVec.ofNat 32 (x.gr sr))) [(.g, d), (.g, d + 1)]) ∧
  (∀ (s : State) (key : HKey) (h : Harness) (lost : Bool) (value : W32) (w : HWaiter) (g : Group) (f : Inflight) (y : Slice),
     let word := BitVec.ofNat 32 (2 ^ 31 + (if lost then 2 ^ 30 else 0) + h.phase.toNat % 2 ^ 24)
     h.waiters.filter (fun q => q.phase == h.phase.toNat) = [w] → s.slice? w.g.sid = some y → y.st = .resident → s.group? w.g.sid w.g.gi = some g →
     g.inflight? w.id = some f → f.shadow = [] →
     ∃ k, (s.finishPhase key h lost value).group? w.g.sid w.g.gi = some k ∧ k.inflight = g.inflight.filter (fun q => q.id != w.id) ∧
       (w.kind = 0 → k.greg w.d = word) ∧ (w.kind = 1 → k.greg (w.d + 1) = word ∧ k.greg w.d = value) ∧
       ∀ u ∈ g.strands, u.st = .harness w.id → ∃ q ∈ k.strands, q.sn = u.sn ∧ q.st = .ready)

/-- HQUERY, HWAIT and HSTRAG: each query gives its figure of a harness held here, or what the module that holds it answers; HWAIT on a phase past answers its result word, on the current one
waits, and on one to come traps with 214; HSTRAG of member 0 before the first phase binds a record with a good header, and traps with 218 on a bad one
(R256, R289, R399 to R401). -/
def Obligations.HarnessQueries : Prop := ∀ (h : Hdr) (q d n b tr : Nat) (s : State) (x : X) (z : Harness) (m : HMember),
  let v := x.view0.hreg n
  let key := x.keyOf v
  let gives := fun (i : Instr) (w : W32) => ∃ t, exec i s = .next t ∧ x.sameRegs s t ∧
    x.pends t [(.g, d)] (x.cur.cycle + Config.shortResult) [.g d w]
  let r := x.view0.breg b
  (let i : Instr := .hquery h q d n
   s.clear i = some x →
    (q = 0 → if v.handle = 0 then exec i s = .next (s.trapped x 209 0 0) else gives i v.handle) ∧
    (q = 5 → if v.handle = 0 then exec i s = .next (s.trapped x 209 0 0) else gives i (BitVec.ofNat 32 v.chip)) ∧
    (1 ≤ q ∧ q ≤ 4 → match handleEarly n false true x s with
      | some c => exec i s = .next (s.trapped x c.1 c.2.1 c.2.2)
      | none => (v.chip ≠ s.chip → x.remote s i key v (.query q) fun _ _ _ _ w _ => ∃ t, exec i s = .next t ∧
            x.pends t [(.g, d)] (x.cur.cycle + Config.shortResult) [.g d w]) ∧
          (v.chip = s.chip → (∃ w, gives i w) ∧ (s.harness? key = some z → (q = 1 → gives i z.phase) ∧
          (q = 2 → gives i (BitVec.ofNat 32 z.need)) ∧ (q = 3 → gives i (BitVec.ofNat 32 z.arrivals.length)) ∧
          (q = 4 → (z.members.find? fun q => q.who == .here x.me && !q.joining) = some m → gives i (BitVec.ofNat 32 m.idx)) ∧
          (q = 4 → (∀ m ∈ z.members, m.who ≠ .here x.me) → gives i 0xFFFFFFFF))))) ∧
  (let i : Instr := .hwait h d n tr
   let dist := signedOf 32 (z.phase.toNat + 2 ^ 32 - x.gr tr)
   s.clear i = some x → match handleEarly n true true x s with
    | some c => exec i s = .next (s.trapped x c.1 c.2.1 c.2.2)
    | none => (v.chip ≠ s.chip → x.remote s i key v (.wait (BitVec.ofNat 32 (x.gr tr))) fun _ _ phase now w done =>
        if now then ∃ t, exec i s = .next t ∧ x.pends t [(.g, d)] (x.cur.cycle + Config.shortResult) [.g d w]
        else match done with
        | some (lost, _) => ∃ t, exec i s = .next t ∧ x.pends t [(.g, d)] (x.cur.cycle + Config.shortResult) [.g d (resultWord lost phase)]
        | none => ∃ t z' g f u, exec i s = .next t ∧ t.harness? key = some z' ∧ t.group? x.cur.who.sid x.cur.who.gi = some g ∧ f ∈ g.inflight ∧
            f.dst = [(.g, d)] ∧ f.body = .await ∧ t.strand? x.cur.who = some u ∧ u.st = .harness f.id ∧ ⟨x.me, f.id, phase, d, 0⟩ ∈ z'.waiters) ∧
      (v.chip = s.chip → s.harness? key = some z → (z.member? (.here x.me)).isSome = true →
      if dist < 0 then exec i s = .next (s.trapped x 214 0 0)
      else if dist = 0 then ∃ t z' u, exec i s = .next t ∧ x.keepsBut [] s t ∧ t.mem = s.mem ∧ t.harness? key = some z' ∧
        t.strand? x.cur.who = some u ∧ x.gains t [(.g, d)] fun f => f.body = .await ∧ u.st = .harness f.id ∧
          z'.waiters = z.waiters ++ [⟨x.me, f.id, z.phase.toNat, d, 0⟩]
      else gives i (resultWord (dist ≤ 255 && z.past.contains (x.gr tr)) (x.gr tr)))) ∧
  (let i : Instr := .hstrag h n b
   let bind := fun (bs : List Byte) => ∃ t z', exec i s = .next t ∧ x.keepsBut [] s t ∧ t.harness? key = some z' ∧
     z'.strag = some ⟨r, x.rk, bitsAt (ofBytes bs) 64 16, bitsAt (ofBytes bs) 80 16, [], 0, 0⟩
   s.clear i = some x → match handleEarly n true true x s with
    | some c => exec i s = .next (s.trapped x c.1 c.2.1 c.2.2)
    | none => (v.chip ≠ s.chip → (x.asked = none → ∃ t, exec i s = .next t ∧ x.asks s t key v (.only .check)) ∧
        x.replied s i fun id a _ => match a with
          | .refuse _ cause detail => exec i s = .next (x.refusal s id cause detail)
          | .grant .. => ∃ t, exec i s = .next t ∧ x.keepsBut [] s t
          | .passed _ => (r = 0 → exec i s = .next (x.refusal s id 133 0)) ∧
              (r ≠ 0 → !recPw r || !recPr r || recElem r != 8 || recStride r != 8 || decide (recWindow r < 64) → exec i s = .next (x.refusal s id 218 0)) ∧
              (∀ bs, x.stragReads (s.charged x i) r bs →
                if stragBad r (ofBytes bs) then exec i s = .next (x.refusal s id 218 0)
                else ∃ t f, exec i s = .next t ∧ f.body = .ask key v.chip none none ∧ (∃ g, t.group? x.cur.who.sid x.cur.who.gi = some g ∧ f ∈ g.inflight) ∧
                  x.askMsg s key v (.strag r (bitsAt (ofBytes bs) 64 16) (bitsAt (ofBytes bs) 80 16)) f.id ∈ t.out)
          | _ => True) ∧
      (v.chip = s.chip → s.harness? key = some z → z.member? (.here x.me) = some m →
      if r = 0 then exec i s = .next (s.trapped x 133 0 0)
      else if !recPw r || m.idx != 0 || z.phase != 0 || z.strag.isSome || !recPr r || recElem r != 8 || recStride r != 8 ||
          decide (recWindow r < 64) then exec i s = .next (s.trapped x 218 0 0)
      else ∀ bs, x.stragReads (s.charged x i) r bs → if stragBad r (ofBytes bs) then exec i s = .next (s.trapped x 218 0 0) else bind bs))

/-! ### Queues, the register pool and the system instructions -/

/-- SPAWN, QPUSH and QPOP: what R268 refuses traps with its cause; a block that cannot be reached takes no ticket, gives 0 and owes 243 at the first
read of a result; the engine reads a header after the strand's own commands on its bytes; on an active queue a push waits first until all that its lanes have issued is complete, one without room or without an entry gives 0,
and otherwise, after the strand's own copies of the same bytes, a push reserves the next ticket and writes its entry to the slot, and a pop consumes the
oldest (R230, R268 to R271, R435). -/
def Obligations.QueueInstructions : Prop := ∀ (h : Hdr) (d gp q e k sr : Nat) (s : State) (x : X) (hd : Nat) (qu : Queue) (bs : List Byte),
  let r := x.view0.breg q
  let vf := keyVf x.rk
  let gives := fun (t : State) (wrs : List RegWr) (dst : List (Cls × Nat)) => x.pends t dst (x.cur.cycle + Config.shortResult) wrs ∧ x.keepsBut [] s t
  let asks := fun (i : Instr) (ask : QAsk) (P : Prop) => s.clear i = some x → (∀ b, x.headWait (s.charged x i) r = some b → exec i s = .next (x.waits b s)) ∧
    (x.headWait (s.charged x i) r = none → match s.queueCheck ask x.rk r with
    | .trap c => exec i s = .next (s.trapped x c 0 0)
    | .away => ∃ t, exec i s = .next t ∧ gives t [.gp gp false] [(.gp, gp)] ∧ x.owes t 243 (.reads [(.g, d), (.gp, gp)] false) ∧ sameMachine s t
    | .header b => b = hd → s.queue? vf (recBase r) = some qu → P)
  let after := fun (i : Instr) => (s.charged x i).drainCore x.x.core
  let released := fun (i : Instr) (P : Prop) => (∀ b, x.pushWait (s.charged x i) = some b → exec i s = .next (x.waits b s)) ∧
    (x.pushWait (s.charged x i) = none → P)
  let full := fun (i : Instr) => ∃ t, exec i s = .next t ∧ gives t [.gp gp false] [(.gp, gp)] ∧ t.mem = (after i).mem ∧ t.queues = s.queues
  let pushes := fun (i : Instr) (bs : List Byte) => x.queueWait (after i) [] [(qu.slot qu.rtail.toNat, slotBytes qu.kind)] = none →
    ∃ t qn, exec i s = .next t ∧ gives t [.g d qu.rtail, .gp gp true] [(.g, d), (.gp, gp)] ∧ t.queue? vf (recBase r) = some qn ∧ qn.rtail = qu.rtail + 1 ∧ qn.free = qu.free - 1 ∧
    qn.tail = qu.tail ∧ qn.head = qu.head ∧ qn.written = qu.written ++ [qu.rtail.toNat] ∧
    t.mem = (((after i).devWrite vf (qu.slot qu.rtail.toNat) bs).devWrite vf (qu.va + 8)
      (bytesOf 4 qu.head.toNat ++ bytesOf 4 qu.tail.toNat ++ bytesOf 4 (qu.free - 1).toNat)).mem
  asks (.qpush h d gp q sr) .push (released (.qpush h d gp q sr) (if qu.free = 0 then full (.qpush h d gp q sr)
    else pushes (.qpush h d gp q sr) ((List.range 8).flatMap fun i => bytesOf 4 (x.gr (sr + i))))) ∧
  asks (.spawn h d gp q e k) .spawn (released (.spawn h d gp q e k) (if qu.free = 0 then full (.spawn h d gp q e k)
    else
      let er := x.view0.breg e
      let off := x.gr k * 128
      if er = 0 ∨ recPr er = false ∨ recBase er % 16 ≠ 0 ∨ recWindow er < off + 128 then
        exec (.spawn h d gp q e k) s = .next (s.trapped x 244 0 0)
      else x.queueWait (after (.spawn h d gp q e k)) [(recAddr er off, 128)] [] = none →
        (after (.spawn h d gp q e k)).devRead vf (recAddr er off) 128 = some bs →
        if bitsAt (ofBytes bs) 124 12 ≠ qu.tag ∨ entryClean (ofBytes bs) = false then exec (.spawn h d gp q e k) s = .next (s.trapped x 244 0 0)
        else pushes (.spawn h d gp q e k) bs)) ∧
  asks (.qpop h d gp q) .pop (
    let i : Instr := .qpop h d gp q
    let n := if qhKind hd = 4 then 16 else 8
    let regs := (List.range n).map fun j => (Cls.g, d + j)
    let got := (s.devRead qu.vf (qu.slot qu.head.toNat) (slotBytes qu.kind)).getD (List.replicate (slotBytes qu.kind) 0#8)
    if x.gregs < d + n then exec i s = .next (s.trapped x 7 0 0)
    else if d % n ≠ 0 then exec i s = .next (s.trapped x 15 0 0)
    else if qu.tail = qu.head then ∃ t, exec i s = .next t ∧ gives t [.gp gp false] [(.gp, gp)] ∧ sameMachine s t
    else x.queueWait (s.charged x i) [(qu.slot qu.head.toNat, slotBytes qu.kind)] [] = none → ∃ t qn, exec i s = .next t ∧ t.queue? vf (recBase r) = some qn ∧ qn.head = qu.head + 1 ∧ qn.free = qu.free + 1 ∧ qn.tail = qu.tail ∧
      if s.devFailed qu.vf (qu.slot qu.head.toNat) (slotBytes qu.kind) then
        gives t [.gp gp true] ((.gp, gp) :: regs) ∧ x.owes t 245 (.reads ((.gp, gp) :: regs) false)
      else gives t (.gp gp true :: (List.range n).map fun j => .g (d + j) (BitVec.ofNat 32 (ofBytes ((got.drop (4 * j)).take 4)))) ((.gp, gp) :: regs))

/-- YIELD gives its slice the region's budget again in the cycle of its pass, after that pass has taken its own; RCLAIM and RGIVE under a fork trap with 224, an arm's too, and with 225 where the count would pass 256 or fall
below 8; RCLAIM takes registers from the reserve that no earlier claim waits for, or answers 0, or waits in order; RGIVE returns registers to the
reserve, whose values are lost, and the new count is the result (R31, R84 to R88, R280, R436). -/
def Obligations.RegisterPool : Prop := ∀ (h : Hdr) (d : Nat) (m : W32) (s : State) (x : X),
  let who := x.cur.who
  let cost := m.toNat * passesOf x.width
  let room := (x.x.oldestClaim x.g.bay).isNone && decide (cost ≤ x.x.reserve x.g.bay)
  let gives := fun (t : State) (n : Nat) => x.pends t [(.g, d)] (x.cur.cycle + Config.shortResult) [.g d (BitVec.ofNat 32 n)]
  let stops := fun (i : Instr) (bad : Prop) (P : Prop) => s.clear i = some x →
    (x.underFork = true → exec i s = .next (s.trapped x 224 0 0)) ∧ (x.underFork = false → bad → exec i s = .next (s.trapped x 225 0 0)) ∧
    (x.underFork = false → ¬bad → P)
  let granted := fun (i : Instr) => ∃ t y g, exec i s = .next t ∧ gives t (x.g.n + m.toNat) ∧ t.slice? who.sid = some y ∧
    t.group? who.sid who.gi = some g ∧ y.reserve x.g.bay = x.x.reserve x.g.bay - cost ∧ g.n = x.g.n + m.toNat ∧ sameMachine s t
  (s.clear (.yield h) = some x → ∃ t y, exec (.yield h) s = .next t ∧ x.sameRegs s t ∧ t.slice? who.sid = some y ∧
    (y.spendTo (x.cur.cycle + 1)).budget = s.sliceBudget x.x) ∧
  stops (.rclaim h d m) (256 < x.g.n + m.toNat) (if room then granted (.rclaim h d m)
    else ∃ t y u, exec (.rclaim h d m) s = .next t ∧ x.sameRegs s t ∧ t.slice? who.sid = some y ∧ t.strand? who = some u ∧
      u.st = .scoreboard .claim ∧ x.gains t [(.g, d)] fun f => f.body = .claim m.toNat ∧ y.claims = x.x.claims ++ [⟨x.g.bay, who.gi, f.id, d, m.toNat⟩]) ∧
  stops (.rclaimTry h d m) (256 < x.g.n + m.toNat) (if room then granted (.rclaimTry h d m)
    else ∃ t, exec (.rclaimTry h d m) s = .next t ∧ x.sameRegs s t ∧ gives t 0) ∧
  stops (.rgive h d m) (x.g.n < m.toNat + 8) (x.g.pendingV x.cur.cycle (x.g.n - m.toNat) m.toNat = false → x.x.oldestClaim x.g.bay = none →
    ∃ t y g, exec (.rgive h d m) s = .next t ∧ gives t (x.g.n - m.toNat) ∧ t.slice? who.sid = some y ∧ t.group? who.sid who.gi = some g ∧
      y.reserve x.g.bay = x.x.reserve x.g.bay + cost ∧ g.n = x.g.n - m.toNat ∧ sameMachine s t ∧
      (∀ r L, r < x.g.n - m.toNat → L < 128 → g.vreg r L = x.g.vreg r L) ∧ ∀ r L, x.g.n - m.toNat ≤ r → L < 128 → g.vreg r L = 0)

/-- MOVS completes with the register it names, lane by lane or once, 64 bits for the wide ones: sr.lane the lane, sr.gid die, core, bay and slot,
sr.clk and sr.time the cycle and its nanoseconds, sr.budget what the issue cycles before have left, and so on, of its slice, group and core as the other instruction of its pair found
them, and outside a pair as they are; SETS writes bit 0 to sr.chk and traps with 192 in an arm (R69, R82, R83, R425, R426, R447). -/
def Obligations.SpecialRegisters : Prop := ∀ (h : Hdr) (vd : Bool) (src : MovsSrc) (d n a c : Nat) (s : State) (x : X),
  let u := s.charged x (.movs h vd src d)
  let L := n
  let y := x.was.slice
  let g := x.was.group
  (s.clear (.movs h vd src d) = some x → (∃ t, exec (.movs h vd src d) s = .next t ∧ x.wroteInt t (!vd) src.wide d 4 fun L => x.movsValue u src L) ∧
    (x.cur.src = none → y = x.x ∧ g = x.g ∧ x.was.core = s.core x.x.core)) ∧
  (s.clear (.sets h n a) = some x → if x.isArm then exec (.sets h n a) s = .next (s.trapped x 192 0 0)
    else ∃ t g, exec (.sets h n a) s = .next t ∧ x.sameRegs s t ∧ t.group? x.cur.who.sid x.cur.who.gi = some g ∧ g.chk = (x.gr a).testBit 0) ∧
  (∀ e ∈ [(0x00, L), (0x01, y.core / 40 * 4096 + y.core % 40 * 64 + g.bay * 16 + g.slot), (0x02, x.cur.cycle), (0x03, x.cur.cycle * 5 / 7),
      (0x04, (y.spendTo x.cur.cycle).budget.getD (2 ^ 32 - 1)), (0x05, if g.chk then 1 else 0), (0x06, g.rerr), (0x0C, s.chip), (0x0D, y.index),
      (0x0E, x.cur.who.gi), (0x0F, g.n), (0x11, x.cur.who.sn), (0x12, y.deadline)], x.movsValue u (.sr e.1) L = e.2) ∧
  (c < 4 → x.movsValue u (.sr (0x08 + c)) L = ((x.was.core.chans.getD c Chan.reset).cw + 2 ^ 64 - y.views.getD c 0 % 2 ^ 64) % 2 ^ 64) ∧
  (∀ k, x.movsValue u (.sc k) L = (x.view0.screg k).toNat ∧ x.movsValue u (.am k) L = (x.view0.amreg k).toNat) ∧ x.movsValue u .fmt L = x.fmt.toNat

/-- SVC, TRAP and BKPT issue and owe their traps, 35, 36 and 336, at the strand's next slot; ICINV drops the verification and every cached line of an
executable page of the tenant and answers 1, and answers 0 for any other address; an address past 57 bits traps with 6 (R158, R363, R404, R405, R452). -/
def Obligations.ServicesAndCode : Prop := ∀ (h : Hdr) (n : W32) (d sr : Nat) (s : State) (x : X),
  let owes := fun (i : Instr) (cause : Nat) => s.clear i = some x → ∃ t u, exec i s = .next t ∧ x.sameRegs s t ∧ x.owes t cause .next ∧
    t.strand? x.cur.who = some u ∧ u.c.pc = (if x.cur.second ∨ x.cur.paid then x.now.c.pc else x.cur.nextPc) ∧ u.st = .ready
  let va := x.gr sr + x.gr (sr + 1) % 2 ^ 25 * 2 ^ 32
  let vf := keyVf x.rk
  let i : Instr := .icinv h d sr
  owes (.svc h n) 35 ∧ owes (.trap h n) 36 ∧ owes (.bkpt h) 336 ∧
  (s.clear i = some x → if 2 ^ 25 ≤ x.gr (sr + 1) then exec i s = .next (s.trapped x 6 0 0)
    else if 2 ^ 56 ≤ va ∧ ∃ l, s.walk vf va = some l ∧ l.x = true then
      ∃ t, exec i s = .next t ∧ x.pends t [(.g, d)] (x.cur.cycle + Config.shortResult) [.g d 1] ∧ t.mem = s.mem ∧ x.keepsBut [] s t ∧
        (∀ e ∈ t.jobs, keyVf e.2.rk = vf → va / 65536 ∉ e.2.verified) ∧ (∀ k, ∀ l ∈ (t.core k).icache, l.vf = vf → l.va / 65536 ≠ va / 65536) ∧
        ∀ j J, s.job? j = some J → ∃ J', t.job? j = some J' ∧ ∀ p, p ≠ va / 65536 ∨ keyVf J.rk ≠ vf → (p ∈ J'.verified ↔ p ∈ J.verified)
    else ∃ t, exec i s = .next t ∧ x.wroteG t d 4 0 ∧ x.keepsBut [(.g, d)] s t ∧ sameMachine s t)

/-! ### Results, memory and engine events -/

/-- SCOREBOARD_RESULT_WRITE writes a result whose time has come; LOAD_DATA_RETURN, with nothing of the bytes under way elsewhere, gives a load that
had to follow others the value of its bytes, extended, and makes an atomic's element its new value and gives the old one, and gives one that is presented
the value it has read; STORE_ACKNOWLEDGEMENT writes exactly the bytes of a store, or moves one for another die into the bridge queue (R66, R142, R161,
R358, R414). -/
def Obligations.MemoryEvents : Prop := ∀ (s : State) (id sid gi core pa : Nat) (x : Slice) (g : Group) (f : Inflight) (m : MemOp) (a : LaneAcc)
    (e : StoreEntry) (op : AtomOp) (ty : IntTy),
  let here := s.findInflight id = some (sid, gi, f) ∧ s.slice? sid = some x ∧ x.st = .resident ∧ s.group? sid gi = some g ∧
    g.inflight? id = some f ∧ f.shadow = []
  let old := ofBytes (s.peek pa m.ty.size)
  let lane := f.body = .mem m ∧ m.acc = [a] ∧ a.val = none ∧ a.loc = some (.mem pa) ∧ m.err = none ∧ s.failedIn pa m.ty.size = [] ∧
    (∀ c, (s.core c).buf = []) ∧ g.isOldest f = true ∧ m.watch = false ∧ g.heldWrites f.sn a.lane f.id = [] ∧ m.started = false ∧ m.after = [] ∧
    (m.ord.acq && m.ord.rp) = false
  let wrote := fun (t : State) => ∃ k, t.group? sid gi = some k ∧ k.inflight? id = none ∧
    ∀ j, j < m.ty.regs → k.vreg (m.d + j) a.lane = BitVec.ofNat 32 (widen m.ty old / 2 ^ (32 * j))
  let elsewhere := fun (t : State) (n : Nat) => ∀ q, q < pa ∨ pa + n ≤ q → t.byteAt q = s.byteAt q
  (here → ∀ due wrs, f.body = .timed due wrs → due ≤ s.clock → ∃ t k, exec (.scoreboardResultWrite id) s = .next t ∧ t.group? sid gi = some k ∧
    k.inflight? id = none ∧ k.v = (applyAll g wrs).v ∧ k.g = (applyAll g wrs).g ∧ k.gp = (applyAll g wrs).gp ∧ k.b = (applyAll g wrs).b ∧
    k.th = (applyAll g wrs).th ∧ k.h = (applyAll g wrs).h ∧ sameMachine s t) ∧
  (here → lane → m.atom = none → shuttered s.clock pa = false → ∃ t, exec (.loadDataReturn id) s = .next t ∧ wrote t ∧ t.mem = s.mem) ∧
  (here → lane → m.atom = some op → m.ty = .int ty → ∃ t, exec (.loadDataReturn id) s = .next t ∧ wrote t ∧
    t.peek pa m.ty.size = bytesOf m.ty.size (if op = .fadd then (addBits .f32 .rne false old a.arg).bits else atomOp op ty old a.arg a.cmp) ∧
    elsewhere t m.ty.size) ∧
  (∀ v, here → f.body = .mem m → m.acc = [a] → a.val = some v → m.started = true → m.shut = false → m.atom = none → m.watch = false → m.err = none →
    g.isOldest f = true → ∃ t k, exec (.loadDataReturn id) s = .next t ∧ t.group? sid gi = some k ∧ k.inflight? id = none ∧ t.mem = s.mem ∧
      ∀ j, j < m.ty.regs → k.vreg (m.d + j) a.lane = BitVec.ofNat 32 (widen m.ty v / 2 ^ (32 * j))) ∧
  ((s.core core).buf = [e] → (∀ c, c ≠ core → (s.core c).buf = []) → e.id = id → e.after = [] → e.loc = .mem pa → s.failedIn pa e.bytes.length = [] →
    ∃ t, exec (.storeAcknowledgement core id) s = .next t ∧
      if e.level = 0 ∧ paDie pa ≠ dieOf core then (∃ p, (t.core core).buf = [{ e with level := 1, pos := p }]) ∧ t.mem = s.mem
      else (t.core core).buf = [] ∧ t.peek pa e.bytes.length = e.bytes ∧ elsewhere t e.bytes.length)

/-- FENCE_CONDITION_MET ends the conditions whose accesses are complete, and one at sys scope clears sr.rerr; WATCH_FIRE, MWAIT_TIMEOUT and
WATCH_EVICTION wake a parked strand with code 1, 2 and 3; HELD_QUEUE_RELEASE presents the oldest entry of a queue with no live arm over it, a store's
bytes entering the merge buffer; COPY_ENTRY_FREE wakes who waits for an entry; SHUTTER_WINDOW changes nothing by itself (R103, R151, R170, R171, R227,
R284, R285). -/
def Obligations.WaitingEvents : Prop := ∀ (s : State) (r : StrandRef) (x : Slice) (g : Group) (t₀ : Strand) (w : Watch) (u : Option Nat) (id d die n : Nat)
    (f : Inflight),
  let here := s.slice? r.sid = some x ∧ x.st = .resident ∧ s.group? r.sid r.gi = some g ∧ g.strand? r.sn = some t₀
  let parked := here ∧ g.parked? = some (r.sn, u, id) ∧ g.inflight? id = some f ∧ f.dst = [(.g, d)] ∧ f.shadow = []
  let wakes := fun (i : Instr) (code : Nat) (after : Option Watch) => ∃ t k v, exec i s = .next t ∧ t.group? r.sid r.gi = some k ∧
    k.inflight? id = none ∧ k.greg d = BitVec.ofNat 32 code ∧ k.watch = after ∧ k.strand? r.sn = some v ∧ v.st = .ready ∧ sameMachine s t
  let met := fun (F : FenceCond) => F.ids.all fun n => s.doneAt r.sid r.gi x.core F.scope n
  (here → ∃ t k v, exec (.fenceConditionMet r) s = .next t ∧ t.group? r.sid r.gi = some k ∧ k.strand? r.sn = some v ∧
    v.fences = t₀.fences.filter (fun F => !met F) ∧ ((∃ F ∈ t₀.fences, F.sys = true ∧ met F = true) → k.rerr = 0)) ∧
  (parked → g.watch = some w → w.fired = true → wakes (.watchFire ⟨r.sid, r.gi⟩) 1 (some { w with fired := false })) ∧
  (parked → (∃ n, u = some n ∧ n ≤ s.clock) → (∀ w, g.watch = some w → w.fired = false ∧ w.evicted = false) → wakes (.mwaitTimeout ⟨r.sid, r.gi⟩) 2 g.watch) ∧
  (parked → s.evictedParked die = [⟨r.sid, r.gi⟩] → wakes (.watchEviction die) 3 none) ∧
  (∀ (e : Held) (rest : List Held) (h : Hdr) (mt : MemTy) (o : MemOrd) (xi : Src) (b v : Nat) (imm : W32) (a : LaneAcc) (pa : Nat) (j : Job),
    here → t₀.c.held = e :: rest → g.released t₀ = true → t₀.fences = [] → e.instr = .st h mt o xi b v imm → e.acc = [a] → e.strict = false →
    a.loc = some (.mem pa) → s.job? x.jn = some j → s.translate (keyVf j.rk) .store a.va = .ok (.mem pa) → g.inflight = [] →
    a.lane < 32 * passesOf j.hdr.width → ∃ t k q, exec (.heldQueueRelease r) s = .next t ∧ t.group? r.sid r.gi = some k ∧
      k.strand? r.sn = some q ∧ q.c.held = rest ∧ t.mem = s.mem ∧
      (t.core x.core).buf.map (fun e => (e.va, e.loc, e.bytes)) = (s.core x.core).buf.map (fun e => (e.va, e.loc, e.bytes)) ++
        (storeRuns mt.size [a]).map fun y => (y.va, y.loc, y.bytes)) ∧
  (here → n < 4 → t₀.st = .scoreboard (.channel n) → (s.chan x.core n).entries.length < 12 →
    ∃ t v, exec (.copyEntryFree x.core n) s = .next t ∧ t.strand? r = some v ∧ v.st = .ready) ∧
  exec (.shutterWindow die n) s = .next s

/-- COPY_BYTE_PROGRESS moves the bytes of the next destination line of a channel's working copy, each the one that its source held before any of them was written; COPY_COMPLETE and
UPDATE_COMPLETE take a finished command out and write its results, and an early end owes its causes; UPDATE_SPAN gives weight, momentum and variance
their new values from the four old ones (R228, R229, R231, R238, R240). -/
def Obligations.EngineEvents : Prop := ∀ (s : State) (core ch : Nat) (e : CopyEntry) (rest : List CopyEntry) (u : UpdEntry) (us : List UpdEntry) (el : Nat)
    (p : Nat → Nat) (g : Group) (f : Inflight),
  let quiet := ∀ c, (s.core c).buf = []
  let waits := fun (who : StrandRef) (id : Nat) => s.group? who.sid who.gi = some g ∧ g.inflight? id = some f ∧ f.shadow = [] ∧
    g.retired = false ∧ (g.strand? who.sn).isSome = true
  let ends := fun (t : State) (who : StrandRef) (id : Nat) (l : List (Nat × W32)) (causes : List Nat) => ∃ k, t.group? who.sid who.gi = some k ∧
    k.inflight? id = none ∧ (∀ q ∈ l, k.greg q.1 = q.2) ∧
    ∀ c ∈ causes, ∃ y ∈ k.strands, ∃ z ∈ y.owed, z.cause = c ∧ z.key = id
  let old := fun (b : Nat) => if b = 3 ∧ u.bf = true then ofBytes (s.peek (p b) 2) * 65536 else ofBytes (s.peek (p b) 4)
  let new := optElem (u.params.map BitVec.toNat) (old 0) (old 1) (old 2) (old 3)
  (ch < 4 → quiet → s.workingCopy core ch = some e → (∀ q ∈ (s.chan core ch).entries, q.id = e.id → q = e) →
    ∀ so d from_ to_ : Nat → Nat, let line := e.nextBytes (s.scratchOf e.who.sid)
      (∀ i ∈ line, e.byteAt (s.scratchOf e.who.sid) i = (some (so i), some (d i), false, false) ∧ s.sideLoc e.rk .load e.src (so i) = .ok (.mem (from_ i)) ∧
        s.sideLoc e.rk .store e.dst (d i) = .ok (.mem (to_ i)) ∧ s.failedIn (to_ i) 1 = [] ∧ s.failedIn (from_ i) 1 = []) →
      (∀ i ∈ line, ∀ j ∈ line, to_ i = to_ j → i = j) →
      ∃ t, exec (.copyByteProgress core ch 1) s = .next t ∧ (∀ i ∈ line, t.byteAt (to_ i) = s.byteAt (from_ i)) ∧
        (∀ q, (∀ i ∈ line, q ≠ to_ i) → t.byteAt q = s.byteAt q) ∧ ∃ y ∈ (t.chan core ch).entries, y.id = e.id ∧ y.done = e.done + line.length) ∧
  (ch < 4 → (s.chan core ch).entries = e :: rest → e.finished = true → e.matrix = none → e.kill = none → s.remotes = [] → waits e.who e.id →
    ∃ t, exec (.copyComplete core ch) s = .next t ∧ (t.chan core ch).entries = rest ∧ ends t e.who e.id [(e.d + 1, e.status)] (e.cause.toList ++ e.also.toList)) ∧
  ((s.core core).upd = u :: us → u.finished = false → u.stop = false → u.batch = none → u.flight = none → s.remotes = [] →
    s.earlier core u.who u.id u.touch = [] → quiet →
    u.spanElems u.next = [el] → (∀ r ∈ u.recs, el < recExtent r) → u.recs.length = 4 →
    (∀ b, b < 4 → s.translate (keyVf u.rk) .load (recBase (u.recs.getD b 0) + el * u.elemSize b) = .ok (.mem (p b)) ∧ s.failedIn (p b) 4 = [] ∧
      (b < 3 → s.translate (keyVf u.rk) .store (recBase (u.recs.getD b 0) + el * u.elemSize b) = .ok (.mem (p b)))) →
    (∀ b c, b < c → c < 3 → p b + 4 ≤ p c ∨ p c + 4 ≤ p b) →
    ∃ t, exec (.updateSpan core) s = .next t ∧ t.peek (p 0) 4 = bytesOf 4 new.1 ∧ t.peek (p 1) 4 = bytesOf 4 new.2.1 ∧
      t.peek (p 2) 4 = bytesOf 4 new.2.2 ∧ (t.core core).upd = { u with next := u.next + 1, updated := u.updated + 1, got := [], lost := [] } :: us) ∧
  ((s.core core).upd = u :: us → u.finished = true → s.remotes = [] → waits u.who u.id → ∃ t, exec (.updateComplete core) s = .next t ∧ (t.core core).upd = us ∧
    ends t u.who u.id [(u.d, BitVec.ofNat 32 u.updated), (u.d + 1, u.status)] (u.cause.toList ++ u.also.toList))

/-- The events of an array: ARRAY_COMMAND carries out the command it works on, an MZERO's rows becoming 0 and an MMA's row adding, element by element,
its pass over the active plane; MATRIX_OPERAND_FETCH reads a scratchpad operand; PLANE_SWAP_EFFECT changes the active plane; SHADOW_PLANE_WRITE fills
the other; MATRIX_COMMAND_COMPLETE writes the status and owes an operand trap (R199 to R201, R209, R213, R216, R218). -/
def Obligations.MatrixEvents : Prop := ∀ (s : State) (sid arr : Nat) (x : Slice) (A : ArraySt) (c : MCmd) (h : Hdr) (kd : MKind) (k a sr row0 n : Nat)
    (g : Group) (f : Inflight),
  let works := s.slice? sid = some x ∧ x.arrays[arr]? = some A ∧ A.working = some c ∧ c.batch = none
  let after := fun (i : Instr) (P : State → Slice → ArraySt → Prop) => ∃ t y B, exec i s = .next t ∧ t.slice? sid = some y ∧ y.arrays[arr]? = some B ∧ P t y B
  let isDone := fun (B : ArraySt) => ∃ q ∈ B.queue, q.id = c.id ∧ q.done = true
  let F := fmtA c.fmt
  (works → c.instr = .mzero h kd k sr row0 n → x.tilesFailed = [] → row0 + n ≤ 64 → after (.arrayCommand sid arr) fun _ y B => isDone B ∧
    ∀ K i j, i < 64 → j < 64 → y.tile K i j = if K = k ∧ row0 ≤ i ∧ i < row0 + n then 0 else x.tile K i j) ∧
  (∀ T els exps, works → c.instr = .mma h .regs k a sr row0 → c.regRows = [(T, els, exps)] → x.tilesFailed = [] → A.plane.failed = [] → T < 64 →
    after (.arrayCommand sid arr) fun _ y B => isDone B ∧ ∀ K i j, i < 64 → j < 64 →
      let sum := accAdd (x.tile k T j) (passSum F.is16 (((rowVals F els exps).zip (List.range 64)).map fun e => (e.1, A.plane.val e.2 j)))
      y.tile K i j = if K = k ∧ i = T then (if sum % 2 ^ 31 = 0 then 0 else BitVec.ofNat 32 sum) else x.tile K i j) ∧
  (∀ fm th j, works → c.reads = some (.sx, fm) → c.ths = [th] → c.recs.length = 1 → c.fetched = none → x.scratchFailed = [] → s.job? x.jn = some j →
    (s.core x.core).buf = [] → s.mxBlocked sid c false = false → s.mxStrict (s.sliceRegion x) .sx (c.recs.headD 0) = false → after (.matrixOperandFetch sid arr) fun _ _ B =>
      ∃ q ∈ B.queue, q.id = c.id ∧ ∃ o, q.fetched = some [o] ∧ o.rows.length = thRows th ∧ ∀ r, r < thRows th → ∃ els ex,
        o.rows[r]? = some (r, els, ex) ∧ ∀ e u, e < 64 → thUnit th fm r e = some u →
          els.getD e 0 = if u.off + u.n ≤ j.hdr.scratch then u.value (Sparse.getList 0#8 x.scratch u.off u.n) else 0) ∧
  (works → c.instr = .mswap h kd k sr → after (.planeSwapEffect sid arr) fun _ _ B => isDone B ∧ B.active = 1 - A.active ∧ B.p0 = A.p0 ∧ B.p1 = A.p1) ∧
  (∀ o os, works → c.instr = .mldw h kd k a sr → c.fetched = some (o :: os) → (∀ q ∈ A.queue, q.done = true → q.plane ≠ some (1 - A.active)) →
    after (.shadowPlaneWrite sid arr) fun _ _ B => isDone B ∧ B.active = A.active ∧
      if A.active = 1 then B.p0 = planeOf (fmtW c.fmt) o ∧ B.p1 = A.p1 else A.active = 0 → B.p1 = planeOf (fmtW c.fmt) o ∧ B.p0 = A.p0) ∧
  (∀ rest, s.slice? sid = some x → x.arrays[arr]? = some A → A.queue = c :: rest → c.done = true → s.group? sid c.gi = some g →
    g.inflight? c.id = some f → f.shadow = [] → g.retired = false → (g.strand? c.sn).isSome = true →
    after (.matrixCommandComplete sid arr) fun t _ B => B.queue = rest ∧ ∃ k, t.group? sid c.gi = some k ∧ k.inflight? c.id = none ∧
      k.greg c.st = BitVec.ofNat 32 c.status ∧ ∀ cause, c.trap = some cause → ∃ y ∈ k.strands, ∃ z ∈ y.owed, z.cause = cause ∧ z.key = c.id)

/-! ### Arbitration, traps and faults -/

/-- ISSUE_ARBITRATION: in a free bay the eligible strand that goes before every other begins a run with no lost arbitration, and each other eligible
one has lost one more. TRAP_RECORD_PUSH: the oldest waiting record of a region, raised in an earlier cycle, takes the next id and goes to the Sorser FIFO or
into the trap queue; without a trap queue its group is killed. BUDGET_EXHAUSTED: a record of KIND 2 with cause 320 waits in its place, and the slice is pre-empted until a RESUME.
CLAIM_DEADLOCK: the strand of the oldest claim stops before its RCLAIM with cause 226 (R31, R33, R64, R90, R281, R307, R310). -/
def Obligations.ArbitrationAndRecords : Prop := ∀ (s : State) (core bay sid rk gi sn pc : Nat) (w : StrandRef × Slice × Group × Strand) (r q₀ : Region)
    (T : TrapRec) (rest : List TrapRec) (q : Queue) (x : Slice) (g : Group) (u : Strand) (c : Claim) (f : Inflight),
  let l := s.bayStrands core bay
  let b := (s.core core).bays.getD bay Bay.reset
  let root := s.saveRoot rk
  let pushes := s.region? rk = some r ∧ r.waiting = T :: rest ∧ s.saved T = true ∧ s.region? root = some q₀ ∧ T.id = none ∧
    T.cycle < s.clock ∧ s.idsTaken root < 4096
  let took := fun (t : State) => (∃ W, t.region? rk = some W ∧ W.waiting = rest) ∧ ∃ R, t.region? root = some R ∧
    R.nextId = (q₀.nextId + 1) % 2 ^ 24 ∧ (T.kind ≠ 3 → ∃ o ∈ R.out, o.id = q₀.nextId ∧ o.kind = T.kind ∧ o.cause = T.cause ∧ o.who = T.who)
  (bay < (s.core core).bays.length → bay < 4 → b.run = none → b.free ≤ s.clock → (l.map Prod.fst).Nodup →
    (∀ e ∈ l, s.settleReady e = s ∧ s.strand? e.1 = some e.2.2.2) → w ∈ l → eligible s.clock w.2.2.2 = true →
    (∀ e ∈ l, eligible s.clock e.2.2.2 = true → e.1 = w.1 ∨ strandBefore w e = true) →
    ∃ t v, exec (.issueArbitration (4 * core + bay)) s = .next t ∧ ((t.core core).bays.getD bay Bay.reset).run = some w.1 ∧ t.strand? w.1 = some v ∧
      v.st = .issuing ∧ v.lost = 0 ∧ v.c = w.2.2.2.c ∧ ∀ e ∈ l, e.1 ≠ w.1 → ∃ k, t.strand? e.1 = some k ∧
        k = if eligible s.clock e.2.2.2 = true then { e.2.2.2 with lost := e.2.2.2.lost + 1 } else e.2.2.2) ∧
  (pushes → T.toSorser = true → s.mgmt.fifo.length < 64 → ∃ t, exec (.trapRecordPush rk) s = .next t ∧ took t ∧
    t.mgmt.fifo = s.mgmt.fifo ++ [trapBytes s.chip q₀.nextId T]) ∧
  (pushes → T.toSorser = false → r.trapq ≠ 0 → s.queue? (keyVf rk) r.trapq = some q → q.free ≠ 0 →
    q.written = [] → q.rtail = q.tail → ∃ t k, exec (.trapRecordPush rk) s = .next t ∧
    took t ∧ t.queue? (keyVf rk) r.trapq = some k ∧ k.tail = q.tail + 1) ∧
  (pushes → T.toSorser = false → r.trapq = 0 → T.retired = false → ∀ y, T.who = some y → (s.group? y.sid y.gi).isSome = true →
    ∃ t k, exec (.trapRecordPush rk) s = .next t ∧ t.group? y.sid y.gi = some k ∧ k.retired = true) ∧
  (s.slice? sid = some x → x.st = .resident → x.exhausted = some (gi, sn, pc) → x.budget = some 0 → (s.group? sid gi).isSome = true →
    s.region? (s.sliceRegion x) = some r → ∃ t y R D, exec (.budgetExhausted sid) s = .next t ∧ t.slice? sid = some y ∧ y.exhausted = none ∧
      y.preempt = some .budget ∧ y.wantResume = true ∧ t.region? (s.sliceRegion x) = some R ∧ D.cause = 320 ∧ D.kind = 2 ∧
      D.who = some ⟨sid, gi, sn⟩ ∧ D.cpc = pc ∧ ∃ a b, r.waiting = a ++ b ∧ R.waiting = a ++ D :: b ∧ (∀ e ∈ a, e.before D = true) ∧
      ∀ e, b.head? = some e → e.before D = false) ∧
  (s.slice? sid = some x → x.st = .resident → (∃ y ∈ x.groups, y.bay = bay ∧ y.retired = false) →
    (∀ y ∈ x.groups, y.bay = bay → y.retired = false → s.stuck sid x bay y = true) → x.oldestClaim bay = some c →
    x.reserve bay < c.m * passesOf (s.widthOf x) → s.group? sid c.gi = some g → g.strands = [u] → g.inflight? c.id = some f →
    ∃ t y v, exec (.claimDeadlock sid bay) s = .next t ∧ t.slice? sid = some y ∧ (∀ z ∈ y.claims, z.id ≠ c.id) ∧
      t.strand? ⟨sid, c.gi, u.sn⟩ = some v ∧ v.st = .stopped none ∧ v.c = { u.c with pc := f.cpc })

/-- PAGE_FAULT_RUN_AHEAD sends the batch of a strand with no other Ready strand in its bay, and changes neither its group nor memory; PRI_RESPONSE,
BATCH RESUME and BATCH FAIL answer a batch, whose strand goes on or takes its cause; RESUME continues a stopped strand at its own slot or, skipping, after
the instruction or pair that trapped, and lets a slice that used up its budget return; KILL kills the group or the whole slice (R155, R156, R276, R312, R313). -/
def Obligations.FaultAnswers : Prop := ∀ (s : State) (r : StrandRef) (x : Slice) (g : Group) (u : Strand) (id : Nat) (b : Batch) (c : Cmd) (o : OutId)
    (leaves : List (Nat × Bool × Bool × Bool)),
  let here := s.slice? r.sid = some x ∧ s.group? r.sid r.gi = some g ∧ s.strand? r = some u
  let waits := here ∧ u.st = .faultWait id ∧ Sparse.find s.batches id = some b ∧ b.owner = .strand r
  let answers := fun (i : Instr) (ok : Bool) => ∃ t v, exec i s = .next t ∧ t.strand? r = some v ∧
    if ok then v.st = .ready ∧ v.c = u.c else v.st = .stopped none ∧ v.c = u.c ∧ ∀ R, s.region? (s.sliceRegion x) = some R →
      ∃ W D, t.region? (s.sliceRegion x) = some W ∧ D ∈ W.waiting ∧ D.cause = b.cause ∧ D.cpc = b.cpc ∧ D.who = some r
  let direct := c.queue = none ∧ s.outId (cmdTarget c) c.a = some o
  (waits → b.filling = true → b.pages.length ≤ 17 →
    (∀ e ∈ s.bayStrands x.core g.bay, e.1 ≠ r → e.2.2.2.st ≠ .ready ∧ e.2.2.2.st ≠ .issuing) →
    ∃ t k, exec (.pageFaultRunAhead r) s = .next t ∧ Sparse.find t.batches id = some k ∧ k.filling = false ∧ k.owner = b.owner ∧
      (∀ p ∈ b.pages, p ∈ k.pages) ∧ k.pri = k.pages.any (fun p => !inDevice p) ∧ k.dev = k.pages.any inDevice ∧
      t.slices = s.slices ∧ t.mem = s.mem) ∧
  (waits → b.filling = false → b.failed = false → b.pri = true → b.dev = false →
    answers (.priResponse id true leaves) true ∧ answers (.priResponse id false leaves) false) ∧
  (waits → b.filling = false → b.failed = false → b.pri = false → b.dev = true → direct → o.kind = 1 → o.batch = some id →
    answers (.batchResume c) true ∧ answers (.batchFail c) false) ∧
  (here → direct → o.who = some r → o.kind = 0 → x.st ≠ .retired → x.st ≠ .failed → u.st = .stopped (some o.id) → ∃ t v, exec (.resume c) s = .next t ∧ t.strand? r = some v ∧
    v.st = .ready ∧ v.lost = 0 ∧ v.c = { u.c with pc := v.c.pc } ∧ (bitAt c.b 0 = false → v.c.pc = u.c.pc) ∧
    (bitAt c.b 0 = true → v.c.pc = if o.defer = true then u.c.pc else if o.paired = true then nextSlot (nextSlot u.c.pc) else nextSlot o.cpc)) ∧
  (here → direct → o.who = some r → o.kind = 2 → x.st ≠ .retired → x.st ≠ .failed → ∃ t y, exec (.resume c) s = .next t ∧ t.slice? r.sid = some y ∧
    y = { x with wantResume := false }) ∧
  (here → direct → o.who = some r → o.kind = 0 → bitAt c.b 0 = false → ∃ t k, exec (.kill c) s = .next t ∧ t.group? r.sid r.gi = some k ∧
    k.retired = true) ∧
  (here → direct → o.who = some r → x.st ≠ .retired → x.st ≠ .failed → (o.kind = 2 ∨ o.kind = 0 ∧ bitAt c.b 0 = true) →
    ∃ t y, exec (.kill c) s = .next t ∧ t.slice? r.sid = some y ∧ y.st = .failed ∧ ∀ k ∈ y.groups, k.retired = true)

/-! ### Slices and jobs -/

/-- GROUP_RETIRE ends a group that may retire, and with the last one its slice; SLICE_DISPATCH places a Queued slice with every group at the job's
entry and its arguments in its g registers, or picks a slice to pre-empt; CONTEXT_SAVE makes a slice Swapped with an image, or raises cause 321 without
room for one; CONTEXT_RESTORE makes it Resident again, or fails it with cause 323 where its image is not as written, and tells the module that sent it how it went; PREEMPT
asks for a slice to leave (R29, R33 to R35, R48, R80, R276 to R278, R316, R318, R348). -/
def Obligations.SliceEvents : Prop := ∀ (s : State) (sid gi k jn va : Nat) (x : Slice) (g : Group) (j : Job) (d : Cand) (bays : List Nat) (c : Cmd)
    (m : List (Nat × Nat)) (why : Preempt) (s₁ : State),
  let here := s.slice? sid = some x
  let gives := fun (i : Instr) (P : State → Slice → Prop) => ∃ t y, exec i s = .next t ∧ t.slice? sid = some y ∧ P t y
  (here → s.group? sid gi = some g → x.st = .resident → s.mayRetire ⟨sid, gi⟩ x g = true → gives (.groupRetire ⟨sid, gi⟩) fun t y =>
      (∃ z, t.group? sid gi = some z ∧ z.retired = true ∧ z.strands = []) ∧
      ((x.groups.filter fun z => !z.retired).length ≤ 1 → y.st = if x.failCause.isSome = true then .failed else .retired)) ∧
  (s.dispatchAct = some (.place d k) → d.sid = none → s.job? d.jn = some j → j.table = none → s.fitOn d k none = some (bays, m) →
    ∃ t n y, exec .sliceDispatch s = .next t ∧ t.slice? n = some y ∧ y.jn = d.jn ∧ y.index = d.index ∧ y.st = .resident ∧ y.core = k ∧
      y.deadline = j.deadlineOf d.index ∧ y.budget = s.sliceBudget y ∧ y.groups.length = j.hdr.groups ∧ ∀ z ∈ y.groups, z.n = j.hdr.vregs ∧
        (∀ i, i < j.args.length → z.greg i = j.args.getD i 0) ∧ ∃ u, z.strands = [u] ∧ u.st = .ready ∧ u.c.pc = j.code + 65536 + j.hdr.entry ∧
          u.c.mask = lowMask j.hdr.width ∧ u.c.sp = j.hdr.stack ∧ u.c.lo = 0) ∧
  (s.dispatchAct = some (.preempt sid why) → here → x.st = .resident → x.preempt = none →
    gives .sliceDispatch fun _ y => y = { x with preempt := some why }) ∧
  (here → s.saveReady sid x = true → (s.drainCore x.core).poolTake (s.sliceRegion x) (s.imageSize x) = some (va, s₁) →
    gives (.contextSave sid) fun t y => y.st = .swapped ∧ (∃ im, y.image = some im ∧ im.va = va ∧ im.size = s.imageSize x ∧
      im.header.take 4 = bytesOf 4 0x45474D49) ∧ ∀ b ∈ (t.core x.core).bays, ∀ r, b.run = some r → r.sid ≠ sid) ∧
  (here → s.saveReady sid x = true → (s.drainCore x.core).poolTake (s.sliceRegion x) (s.imageSize x) = none →
    (s.region? (s.sliceRegion x)).isSome = true → gives (.contextSave sid) fun t y => y.st = .resident ∧ y.saveWait = true ∧
      ∃ R D, t.region? (s.sliceRegion x) = some R ∧ D ∈ R.waiting ∧ D.cause = 321 ∧ D.kind = 3) ∧
  (here → x.st = .swapped → s.mgmt.hold = false → s.candidates.find? (fun e => e.sid == some sid) = some d → s.coreFor d = some k →
    gives (.contextRestore sid) fun _ y =>
      if s.imageGood x = true then y.st = .resident ∧ y.core = k ∧ y.preempt = none ∧ y.image = none ∧ y.log = [] ∧
        y.groups.length = x.groups.length ∧ y.deadline = x.deadline
      else y.st = .failed ∧ (x.source = none → y.failCause = some (x.failCause.getD 323))) ∧
  (here → x.st = .swapped → s.mgmt.hold = false → s.candidates.find? (fun e => e.sid == some sid) = some d → s.coreFor d = some k →
    ∀ chip key, x.source = some chip → x.stolen = some key → gives (.contextRestore sid) fun t y => y.source = none ∧
      .restored chip key x.index (s.imageGood x) ∈ t.out) ∧
  (here → c.queue = none → s.jobNamed (keyVf (cmdTarget c)) c.a c.c = some jn → s.job? jn = some j → s.isAncestor (cmdTarget c) j.rk = true →
    s.slices.find? (fun e => e.2.jn == jn && e.2.index == c.b) = some (sid, x) → x.preempt = none →
    gives (.preempt c) fun _ y => y = if x.st = .resident then { x with preempt := some .command } else x)

/-- JOB_ADMISSION takes the entry of the queue that is next: its job has every slice Queued, or, where a check finds a cause, is finished with every
slice counted as Failed: with a bad signature that is 352, and with one of another tenant's key 354. COMPLETION_ENTRY_WRITE writes a job's oldest entry, where no other job has an older one for the queue. CODE_PAGE_VERIFIED lets the strands
that wait for a page go on where its hash is the one in its code object, and fails the job where it is not; KILL JOB and FAIL DOMAIN leave no slice of a job running (R37, R159, R273, R276, R286, R287, R302, R458). -/
def Obligations.JobEvents : Prop := ∀ (s : State) (q : Queue) (r : Region) (jn page cause : Nat) (j : Job)
    (e : Completion) (rest : List Completion) (c : Cmd),
  let p := s.popEntry q
  let s₁ := { p.2.2 with queues := (p.2.2.queues.filter fun (y : Queue) => !(y.vf == q.vf && y.va == q.va)) ++
    (p.2.2.queues.filter fun (y : Queue) => y.vf == q.vf && y.va == q.va) }
  let f := parseEntry (ofBytes p.1)
  let rk := regionKey q.vf f.tag
  let taken := s.nextAdmission = some q ∧ p.2.1 = false ∧ s₁.region? rk = some r ∧ entryClean (ofBytes p.1) = true ∧ s₁.cqOk q.vf f.cq = true
  let admits := fun (P : Job → Prop) => ∃ t k, exec (.jobAdmission q.vf q.va q.head.toNat) s = .next t ∧ t.job? s.nextId = some k ∧
    k.ticket = q.head.toNat ∧ k.rk = rk ∧ k.cq = f.cq ∧ P k
  let ended := fun (t : State) => ∀ sid y, t.slice? sid = some y → y.jn = jn → y.st = .retired ∨ y.st = .failed
  let runs := s.job? jn = some j ∧ j.finished = false ∧ j.dying = false
  let same := s.pageHashOk (keyVf j.rk) j.code (page - codeBase j.code / 65536)
  let direct := c.queue = none ∧ s.isAncestor (cmdTarget c) j.rk = true
  let accepted := fun (k : Job) => k.finished = false ∧ k.queued = [(0, f.slices)] ∧ k.code = f.code ∧
    k.slices = f.slices ∧ k.args = f.args ∧ k.recs = f.recs ∧ k.fdom = r.fdom ∧ k.doneN = 0 ∧ k.failN = 0
  let failed := fun (cause : Nat) (k : Job) => k.finished = true ∧ k.failN = f.slices ∧
    ∃ w, k.completions = [w] ∧ w.kind = 2 ∧ w.fail = true ∧ w.cause = cause ∧ w.failN = f.slices
  (taken → s₁.codeChecks q.vf r f .valid = none → admits fun k => match s₁.sigVerdict q.vf f.code (s₁.headerAt q.vf f.code).pages with
    | .valid => accepted k
    | .invalid => failed 352 k
    | .untrusted => failed 354 k) ∧
  (taken → s₁.codeCheck q.vf r f = some cause → admits (failed cause)) ∧
  (s.job? jn = some j → j.completions = e :: rest → s.queue? (keyVf j.rk) e.cq = some q → q.free ≠ 0 → q.written = [] → q.rtail = q.tail →
    s.olderEntry (keyVf j.rk) e.cq e.seq = false → ∃ t k y, exec (.completionEntryWrite jn) s = .next t ∧ t.job? jn = some k ∧ k.completions = rest ∧ t.queue? (keyVf j.rk) e.cq = some y ∧
      y.tail = q.tail + 1 ∧ y.free = q.free - 1) ∧
  (runs → page ∈ j.verifying → same = true → ∃ t k, exec (.codePageVerified (keyVf j.rk) jn page) s = .next t ∧ t.job? jn = some k ∧ k.verified = j.verified ++ [page] ∧
    ∀ (w : StrandRef) x u, s.slice? w.sid = some x → x.jn = jn → s.strand? w = some u → u.st = .verify page →
      ∃ v, t.strand? w = some v ∧ v.st = .ready) ∧
  (runs → page ∈ j.verifying → same = false → ∃ t, exec (.codePageVerified (keyVf j.rk) jn page) s = .next t ∧ ended t) ∧
  (runs → direct → s.jobNamed (keyVf (cmdTarget c)) c.a c.b = some jn → ∃ t k, exec (.killJob c) s = .next t ∧ ended t ∧ t.job? jn = some k ∧
    k.queued = []) ∧
  (runs → c.queue = none → c.a ≠ 0 → j.fdom = c.a → keyVf j.rk = keyVf (cmdTarget c) → ∃ t k, exec (.failDomain c) s = .next t ∧ ended t ∧
    t.job? jn = some k ∧ k.queued = [])

/-! ### Queues, regions, translation and the weight store -/

/-- HTAIL_WRITE and HHEAD_WRITE take a host's new counter that is in range, and ignore one that is not; QPUSH_PUBLISH publishes the written tickets in
order; QUEUE WATCH makes a queue active with the counters of its header; ATS_INVALIDATION drops the host pages of a range for those that the host has there
from then on, and TRANSLATION INVALIDATE evicts the tenant's watches on it once no access keeps a place that it has found there before (R138, R265, R266, R269, R276, R285). -/
def Obligations.QueueEvents : Prop := ∀ (s : State) (key vf va n : Nat) (q : Queue) (c : Cmd) (b : List Byte)
    (leaves : List (Nat × Bool × Bool × Bool)),
  let v : W32 := BitVec.ofNat 32 n
  let gives := fun (i : Instr) (P : Queue → Prop) => ∃ t k, exec i s = .next t ∧ t.queue? q.vf q.va = some k ∧ P k
  let h := ofBytes b
  let word := fun (i : Nat) => BitVec.ofNat 32 (bitsAt h i 32)
  (s.queueOfKey key = some q → gives (.htailWrite key n) fun k => k.head = q.head ∧
    if q.prod = true ∧ v ≠ q.tail ∧ (v - q.head).toNat ≤ q.cap then k.tail = v ∧ k.free.toNat = (q.cap - (v - q.head).toNat) % 2 ^ 32
    else k.tail = q.tail ∧ k.free = q.free) ∧
  (s.queueOfKey key = some q → gives (.hheadWrite key n) fun k => k.tail = q.tail ∧
    if q.cons = true ∧ v ≠ q.head ∧ (v - q.head).toNat ≤ (q.tail - q.head).toNat then k.head = v ∧ k.free = q.free + (v - q.head)
    else k.head = q.head ∧ k.free = q.free) ∧
  (s.queueOfKey key = some q → q.tail.toNat ∈ q.written → gives (.qpushPublish key) fun k => k.head = q.head ∧ k.tail.toNat ∉ k.written ∧
    ∃ m, 0 < m ∧ k.tail = q.tail + BitVec.ofNat 32 m ∧ ∀ i, i < m → (q.tail + BitVec.ofNat 32 i).toNat ∈ q.written) ∧
  (c.queue = none → vf = keyVf (cmdTarget c) → s.queue? vf c.a = none → c.a % 64 = 0 → s.devOpen vf c.a 64 = true → s.devRead vf c.a 64 = some b →
    qhBad h = false → s.devOpen vf c.a (blockBytes (qhKind h) (qhLog h)) = true → qhProd h = false → qhCons h = false →
    ∃ t k, exec (.queueWatch c) s = .next t ∧ t.queue? vf c.a = some k ∧ k.kind = qhKind h ∧ k.logcap = qhLog h ∧ k.tag = qhTag h ∧ k.head = word 64 ∧
      k.tail = word 96 ∧ k.free = word 128 ∧ k.rtail = word 96) ∧
  (s.hostHeld vf va n = false → ∃ t, exec (.atsInvalidation vf va ⟨n, leaves⟩) s = .next t ∧ ∀ e, e ∈ t.hostPages ↔
    (e ∈ s.hostPages ∧ ¬(hostKey vf va < e.1 + 4096 ∧ e.1 < hostKey vf va + n)) ∨
    ∃ l ∈ leaves, inDevice l.1 = false ∧ l.1 % 4096 = 0 ∧ va < l.1 + 4096 ∧ l.1 < va + n ∧ e = (hostKey vf l.1, l.2)) ∧
  (c.queue = none → s.devHeld (keyVf (cmdTarget c)) c.a c.b = true → exec (.translationInvalidate c) s = .next s) ∧
  (c.queue = none → s.devHeld (keyVf (cmdTarget c)) c.a c.b = false → ∃ t, exec (.translationInvalidate c) s = .next t ∧ t.mem = s.mem ∧ ∀ w ∈ s.watches, ∀ x g T, s.slice? w.g.sid = some x →
    s.group? w.g.sid w.g.gi = some g → g.watch = some T → keyVf (s.sliceRegion x) = keyVf (cmdTarget c) →
    (c.b = 0 ∨ c.a < T.va / 65536 * 65536 + 65536 ∧ T.va / 65536 * 65536 < c.a + c.b) →
    w ∉ t.watches ∧ ∃ k D, t.group? w.g.sid w.g.gi = some k ∧ k.watch = some D ∧ D.evicted = true)

/-- REGION_CREATE makes the region that an RCB describes: below its parent, of no higher priority, and with the parent's value for each field that is 0;
REGION RELOAD gives a region what its RCB says now and keeps its records; WEIGHT LOAD starts a load of whole pages, and WEIGHT_LOAD_COMPLETE has its
bytes in the weight store (R38, R274, R275, R311, R345). -/
def Obligations.RegionEvents : Prop := ∀ (s : State) (vf va rk n pk d p : Nat) (r old P : Region) (c : Cmd) (w : WLoad),
  (s.readRcb vf va = some (rk, r) → s.region? rk = none → ∃ t, exec (.regionCreate vf va) s = .next t ∧ t.region? rk = some r) ∧
  (s.readRcb vf va = some (rk, r) → va % 256 = 0 ∧ inDevice va = true ∧ r.rcbVa = va ∧ r.vf = vf) ∧
  (resolveRcb vf va n (some (pk, P)) = some r → P.level < 8 ∧ r.level = P.level + 1 ∧ r.parent = some pk ∧ r.prio ≤ P.prio ∧ 2 ≤ r.saveSize ∧
    (bitsAt n 52 4 = 0 → r.prio = P.prio) ∧ (bitsAt n 49 2 = 0 → r.strict = P.strict) ∧ (bitsAt n 128 32 = 0 → r.budget = P.budget) ∧
    (bitsAt n 160 32 = 0 → r.period = P.period) ∧ (bitsAt n 224 16 = 0 → r.hquota = P.hquota) ∧ (bitsAt n 240 16 = 0 → r.dcquota = P.dcquota) ∧
    (bitsAt n 256 16 = 0 → r.fdom = P.fdom) ∧
    (bitsAt n 384 64 = 0 → r.trapq = P.trapq) ∧ (bitsAt n 576 32 = 0 → r.save = P.save ∧ r.saveSize = P.saveSize)) ∧
  (c.queue = none → rk = c.tag → s.region? rk = some old → s.readRcb old.vf old.rcbVa = some (rk, r) → r.parent ≠ some rk →
    (∀ e ∈ s.regions, e.2.parent ≠ some rk) → ∃ t k, exec (.regionReload c) s = .next t ∧ t.region? rk = some k ∧ k.prio = r.prio ∧ k.strict = r.strict ∧
      k.budget = r.budget ∧ k.trapq = r.trapq ∧ k.save = r.save ∧ k.fdom = r.fdom ∧ k.out = old.out ∧ k.nextId = old.nextId) ∧
  (c.queue = none → vf = keyVf (cmdTarget c) → s.loadBad vf c.a c.b c.c = false →
    (∀ y ∈ s.mgmt.loads, ¬(y.queue = none ∧ y.dst = c.a ∧ y.src = c.b ∧ y.len = c.c)) → ∃ t y, exec (.weightLoad c) s = .next t ∧
      t.mgmt.loads = s.mgmt.loads ++ [y] ∧ y.vf = vf ∧ y.dst = c.a ∧ y.src = c.b ∧ y.len = c.c ∧ t.mem = s.mem) ∧
  (s.mgmt.loads.find? (fun y => y.id == n) = some w → w.len = 65536 → w.queue = none → s.wsPa w.vf w.dst = some d → s.devPa w.vf w.src = some p →
    s.failedIn p 65536 = [] → ∃ t, exec (.weightLoadComplete n) s = .next t ∧ (∀ y ∈ t.mgmt.loads, y.id ≠ n) ∧
      (∀ i, i < 65536 → t.byteAt (d + i) = s.byteAt (p + i)) ∧ ∀ a, a < d ∨ d + 65536 ≤ a → t.byteAt a = s.byteAt a)

/-! ### Harness units and collectives -/

/-- HARNESS_ARRIVAL_RECEIVE judges what another module's member asks: a bad request is refused, a join takes the member in, an arrival reaches the unit, and
one taken is recorded, completing the phase where it is the last one needed, or refused; HARNESS_COMPLETION_MESSAGE gives a waiter its results, and an
answer wakes who asked; STRAGGLER_ENTRY_WRITE writes the oldest entry where READ leaves room, or counts a dropped one (that it drops one whose READ cannot be read is the model's choice, log 21); LAG_NOTICE sets and clears a region's
lag; HARNESS_UNIT_FAILURE fails the unit's harnesses and stops their waiters with 221 (R246, R247, R250, R252, R254, R291, R293, R315, R338).
COLLECTIVE_COMPLETE gives a rank of this module, here the only one of a ready phase, its results and the status of R374, or the failure status and
the cause it owes; so does the message of the module that holds the harness, with the status or the cause that it carries; COLLECTIVE_TIMEOUT fails a rank whose
time is over with cause 312 (R341, R342, R373, R374). -/
def Obligations.HarnessUnitEvents : Prop :=
  (∀ (s : State) (key : HKey) (h : Harness) (c n phase ftid tag rk id cause : Nat) (kind : HKind) (count : Option Nat)
       (value : Option W32) (handle val : W32) (lost : Bool) (m : HMember) (a : HComing) (w : HWaiter) (x : Slice) (g : Group) (u : Strand) (f : Inflight)
       (sg : Strag) (e : List Byte) (rest : List (List Byte)) (unit : HUnit) (op : HAsk) (seen : StragSeen),
     let here := s.harness? key = some h ∧ h.holder = s.chip ∧ (∀ jn, key ≠ .job jn)
     let who := Member.there c n
     let need := if h.kind.isSome = true then h.count else a.count.getD (if h.counted = true then h.created else h.phaseMembers)
     let gives := fun (i : Instr) (k : HKey) (P : State → Harness → Prop) => ∃ t y, exec i s = .next t ∧ t.harness? k = some y ∧ P t y
     let asks := fun (o : HAsk) (P : State → Harness → Prop) => gives (.harnessArrivalReceive key who (.ask id handle ftid tag o)) key P
     let check := fun (member : Bool) => s.askCheck (some h) handle ftid tag who true member
     let told := fun (t : State) (r : HReply) => OutMsg.released c key ftid tag r ∈ t.out
     let back := fun (t : State) (r : HReply) => OutMsg.released c key (s.tenant (keyVf h.rk)).ftid (keyTag h.rk) r ∈ t.out
     let bound := s.boundFor ftid tag (s.harness? key) = true
     let coll := ∃ cw nb, kind = HKind.coll cw nb
     let idle := h.counted = false ∧ h.members = [] ∧ h.queued = 0 ∧ h.arrivals = []
     let waits := h.waiters = [w] ∧ s.slice? w.g.sid = some x ∧ x.st = .resident ∧ s.group? w.g.sid w.g.gi = some g ∧ g.strands = [u] ∧
       u.st = .harness w.id ∧ g.inflight? w.id = some f ∧ f.shadow = []
     let word := BitVec.ofNat 32 (2 ^ 31 + (if lost then 2 ^ 30 else 0) + phase % 2 ^ 24)
     let rd := s.stragRead sg seen.read
     let used := fun (r : Nat) => (sg.write + 2 ^ 32 - r % 2 ^ 32) % 2 ^ 32
     let place := 64 + sg.write % sg.slots * sg.slotsz * 64
     let strag := fun (q : Strag) => gives (.stragglerEntryWrite key seen) key fun _ y => y.strag = some { q with waiting := rest }
     let dropped := { sg with drop := min (sg.drop + 1) (2 ^ 32 - 1) }
     let takes := here ∧ h.coming = [a] ∧ a.who = who ∧ a.ask = some id ∧ a.gone = none ∧ a.time < s.clock ∧ h.members.find? (fun q => q.who == who && !q.joining) = some m
     (here → (op = .leave ∨ op = .check ∨ op = .arrive kind count value) → check true = some cause → asks op fun t y => y = h ∧ t.harnesses = s.harnesses ∧
       told t (.refuse id cause 0)) ∧
     (here → check true = none → h.members.find? (fun q => q.who == who) = some m → m.joining = false → m.leaving = false → h.reached m.idx = false →
       (coll → h.counted = false ∧ h.phaseMembers ≤ 4096) →
       asks (.arrive kind count value) fun _ y => y = { h with coming := h.coming ++ [⟨m.idx, who, kind, count, value, s.clock, some id, 0, 0, 0, 0, 0, none⟩] }) ∧
     (here → check true = none → coll → (h.counted = true ∨ 4096 < h.phaseMembers) → asks (.arrive kind count value) fun t y => y = h ∧ told t (.refuse id 305 0)) ∧
     (here → check false = none → h.span = .sys → (∀ q ∈ h.members, q.who ≠ who) → asks .join fun t y =>
       ∃ q, y.members = h.members ++ [q] ∧ q.who = who ∧ (∀ z ∈ h.members, z.idx ≠ q.idx) ∧ (q.joining = false ↔ idle) ∧ q.leaving = false ∧
         told t (.grant id q.idx h.phase.toNat (!q.joining) 0)) ∧
     (here → check false = none → h.span ≠ .sys → asks .join fun t y => y = h ∧ told t (.refuse id 213 0)) ∧
     (takes → h.judge m.idx a.kind a.count = none → gives (.harnessArrivalReceive key who .take) key fun t y => y.coming = [] ∧
       back t (.grant id a.idx h.phase.toNat false 0) ∧
       if h.arrivals.length + 1 < need then y.phase = h.phase ∧ y.arrivals = h.arrivals ++ [⟨a.idx, a.value, a.time, c, false⟩]
       else y.phase = h.phase + 1 ∧ y.arrivals = []) ∧
     (∀ d, takes → h.judge m.idx a.kind a.count = some (cause, d) → gives (.harnessArrivalReceive key who .take) key fun t y =>
       y = { h with coming := [] } ∧ back t (.refuse id cause d)) ∧
     (s.harness? key = some h → bound → h.holder ≠ s.chip → phase = h.phase.toNat → waits → w.phase = phase → w.kind ≤ 1 →
       gives (.harnessCompletionMessage key phase ⟨ftid, tag, .completed lost⟩ val []) key fun t y => y.phase = h.phase + 1 ∧ ∃ k v, t.group? w.g.sid w.g.gi = some k ∧
         (w.kind = 0 → k.greg w.d = word) ∧ (w.kind = 1 → k.greg w.d = val ∧ k.greg (w.d + 1) = word) ∧ k.inflight? w.id = none ∧
         k.strands = [v] ∧ v.st = .ready) ∧
     (∀ idx ph now, bound → s.slice? w.g.sid = some x → x.st ≠ .swapped → s.group? w.g.sid w.g.gi = some g → g.strands = [u] → u.st = .scoreboard (.answer id) → g.inflight? id = some f →
       f.body = .ask key c none none → ∃ t k v q, exec (.harnessCompletionMessage key ph ⟨ftid, tag, .granted id idx now⟩ val []) s = .next t ∧
         t.group? w.g.sid w.g.gi = some k ∧ k.strands = [v] ∧ v.st = .ready ∧ k.inflight? id = some q ∧
         q.body = .ask key c (some (.grant id idx ph now val)) none) ∧
     (s.harness? key = some h → h.strag = some sg → sg.waiting = e :: rest → (rd.1 = none → strag dropped) ∧ ∀ r, rd.1 = some r →
       (sg.slots ≤ used r → strag dropped) ∧ (used r < sg.slots → rd.2.stragPut sg place e = none → strag dropped) ∧
       (used r < sg.slots → (rd.2.stragPut sg place e).isSome = true →
         strag (if seen.ok = true ∨ rd.2.stragAway sg place = false then { sg with write := (sg.write + 1) % 2 ^ 32 } else dropped))) ∧
     (s.regionOf ftid tag = some rk → (∀ l ∈ s.lagging, l.rk ≠ rk) → ∃ t t', exec (.lagNotice ftid tag true) s = .next t ∧
       t.lagging = s.lagging ++ [⟨rk, 1, s.clock⟩] ∧ exec (.lagNotice ftid tag false) t = .next t' ∧ ∀ l ∈ t'.lagging, l.rk ≠ rk) ∧
     (s.harness? key = some h → s.harnesses.filter (fun q => q.2.unit == some unit) = [(key, h)] → h.coming = [] → waits →
       gives (.harnessUnitFailure (.unit unit)) key fun t y => y.failed = true ∧ y.waiters = [] ∧
       ∃ v, t.strand? ⟨w.g.sid, w.g.gi, u.sn⟩ = some v ∧ v.st = .stopped none ∧ v.c.pc = f.cpc ∧ ∀ R, s.region? (s.sliceRegion x) = some R →
         ∃ q D, t.region? (s.sliceRegion x) = some q ∧ D ∈ q.waiting ∧ D.cause = 221)) ∧
  (∀ (s s₀ s₁ s₂ : State) (key : HKey) (h : Harness) (r : CollRank) (p : CollPart) (g : Group) (x : Slice) (f : Inflight)
       (gr : GroupRef) (core rk out ftid tag : Nat) (who : StrandRef) (l : List (Loc × Byte)) (st : W32) (blocks : List (List W32)),
     let outs := (List.range r.blocks).map fun b => reduceBlock r.w [p.blocks.getD b zeroBlock]
     let any := fun (P : List W32 × Bool × Bool → Bool) => outs.any P
     let here := s.harness? key = some h ∧ s.rankPlace r = some (who, core, rk) ∧ r.who = .here gr ∧ s.slice? gr.sid = some x ∧ x.st = .resident ∧
       s.group? gr.sid gr.gi = some g ∧ g.retired = false ∧ g.strands ≠ [] ∧ g.inflight? r.id = some f ∧ f.shadow = []
     let none_ := fun (u : State) => u.modHarness key fun h => { h with ranks := [] }
     let one := here ∧ h.ranks = [r] ∧ r.cause = none ∧ r.ending = none
     let ready := one ∧ h.holder = s.chip ∧ r.ready = true ∧ s.collGather key [r] = none ∧ (s.drainCore core).destAhead r = false ∧
       s₁ = none_ (s.drainCore core) ∧ s₁.collSource r rk = (p, s₂)
     let sent := one ∧ s.boundFor ftid tag (some h) = true ∧ s₀ = none_ s
     let gives := fun (i : Instr) (P : State → Harness → Group → Prop) => ∃ t y k, exec i s = .next t ∧ t.harness? key = some y ∧
       t.group? gr.sid gr.gi = some k ∧ k.inflight? r.id = none ∧ P t y k
     let fails := fun (k : Group) (c : Nat) => bitAt (k.greg (r.d + 1)).toNat 31 = true ∧ bitAt (k.greg (r.d + 1)).toNat 27 = true ∧
       ∃ u ∈ k.strands, ∃ d ∈ u.owed, d.cause = c ∧ d.key = r.id ∧ d.cpc = r.pc
     (ready → p.cause = none → s₂.collPlaces rk r.dstrict r.dst r.doff (outs.flatMap fun o => o.1.flatMap fun v => bytesOf 4 v.toNat) = .ok (l, out) →
       (∀ e ∈ l, e.1.isPeer = false) → gives (.collectiveComplete key) fun t y k => y.ranks = [] ∧
         k.greg (r.d + 1) = BitVec.ofNat 32 (collStatus p.zero (any fun o => o.2.1) (any fun o => o.2.2) false) ∧
         t.mem = ((s₂.collWrite key r.id core rk l).countOob rk ((out + 127) / 128)).mem) ∧
     (∀ c, ready → p.cause = some c → gives (.collectiveComplete key) fun _ y k => y.ranks = [] ∧ fails k c) ∧
     (sent → s₀.collPlaces rk r.dstrict r.dst r.doff (blocks.flatMap fun o => o.flatMap fun v => bytesOf 4 v.toNat) = .ok (l, out) →
       (∀ e ∈ l, e.1.isPeer = false) → gives (.harnessCompletionMessage key r.phase ⟨ftid, tag, .collective none⟩ st blocks) fun t y k => y.ranks = [] ∧
         k.greg (r.d + 1) = BitVec.ofNat 32 (collStatus (bitsAt st.toNat 0 24) (bitAt st.toNat 29) (bitAt st.toNat 28) false) ∧
         t.mem = ((s₀.collWrite key r.id core rk l).countOob rk ((out + 127) / 128)).mem) ∧
     (∀ c, sent → gives (.harnessCompletionMessage key r.phase ⟨ftid, tag, .collective (some c)⟩ st blocks) fun _ y k => y.ranks = [] ∧ fails k c) ∧
     (here → h.ranks.find? (fun q => q.who == .here gr && !q.ready && q.cause.isNone && q.ending.isNone) = some r →
       1400 * (s.tenant (keyVf rk)).tmo ≤ s.clock - r.issued → gives (.collectiveTimeout key gr) fun _ y k =>
         (∃ q ∈ y.ranks, q.id = r.id ∧ q.cause = some 312) ∧ fails k 312))

/-! ### The fabric and work stealing -/

/-- INBOUND_REMOTE_ACCESS answers a load with the sectors it names, writes the pieces of a store, and performs an element's lanes as one operation on a page of
this module that grants it; any other, and one that waited past the tenant's TMO, is answered with a NACK and logged, and a failed module serves none
(that it logs none either is the model's choice, log 21). REMOTE_RESPONSE gives each lane its value or takes a request's stores out of
the buffer, a NACK leaving the cause of the lowest lane or counting once in sr.rerr; REMOTE_TIMEOUT acts as NACK 9 once TMO has passed; ROUTE_UPDATE,
CHIP_UNREACHABLE and REACHABILITY_PROBE follow the loss and return of routes, FLIT_REPLAY counts (R171, R338 to R340). -/
def Obligations.FabricEvents : Prop := ∀ (s : State) (a : InAccess) (rk pa k id chip since port core n : Nat) (lf : Leaf) (r : Remote) (f : Inflight)
    (m : MemOp) (who : StrandRef) (g : Group) (e : StoreEntry) (rest : List StoreEntry) (ids lanes : List Nat) (bs : List Byte) (up : Bool),
  let perm := match a.kind with | .load _ => lf.rd | .store _ => lf.w | .atom .. => lf.at_ | .probe => true | .limit => true
  let found := s.mgmt.failed = false ∧ s.regionOf a.ftid a.tag = some rk ∧ inDevice a.va = true ∧ s.walk (keyVf rk) a.va = some lf ∧ lf.chip = s.chip ∧
    lf.ws = false ∧ perm = true ∧ lf.pa % lf.page + a.size ≤ lf.page ∧ pa = lf.pa
  let leads := found ∧ a.waited ≤ 1400 * (s.tenant (keyVf rk)).tmo ∧ s.failedIn pa a.size = []
  let access := a.kind ≠ .probe ∧ a.kind ≠ .limit
  let sends := fun (t : State) (b : RemoteAnswer) => t.out = s.out ++ [.answer a.chip b]
  let joined := fun (op : AtomOp) (ty : IntTy) (old : Nat) (l : List (Nat × Nat)) => match op, l with
    | .fadd, [] => old
    | .fadd, y :: l => (addBits .f32 .rne false old (l.foldl (fun p e => (addBits .f32 .rne false p e.1).bits) y.1)).bits
    | _, l => l.foldl (fun p e => atomOp op ty p e.1 e.2) old
  let asks := s.remotes.find? (fun q => q.id == id) = some r
  let kind := if k = 15 then 15 else if k = 9 then 9 else 8
  let gone := fun (t : State) => ∀ q ∈ t.remotes, q.id ≠ id
  let mine := m.acc.filter fun y => lanes.contains y.lane
  let returns := fun (ans : RemoteAnswer) (P : MemOp → Prop) => ∃ t q z, exec (.remoteResponse id ans) s = .next t ∧ gone t ∧
    t.memOp? who.sid who.gi n = some (q, z) ∧ P z
  let given := fun (y : LaneAcc) (v : Nat) => ({ y with val := some v } : LaneAcc)
  let routed := fun (t : State) => ∃ q ∈ t.mgmt.routes, q.2.1 = chip ∧ q.2.2 = true
  let ports := (s.mgmt.routes.filter fun q => q.2.1 == chip).map Prod.fst
  let probes := s.out ++ ports.map fun p => OutMsg.probe chip p
  (∀ w, leads → a.kind = .load w → ∃ t, exec (.inboundRemoteAccess a) s = .next t ∧ t.mem = s.mem ∧ sends t (.data ((List.range a.size).map fun i =>
    if bitAt w ((a.va % 128 + i) / 32) = true then s.byteAt (pa + i) else 0) [])) ∧
  (∀ l, leads → a.kind = .store l → (∀ p ∈ l, p.1 + p.2.length ≤ a.size) → l.Pairwise (fun p q => p.1 + p.2.length ≤ q.1 ∨ q.1 + q.2.length ≤ p.1) →
    ∃ t, exec (.inboundRemoteAccess a) s = .next t ∧ sends t (.ack []) ∧ (∀ p ∈ l, ∀ i, i < p.2.length → t.byteAt (pa + p.1 + i) = p.2.getD i 0) ∧
      ∀ q, (∀ p ∈ l, q < pa + p.1 ∨ pa + p.1 + p.2.length ≤ q) → t.byteAt q = s.byteAt q) ∧
  (∀ op ty l, leads → a.kind = .atom op ty l → a.size = ty.width / 8 → ∃ t, exec (.inboundRemoteAccess a) s = .next t ∧ sends t (.data (s.peek pa a.size) []) ∧
    t.peek pa a.size = bytesOf a.size (joined op ty (ofBytes (s.peek pa a.size)) l) ∧
    ∀ q, q < pa ∨ pa + a.size ≤ q → t.byteAt q = s.byteAt q) ∧
  (∀ w, access → (w = 8 ∧ s.mgmt.failed = false ∧ (s.regionOf a.ftid a.tag = none ∨ inDevice a.va = false) ∨
      w = 9 ∧ found ∧ 1400 * (s.tenant (keyVf rk)).tmo < a.waited) → s.mgmt.faultLog.length < 256 →
    ∃ t y, exec (.inboundRemoteAccess a) s = .next t ∧ sends t (.nack w) ∧ t.mem = s.mem ∧ t.mgmt.faultLog = s.mgmt.faultLog ++ [y] ∧
      y.length = 32 ∧ y.take 8 = bytesOf 8 s.time) ∧
  (access → s.mgmt.failed = true → exec (.inboundRemoteAccess a) s = .next s) ∧
  (a.kind = .probe → ∃ t, exec (.inboundRemoteAccess a) s = .next t ∧ sends t (.ack []) ∧ t.mgmt = s.mgmt) ∧
  (asks → r.owner = .load who n lanes → s.memOp? who.sid who.gi n = some (f, m) → (m.acc.map LaneAcc.lane).Nodup → m.err = none →
    (m.atom = none → returns (.data bs []) fun z => z.err = none ∧ ∀ y ∈ mine, ∀ c v, y.loc = some (.peer c v) →
      given y (ofBytes ((bs.drop (v - r.va)).take m.ty.size)) ∈ z.acc) ∧
    (∀ op ty, m.atom = some op → m.ty = .int ty → returns (.data bs []) fun z => z.err = none ∧ ∀ i y, mine[i]? = some y →
      given y (joined op ty (ofBytes bs) ((mine.take i).map fun b => (b.arg, b.cmp))) ∈ z.acc) ∧
    (∀ y ∈ mine, (∀ b ∈ mine, y.lane ≤ b.lane) → returns (.nack k) fun z =>
      z.err = some ((if m.atom.isSome = true then 160 else 128) + kind, y.lane, y.va / 128 * 128) ∧ ∀ b ∈ mine, given b 0 ∈ z.acc)) ∧
  (asks → r.owner = .store core ids → (s.core core).buf.filter (fun q => ids.contains q.id) = e :: rest → s.group? e.who.sid e.who.gi = some g →
    ∀ ans, (ans = .ack [] ∨ ans = .nack k) → ∃ t y, exec (.remoteResponse id ans) s = .next t ∧ gone t ∧ (∀ q ∈ (t.core core).buf, q.id ∉ ids) ∧
      t.group? e.who.sid e.who.gi = some y ∧ (ans = .ack [] → y.rerr = g.rerr) ∧ (ans = .nack k → y.rerr = min (g.rerr + 1) (2 ^ 32 - 1) ∧
        (g.rerrKind = none → y.rerrKind = some (kind, (e :: rest).any StoreEntry.strict, e.va / 128 * 128)))) ∧
  (asks → exec (.remoteTimeout id) s = if r.since + 1400 * r.tmo ≤ s.clock then exec (.remoteResponse id (.nack 9)) s else .next s) ∧
  exec (.flitReplay port) s = .next (if port < 16 then { s with mgmt := { s.mgmt with softErrors := s.mgmt.softErrors + 1 } } else s) ∧
  (16 ≤ port → exec (.routeUpdate ⟨port, chip⟩ up) s = .next s) ∧
  (port < 16 → ∃ t, exec (.routeUpdate ⟨port, chip⟩ up) s = .next t ∧ (port, chip, up) ∈ t.mgmt.routes ∧
    (∀ q, (q.1, q.2.1) ≠ (port, chip) → (q ∈ t.mgmt.routes ↔ q ∈ s.mgmt.routes)) ∧ (routed t → t.mgmt.routeless chip = none) ∧
    (¬routed t → routed s → t.mgmt.routeless chip = some s.clock) ∧ (¬routed t → ¬routed s → t.mgmt.routeless chip = s.mgmt.routeless chip)) ∧
  (chip ∉ s.mgmt.unreachable → chip ≠ s.chip → s.mgmt.routeless chip = some since → since + 1400000 ≤ s.clock →
    ∃ t, exec (.chipUnreachable chip) s = .next t ∧ chip ∈ t.mgmt.unreachable ∧ ∀ q ∈ t.remotes, q.chip ≠ chip) ∧
  (chip ∈ s.mgmt.unreachable → ports ≠ [] → s.probeDue chip = true →
    (∃ t, exec (.reachabilityProbe chip true) s = .next t ∧ chip ∉ t.mgmt.unreachable ∧ t.out = probes ∧ t.probeDue chip = false) ∧
    ∃ t, exec (.reachabilityProbe chip false) s = .next t ∧ chip ∈ t.mgmt.unreachable ∧ t.out = probes ∧ t.probeDue chip = false) ∧
  (∀ ok, s.probeDue chip = false → exec (.reachabilityProbe chip ok) s = .next s)

/-- The owner's side of stealing: STEAL_OFFER offers a job with stealable slices to the steal set of each region above it for which the module lags, at first
at once and then every 64 µs; OFFER_WITHDRAWAL withdraws an offer that no longer stands; STEAL_DEFERRAL_EXPIRY makes the slices ordinary after 1 ms;
OWNERSHIP_WORD_CAS changes a word along R298 alone, and one that no transition produces fails its slice with 373; STOLEN_COMPLETION_RECEIVE counts a slice
that a thief has ended (R294, R295, R297, R298, R301).
The thief's side: OFFER_RECEIVE keeps an offer with its verdict and OFFER_EXPIRY drops it at its withdrawal or after 256 µs; STEAL_CLAIM takes the chosen
offer's next index where its word is Queued and the swap succeeds, and each attempt uses up one of the offer's 16; it places a Claimed slice that the dispatcher
places next where the word becomes Started, and drops it where it does not; STOLEN_SLICE_DONE reports a slice that
has ended once its accesses are complete at sys; STEAL_KILL ends one (R295, R296, R299, R301, R302). -/
def Obligations.StealEvents : Prop :=
  (∀ (s : State) (jn index va w new chip cause g : Nat) (j : Job) (m : OfferMade) (failed late : Bool) (pa : Nat),
     let has := s.job? jn = some j
     let chips := s.offerChips g
     let stands := (∃ k, s.job? m.jn = some k ∧ s.stealable k = true) ∧ s.lagsFor m.rk = true
     let step := ownGen new = (ownGen w + 1) % 2 ^ 32 ∧ ownValid s.chip new = true ∧ ownChip new ≠ s.chip ∧ (ownState w = 0 ∧ ownState new = 1 ∨
       ownState w = 1 ∧ ownState new = 2 ∧ ownChip w = ownChip new ∨ ownState w = 2 ∧ ownState new = 3 ∧ ownChip w = ownChip new)
     (s.stealable j = true ↔ j.hdr.steal = true ∧ j.table ≠ none ∧ j.thief = none ∧ j.queued ≠ [] ∧ j.finished = false ∧
       ∃ l ∈ s.lagging, ∃ k ∈ s.lineage j.rk, s.isAncestor k l.rk = true) ∧
     (has → s.stealable j = true → g ∈ s.lineage j.rk → s.lagsFor g = true → chips ≠ [] → (∀ y ∈ s.made, y.jn = jn → y.rk = g → y.last + 64 * 1400 ≤ s.clock) →
       ∃ t, exec (.stealOffer jn) s = .next t ∧ (∀ c ∈ chips, .offer (s.offerOf j chips) c ∈ t.out) ∧ ∃ y ∈ t.made, y = ⟨jn, g, s.clock⟩) ∧
     (has → ∃ t, exec (.stealOffer jn) s = .next t ∧ ∀ o c, .offer o c ∈ t.out → .offer o c ∉ s.out →
       s.stealable j = true ∧ ∃ k ∈ s.lineage j.rk, s.lagsFor k = true ∧ s.offerDue jn k = true ∧ c ∈ s.offerChips k) ∧
     (m ∈ s.made → m.jn = jn → ∃ t, exec (.offerWithdrawal jn) s = .next t ∧ (stands → m ∈ t.made) ∧
       (¬stands → m ∉ t.made ∧ ∀ c, c < 4096 → c ≠ s.chip → s.inStealSet m.rk c = true → .withdraw jn c ∈ t.out)) ∧
     (∀ since, has → s.lagSince j.rk = some since → timeAt (max j.admitted since) + 1000000 ≤ s.time → ∃ t k, exec (.stealDeferralExpiry jn) s = .next t ∧
       t.job? jn = some k ∧ k = { j with ordinary := true }) ∧
     (s.mgmt.failed = true → ∀ expect, exec (.ownershipWordCas jn index expect new) s = .next s) ∧
     (has → s.mgmt.failed = false → j.table = some va → s.ownRead j index = some w → ownValid s.chip w = true → s.devPa (keyVf j.rk) (va + 8 * index) = some pa →
       (va + 8 * index) % 65536 + 8 ≤ 65536 → ∀ expect, ∃ t k, exec (.ownershipWordCas jn index expect new) s = .next t ∧
         t.out = s.out ++ [.answer (ownChip new) (.data (bytesOf 8 w) [])] ∧ t.job? jn = some k ∧
         (w = expect ∧ step → t.peek pa 8 = bytesOf 8 new ∧ (ownState w = 0 → k.claimed = j.claimed ++ [(index, ownChip new)])) ∧
         (¬(w = expect ∧ step) → t.mem = s.mem ∧ k = j)) ∧
     (∀ expect, has → s.mgmt.failed = false → s.ownRead j index = some w → ownValid s.chip w = false → (∃ c ∈ j.claimed, c.1 = index) → ∃ t k,
       exec (.ownershipWordCas jn index expect new) s = .next t ∧ t.job? jn = some k ∧ (∀ c ∈ k.claimed, c.1 ≠ index) ∧ k.failN = j.failN + 1 ∧
         (j.cause = 0 → k.cause = 373)) ∧
     (has → (index, chip) ∈ j.claimed → ∃ t k, exec (.stolenCompletionReceive jn index chip failed late cause) s = .next t ∧ t.job? jn = some k ∧
       (∀ c ∈ k.claimed, c.1 ≠ index) ∧ k.doneN = j.doneN + (if failed then 0 else 1) ∧ k.failN = j.failN + (if failed then 1 else 0) ∧
       k.lateN = j.lateN + (if late then 1 else 0) ∧ k.stolenN = j.stolenN + 1 ∧ ∃ c ∈ k.completions, c.kind = 1 ∧ c.doneN = index ∧ c.fail = failed ∧ c.chip = chip ∧
         c.late = late ∧ c.cause = cause)) ∧
  (∀ (s : State) (o : Offer) (job : JobKey) (index word sid rk : Nat) (x : Slice) (y : OfferGot)
       (withdrawn won : Bool),
     let tried := fun (t : State) (ok : Bool) => t.mgmt.stealTries = s.mgmt.stealTries + 1 ∧ t.out = s.out ++ [.claim job index] ∧
       t.mgmt.stealWins = s.mgmt.stealWins + (if ok then 1 else 0) ∧ t.mgmt.stealFails = s.mgmt.stealFails + (if ok then 0 else 1) ∧
       ∃ q ∈ t.got, q = { y with next := index - 1, tries := if index = 0 then 0 else y.tries - 1 }
     let ended := x.st = .retired ∨ x.st = .failed
     (∃ t, exec (.offerReceive o) s = .next t ∧ ∃ q ∈ t.got, q.o = o ∧ q.time = s.clock ∧ q.good = s.copyGood o ∧
       ((∀ z ∈ s.got, z.o.job ≠ o.job) → q.next = o.top ∧ q.tries = 16 ∧ t.got = s.got ++ [q])) ∧
     (∃ t, exec (.offerExpiry job withdrawn) s = .next t ∧ ∀ q, q ∈ t.got ↔
       q ∈ s.got ∧ ¬(q.o.job = job ∧ (withdrawn = true ∨ q.time + 256 * 1400 ≤ s.clock))) ∧
     (s.stolenSlice job index = none → s.chosenOffer = some y → s.got.find? (fun q => q.o.job == job) = some y → y.next = index → s.mayTake y = some rk →
       ∃ t, exec (.stealClaim job index word won) s = .next t ∧
         if won = true ∧ ownState word = 0 ∧ ownValid job.chip word = true then tried t true ∧ ∃ n q, t.slice? n = some q ∧ q.st = .claimed ∧
           q.index = index ∧ q.stolen = some job ∧ ∃ k, t.job? q.jn = some k ∧ k.rk = rk ∧ k.thief = some y.o
         else tried t false ∧ t.slices = s.slices) ∧
     (∀ c k, s.stolenSlice job index = some (sid, x) → s.slice? sid = some x → x.st = .claimed → s.dispatchAct = some (.place c k) → c.sid = some sid →
       ∃ t q, exec (.stealClaim job index word won) s = .next t ∧ t.slice? sid = some q ∧ if won = true ∧ ownState word = 1 ∧ ownValid job.chip word = true
         then q.st = .resident ∧ q.core = k ∧ q.stolen = x.stolen else q.st = .failed ∧ q.stolen = none) ∧
     (s.slice? sid = some x → x.stolen = some job → ended → (∃ t q, exec (.stolenSliceDone sid won) s = .next t ∧ t.slice? sid = some q ∧
       if (s.drainCore x.core).quiet sid x = true then q.stolen = none ∧
         t.out = s.out ++ (if won then [.stolenDone job x.index (x.st == .failed) x.late (x.failCause.getD 0)] else [])
       else q.stolen = some job ∧ t.out = s.out)) ∧
     (s.stolenSlice job index = some (sid, x) → s.slice? sid = some x → ¬ended → ∃ t q, exec (.stealKill job index) s = .next t ∧ t.slice? sid = some q ∧
       q.st = .failed))

/-! ### The service plane -/

/-- MODULE_RESET leaves the machine as State.reset with the verdict on the firmware, but for its memories, its chip id, its spares and its flags, which service
clears, and brings in the spare that a failed unit waits for; HOST_LINK_RESET ends outstanding host-half loads and atomics with causes 142 and 174; a limit
pre-empts every resident slice and holds dispatch until its recovery; a critical one sends each module that a resident slice reaches an entry of cause 369
and resets the module; a failed unit takes a spare once it is idle and waits till then, its core's slices pre-empted, or fails the module and the slices
that use it; the last spare is reported to the host; an image of a Swapped slice that is not stolen is sent, sealed for the target, and the slice stays
until the target has restored it; an image that comes makes a Swapped slice or is refused; a report is the nonce first (R15 to R17, R336, R344, R346 to
R349). What a module reset keeps, which physical core a spare is, which modules a slice reaches, and the answers about an image are the model's choices
(DESIGN CHOICE, notes/assumptions/8.md, 17.md, 21.md). -/
def Obligations.ServiceEvents : Prop := ∀ (s : State) (sid chip vf place unit cause : Nat) (x : Slice) (j : Job) (im : Image) (g : Group) (f : Inflight)
    (m : MemOp) (a : LaneAcc) (gi ftid tag index : Nat) (kind : UnitKind) (l rest : List Nat) (nonce bytes : List Byte) (key : JobKey),
  let gives := fun (i : Instr) (P : State → Prop) => ∃ t, exec i s = .next t ∧ P t
  let asReset := fun (t : State) => t.chip = s.chip ∧ t.clock = State.reset.clock ∧ t.slices = [] ∧
    t.jobs = [] ∧ t.queues = [] ∧ t.regions = [] ∧ t.harnesses = [] ∧ t.cores = [] ∧ t.tenants = State.reset.tenants ∧ t.remotes = [] ∧
    t.dcache = [] ∧ t.mgmt.locked = State.reset.mgmt.locked ∧ t.mgmt.replacing = [] ∧
    t.mgmt.firmware = Config.slhVerify Config.rootKey Config.firmware Config.firmwareSig ∧ t.mgmt.failed = s.mgmt.failed ∧
    (s.mgmt.replacing = [] → t.mgmt.used = s.mgmt.used ∧ t.mgmt.degraded = s.mgmt.degraded)
  let keeps := fun (t : State) => asReset t ∧ t.mem = s.mem ∧ t.memFailed = s.memFailed ∧ t.hostMem = s.hostMem
  let spares : Nat := match kind with
    | .core => 2 | .arrayRow => 1 | .arrayCol => 1 | .dramRow => 16 | .dramBank => 2 | .linkLane => 1 | .coreHarness => 2 | .dieHarness => 16
    | .hubHarness => 8 | .module => 0
  let n := s.mgmt.usedAt kind place + 1
  let left := s.mgmt.usedAt kind place + (s.mgmt.replacing.filter fun e => e.1 == kind && e.2.1 == place).length < spares
  let waits := (kind, place, unit) ∈ s.mgmt.replacing
  let idle := s.unitUsers kind place unit = [] ∧ s.unitHolds kind place unit = false
  let uses := fun (t : State) => t.mgmt.usedAt kind place = n ∧ (kind, place, unit) ∉ t.mgmt.replacing ∧ t.slices = s.slices ∧
    (kind = .core → t.mgmt.physicalCore unit = 39 + n) ∧ (n = spares → t.mgmt.degraded = true ∧ t.out = s.out ++ [.exhausted kind place])
  let rk := s.sliceRegion x
  let reports := faultEntry s.time ⟨s.chip, (s.tenant (keyVf rk)).ftid, keyTag rk, 0, 0, .limit, 0⟩ 369
  let hd := ofBytes (bytes.take 64)
  let name : JobKey := ⟨chip, ftid, bitsAt hd 160 32⟩
  let refused := s.emit (.restored chip name (bitsAt hd 128 32) false)
  gives .moduleReset keeps ∧ gives .criticalLimitReset asReset ∧
  (s.mgmt.replacing = [(kind, place, unit)] → gives .moduleReset fun t => asReset t ∧ t.mgmt.usedAt kind place = n) ∧
  (s.residentIds = sid :: rest → s.slice? sid = some x → gives .criticalLimitReset fun t => ∀ c ∈ s.peersOf sid x, OutMsg.peerFault c reports ∈ t.out) ∧
  gives (.spareReplacement .module place unit) (fun t =>
    t = { s with mgmt := { s.mgmt with used := [], replacing := [], coreMap := [], degraded := false, failed := false } }) ∧
  (s.slice? sid = some x → s.group? sid gi = some g → f ∈ g.inflight → f.body = .mem m → m.acc = [a] → m.started = true →
    (∃ v p, a.loc = some (.host v p)) → m.err = none → gives .hostLinkReset fun t => ∃ k q z, t.group? sid gi = some k ∧ q ∈ k.inflight ∧ q.id = f.id ∧
      q.body = .mem z ∧ (∃ w, z.err = some (if m.atom.isSome = true then 174 else 142, a.lane, w)) ∧ ∃ b ∈ z.acc, b.lane = a.lane ∧ b.val = some 0) ∧
  (s.slice? sid = some x → s.group? sid gi = some g → f ∈ g.inflight → f.body = .mem m → m.started = false → gives .hostLinkReset fun t =>
    ∃ k, t.group? sid gi = some k ∧ f ∈ k.inflight) ∧
  gives .powerThermalLimit (fun t => t.mgmt.hold = true ∧ ∀ n y, t.slice? n = some y → y.st = .resident → y.preempt ≠ none) ∧
  gives .limitRecovery (fun t => t = { s with mgmt := { s.mgmt with hold := false } }) ∧
  (¬waits → left → exec (.unitFailure kind ⟨place, unit⟩ cause l) s = exec (.spareReplacement kind place unit) s) ∧
  (waits → exec (.unitFailure kind ⟨place, unit⟩ cause l) s = .next s) ∧
  (¬waits → ¬left → (kind ≠ .module → gives (.spareReplacement kind place unit) (fun t => t = s)) ∧ gives (.unitFailure kind ⟨place, unit⟩ cause l) (fun t =>
    t.mgmt.failed = true) ∧ (s.slice? sid = some x → sid ∈ l ∨ sid ∈ s.unitUsers kind place unit ∨ sid ∈ s.unitMembers kind place unit → x.st ≠ .retired → x.st ≠ .failed → gives (.unitFailure kind ⟨place, unit⟩ cause l) fun t =>
      ∃ y, t.slice? sid = some y ∧ y.st = .failed ∧ y.failCause = some (x.failCause.getD cause))) ∧
  (kind ≠ .module → left ∨ waits → idle → gives (.spareReplacement kind place unit) uses) ∧
  (kind ≠ .module → left ∨ waits → ¬idle → gives (.spareReplacement kind place unit) fun t => (kind, place, unit) ∈ t.mgmt.replacing ∧
    t.mgmt = { s.mgmt with replacing := t.mgmt.replacing } ∧ (s.slice? sid = some x → x.st = .resident → kind = .core → x.core = unit →
      ∃ y, t.slice? sid = some y ∧ y.st = .resident ∧ y.preempt ≠ none)) ∧
  (s.slice? sid = some x → x.image = some im → s.job? x.jn = some j → x.st = .swapped → x.stolen = none → x.move = none → chip ≠ s.chip →
    (s.tenant (keyVf j.rk)).ftid ≠ 0 → chip ∉ s.mgmt.unreachable → gives (.imageTransfer (.send sid) chip) fun t =>
      t.out = s.out ++ [.image chip (s.tenant (keyVf j.rk)).ftid (keyTag j.rk) (Config.reseal chip im.bytes)] ∧
      t.slice? sid = some { x with move := some chip }) ∧
  (s.slice? sid = some x → s.sentTo key index chip = some (sid, x) →
    gives (.imageTransfer (.restored key index false) chip) (fun t => t.slice? sid = some { x with move := none } ∧ t.out = s.out) ∧
    (x.st = .swapped → s.job? x.jn = some j → gives (.imageTransfer (.restored key index true) chip) fun t =>
      (∃ y, t.slice? sid = some y ∧ y.st = .retired ∧ y.groups = [] ∧ y.image = none) ∧ ∃ k, t.job? x.jn = some k ∧ (x.index, chip) ∈ k.claimed)) ∧
  gives (.imageTransfer (.receive ftid tag bytes) chip) (fun t => t = refused ∨ ∃ e ∈ t.slices, e.2.st = .swapped ∧ e.2.source = some chip ∧
    e.2.stolen = some name ∧ e.2.index = bitsAt hd 128 32) ∧
  (s.regionOf ftid tag = none → gives (.imageTransfer (.receive ftid tag bytes) chip) fun t => t = refused) ∧
  (nonce.length = 32 → gives (.attestationRequest vf nonce) fun t => t.mgmt.report.take 34 = nonce ++ bytesOf 2 s.chip ∧
    t = { s with mgmt := { s.mgmt with report := t.mgmt.report } })

/-- BAR_WINDOW_WRITE writes the bytes where a leaf with W maps them and drops and logs them elsewhere, and in BAR0 half of a debug register; BAR_WINDOW_READ answers the bytes, or ones where no
leaf with RD maps them, and for the physical function the steal counters, at an offset that is the model's (DESIGN CHOICE, notes/assumptions/17.md); an access that is none of the function's apertures, or has no byte or more than 4,096, changes nothing (the model's choice too). TCTL_WRITE, TBASE_WRITE, TLOST_READ and DCTL_HALT act on a core's debug block, and a register write is read back;
TRACE_PACKET_COMMIT puts a packet in the ring, or waits while the host has taken its room back (DESIGN CHOICE, notes/assumptions/15.md); SAMPLE_PACKET puts a
sample's packet in the stream, or drops and counts it (R319 to R321, R326, R327,
R330, R335). -/
def Obligations.HostAndDebugRegisters : Prop := ∀ (s : State) (fn n off sz pa core id gid : Nat) (bs p : List Byte) (rest : List (Nat × List Byte)) (v : W32) (q : W64)
    (m : Sample),
  let gives := fun (i : Instr) (P : State → Prop) => ∃ t, exec i s = .next t ∧ P t
  let vf := (s.aperture fn n).1
  let va := (s.aperture fn n).2 + off
  let inPage := va % 65536 + sz ≤ 65536 ∧ fn ≤ 64 ∧ n < 16 ∧ 1 ≤ sz ∧ sz ≤ 4096 ∧ off + sz ≤ 2 ^ 28
  let d := (s.core core).dbg
  let size := ringBytes (s.core core)
  let new := fun (t : State) (D : Debug) => (t.core core).dbg = D
  (inPage → bs.length = sz → s.windowPa vf va true = some pa → s.failedIn pa sz = [] → s.queues = [] → gives (.barWindowWrite fn n off bs) fun t =>
    t.peek pa sz = bs ∧ ∀ a, a < pa ∨ pa + sz ≤ a → t.byteAt a = s.byteAt a) ∧
  (inPage → bs.length = sz → s.windowPa vf va true = none → s.mgmt.faultLog.length < 256 → gives (.barWindowWrite fn n off bs) fun t =>
    t.mem = s.mem ∧ t.mgmt.faultLog.length = s.mgmt.faultLog.length + 1) ∧
  (barAccepts fn n off bs.length = false → exec (.barWindowWrite fn n off bs) s = .next s) ∧
  (64 < fn ∨ 16 < n ∨ sz = 0 ∨ 4096 < sz ∨ (n < 16 ∧ 2 ^ 28 < off + sz) → exec (.barWindowRead fn n off sz) s = .next s) ∧
  (off % 256 = 0x24 → bar0Core off = some core → bs.length = 4 → off + 4 ≤ 2 ^ 26 → gives (.barWindowWrite 64 16 off bs) fun t =>
    new t { d with trp := BitVec.ofNat 64 (ofBytes bs * 2 ^ 32 + d.trp.toNat % 2 ^ 32) }) ∧
  (gives (.barWindowRead 64 16 0x300000 24) fun t => t.mem = s.mem ∧
    t.mgmt.readVal = bytesOf 8 s.mgmt.stealTries ++ bytesOf 8 s.mgmt.stealWins ++ bytesOf 8 s.mgmt.stealFails) ∧
  (inPage → gives (.barWindowRead fn n off sz) fun t => t.mem = s.mem ∧
    (s.windowPa vf va false = none → t.mgmt.readVal = List.replicate sz 0xFF#8) ∧
    (s.windowPa vf va false = some pa → s.failedIn pa sz = [] → t.mgmt.readVal = s.peek pa sz)) ∧
  gives (.tctlWrite core v) (fun t => new t { d with tctl := v &&& 0xFFF8F81F }) ∧
  gives (.tbaseWrite core q) (fun t => new t { d with tbase := q &&& 0xFFFFFFFFFFFFF000, twp := 0 }) ∧
  gives (.tlostRead core) (fun t => t.mgmt.readVal = bytesOf 8 d.tlost.toNat ∧ new t { d with tlost := 0 }) ∧
  gives (.dctlHalt core v) (fun t => ∃ w, new t { d with dctl := w } ∧ (∀ i, i < 32 → i ≠ 7 →
    w.getLsbD i = (v.getLsbD i && (decide (4 ≤ i) && decide (i < 7) || decide (19 ≤ i)))) ∧ (t.halted core = false → w.getLsbD 7 = true)) ∧
  (core < Config.cores → gives (.registerWrite (.tsize core) q.toNat) (fun t => new t { d with tsize := q.setWidth 32 }) ∧
    gives (.registerWrite (.trp core) q.toNat) (fun t => new t { d with trp := q })) ∧
  (core < Config.cores → n < 16 → gives (.registerWrite (.counter core n) q.toNat) fun t => (t.core core).dbg.read (0x80 + 8 * n) = q) ∧
  gives (.registerWrite (.readOnly off) n) (fun t => t = s) ∧
  (vf < 64 → gives (.registerWrite (.tenantRoot vf) n) fun t => (t.tenant vf).root = n % 2 ^ 64 ∧ ∀ w, w ≠ vf → t.tenant w = s.tenant w) ∧
  ((s.core core).trace.packets = (gid, p) :: rest → p ≠ [] → d.twp.toNat + p.length ≤ d.trp.toNat + size → p.length ≤ size →
    d.tbase.toNat / 4096 * 4096 + size ≤ 0x8000000000 → gives (.tracePacketCommit core) fun t =>
      new t { d with twp := d.twp + BitVec.ofNat 64 p.length } ∧ (t.core core).trace.packets = rest ∧
      ∀ i, i < p.length → t.byteAt (d.tbase.toNat / 4096 * 4096 + (d.twp.toNat + i) % size) = p.getD i 0) ∧
  ((s.core core).trace.packets = (gid, p) :: rest → d.trp.toNat + size < d.twp.toNat + p.length → exec (.tracePacketCommit core) s = .next s) ∧
  ((s.core core).trace.samples.find? (fun y => y.id == id) = some m → s.sampleOver core id = true → (s.core core).trace.dropped = 0 →
    fits (s.core core) (sampleBytes m).length = false → gives (.samplePacket core id) fun t =>
      new t { d with tlost := satAdd64 d.tlost 1 } ∧ (t.core core).trace.packets = (s.core core).trace.packets) ∧
  ((s.core core).trace.samples.find? (fun y => y.id == id) = some m → s.sampleOver core id = true → (s.core core).trace.dropped = 0 →
    fits (s.core core) (sampleBytes m).length = true → gives (.samplePacket core id) fun t =>
      (t.core core).trace.packets = (s.core core).trace.packets ++ [(m.gid, sampleBytes m)] ∧ (∀ y ∈ (t.core core).trace.samples, y.id ≠ id) ∧
      (sampleBytes m).take 11 = [0xC2] ++ bytesOf 8 m.clock ++ bytesOf 2 m.gid)

/-- A locked Sorser port answers zero and performs nothing, whatever the command. SORSER_UNLOCK opens it for a good token alone. Unlocked, it reads and
writes a core's debug block, pops the oldest record of its FIFO, resumes and kills by the ids of debug records, and dumps a Stopped group (R329 to R331,
R333). -/
def Obligations.SorserPort : Prop := ∀ (s : State) (core off id cls first count : Nat) (v : W64) (r : List Byte) (rest : List (List Byte)) (o : OutId) (flag : Bool)
    (who : StrandRef) (u : Strand) (x : Slice) (g : Group) (ok : Bool),
  let gives := fun (i : Instr) (P : State → Prop) => ∃ t, exec i s = .next t ∧ P t
  let free := s.mgmt.locked = false
  let d := (s.core core).dbg
  let zero := fun (n : Nat) (t : State) => t = { s with mgmt := { s.mgmt with readVal := List.replicate n 0 } }
  let names := free ∧ s.debugId id = some o ∧ o.kind = 0 ∧ o.who = some who ∧ s.strand? who = some u ∧ u.st = .stopped (some o.id) ∧
    s.slice? who.sid = some x ∧ x.st ≠ .retired ∧ x.st ≠ .failed
  (s.mgmt.locked = true → gives (.sorserRead core off) (zero 8) ∧ gives (.sorserWrite core off v) (zero 0) ∧ gives .sorserPop (zero 64) ∧
    gives (.sorserResume ⟨id, flag⟩) (zero 0) ∧ gives (.sorserKill ⟨id, flag⟩) (zero 0) ∧ gives (.sorserDump id cls first count) (zero 8)) ∧
  gives (.sorserUnlock ok) (fun t => t.mgmt.locked = (s.mgmt.locked && !ok)) ∧
  (free → gives (.sorserRead core off) fun t => t.mgmt.readVal = bytesOf 8 (d.read off).toNat ∧ (t.core core).dbg =
    if off = 0x28 then { d with tlost := 0 } else d) ∧
  (free → gives (.sorserWrite core 0x20 v) fun t => (t.core core).dbg = { d with trp := v }) ∧
  (free → gives (.sorserWrite core 0x18 v) fun t => t = s) ∧
  (free → s.mgmt.fifo = r :: rest → gives .sorserPop fun t => t.mgmt.readVal = r ∧ t.mgmt.fifo = rest) ∧
  (free → s.mgmt.fifo = [] → gives .sorserPop fun t => t.mgmt.readVal = List.replicate 64 0 ∧ t.mgmt.fifo = []) ∧
  (names → gives (.sorserResume ⟨id, flag⟩) fun t => ∃ w, t.strand? who = some w ∧ w.st = .ready ∧ w.c = { u.c with pc := if flag = true then resumePc o u true else u.c.pc }) ∧
  (names → gives (.sorserKill ⟨id, false⟩) fun t => ∃ k, t.group? who.sid who.gi = some k ∧ k.retired = true) ∧
  (names → gives (.sorserKill ⟨id, true⟩) fun t => ∃ y, t.slice? who.sid = some y ∧ y.st = .failed ∧ ∀ k ∈ y.groups, k.retired = true) ∧
  (free → s.stoppedGroup id = some (x, g, u) → gives (.sorserDump id 1 first count) fun t => t.mgmt.readVal = bytesOf 2 id ++ bytesOf 1 u.sn ++
    bytesOf 8 u.c.pc ++ bytesOf 16 u.c.mask.toNat ++ (List.range (min count 64)).flatMap fun i => bytesOf 4 ((g.view s.clock).greg (first + i)).toNat)

/-! ### Issue, encoding, reset and invariants -/

/-- The checks that every instruction meets before it issues, in the order of R62: an operand out of range traps with 7 and a bad encoding with its cause,
whatever the guard; an early read of the guard traps with 48 in checked mode; a false group guard leaves only the cost; then an early read of a source
traps with 48, a register outside the window with 192, an instruction that R95 forbids under a fork with 197 in place of 192, RCLAIM and RGIVE there with 224,
and a word with an uncorrectable error with 227 (R50, R51, R62, R67, R93 to R95, R315). -/
def Obligations.ChecksBeforeIssue : Prop := ∀ (i : Instr) (h : Hdr) (c : Cursor) (x : X) (s : State) (n : Nat),
  let ops := x.ops i h
  let range := ops.any (rangeBad x.vregs x.gregs x.acc i) = true
  let early := x.was.group.chk && (x.earlyRead ops).isSome
  let stale := x.was.group.chk && (x.earlyRead [h.guard.op]).isSome
  let handle := match i with
    | .hfree .. | .hquery .. | .hstrag .. | .hjoin .. | .hleave .. | .harr .. | .hwait .. | .hbar .. | .hvote .. | .hred .. => true
    | _ => false
  let past := ¬range ∧ encCause i = none ∧ stale = false ∧ x.gfalse = false
  let forbids := noFork i && x.underFork
  let pool := claims i && x.underFork
  i.hdr = some h → s.cur = some c → c.held = none → mkX c i h s = some x →
  (range → exec i s = .next (s.trapped x 7 0 0)) ∧
  (¬range → encCause i = some n → exec i s = .next (s.trapped x n 0 0)) ∧
  (¬range → encCause i = none → x.was.group.chk = true → x.earlyRead [h.guard.op] = some n → exec i s = .next (s.trapped x 48 0 n)) ∧
  (¬range → encCause i = none → stale = false → x.gfalse = true → exec i s = .next ((s.charged x i).issued x i)) ∧
  (past → x.was.group.chk = true → x.earlyRead ops = some n → exec i s = .next (s.trapped x 48 0 n)) ∧
  (past → early = false → x.windowBad i ops = true → forbids = false → pool = false → exec i s = .next (s.trapped x 192 0 0)) ∧
  (past → early = false → handle = false → forbids = true → exec i s = .next (s.trapped x 197 0 0)) ∧
  (past → early = false → pool = true → x.eccBad i ops = false → exec i s = .next (s.trapped x 224 0 0)) ∧
  (past → early = false → x.windowBad i ops = false → handle = false → forbids = false → x.eccBad i ops = true →
    exec i s = .next (s.trapped x 227 0 0))

/-- What a trap leaves (R306, R307): the strand is Stopped at the slot where it resumes, its registers as they were, and a record of KIND 0 with the cause,
the lane and the trapping slot waits in its region; memory and harness membership are as before. -/
def Obligations.TrapsTaken : Prop := ∀ (s : State) (r : StrandRef) (x : Slice) (g : Group) (u : Strand) (R : Region) (cause lane detail pc cpc : Nat) (dfr : Bool),
  s.slice? r.sid = some x → s.group? r.sid r.gi = some g → s.strand? r = some u → s.region? (s.sliceRegion x) = some R →
  let t := s.takeTrap r cause lane detail pc cpc dfr
  (∃ v, t.strand? r = some v ∧ v.st = .stopped none ∧ v.c = { u.c with pc := pc } ∧ v.runLen = 0) ∧
  (∃ k, t.group? r.sid r.gi = some k ∧ k.v = g.v ∧ k.g = g.g ∧ k.gp = g.gp ∧ k.h = g.h ∧ k.b = g.b ∧ k.th = g.th ∧ k.inflight = g.inflight ∧
    k.fixed = g.fixed) ∧
  (∃ q D l₁ l₂, t.region? (s.sliceRegion x) = some q ∧ R.waiting = l₁ ++ l₂ ∧ q.waiting = l₁ ++ D :: l₂ ∧ (∀ y ∈ l₁, y.before D = true) ∧ D.kind = 0 ∧ D.cause = cause ∧ D.lane = lane ∧ D.pc = pc ∧ D.cpc = cpc ∧
    D.defer = dfr ∧ D.detail = detail ∧ D.who = some r ∧ D.time = s.time) ∧
  t.mem = s.mem ∧ t.harnesses = s.harnesses

/-- A step runs the decoded instruction: where no debug halt is over, no event is due and a bay's turn finds its run at a single slot whose fields decode, and nothing of R62, R65
or the debug unit stops it, the step is exec of that instruction for a cursor at the slot, with the single-step check and the turn of the next bay after it
(R45, R62, R64, R65). -/
def Obligations.StepRunsDecoded : Prop := ∀ (s s' : State) (core bay : Nat) (r : StrandRef) (x : Slice) (g : Group) (t : Strand) (j : Job) (l : List Byte)
    (i : Instr),
  let pc := t.c.pc
  let f := singleFields l t
  let d := (s.core core).dbg
  let s₁ := s.keepLine core r (keyVf j.rk) (lineOf pc) l
  let u := (s₁.settleIssue s' r).cutRun r core j
  s.settleHalts = s → s.agenda = [] → s.cur = none → s.schedule = none → s.nextBay = some (4 * core + bay) → bay < 4 → s.bayBusy core bay = false →
  ((s.core core).bays.getD bay Bay.reset).run = some r → s.slice? r.sid = some x → x.core = core → s.group? r.sid r.gi = some g → s.strand? r = some t →
  s.job? x.jn = some j → x.issues = true → t.nextIssue ≤ s.clock → (∀ e ∈ t.deferred, e.due ≠ .next) →
  t.half = none → dueBy g t j.hdr.width [f] = none → bitAt d.dctl.toNat 7 = false → s.lineFor core j t = .line l → slotsAt l pc = [pc % 8] →
  lineCause l [pc % 8] = none → d.breaks (groupId x g) pc = false → targetCause j t l g.chk = none → decodeSlot j g t f = .ok i →
  waitBlock s.clock g t j.hdr.width [f] [i] = none → t.runLen < 24 →
  exec i { s₁ with cur := some (cursorAt r pc (nextSlot pc) s.clock) } = .next s' → u.bayBusy core bay = true → (∀ v, u.strand? r = some v → v.half = none) →
  step s = .next { (u.afterIssue r core j.rk (groupId x g) pc) with turn := 4 * core + bay + 1 }

/-- Words written out field by field from R49, R58 and the Encoding parts of the reference decode to the instructions they stand for. -/
def Obligations.DecodeWords : Prop := decode (0x00#8 ++ 0x5#4 ++ 0#3 ++ 0#1 ++ 7#3 ++ 0#6 ++ 0#7 ++ 3#8 ++ 1#8 ++ 2#8 ++ 0#8 ++ 0#32 : BitVec 96).toNat =
    .ok (.iadd ⟨5, false, .lane false 7⟩ false .s32 false 3 (.v 1) (.v 2)) ∧
  decode (0x5D#8 ++ 0x0#4 ++ 0#3 ++ 0#1 ++ 7#3 ++ 0#6 ++ 0#7 ++ 9#8 ++ 0#8 ++ 0#8 ++ 0#8 ++ 77#32 : BitVec 96).toNat =
    .ok (.movi ⟨0, false, .lane false 7⟩ true 9 77) ∧
  decode (0x23#8 ++ 0x0#4 ++ 1#1 ++ 0#1 ++ 0#1 ++ 0#1 ++ 2#3 ++ 2#6 ++ 6#7 ++ 4#8 ++ 1#8 ++ 2#8 ++ 3#8 ++ 0#32 : BitVec 96).toNat =
    .ok (.ffma ⟨0, true, .lane false 2⟩ (some .rdn) .bf16 4 (.v 1) (.v 2) (.v 3)) ∧
  decode (0x74#8 ++ 0x0#4 ++ 1#1 ++ 0#1 ++ 1#1 ++ 1#1 ++ 1#3 ++ 0#6 ++ 0#7 ++ 0#8 ++ 0#8 ++ 0#8 ++ 0#8 ++ 0#32 : BitVec 96).toNat =
    .ok (.exit ⟨0, true, .group true 1⟩)

/-- Decoding gives back every instruction that was encoded: the 96-bit word of a well-formed instruction decodes to it, with every operand at every value
that its encoding admits, and the entry of a queue command to that command (R49, R276). -/
def Obligations.DecodeOfEncode : Prop := (∀ i : Instr, i.wellFormed = true → ∃ w, encode i = some w ∧ w < 2 ^ 96 ∧ decode w = .ok i) ∧
  ∀ (c : Cmd) (w : Nat), c.tag < 2 ^ 12 → c.a < 2 ^ 64 → c.b < 2 ^ 64 → c.c < 2 ^ 64 →
    ∀ i ∈ [Instr.resume c, .kill c, .killJob c, .failDomain c, .batchResume c, .batchFail c, .translationInvalidate c, .preempt c, .regionReload c,
      .queueWatch c, .weightLoad c], encodeCommand i = some w → w < 2 ^ 256 ∧ decodeCommand c.queue w = some i

/-- A queue command at the head of its queue is carried out in ticket order: HEAD passes it when it is complete, here a RESUME of a strand of a
Resident slice (that of a Swapped one waits for its restore), and when it is refused, here one whose region neither the host nor the pusher commands or whose id is not outstanding; an event that is not the head's leaves all as it is (R276). -/
def Obligations.CommandsAtTheHead : Prop := ∀ (s : State) (c : Cmd) (key rk : Nat) (q : Queue) (bs : List Byte) (o : OutId) (r : StrandRef) (u : Strand) (x : Slice),
  let e := ofBytes bs
  let head := c.queue = some key ∧ s.queueOfKey key = some q ∧ q.kind = 3 ∧ q.tail ≠ q.head ∧ s.devRead q.vf (q.slot q.head.toNat) 32 = some bs ∧
    bitsAt e 8 44 = 0
  let same := bitsAt e 0 8 = 1 ∧ bitsAt e 52 12 = c.tag ∧ bitsAt e 64 64 = c.a ∧ bitsAt e 128 64 = c.b ∧ bitsAt e 192 64 = c.c
  let pusher := match q.pushers.find? (fun p => p.1 == q.head.toNat) with | some p => p.2 | none => q.rk
  let allowed := (s.region? rk).isSome = true ∧ (q.prod = true ∧ keyVf rk = q.vf ∨ s.isAncestor pusher rk = true)
  let passes := fun (t : State) => ∃ k, t.queue? q.vf q.va = some k ∧ k.head = q.head + 1 ∧ k.free = q.free + 1 ∧ k.tail = q.tail
  let stays := fun (t : State) => ∀ v n, s.strand? r = some v → v.st = .stopped n → t.strand? r = some v
  let stopped := o.kind = 0 ∧ o.who = some r ∧ s.strand? r = some u ∧ u.st = .stopped (some o.id)
  head → rk = regionKey q.vf c.tag →
  (same → allowed → s.outId rk c.a = some o → stopped → s.slice? r.sid = some x → x.st = .resident → ∃ t v, exec (.resume c) s = .next t ∧ passes t ∧
    t.strand? r = some v ∧ v.st = .ready) ∧
  (same → allowed → s.outId rk c.a = some o → stopped → s.slice? r.sid = some x → x.st = .swapped → ∃ t v, exec (.resume c) s = .next t ∧
    t.queues = s.queues ∧ t.strand? r = some v ∧ v.st = .ready) ∧
  (same → ¬allowed → ∃ t, exec (.resume c) s = .next t ∧ passes t ∧ stays t ∧ t.regions = s.regions) ∧
  (same → allowed → s.outId rk c.a = none → ∃ t, exec (.resume c) s = .next t ∧ passes t ∧ stays t) ∧
  (¬same → 1 ≤ bitsAt e 0 8 ∧ bitsAt e 0 8 ≤ 10 → exec (.resume c) s = .next s)

/-- A slice that used up its budget has its region's resolved BUDGET after its restore, and any other slice the budget with which it was saved; a stolen
slice resolves to its owner's (R279, R300). -/
def Obligations.RestoredBudget : Prop := ∀ (s : State) (sid k : Nat) (x : Slice) (d : Cand) (j : Job) (R : Region) (i : Instr),
  let resolved := match j.thief with | none => R.budget | some o => o.budget
  s.slice? sid = some x → x.st = .swapped → s.job? x.jn = some j → s.region? j.rk = some R → s.imageGood x = true → d.sid = some sid → d.jn = x.jn →
  (i = .sliceDispatch ∧ s.dispatchAct = some (.place d k) ∧ (s.fitOn d k none).isSome = true ∨
    i = .contextRestore sid ∧ s.mgmt.hold = false ∧ s.candidates.find? (fun e => e.sid == some sid) = some d ∧ s.coreFor d = some k) →
  ∃ t y, exec i s = .next t ∧ t.slice? sid = some y ∧ y.st = .resident ∧
    y.budget = if x.preempt = some .budget then (if resolved = 0 then none else some resolved) else x.budget

/-- sr.wswin gives in bits 31:28 the bank group whose window is open, or else begins next, and in bits 16:0 the cycles until then, at most 3,500 and 0 while
it is open; bits 27:17 are zero (R83, R151). -/
def Obligations.ShutterRegister : Prop := ∀ (x : X) (s : State) (lane : Nat),
  let v := x.special s 7 lane
  let now := x.cur.cycle
  let opens := fun (g c : Nat) => (c + 89600 - 5600 * g) % 89600 < 2100
  ∃ g k, v = g * 2 ^ 28 + k ∧ g < 16 ∧ k ≤ 3500 ∧ opens g (now + k) ∧ (∀ i h, i < k → h < 16 → ¬opens h (now + i)) ∧
    ((∃ h, h < 16 ∧ opens h now) → k = 0)

/-- The decoder accepts only encodings of well-formed instructions, each from one word alone: what it reads from a 96-bit word is well formed and encodes
to that word, so no reserved encoding falls through to a neighbour (R49, R58, R61). -/
def Obligations.EncodeOfDecode : Prop := ∀ (w : Nat) (i : Instr), w < 2 ^ 96 → decode w = .ok i → i.wellFormed = true ∧ encode i = some w

/-- Reset: the memories list nothing and are in canonical form, no slice, job, queue, region or command is there, the chip id and the clock are 0, and the
first step only lets a cycle pass. The clock starts at 0 by R5; that the chip id starts at 0 is the model's choice (DESIGN CHOICE, notes/assumptions/5.md). -/
def Obligations.ResetState : Prop := State.reset.memOk = true ∧ State.reset.mem = [] ∧ State.reset.slices = [] ∧ State.reset.jobs = [] ∧ State.reset.queues = [] ∧ State.reset.regions = [] ∧
  State.reset.harnesses = [] ∧ State.reset.agenda = [] ∧ State.reset.clock = 0 ∧ State.reset.chip = 0 ∧ State.reset.mgmt.locked = true ∧
  (∀ vf, (State.reset.tenant vf).valid = false) ∧ (∀ c, (State.reset.core c).dbg.tctl = 0 ∧ (State.reset.core c).dbg.dctl = 0) ∧
  ∃ t, step State.reset = .next t ∧ t.clock = 1 ∧ t.memOk = true

/-- Every step keeps the canonical form of main memory, the weight store and the host's memory: addresses strictly rise, and no entry holds 0, which is what
an unlisted address reads as by the model's choice (DESIGN CHOICE, notes/assumptions/1.md). -/
def Obligations.MemoryStaysCanonical : Prop := ∀ s t : State, s.memOk = true → step s = .next t → t.memOk = true
end

