-- ==== Sys2Proof/Laws/Encoding.lean ====
section
/-!
SUPPORT. The instruction word and its fields: each gives back the other.
-/

namespace Sys2Proof

/-- Every field is within its width (R49). -/
def Fields.fits (f : Fields) : Prop :=
  f.imm < 2 ^ 32 ∧ f.c < 2 ^ 8 ∧ f.b < 2 ^ 8 ∧ f.a < 2 ^ 8 ∧ f.d < 2 ^ 8 ∧ f.mod < 2 ^ 7 ∧ f.func < 2 ^ 6 ∧ f.gi < 2 ^ 3 ∧ f.gs < 2 ∧ f.gn < 2 ∧ f.rsv < 2 ∧
    f.endb < 2 ∧ f.stall < 2 ^ 4 ∧ f.maj < 2 ^ 8
/-- The fields of a word fit. -/
theorem Fields.ofWord_fits (w : Nat) : (Fields.ofWord w).fits := by
  refine ⟨?_, ?_, ?_, ?_, ?_, ?_, ?_, ?_, ?_, ?_, ?_, ?_, ?_, ?_⟩ <;> exact Nat.mod_lt _ (by decide)
/-- A word is the word of its fields. -/
theorem Fields.toWord_ofWord {w : Nat} (h : w < 2 ^ 96) : (Fields.ofWord w).toWord = w := by
  simp only [Fields.toWord, Fields.ofWord, bitsAt]
  omega
/-- The word of fields that fit is below 2^96. -/
theorem Fields.toWord_lt {f : Fields} (h : f.fits) : f.toWord < 2 ^ 96 := by
  obtain ⟨h1, h2, h3, h4, h5, h6, h7, h8, h9, h10, h11, h12, h13, h14⟩ := h
  simp only [Fields.toWord]
  omega
/-- Fields that fit are the fields of their word. -/
theorem Fields.ofWord_toWord {f : Fields} (h : f.fits) : Fields.ofWord f.toWord = f := by
  obtain ⟨h1, h2, h3, h4, h5, h6, h7, h8, h9, h10, h11, h12, h13, h14⟩ := h
  cases f
  simp only [Fields.toWord, Fields.ofWord, bitsAt, Fields.mk.injEq] at *
  refine ⟨?_, ?_, ?_, ?_, ?_, ?_, ?_, ?_, ?_, ?_, ?_, ?_, ?_, ?_⟩ <;> omega

end Sys2Proof
end

