-- ==== Sys2Proof/Laws/Sparse.lean ====
section
/-!
SUPPORT. Laws of sorted association lists: what a read gives after a write, and that every write keeps the canonical form.
-/

namespace Sys2Proof

variable {α : Type}

@[simp] theorem Sparse.get_nil (d : α) (a : Nat) : Sparse.get d [] a = d := rfl
@[simp] theorem Sparse.find_nil (a : Nat) : Sparse.find ([] : List (Nat × α)) a = none := rfl

/-- A set key reads as it was set, and every other key as before. -/
theorem Sparse.get_set (d : α) (m : List (Nat × α)) (a b : Nat) (x : α) :
    Sparse.get d (Sparse.set m a x) b = if a = b then x else Sparse.get d m b := by
  induction m with
  | nil => simp [Sparse.set, Sparse.get]
  | cons e m ih =>
    obtain ⟨k, v⟩ := e
    simp only [Sparse.set]
    split
    · subst_vars
      simp only [Sparse.get]
      split <;> rfl
    · split
      · simp only [Sparse.get]
      · simp only [Sparse.get, ih]
        split <;> split <;> first | rfl | omega

/-- The same of `Sparse.find`. -/
theorem Sparse.find_set (m : List (Nat × α)) (a b : Nat) (x : α) :
    Sparse.find (Sparse.set m a x) b = if a = b then some x else Sparse.find m b := by
  induction m with
  | nil => simp [Sparse.set, Sparse.find]
  | cons e m ih =>
    obtain ⟨k, v⟩ := e
    simp only [Sparse.set]
    split
    · subst_vars
      simp only [Sparse.find]
      split <;> rfl
    · split
      · simp only [Sparse.find]
      · simp only [Sparse.find, ih]
        split <;> split <;> first | rfl | omega

@[simp] theorem Sparse.get_set_self (d : α) (m : List (Nat × α)) (a : Nat) (x : α) : Sparse.get d (Sparse.set m a x) a = x := by
  simp [Sparse.get_set]
@[simp] theorem Sparse.find_set_self (m : List (Nat × α)) (a : Nat) (x : α) : Sparse.find (Sparse.set m a x) a = some x := by
  simp [Sparse.find_set]
theorem Sparse.find_set_ne (m : List (Nat × α)) {a b : Nat} (x : α) (h : a ≠ b) : Sparse.find (Sparse.set m a x) b = Sparse.find m b := by
  simp [Sparse.find_set, h]

/-- A removed key reads as the default, and every other key as before. -/
theorem Sparse.get_del (d : α) (m : List (Nat × α)) (a b : Nat) :
    Sparse.get d (Sparse.del m a) b = if a = b then d else Sparse.get d m b := by
  induction m with
  | nil => simp [Sparse.del]
  | cons e m ih =>
    obtain ⟨k, v⟩ := e
    simp only [Sparse.del]
    split
    · subst_vars
      simp only [ih, Sparse.get]
      split <;> rfl
    · simp only [Sparse.get, ih]
      split <;> split <;> first | rfl | omega

/-- The same of `Sparse.find`. -/
theorem Sparse.find_del (m : List (Nat × α)) (a b : Nat) :
    Sparse.find (Sparse.del m a) b = if a = b then none else Sparse.find m b := by
  induction m with
  | nil => simp [Sparse.del]
  | cons e m ih =>
    obtain ⟨k, v⟩ := e
    simp only [Sparse.del]
    split
    · subst_vars
      simp only [ih, Sparse.find]
      split <;> rfl
    · simp only [Sparse.find, ih]
      split <;> split <;> first | rfl | omega

/-- The same of a write that does not list the default. -/
theorem Sparse.get_put [DecidableEq α] (d : α) (m : List (Nat × α)) (a b : Nat) (x : α) :
    Sparse.get d (Sparse.put d m a x) b = if a = b then x else Sparse.get d m b := by
  unfold Sparse.put
  split
  · subst_vars; exact Sparse.get_del x m a b
  · exact Sparse.get_set d m a b x

/-- Keys at or above a bound stay so from a smaller bound. -/
theorem Sparse.sortedFrom_mono {b c : Nat} {m : List (Nat × α)} (h : Sparse.sortedFrom c m = true) (hb : b ≤ c) :
    Sparse.sortedFrom b m = true := by
  cases m with
  | nil => rfl
  | cons e m =>
    simp only [Sparse.sortedFrom, Bool.and_eq_true, decide_eq_true_eq] at h ⊢
    exact ⟨by omega, h.2⟩

theorem Sparse.sortedFrom_set {c : Nat} {m : List (Nat × α)} (h : Sparse.sortedFrom c m = true) {a : Nat} (ha : c ≤ a) (x : α) :
    Sparse.sortedFrom c (Sparse.set m a x) = true := by
  induction m generalizing c with
  | nil => simpa [Sparse.set, Sparse.sortedFrom] using ha
  | cons e m ih =>
    obtain ⟨k, v⟩ := e
    simp only [Sparse.sortedFrom, Bool.and_eq_true, decide_eq_true_eq] at h
    simp only [Sparse.set]
    split
    · subst_vars; simpa [Sparse.sortedFrom] using h
    · split
      · simp only [Sparse.sortedFrom, Bool.and_eq_true, decide_eq_true_eq]
        exact ⟨ha, by omega, h.2⟩
      · simp only [Sparse.sortedFrom, Bool.and_eq_true, decide_eq_true_eq]
        exact ⟨h.1, ih h.2 (by omega)⟩

theorem Sparse.sortedFrom_del {c : Nat} {m : List (Nat × α)} (h : Sparse.sortedFrom c m = true) (a : Nat) :
    Sparse.sortedFrom c (Sparse.del m a) = true := by
  induction m generalizing c with
  | nil => rfl
  | cons e m ih =>
    obtain ⟨k, v⟩ := e
    simp only [Sparse.sortedFrom, Bool.and_eq_true, decide_eq_true_eq] at h
    simp only [Sparse.del]
    split
    · exact Sparse.sortedFrom_mono (ih h.2) (by omega)
    · simp only [Sparse.sortedFrom, Bool.and_eq_true, decide_eq_true_eq]; exact ⟨h.1, ih h.2⟩

theorem Sparse.all_set {p : Nat × α → Bool} {m : List (Nat × α)} (h : m.all p = true) (a : Nat) (x : α) (hx : p (a, x) = true) :
    (Sparse.set m a x).all p = true := by
  induction m with
  | nil => simpa [Sparse.set] using hx
  | cons e m ih =>
    obtain ⟨k, v⟩ := e
    simp only [List.all_cons, Bool.and_eq_true] at h
    simp only [Sparse.set]
    split
    · simp only [List.all_cons, Bool.and_eq_true]; exact ⟨hx, h.2⟩
    · split
      · simp only [List.all_cons, Bool.and_eq_true]; exact ⟨hx, h.1, h.2⟩
      · simp only [List.all_cons, Bool.and_eq_true]; exact ⟨h.1, ih h.2⟩

theorem Sparse.all_del {p : Nat × α → Bool} {m : List (Nat × α)} (h : m.all p = true) (a : Nat) : (Sparse.del m a).all p = true := by
  induction m with
  | nil => rfl
  | cons e m ih =>
    obtain ⟨k, v⟩ := e
    simp only [List.all_cons, Bool.and_eq_true] at h
    simp only [Sparse.del]
    split
    · exact ih h.2
    · simp only [List.all_cons, Bool.and_eq_true]; exact ⟨h.1, ih h.2⟩

/-- The empty list is in canonical form. -/
@[simp] theorem Sparse.wf_nil [DecidableEq α] (d : α) : Sparse.wf d [] = true := rfl
theorem Sparse.wf_sorted [DecidableEq α] {d : α} {m : List (Nat × α)} (h : Sparse.wf d m = true) : Sparse.sortedFrom 0 m = true := by
  simp only [Sparse.wf, Bool.and_eq_true] at h; exact h.1
/-- A write keeps the canonical form. -/
theorem Sparse.wf_put [DecidableEq α] {d : α} {m : List (Nat × α)} (h : Sparse.wf d m = true) (a : Nat) (x : α) :
    Sparse.wf d (Sparse.put d m a x) = true := by
  simp only [Sparse.wf, Bool.and_eq_true] at h ⊢
  unfold Sparse.put
  split
  · exact ⟨Sparse.sortedFrom_del h.1 a, Sparse.all_del h.2 a⟩
  · rename_i hx
    exact ⟨Sparse.sortedFrom_set h.1 (Nat.zero_le a) x, Sparse.all_set h.2 a x (by simpa using hx)⟩
/-- Writing a list of values keeps the canonical form. -/
theorem Sparse.wf_putList [DecidableEq α] {d : α} {m : List (Nat × α)} (h : Sparse.wf d m = true) (a : Nat) (xs : List α) :
    Sparse.wf d (Sparse.putList d m a xs) = true := by
  induction xs generalizing m a with
  | nil => exact h
  | cons x xs ih => exact ih (Sparse.wf_put h a x) (a + 1)
/-- What a byte reads as after a list of values is written: its new value inside the range, its old one outside. -/
theorem Sparse.get_putList [DecidableEq α] (d : α) (m : List (Nat × α)) (a : Nat) (xs : List α) (b : Nat) :
    Sparse.get d (Sparse.putList d m a xs) b = if a ≤ b ∧ b < a + xs.length then xs.getD (b - a) d else Sparse.get d m b := by
  induction xs generalizing m a with
  | nil =>
    have h : ¬(a ≤ b ∧ b < a + 0) := by omega
    exact (if_neg h).symm
  | cons x xs ih =>
    simp only [Sparse.putList]
    rw [ih, Sparse.get_put]
    rcases Nat.lt_trichotomy a b with hab | hab | hab
    · have e1 : b - a = (b - (a + 1)) + 1 := by omega
      have e2 : (a + 1 ≤ b ∧ b < a + 1 + xs.length) ↔ (a ≤ b ∧ b < a + (x :: xs).length) := by
        simp only [List.length_cons]; omega
      have e3 : a ≠ b := by omega
      simp only [e2, e1, List.getD_cons_succ, if_neg e3]
    · subst hab
      have h1 : ¬ (a + 1 ≤ a ∧ a < a + 1 + xs.length) := by omega
      have h2 : a ≤ a ∧ a < a + (x :: xs).length := by simp only [List.length_cons]; omega
      simp only [if_neg h1, if_pos h2, if_true, Nat.sub_self, List.getD_cons_zero]
    · have h1 : ¬ (a + 1 ≤ b ∧ b < a + 1 + xs.length) := by omega
      have h2 : ¬ (a ≤ b ∧ b < a + (x :: xs).length) := by omega
      have h3 : a ≠ b := by omega
      simp only [if_neg h1, if_neg h2, if_neg h3]
/-- A read of n keys gives n values. -/
theorem Sparse.getList_length (d : α) (m : List (Nat × α)) (a n : Nat) : (Sparse.getList d m a n).length = n := by
  induction n generalizing a with
  | zero => rfl
  | succ n ih => simp [Sparse.getList, ih]

/-- A key that an added tail does not list reads as without it. -/
theorem Sparse.get_append_of_ne (d : α) (m c : List (Nat × α)) (a : Nat) (h : ∀ e ∈ c, e.1 ≠ a) : Sparse.get d (m ++ c) a = Sparse.get d m a := by
  induction m with
  | nil =>
    induction c with
    | nil => rfl
    | cons e c ih =>
      obtain ⟨k, v⟩ := e
      show (if k = a then v else Sparse.get d c a) = d
      rw [if_neg (h (k, v) (by simp))]
      exact ih fun e he => h e (by simp [he])
  | cons e m ih =>
    obtain ⟨k, v⟩ := e
    show (if k = a then v else Sparse.get d (m ++ c) a) = if k = a then v else Sparse.get d m a
    rw [ih]
/-- A range of keys above every key of an added tail reads as without it. -/
theorem Sparse.getList_append_of_lt (d : α) (m c : List (Nat × α)) (a n : Nat) (h : ∀ e ∈ c, e.1 < a) :
    Sparse.getList d (m ++ c) a n = Sparse.getList d m a n := by
  induction n generalizing a with
  | zero => rfl
  | succ n ih =>
    simp only [Sparse.getList]
    rw [Sparse.get_append_of_ne d m c a fun e he => Nat.ne_of_lt (h e he), ih (a + 1) fun e he => Nat.lt_succ_of_lt (h e he)]
/-- The number of the bytes of a number is its remainder. -/
theorem ofBytes_bytesOf (n x : Nat) : ofBytes (bytesOf n x) = x % 256 ^ n := by
  induction n generalizing x with
  | zero => simp [bytesOf, ofBytes, Nat.mod_one]
  | succ n ih =>
    simp only [bytesOf, ofBytes, ih, BitVec.toNat_ofNat]
    rw [show 256 ^ (n + 1) = 256 * 256 ^ n from Nat.pow_succ' ..]
    exact (Nat.mod_mul ..).symm

end Sys2Proof
end

