-- ==== Sys2Proof/Laws/State.lean ====
section
/-!
SUPPORT. What each named operation over the state leaves of each field of the state.
-/

namespace Sys2Proof.Machine


/-! A slice changed. -/

@[simp] theorem State.modSlice_clock (s : State) (sid : Nat) (f : Slice → Slice) : (s.modSlice sid f).clock = s.clock := by unfold State.modSlice; split <;> rfl
@[simp] theorem State.modSlice_chip (s : State) (sid : Nat) (f : Slice → Slice) : (s.modSlice sid f).chip = s.chip := by unfold State.modSlice; split <;> rfl
@[simp] theorem State.modSlice_mem (s : State) (sid : Nat) (f : Slice → Slice) : (s.modSlice sid f).mem = s.mem := by unfold State.modSlice; split <;> rfl
@[simp] theorem State.modSlice_memFailed (s : State) (sid : Nat) (f : Slice → Slice) : (s.modSlice sid f).memFailed = s.memFailed := by unfold State.modSlice; split <;> rfl
@[simp] theorem State.modSlice_hostMem (s : State) (sid : Nat) (f : Slice → Slice) : (s.modSlice sid f).hostMem = s.hostMem := by unfold State.modSlice; split <;> rfl
@[simp] theorem State.modSlice_hostPages (s : State) (sid : Nat) (f : Slice → Slice) : (s.modSlice sid f).hostPages = s.hostPages := by unfold State.modSlice; split <;> rfl
@[simp] theorem State.modSlice_tenants (s : State) (sid : Nat) (f : Slice → Slice) : (s.modSlice sid f).tenants = s.tenants := by unfold State.modSlice; split <;> rfl
@[simp] theorem State.modSlice_regions (s : State) (sid : Nat) (f : Slice → Slice) : (s.modSlice sid f).regions = s.regions := by unfold State.modSlice; split <;> rfl
@[simp] theorem State.modSlice_queues (s : State) (sid : Nat) (f : Slice → Slice) : (s.modSlice sid f).queues = s.queues := by unfold State.modSlice; split <;> rfl
@[simp] theorem State.modSlice_jobs (s : State) (sid : Nat) (f : Slice → Slice) : (s.modSlice sid f).jobs = s.jobs := by unfold State.modSlice; split <;> rfl
@[simp] theorem State.modSlice_cores (s : State) (sid : Nat) (f : Slice → Slice) : (s.modSlice sid f).cores = s.cores := by unfold State.modSlice; split <;> rfl
@[simp] theorem State.modSlice_harnesses (s : State) (sid : Nat) (f : Slice → Slice) : (s.modSlice sid f).harnesses = s.harnesses := by unfold State.modSlice; split <;> rfl
@[simp] theorem State.modSlice_gens (s : State) (sid : Nat) (f : Slice → Slice) : (s.modSlice sid f).gens = s.gens := by unfold State.modSlice; split <;> rfl
@[simp] theorem State.modSlice_watches (s : State) (sid : Nat) (f : Slice → Slice) : (s.modSlice sid f).watches = s.watches := by unfold State.modSlice; split <;> rfl
@[simp] theorem State.modSlice_promoted (s : State) (sid : Nat) (f : Slice → Slice) : (s.modSlice sid f).promoted = s.promoted := by unfold State.modSlice; split <;> rfl
@[simp] theorem State.modSlice_dcache (s : State) (sid : Nat) (f : Slice → Slice) : (s.modSlice sid f).dcache = s.dcache := by unfold State.modSlice; split <;> rfl
@[simp] theorem State.modSlice_remotes (s : State) (sid : Nat) (f : Slice → Slice) : (s.modSlice sid f).remotes = s.remotes := by unfold State.modSlice; split <;> rfl
@[simp] theorem State.modSlice_batches (s : State) (sid : Nat) (f : Slice → Slice) : (s.modSlice sid f).batches = s.batches := by unfold State.modSlice; split <;> rfl
@[simp] theorem State.modSlice_lagging (s : State) (sid : Nat) (f : Slice → Slice) : (s.modSlice sid f).lagging = s.lagging := by unfold State.modSlice; split <;> rfl
@[simp] theorem State.modSlice_made (s : State) (sid : Nat) (f : Slice → Slice) : (s.modSlice sid f).made = s.made := by unfold State.modSlice; split <;> rfl
@[simp] theorem State.modSlice_got (s : State) (sid : Nat) (f : Slice → Slice) : (s.modSlice sid f).got = s.got := by unfold State.modSlice; split <;> rfl
@[simp] theorem State.modSlice_mgmt (s : State) (sid : Nat) (f : Slice → Slice) : (s.modSlice sid f).mgmt = s.mgmt := by unfold State.modSlice; split <;> rfl
@[simp] theorem State.modSlice_agenda (s : State) (sid : Nat) (f : Slice → Slice) : (s.modSlice sid f).agenda = s.agenda := by unfold State.modSlice; split <;> rfl
@[simp] theorem State.modSlice_turn (s : State) (sid : Nat) (f : Slice → Slice) : (s.modSlice sid f).turn = s.turn := by unfold State.modSlice; split <;> rfl
@[simp] theorem State.modSlice_cur (s : State) (sid : Nat) (f : Slice → Slice) : (s.modSlice sid f).cur = s.cur := by unfold State.modSlice; split <;> rfl
@[simp] theorem State.modSlice_nextId (s : State) (sid : Nat) (f : Slice → Slice) : (s.modSlice sid f).nextId = s.nextId := by unfold State.modSlice; split <;> rfl
@[simp] theorem State.modSlice_out (s : State) (sid : Nat) (f : Slice → Slice) : (s.modSlice sid f).out = s.out := by unfold State.modSlice; split <;> rfl

/-! A group changed. -/

@[simp] theorem State.modGroup_clock (s : State) (sid gi : Nat) (f : Group → Group) : (s.modGroup sid gi f).clock = s.clock := by simp [State.modGroup]
@[simp] theorem State.modGroup_chip (s : State) (sid gi : Nat) (f : Group → Group) : (s.modGroup sid gi f).chip = s.chip := by simp [State.modGroup]
@[simp] theorem State.modGroup_mem (s : State) (sid gi : Nat) (f : Group → Group) : (s.modGroup sid gi f).mem = s.mem := by simp [State.modGroup]
@[simp] theorem State.modGroup_memFailed (s : State) (sid gi : Nat) (f : Group → Group) : (s.modGroup sid gi f).memFailed = s.memFailed := by simp [State.modGroup]
@[simp] theorem State.modGroup_hostMem (s : State) (sid gi : Nat) (f : Group → Group) : (s.modGroup sid gi f).hostMem = s.hostMem := by simp [State.modGroup]
@[simp] theorem State.modGroup_hostPages (s : State) (sid gi : Nat) (f : Group → Group) : (s.modGroup sid gi f).hostPages = s.hostPages := by simp [State.modGroup]
@[simp] theorem State.modGroup_tenants (s : State) (sid gi : Nat) (f : Group → Group) : (s.modGroup sid gi f).tenants = s.tenants := by simp [State.modGroup]
@[simp] theorem State.modGroup_regions (s : State) (sid gi : Nat) (f : Group → Group) : (s.modGroup sid gi f).regions = s.regions := by simp [State.modGroup]
@[simp] theorem State.modGroup_queues (s : State) (sid gi : Nat) (f : Group → Group) : (s.modGroup sid gi f).queues = s.queues := by simp [State.modGroup]
@[simp] theorem State.modGroup_jobs (s : State) (sid gi : Nat) (f : Group → Group) : (s.modGroup sid gi f).jobs = s.jobs := by simp [State.modGroup]
@[simp] theorem State.modGroup_cores (s : State) (sid gi : Nat) (f : Group → Group) : (s.modGroup sid gi f).cores = s.cores := by simp [State.modGroup]
@[simp] theorem State.modGroup_harnesses (s : State) (sid gi : Nat) (f : Group → Group) : (s.modGroup sid gi f).harnesses = s.harnesses := by simp [State.modGroup]
@[simp] theorem State.modGroup_gens (s : State) (sid gi : Nat) (f : Group → Group) : (s.modGroup sid gi f).gens = s.gens := by simp [State.modGroup]
@[simp] theorem State.modGroup_watches (s : State) (sid gi : Nat) (f : Group → Group) : (s.modGroup sid gi f).watches = s.watches := by simp [State.modGroup]
@[simp] theorem State.modGroup_promoted (s : State) (sid gi : Nat) (f : Group → Group) : (s.modGroup sid gi f).promoted = s.promoted := by simp [State.modGroup]
@[simp] theorem State.modGroup_dcache (s : State) (sid gi : Nat) (f : Group → Group) : (s.modGroup sid gi f).dcache = s.dcache := by simp [State.modGroup]
@[simp] theorem State.modGroup_remotes (s : State) (sid gi : Nat) (f : Group → Group) : (s.modGroup sid gi f).remotes = s.remotes := by simp [State.modGroup]
@[simp] theorem State.modGroup_batches (s : State) (sid gi : Nat) (f : Group → Group) : (s.modGroup sid gi f).batches = s.batches := by simp [State.modGroup]
@[simp] theorem State.modGroup_lagging (s : State) (sid gi : Nat) (f : Group → Group) : (s.modGroup sid gi f).lagging = s.lagging := by simp [State.modGroup]
@[simp] theorem State.modGroup_made (s : State) (sid gi : Nat) (f : Group → Group) : (s.modGroup sid gi f).made = s.made := by simp [State.modGroup]
@[simp] theorem State.modGroup_got (s : State) (sid gi : Nat) (f : Group → Group) : (s.modGroup sid gi f).got = s.got := by simp [State.modGroup]
@[simp] theorem State.modGroup_mgmt (s : State) (sid gi : Nat) (f : Group → Group) : (s.modGroup sid gi f).mgmt = s.mgmt := by simp [State.modGroup]
@[simp] theorem State.modGroup_agenda (s : State) (sid gi : Nat) (f : Group → Group) : (s.modGroup sid gi f).agenda = s.agenda := by simp [State.modGroup]
@[simp] theorem State.modGroup_turn (s : State) (sid gi : Nat) (f : Group → Group) : (s.modGroup sid gi f).turn = s.turn := by simp [State.modGroup]
@[simp] theorem State.modGroup_cur (s : State) (sid gi : Nat) (f : Group → Group) : (s.modGroup sid gi f).cur = s.cur := by simp [State.modGroup]
@[simp] theorem State.modGroup_nextId (s : State) (sid gi : Nat) (f : Group → Group) : (s.modGroup sid gi f).nextId = s.nextId := by simp [State.modGroup]
@[simp] theorem State.modGroup_out (s : State) (sid gi : Nat) (f : Group → Group) : (s.modGroup sid gi f).out = s.out := by simp [State.modGroup]

/-! A strand changed. -/

@[simp] theorem State.modStrand_clock (s : State) (r : StrandRef) (f : Strand → Strand) : (s.modStrand r f).clock = s.clock := by simp [State.modStrand]
@[simp] theorem State.modStrand_chip (s : State) (r : StrandRef) (f : Strand → Strand) : (s.modStrand r f).chip = s.chip := by simp [State.modStrand]
@[simp] theorem State.modStrand_mem (s : State) (r : StrandRef) (f : Strand → Strand) : (s.modStrand r f).mem = s.mem := by simp [State.modStrand]
@[simp] theorem State.modStrand_memFailed (s : State) (r : StrandRef) (f : Strand → Strand) : (s.modStrand r f).memFailed = s.memFailed := by simp [State.modStrand]
@[simp] theorem State.modStrand_hostMem (s : State) (r : StrandRef) (f : Strand → Strand) : (s.modStrand r f).hostMem = s.hostMem := by simp [State.modStrand]
@[simp] theorem State.modStrand_hostPages (s : State) (r : StrandRef) (f : Strand → Strand) : (s.modStrand r f).hostPages = s.hostPages := by simp [State.modStrand]
@[simp] theorem State.modStrand_tenants (s : State) (r : StrandRef) (f : Strand → Strand) : (s.modStrand r f).tenants = s.tenants := by simp [State.modStrand]
@[simp] theorem State.modStrand_regions (s : State) (r : StrandRef) (f : Strand → Strand) : (s.modStrand r f).regions = s.regions := by simp [State.modStrand]
@[simp] theorem State.modStrand_queues (s : State) (r : StrandRef) (f : Strand → Strand) : (s.modStrand r f).queues = s.queues := by simp [State.modStrand]
@[simp] theorem State.modStrand_jobs (s : State) (r : StrandRef) (f : Strand → Strand) : (s.modStrand r f).jobs = s.jobs := by simp [State.modStrand]
@[simp] theorem State.modStrand_cores (s : State) (r : StrandRef) (f : Strand → Strand) : (s.modStrand r f).cores = s.cores := by simp [State.modStrand]
@[simp] theorem State.modStrand_harnesses (s : State) (r : StrandRef) (f : Strand → Strand) : (s.modStrand r f).harnesses = s.harnesses := by simp [State.modStrand]
@[simp] theorem State.modStrand_gens (s : State) (r : StrandRef) (f : Strand → Strand) : (s.modStrand r f).gens = s.gens := by simp [State.modStrand]
@[simp] theorem State.modStrand_watches (s : State) (r : StrandRef) (f : Strand → Strand) : (s.modStrand r f).watches = s.watches := by simp [State.modStrand]
@[simp] theorem State.modStrand_promoted (s : State) (r : StrandRef) (f : Strand → Strand) : (s.modStrand r f).promoted = s.promoted := by simp [State.modStrand]
@[simp] theorem State.modStrand_dcache (s : State) (r : StrandRef) (f : Strand → Strand) : (s.modStrand r f).dcache = s.dcache := by simp [State.modStrand]
@[simp] theorem State.modStrand_remotes (s : State) (r : StrandRef) (f : Strand → Strand) : (s.modStrand r f).remotes = s.remotes := by simp [State.modStrand]
@[simp] theorem State.modStrand_batches (s : State) (r : StrandRef) (f : Strand → Strand) : (s.modStrand r f).batches = s.batches := by simp [State.modStrand]
@[simp] theorem State.modStrand_lagging (s : State) (r : StrandRef) (f : Strand → Strand) : (s.modStrand r f).lagging = s.lagging := by simp [State.modStrand]
@[simp] theorem State.modStrand_made (s : State) (r : StrandRef) (f : Strand → Strand) : (s.modStrand r f).made = s.made := by simp [State.modStrand]
@[simp] theorem State.modStrand_got (s : State) (r : StrandRef) (f : Strand → Strand) : (s.modStrand r f).got = s.got := by simp [State.modStrand]
@[simp] theorem State.modStrand_mgmt (s : State) (r : StrandRef) (f : Strand → Strand) : (s.modStrand r f).mgmt = s.mgmt := by simp [State.modStrand]
@[simp] theorem State.modStrand_agenda (s : State) (r : StrandRef) (f : Strand → Strand) : (s.modStrand r f).agenda = s.agenda := by simp [State.modStrand]
@[simp] theorem State.modStrand_turn (s : State) (r : StrandRef) (f : Strand → Strand) : (s.modStrand r f).turn = s.turn := by simp [State.modStrand]
@[simp] theorem State.modStrand_cur (s : State) (r : StrandRef) (f : Strand → Strand) : (s.modStrand r f).cur = s.cur := by simp [State.modStrand]
@[simp] theorem State.modStrand_nextId (s : State) (r : StrandRef) (f : Strand → Strand) : (s.modStrand r f).nextId = s.nextId := by simp [State.modStrand]
@[simp] theorem State.modStrand_out (s : State) (r : StrandRef) (f : Strand → Strand) : (s.modStrand r f).out = s.out := by simp [State.modStrand]

/-! A strand put in a state. -/

@[simp] theorem State.setStrandState_clock (s : State) (r : StrandRef) (x : SState) : (s.setStrandState r x).clock = s.clock := by simp [State.setStrandState]
@[simp] theorem State.setStrandState_chip (s : State) (r : StrandRef) (x : SState) : (s.setStrandState r x).chip = s.chip := by simp [State.setStrandState]
@[simp] theorem State.setStrandState_mem (s : State) (r : StrandRef) (x : SState) : (s.setStrandState r x).mem = s.mem := by simp [State.setStrandState]
@[simp] theorem State.setStrandState_memFailed (s : State) (r : StrandRef) (x : SState) : (s.setStrandState r x).memFailed = s.memFailed := by simp [State.setStrandState]
@[simp] theorem State.setStrandState_hostMem (s : State) (r : StrandRef) (x : SState) : (s.setStrandState r x).hostMem = s.hostMem := by simp [State.setStrandState]
@[simp] theorem State.setStrandState_hostPages (s : State) (r : StrandRef) (x : SState) : (s.setStrandState r x).hostPages = s.hostPages := by simp [State.setStrandState]
@[simp] theorem State.setStrandState_tenants (s : State) (r : StrandRef) (x : SState) : (s.setStrandState r x).tenants = s.tenants := by simp [State.setStrandState]
@[simp] theorem State.setStrandState_regions (s : State) (r : StrandRef) (x : SState) : (s.setStrandState r x).regions = s.regions := by simp [State.setStrandState]
@[simp] theorem State.setStrandState_queues (s : State) (r : StrandRef) (x : SState) : (s.setStrandState r x).queues = s.queues := by simp [State.setStrandState]
@[simp] theorem State.setStrandState_jobs (s : State) (r : StrandRef) (x : SState) : (s.setStrandState r x).jobs = s.jobs := by simp [State.setStrandState]
@[simp] theorem State.setStrandState_cores (s : State) (r : StrandRef) (x : SState) : (s.setStrandState r x).cores = s.cores := by simp [State.setStrandState]
@[simp] theorem State.setStrandState_harnesses (s : State) (r : StrandRef) (x : SState) : (s.setStrandState r x).harnesses = s.harnesses := by simp [State.setStrandState]
@[simp] theorem State.setStrandState_gens (s : State) (r : StrandRef) (x : SState) : (s.setStrandState r x).gens = s.gens := by simp [State.setStrandState]
@[simp] theorem State.setStrandState_watches (s : State) (r : StrandRef) (x : SState) : (s.setStrandState r x).watches = s.watches := by simp [State.setStrandState]
@[simp] theorem State.setStrandState_promoted (s : State) (r : StrandRef) (x : SState) : (s.setStrandState r x).promoted = s.promoted := by simp [State.setStrandState]
@[simp] theorem State.setStrandState_dcache (s : State) (r : StrandRef) (x : SState) : (s.setStrandState r x).dcache = s.dcache := by simp [State.setStrandState]
@[simp] theorem State.setStrandState_remotes (s : State) (r : StrandRef) (x : SState) : (s.setStrandState r x).remotes = s.remotes := by simp [State.setStrandState]
@[simp] theorem State.setStrandState_batches (s : State) (r : StrandRef) (x : SState) : (s.setStrandState r x).batches = s.batches := by simp [State.setStrandState]
@[simp] theorem State.setStrandState_lagging (s : State) (r : StrandRef) (x : SState) : (s.setStrandState r x).lagging = s.lagging := by simp [State.setStrandState]
@[simp] theorem State.setStrandState_made (s : State) (r : StrandRef) (x : SState) : (s.setStrandState r x).made = s.made := by simp [State.setStrandState]
@[simp] theorem State.setStrandState_got (s : State) (r : StrandRef) (x : SState) : (s.setStrandState r x).got = s.got := by simp [State.setStrandState]
@[simp] theorem State.setStrandState_mgmt (s : State) (r : StrandRef) (x : SState) : (s.setStrandState r x).mgmt = s.mgmt := by simp [State.setStrandState]
@[simp] theorem State.setStrandState_agenda (s : State) (r : StrandRef) (x : SState) : (s.setStrandState r x).agenda = s.agenda := by simp [State.setStrandState]
@[simp] theorem State.setStrandState_turn (s : State) (r : StrandRef) (x : SState) : (s.setStrandState r x).turn = s.turn := by simp [State.setStrandState]
@[simp] theorem State.setStrandState_cur (s : State) (r : StrandRef) (x : SState) : (s.setStrandState r x).cur = s.cur := by simp [State.setStrandState]
@[simp] theorem State.setStrandState_nextId (s : State) (r : StrandRef) (x : SState) : (s.setStrandState r x).nextId = s.nextId := by simp [State.setStrandState]
@[simp] theorem State.setStrandState_out (s : State) (r : StrandRef) (x : SState) : (s.setStrandState r x).out = s.out := by simp [State.setStrandState]

/-! A core changed. -/

@[simp] theorem State.modCore_clock (s : State) (c : Nat) (f : Core → Core) : (s.modCore c f).clock = s.clock := rfl
@[simp] theorem State.modCore_chip (s : State) (c : Nat) (f : Core → Core) : (s.modCore c f).chip = s.chip := rfl
@[simp] theorem State.modCore_mem (s : State) (c : Nat) (f : Core → Core) : (s.modCore c f).mem = s.mem := rfl
@[simp] theorem State.modCore_memFailed (s : State) (c : Nat) (f : Core → Core) : (s.modCore c f).memFailed = s.memFailed := rfl
@[simp] theorem State.modCore_hostMem (s : State) (c : Nat) (f : Core → Core) : (s.modCore c f).hostMem = s.hostMem := rfl
@[simp] theorem State.modCore_hostPages (s : State) (c : Nat) (f : Core → Core) : (s.modCore c f).hostPages = s.hostPages := rfl
@[simp] theorem State.modCore_tenants (s : State) (c : Nat) (f : Core → Core) : (s.modCore c f).tenants = s.tenants := rfl
@[simp] theorem State.modCore_regions (s : State) (c : Nat) (f : Core → Core) : (s.modCore c f).regions = s.regions := rfl
@[simp] theorem State.modCore_queues (s : State) (c : Nat) (f : Core → Core) : (s.modCore c f).queues = s.queues := rfl
@[simp] theorem State.modCore_jobs (s : State) (c : Nat) (f : Core → Core) : (s.modCore c f).jobs = s.jobs := rfl
@[simp] theorem State.modCore_slices (s : State) (c : Nat) (f : Core → Core) : (s.modCore c f).slices = s.slices := rfl
@[simp] theorem State.modCore_harnesses (s : State) (c : Nat) (f : Core → Core) : (s.modCore c f).harnesses = s.harnesses := rfl
@[simp] theorem State.modCore_gens (s : State) (c : Nat) (f : Core → Core) : (s.modCore c f).gens = s.gens := rfl
@[simp] theorem State.modCore_watches (s : State) (c : Nat) (f : Core → Core) : (s.modCore c f).watches = s.watches := rfl
@[simp] theorem State.modCore_promoted (s : State) (c : Nat) (f : Core → Core) : (s.modCore c f).promoted = s.promoted := rfl
@[simp] theorem State.modCore_dcache (s : State) (c : Nat) (f : Core → Core) : (s.modCore c f).dcache = s.dcache := rfl
@[simp] theorem State.modCore_remotes (s : State) (c : Nat) (f : Core → Core) : (s.modCore c f).remotes = s.remotes := rfl
@[simp] theorem State.modCore_batches (s : State) (c : Nat) (f : Core → Core) : (s.modCore c f).batches = s.batches := rfl
@[simp] theorem State.modCore_lagging (s : State) (c : Nat) (f : Core → Core) : (s.modCore c f).lagging = s.lagging := rfl
@[simp] theorem State.modCore_made (s : State) (c : Nat) (f : Core → Core) : (s.modCore c f).made = s.made := rfl
@[simp] theorem State.modCore_got (s : State) (c : Nat) (f : Core → Core) : (s.modCore c f).got = s.got := rfl
@[simp] theorem State.modCore_mgmt (s : State) (c : Nat) (f : Core → Core) : (s.modCore c f).mgmt = s.mgmt := rfl
@[simp] theorem State.modCore_agenda (s : State) (c : Nat) (f : Core → Core) : (s.modCore c f).agenda = s.agenda := rfl
@[simp] theorem State.modCore_turn (s : State) (c : Nat) (f : Core → Core) : (s.modCore c f).turn = s.turn := rfl
@[simp] theorem State.modCore_cur (s : State) (c : Nat) (f : Core → Core) : (s.modCore c f).cur = s.cur := rfl
@[simp] theorem State.modCore_nextId (s : State) (c : Nat) (f : Core → Core) : (s.modCore c f).nextId = s.nextId := rfl
@[simp] theorem State.modCore_out (s : State) (c : Nat) (f : Core → Core) : (s.modCore c f).out = s.out := rfl

/-! A job changed. -/

@[simp] theorem State.modJob_clock (s : State) (jn : Nat) (f : Job → Job) : (s.modJob jn f).clock = s.clock := by unfold State.modJob; split <;> rfl
@[simp] theorem State.modJob_chip (s : State) (jn : Nat) (f : Job → Job) : (s.modJob jn f).chip = s.chip := by unfold State.modJob; split <;> rfl
@[simp] theorem State.modJob_mem (s : State) (jn : Nat) (f : Job → Job) : (s.modJob jn f).mem = s.mem := by unfold State.modJob; split <;> rfl
@[simp] theorem State.modJob_memFailed (s : State) (jn : Nat) (f : Job → Job) : (s.modJob jn f).memFailed = s.memFailed := by unfold State.modJob; split <;> rfl
@[simp] theorem State.modJob_hostMem (s : State) (jn : Nat) (f : Job → Job) : (s.modJob jn f).hostMem = s.hostMem := by unfold State.modJob; split <;> rfl
@[simp] theorem State.modJob_hostPages (s : State) (jn : Nat) (f : Job → Job) : (s.modJob jn f).hostPages = s.hostPages := by unfold State.modJob; split <;> rfl
@[simp] theorem State.modJob_tenants (s : State) (jn : Nat) (f : Job → Job) : (s.modJob jn f).tenants = s.tenants := by unfold State.modJob; split <;> rfl
@[simp] theorem State.modJob_regions (s : State) (jn : Nat) (f : Job → Job) : (s.modJob jn f).regions = s.regions := by unfold State.modJob; split <;> rfl
@[simp] theorem State.modJob_queues (s : State) (jn : Nat) (f : Job → Job) : (s.modJob jn f).queues = s.queues := by unfold State.modJob; split <;> rfl
@[simp] theorem State.modJob_slices (s : State) (jn : Nat) (f : Job → Job) : (s.modJob jn f).slices = s.slices := by unfold State.modJob; split <;> rfl
@[simp] theorem State.modJob_cores (s : State) (jn : Nat) (f : Job → Job) : (s.modJob jn f).cores = s.cores := by unfold State.modJob; split <;> rfl
@[simp] theorem State.modJob_harnesses (s : State) (jn : Nat) (f : Job → Job) : (s.modJob jn f).harnesses = s.harnesses := by unfold State.modJob; split <;> rfl
@[simp] theorem State.modJob_gens (s : State) (jn : Nat) (f : Job → Job) : (s.modJob jn f).gens = s.gens := by unfold State.modJob; split <;> rfl
@[simp] theorem State.modJob_watches (s : State) (jn : Nat) (f : Job → Job) : (s.modJob jn f).watches = s.watches := by unfold State.modJob; split <;> rfl
@[simp] theorem State.modJob_promoted (s : State) (jn : Nat) (f : Job → Job) : (s.modJob jn f).promoted = s.promoted := by unfold State.modJob; split <;> rfl
@[simp] theorem State.modJob_dcache (s : State) (jn : Nat) (f : Job → Job) : (s.modJob jn f).dcache = s.dcache := by unfold State.modJob; split <;> rfl
@[simp] theorem State.modJob_remotes (s : State) (jn : Nat) (f : Job → Job) : (s.modJob jn f).remotes = s.remotes := by unfold State.modJob; split <;> rfl
@[simp] theorem State.modJob_batches (s : State) (jn : Nat) (f : Job → Job) : (s.modJob jn f).batches = s.batches := by unfold State.modJob; split <;> rfl
@[simp] theorem State.modJob_lagging (s : State) (jn : Nat) (f : Job → Job) : (s.modJob jn f).lagging = s.lagging := by unfold State.modJob; split <;> rfl
@[simp] theorem State.modJob_made (s : State) (jn : Nat) (f : Job → Job) : (s.modJob jn f).made = s.made := by unfold State.modJob; split <;> rfl
@[simp] theorem State.modJob_got (s : State) (jn : Nat) (f : Job → Job) : (s.modJob jn f).got = s.got := by unfold State.modJob; split <;> rfl
@[simp] theorem State.modJob_mgmt (s : State) (jn : Nat) (f : Job → Job) : (s.modJob jn f).mgmt = s.mgmt := by unfold State.modJob; split <;> rfl
@[simp] theorem State.modJob_agenda (s : State) (jn : Nat) (f : Job → Job) : (s.modJob jn f).agenda = s.agenda := by unfold State.modJob; split <;> rfl
@[simp] theorem State.modJob_turn (s : State) (jn : Nat) (f : Job → Job) : (s.modJob jn f).turn = s.turn := by unfold State.modJob; split <;> rfl
@[simp] theorem State.modJob_cur (s : State) (jn : Nat) (f : Job → Job) : (s.modJob jn f).cur = s.cur := by unfold State.modJob; split <;> rfl
@[simp] theorem State.modJob_nextId (s : State) (jn : Nat) (f : Job → Job) : (s.modJob jn f).nextId = s.nextId := by unfold State.modJob; split <;> rfl
@[simp] theorem State.modJob_out (s : State) (jn : Nat) (f : Job → Job) : (s.modJob jn f).out = s.out := by unfold State.modJob; split <;> rfl

/-! A region changed. -/

@[simp] theorem State.modRegion_clock (s : State) (rk : Nat) (f : Region → Region) : (s.modRegion rk f).clock = s.clock := by unfold State.modRegion; split <;> rfl
@[simp] theorem State.modRegion_chip (s : State) (rk : Nat) (f : Region → Region) : (s.modRegion rk f).chip = s.chip := by unfold State.modRegion; split <;> rfl
@[simp] theorem State.modRegion_mem (s : State) (rk : Nat) (f : Region → Region) : (s.modRegion rk f).mem = s.mem := by unfold State.modRegion; split <;> rfl
@[simp] theorem State.modRegion_memFailed (s : State) (rk : Nat) (f : Region → Region) : (s.modRegion rk f).memFailed = s.memFailed := by unfold State.modRegion; split <;> rfl
@[simp] theorem State.modRegion_hostMem (s : State) (rk : Nat) (f : Region → Region) : (s.modRegion rk f).hostMem = s.hostMem := by unfold State.modRegion; split <;> rfl
@[simp] theorem State.modRegion_hostPages (s : State) (rk : Nat) (f : Region → Region) : (s.modRegion rk f).hostPages = s.hostPages := by unfold State.modRegion; split <;> rfl
@[simp] theorem State.modRegion_tenants (s : State) (rk : Nat) (f : Region → Region) : (s.modRegion rk f).tenants = s.tenants := by unfold State.modRegion; split <;> rfl
@[simp] theorem State.modRegion_queues (s : State) (rk : Nat) (f : Region → Region) : (s.modRegion rk f).queues = s.queues := by unfold State.modRegion; split <;> rfl
@[simp] theorem State.modRegion_jobs (s : State) (rk : Nat) (f : Region → Region) : (s.modRegion rk f).jobs = s.jobs := by unfold State.modRegion; split <;> rfl
@[simp] theorem State.modRegion_slices (s : State) (rk : Nat) (f : Region → Region) : (s.modRegion rk f).slices = s.slices := by unfold State.modRegion; split <;> rfl
@[simp] theorem State.modRegion_cores (s : State) (rk : Nat) (f : Region → Region) : (s.modRegion rk f).cores = s.cores := by unfold State.modRegion; split <;> rfl
@[simp] theorem State.modRegion_harnesses (s : State) (rk : Nat) (f : Region → Region) : (s.modRegion rk f).harnesses = s.harnesses := by unfold State.modRegion; split <;> rfl
@[simp] theorem State.modRegion_gens (s : State) (rk : Nat) (f : Region → Region) : (s.modRegion rk f).gens = s.gens := by unfold State.modRegion; split <;> rfl
@[simp] theorem State.modRegion_watches (s : State) (rk : Nat) (f : Region → Region) : (s.modRegion rk f).watches = s.watches := by unfold State.modRegion; split <;> rfl
@[simp] theorem State.modRegion_promoted (s : State) (rk : Nat) (f : Region → Region) : (s.modRegion rk f).promoted = s.promoted := by unfold State.modRegion; split <;> rfl
@[simp] theorem State.modRegion_dcache (s : State) (rk : Nat) (f : Region → Region) : (s.modRegion rk f).dcache = s.dcache := by unfold State.modRegion; split <;> rfl
@[simp] theorem State.modRegion_remotes (s : State) (rk : Nat) (f : Region → Region) : (s.modRegion rk f).remotes = s.remotes := by unfold State.modRegion; split <;> rfl
@[simp] theorem State.modRegion_batches (s : State) (rk : Nat) (f : Region → Region) : (s.modRegion rk f).batches = s.batches := by unfold State.modRegion; split <;> rfl
@[simp] theorem State.modRegion_lagging (s : State) (rk : Nat) (f : Region → Region) : (s.modRegion rk f).lagging = s.lagging := by unfold State.modRegion; split <;> rfl
@[simp] theorem State.modRegion_made (s : State) (rk : Nat) (f : Region → Region) : (s.modRegion rk f).made = s.made := by unfold State.modRegion; split <;> rfl
@[simp] theorem State.modRegion_got (s : State) (rk : Nat) (f : Region → Region) : (s.modRegion rk f).got = s.got := by unfold State.modRegion; split <;> rfl
@[simp] theorem State.modRegion_mgmt (s : State) (rk : Nat) (f : Region → Region) : (s.modRegion rk f).mgmt = s.mgmt := by unfold State.modRegion; split <;> rfl
@[simp] theorem State.modRegion_agenda (s : State) (rk : Nat) (f : Region → Region) : (s.modRegion rk f).agenda = s.agenda := by unfold State.modRegion; split <;> rfl
@[simp] theorem State.modRegion_turn (s : State) (rk : Nat) (f : Region → Region) : (s.modRegion rk f).turn = s.turn := by unfold State.modRegion; split <;> rfl
@[simp] theorem State.modRegion_cur (s : State) (rk : Nat) (f : Region → Region) : (s.modRegion rk f).cur = s.cur := by unfold State.modRegion; split <;> rfl
@[simp] theorem State.modRegion_nextId (s : State) (rk : Nat) (f : Region → Region) : (s.modRegion rk f).nextId = s.nextId := by unfold State.modRegion; split <;> rfl
@[simp] theorem State.modRegion_out (s : State) (rk : Nat) (f : Region → Region) : (s.modRegion rk f).out = s.out := by unfold State.modRegion; split <;> rfl

/-! A fresh model number. -/

@[simp] theorem State.fresh_clock (s : State)  : (s.fresh.2).clock = s.clock := rfl
@[simp] theorem State.fresh_chip (s : State)  : (s.fresh.2).chip = s.chip := rfl
@[simp] theorem State.fresh_mem (s : State)  : (s.fresh.2).mem = s.mem := rfl
@[simp] theorem State.fresh_memFailed (s : State)  : (s.fresh.2).memFailed = s.memFailed := rfl
@[simp] theorem State.fresh_hostMem (s : State)  : (s.fresh.2).hostMem = s.hostMem := rfl
@[simp] theorem State.fresh_hostPages (s : State)  : (s.fresh.2).hostPages = s.hostPages := rfl
@[simp] theorem State.fresh_tenants (s : State)  : (s.fresh.2).tenants = s.tenants := rfl
@[simp] theorem State.fresh_regions (s : State)  : (s.fresh.2).regions = s.regions := rfl
@[simp] theorem State.fresh_queues (s : State)  : (s.fresh.2).queues = s.queues := rfl
@[simp] theorem State.fresh_jobs (s : State)  : (s.fresh.2).jobs = s.jobs := rfl
@[simp] theorem State.fresh_slices (s : State)  : (s.fresh.2).slices = s.slices := rfl
@[simp] theorem State.fresh_cores (s : State)  : (s.fresh.2).cores = s.cores := rfl
@[simp] theorem State.fresh_harnesses (s : State)  : (s.fresh.2).harnesses = s.harnesses := rfl
@[simp] theorem State.fresh_gens (s : State)  : (s.fresh.2).gens = s.gens := rfl
@[simp] theorem State.fresh_watches (s : State)  : (s.fresh.2).watches = s.watches := rfl
@[simp] theorem State.fresh_promoted (s : State)  : (s.fresh.2).promoted = s.promoted := rfl
@[simp] theorem State.fresh_dcache (s : State)  : (s.fresh.2).dcache = s.dcache := rfl
@[simp] theorem State.fresh_remotes (s : State)  : (s.fresh.2).remotes = s.remotes := rfl
@[simp] theorem State.fresh_batches (s : State)  : (s.fresh.2).batches = s.batches := rfl
@[simp] theorem State.fresh_lagging (s : State)  : (s.fresh.2).lagging = s.lagging := rfl
@[simp] theorem State.fresh_made (s : State)  : (s.fresh.2).made = s.made := rfl
@[simp] theorem State.fresh_got (s : State)  : (s.fresh.2).got = s.got := rfl
@[simp] theorem State.fresh_mgmt (s : State)  : (s.fresh.2).mgmt = s.mgmt := rfl
@[simp] theorem State.fresh_agenda (s : State)  : (s.fresh.2).agenda = s.agenda := rfl
@[simp] theorem State.fresh_turn (s : State)  : (s.fresh.2).turn = s.turn := rfl
@[simp] theorem State.fresh_cur (s : State)  : (s.fresh.2).cur = s.cur := rfl
@[simp] theorem State.fresh_out (s : State)  : (s.fresh.2).out = s.out := rfl

/-! A message sent out. -/

@[simp] theorem State.emit_clock (s : State) (m : OutMsg) : (s.emit m).clock = s.clock := rfl
@[simp] theorem State.emit_chip (s : State) (m : OutMsg) : (s.emit m).chip = s.chip := rfl
@[simp] theorem State.emit_mem (s : State) (m : OutMsg) : (s.emit m).mem = s.mem := rfl
@[simp] theorem State.emit_memFailed (s : State) (m : OutMsg) : (s.emit m).memFailed = s.memFailed := rfl
@[simp] theorem State.emit_hostMem (s : State) (m : OutMsg) : (s.emit m).hostMem = s.hostMem := rfl
@[simp] theorem State.emit_hostPages (s : State) (m : OutMsg) : (s.emit m).hostPages = s.hostPages := rfl
@[simp] theorem State.emit_tenants (s : State) (m : OutMsg) : (s.emit m).tenants = s.tenants := rfl
@[simp] theorem State.emit_regions (s : State) (m : OutMsg) : (s.emit m).regions = s.regions := rfl
@[simp] theorem State.emit_queues (s : State) (m : OutMsg) : (s.emit m).queues = s.queues := rfl
@[simp] theorem State.emit_jobs (s : State) (m : OutMsg) : (s.emit m).jobs = s.jobs := rfl
@[simp] theorem State.emit_slices (s : State) (m : OutMsg) : (s.emit m).slices = s.slices := rfl
@[simp] theorem State.emit_cores (s : State) (m : OutMsg) : (s.emit m).cores = s.cores := rfl
@[simp] theorem State.emit_harnesses (s : State) (m : OutMsg) : (s.emit m).harnesses = s.harnesses := rfl
@[simp] theorem State.emit_gens (s : State) (m : OutMsg) : (s.emit m).gens = s.gens := rfl
@[simp] theorem State.emit_watches (s : State) (m : OutMsg) : (s.emit m).watches = s.watches := rfl
@[simp] theorem State.emit_promoted (s : State) (m : OutMsg) : (s.emit m).promoted = s.promoted := rfl
@[simp] theorem State.emit_dcache (s : State) (m : OutMsg) : (s.emit m).dcache = s.dcache := rfl
@[simp] theorem State.emit_remotes (s : State) (m : OutMsg) : (s.emit m).remotes = s.remotes := rfl
@[simp] theorem State.emit_batches (s : State) (m : OutMsg) : (s.emit m).batches = s.batches := rfl
@[simp] theorem State.emit_lagging (s : State) (m : OutMsg) : (s.emit m).lagging = s.lagging := rfl
@[simp] theorem State.emit_made (s : State) (m : OutMsg) : (s.emit m).made = s.made := rfl
@[simp] theorem State.emit_got (s : State) (m : OutMsg) : (s.emit m).got = s.got := rfl
@[simp] theorem State.emit_mgmt (s : State) (m : OutMsg) : (s.emit m).mgmt = s.mgmt := rfl
@[simp] theorem State.emit_agenda (s : State) (m : OutMsg) : (s.emit m).agenda = s.agenda := rfl
@[simp] theorem State.emit_turn (s : State) (m : OutMsg) : (s.emit m).turn = s.turn := rfl
@[simp] theorem State.emit_cur (s : State) (m : OutMsg) : (s.emit m).cur = s.cur := rfl
@[simp] theorem State.emit_nextId (s : State) (m : OutMsg) : (s.emit m).nextId = s.nextId := rfl

/-! A counter raised. -/

@[simp] theorem State.count_clock (s : State) (core rk : Nat) (c : Counter) (n : Nat) : (s.count core rk c n).clock = s.clock := by unfold State.count; split <;> simp
@[simp] theorem State.count_chip (s : State) (core rk : Nat) (c : Counter) (n : Nat) : (s.count core rk c n).chip = s.chip := by unfold State.count; split <;> simp
@[simp] theorem State.count_mem (s : State) (core rk : Nat) (c : Counter) (n : Nat) : (s.count core rk c n).mem = s.mem := by unfold State.count; split <;> simp
@[simp] theorem State.count_memFailed (s : State) (core rk : Nat) (c : Counter) (n : Nat) : (s.count core rk c n).memFailed = s.memFailed := by unfold State.count; split <;> simp
@[simp] theorem State.count_hostMem (s : State) (core rk : Nat) (c : Counter) (n : Nat) : (s.count core rk c n).hostMem = s.hostMem := by unfold State.count; split <;> simp
@[simp] theorem State.count_hostPages (s : State) (core rk : Nat) (c : Counter) (n : Nat) : (s.count core rk c n).hostPages = s.hostPages := by unfold State.count; split <;> simp
@[simp] theorem State.count_tenants (s : State) (core rk : Nat) (c : Counter) (n : Nat) : (s.count core rk c n).tenants = s.tenants := by unfold State.count; split <;> simp
@[simp] theorem State.count_regions (s : State) (core rk : Nat) (c : Counter) (n : Nat) : (s.count core rk c n).regions = s.regions := by unfold State.count; split <;> simp
@[simp] theorem State.count_queues (s : State) (core rk : Nat) (c : Counter) (n : Nat) : (s.count core rk c n).queues = s.queues := by unfold State.count; split <;> simp
@[simp] theorem State.count_jobs (s : State) (core rk : Nat) (c : Counter) (n : Nat) : (s.count core rk c n).jobs = s.jobs := by unfold State.count; split <;> simp
@[simp] theorem State.count_slices (s : State) (core rk : Nat) (c : Counter) (n : Nat) : (s.count core rk c n).slices = s.slices := by unfold State.count; split <;> simp
@[simp] theorem State.count_harnesses (s : State) (core rk : Nat) (c : Counter) (n : Nat) : (s.count core rk c n).harnesses = s.harnesses := by unfold State.count; split <;> simp
@[simp] theorem State.count_gens (s : State) (core rk : Nat) (c : Counter) (n : Nat) : (s.count core rk c n).gens = s.gens := by unfold State.count; split <;> simp
@[simp] theorem State.count_watches (s : State) (core rk : Nat) (c : Counter) (n : Nat) : (s.count core rk c n).watches = s.watches := by unfold State.count; split <;> simp
@[simp] theorem State.count_promoted (s : State) (core rk : Nat) (c : Counter) (n : Nat) : (s.count core rk c n).promoted = s.promoted := by unfold State.count; split <;> simp
@[simp] theorem State.count_dcache (s : State) (core rk : Nat) (c : Counter) (n : Nat) : (s.count core rk c n).dcache = s.dcache := by unfold State.count; split <;> simp
@[simp] theorem State.count_remotes (s : State) (core rk : Nat) (c : Counter) (n : Nat) : (s.count core rk c n).remotes = s.remotes := by unfold State.count; split <;> simp
@[simp] theorem State.count_batches (s : State) (core rk : Nat) (c : Counter) (n : Nat) : (s.count core rk c n).batches = s.batches := by unfold State.count; split <;> simp
@[simp] theorem State.count_lagging (s : State) (core rk : Nat) (c : Counter) (n : Nat) : (s.count core rk c n).lagging = s.lagging := by unfold State.count; split <;> simp
@[simp] theorem State.count_made (s : State) (core rk : Nat) (c : Counter) (n : Nat) : (s.count core rk c n).made = s.made := by unfold State.count; split <;> simp
@[simp] theorem State.count_got (s : State) (core rk : Nat) (c : Counter) (n : Nat) : (s.count core rk c n).got = s.got := by unfold State.count; split <;> simp
@[simp] theorem State.count_mgmt (s : State) (core rk : Nat) (c : Counter) (n : Nat) : (s.count core rk c n).mgmt = s.mgmt := by unfold State.count; split <;> simp
@[simp] theorem State.count_agenda (s : State) (core rk : Nat) (c : Counter) (n : Nat) : (s.count core rk c n).agenda = s.agenda := by unfold State.count; split <;> simp
@[simp] theorem State.count_turn (s : State) (core rk : Nat) (c : Counter) (n : Nat) : (s.count core rk c n).turn = s.turn := by unfold State.count; split <;> simp
@[simp] theorem State.count_cur (s : State) (core rk : Nat) (c : Counter) (n : Nat) : (s.count core rk c n).cur = s.cur := by unfold State.count; split <;> simp
@[simp] theorem State.count_nextId (s : State) (core rk : Nat) (c : Counter) (n : Nat) : (s.count core rk c n).nextId = s.nextId := by unfold State.count; split <;> simp
@[simp] theorem State.count_out (s : State) (core rk : Nat) (c : Counter) (n : Nat) : (s.count core rk c n).out = s.out := by unfold State.count; split <;> simp

/-! A pending result added. -/

@[simp] theorem State.addInflight_clock (s : State) (r : StrandRef) (f : Inflight) : (s.addInflight r f).clock = s.clock := by simp [State.addInflight]
@[simp] theorem State.addInflight_chip (s : State) (r : StrandRef) (f : Inflight) : (s.addInflight r f).chip = s.chip := by simp [State.addInflight]
@[simp] theorem State.addInflight_mem (s : State) (r : StrandRef) (f : Inflight) : (s.addInflight r f).mem = s.mem := by simp [State.addInflight]
@[simp] theorem State.addInflight_memFailed (s : State) (r : StrandRef) (f : Inflight) : (s.addInflight r f).memFailed = s.memFailed := by simp [State.addInflight]
@[simp] theorem State.addInflight_hostMem (s : State) (r : StrandRef) (f : Inflight) : (s.addInflight r f).hostMem = s.hostMem := by simp [State.addInflight]
@[simp] theorem State.addInflight_hostPages (s : State) (r : StrandRef) (f : Inflight) : (s.addInflight r f).hostPages = s.hostPages := by simp [State.addInflight]
@[simp] theorem State.addInflight_tenants (s : State) (r : StrandRef) (f : Inflight) : (s.addInflight r f).tenants = s.tenants := by simp [State.addInflight]
@[simp] theorem State.addInflight_regions (s : State) (r : StrandRef) (f : Inflight) : (s.addInflight r f).regions = s.regions := by simp [State.addInflight]
@[simp] theorem State.addInflight_queues (s : State) (r : StrandRef) (f : Inflight) : (s.addInflight r f).queues = s.queues := by simp [State.addInflight]
@[simp] theorem State.addInflight_jobs (s : State) (r : StrandRef) (f : Inflight) : (s.addInflight r f).jobs = s.jobs := by simp [State.addInflight]
@[simp] theorem State.addInflight_cores (s : State) (r : StrandRef) (f : Inflight) : (s.addInflight r f).cores = s.cores := by simp [State.addInflight]
@[simp] theorem State.addInflight_harnesses (s : State) (r : StrandRef) (f : Inflight) : (s.addInflight r f).harnesses = s.harnesses := by simp [State.addInflight]
@[simp] theorem State.addInflight_gens (s : State) (r : StrandRef) (f : Inflight) : (s.addInflight r f).gens = s.gens := by simp [State.addInflight]
@[simp] theorem State.addInflight_watches (s : State) (r : StrandRef) (f : Inflight) : (s.addInflight r f).watches = s.watches := by simp [State.addInflight]
@[simp] theorem State.addInflight_promoted (s : State) (r : StrandRef) (f : Inflight) : (s.addInflight r f).promoted = s.promoted := by simp [State.addInflight]
@[simp] theorem State.addInflight_dcache (s : State) (r : StrandRef) (f : Inflight) : (s.addInflight r f).dcache = s.dcache := by simp [State.addInflight]
@[simp] theorem State.addInflight_remotes (s : State) (r : StrandRef) (f : Inflight) : (s.addInflight r f).remotes = s.remotes := by simp [State.addInflight]
@[simp] theorem State.addInflight_batches (s : State) (r : StrandRef) (f : Inflight) : (s.addInflight r f).batches = s.batches := by simp [State.addInflight]
@[simp] theorem State.addInflight_lagging (s : State) (r : StrandRef) (f : Inflight) : (s.addInflight r f).lagging = s.lagging := by simp [State.addInflight]
@[simp] theorem State.addInflight_made (s : State) (r : StrandRef) (f : Inflight) : (s.addInflight r f).made = s.made := by simp [State.addInflight]
@[simp] theorem State.addInflight_got (s : State) (r : StrandRef) (f : Inflight) : (s.addInflight r f).got = s.got := by simp [State.addInflight]
@[simp] theorem State.addInflight_mgmt (s : State) (r : StrandRef) (f : Inflight) : (s.addInflight r f).mgmt = s.mgmt := by simp [State.addInflight]
@[simp] theorem State.addInflight_agenda (s : State) (r : StrandRef) (f : Inflight) : (s.addInflight r f).agenda = s.agenda := by simp [State.addInflight]
@[simp] theorem State.addInflight_turn (s : State) (r : StrandRef) (f : Inflight) : (s.addInflight r f).turn = s.turn := by simp [State.addInflight]
@[simp] theorem State.addInflight_cur (s : State) (r : StrandRef) (f : Inflight) : (s.addInflight r f).cur = s.cur := by simp [State.addInflight]
@[simp] theorem State.addInflight_nextId (s : State) (r : StrandRef) (f : Inflight) : (s.addInflight r f).nextId = s.nextId := by simp [State.addInflight]
@[simp] theorem State.addInflight_out (s : State) (r : StrandRef) (f : Inflight) : (s.addInflight r f).out = s.out := by simp [State.addInflight]

/-! A pending result written. -/

@[simp] theorem State.complete_clock (s : State) (sid gi id : Nat) (w : List RegWr) : (s.complete sid gi id w).clock = s.clock := by simp [State.complete]
@[simp] theorem State.complete_chip (s : State) (sid gi id : Nat) (w : List RegWr) : (s.complete sid gi id w).chip = s.chip := by simp [State.complete]
@[simp] theorem State.complete_mem (s : State) (sid gi id : Nat) (w : List RegWr) : (s.complete sid gi id w).mem = s.mem := by simp [State.complete]
@[simp] theorem State.complete_memFailed (s : State) (sid gi id : Nat) (w : List RegWr) : (s.complete sid gi id w).memFailed = s.memFailed := by simp [State.complete]
@[simp] theorem State.complete_hostMem (s : State) (sid gi id : Nat) (w : List RegWr) : (s.complete sid gi id w).hostMem = s.hostMem := by simp [State.complete]
@[simp] theorem State.complete_hostPages (s : State) (sid gi id : Nat) (w : List RegWr) : (s.complete sid gi id w).hostPages = s.hostPages := by simp [State.complete]
@[simp] theorem State.complete_tenants (s : State) (sid gi id : Nat) (w : List RegWr) : (s.complete sid gi id w).tenants = s.tenants := by simp [State.complete]
@[simp] theorem State.complete_regions (s : State) (sid gi id : Nat) (w : List RegWr) : (s.complete sid gi id w).regions = s.regions := by simp [State.complete]
@[simp] theorem State.complete_queues (s : State) (sid gi id : Nat) (w : List RegWr) : (s.complete sid gi id w).queues = s.queues := by simp [State.complete]
@[simp] theorem State.complete_jobs (s : State) (sid gi id : Nat) (w : List RegWr) : (s.complete sid gi id w).jobs = s.jobs := by simp [State.complete]
@[simp] theorem State.complete_cores (s : State) (sid gi id : Nat) (w : List RegWr) : (s.complete sid gi id w).cores = s.cores := by simp [State.complete]
@[simp] theorem State.complete_harnesses (s : State) (sid gi id : Nat) (w : List RegWr) : (s.complete sid gi id w).harnesses = s.harnesses := by simp [State.complete]
@[simp] theorem State.complete_gens (s : State) (sid gi id : Nat) (w : List RegWr) : (s.complete sid gi id w).gens = s.gens := by simp [State.complete]
@[simp] theorem State.complete_watches (s : State) (sid gi id : Nat) (w : List RegWr) : (s.complete sid gi id w).watches = s.watches := by simp [State.complete]
@[simp] theorem State.complete_promoted (s : State) (sid gi id : Nat) (w : List RegWr) : (s.complete sid gi id w).promoted = s.promoted := by simp [State.complete]
@[simp] theorem State.complete_dcache (s : State) (sid gi id : Nat) (w : List RegWr) : (s.complete sid gi id w).dcache = s.dcache := by simp [State.complete]
@[simp] theorem State.complete_remotes (s : State) (sid gi id : Nat) (w : List RegWr) : (s.complete sid gi id w).remotes = s.remotes := by simp [State.complete]
@[simp] theorem State.complete_batches (s : State) (sid gi id : Nat) (w : List RegWr) : (s.complete sid gi id w).batches = s.batches := by simp [State.complete]
@[simp] theorem State.complete_lagging (s : State) (sid gi id : Nat) (w : List RegWr) : (s.complete sid gi id w).lagging = s.lagging := by simp [State.complete]
@[simp] theorem State.complete_made (s : State) (sid gi id : Nat) (w : List RegWr) : (s.complete sid gi id w).made = s.made := by simp [State.complete]
@[simp] theorem State.complete_got (s : State) (sid gi id : Nat) (w : List RegWr) : (s.complete sid gi id w).got = s.got := by simp [State.complete]
@[simp] theorem State.complete_mgmt (s : State) (sid gi id : Nat) (w : List RegWr) : (s.complete sid gi id w).mgmt = s.mgmt := by simp [State.complete]
@[simp] theorem State.complete_agenda (s : State) (sid gi id : Nat) (w : List RegWr) : (s.complete sid gi id w).agenda = s.agenda := by simp [State.complete]
@[simp] theorem State.complete_turn (s : State) (sid gi id : Nat) (w : List RegWr) : (s.complete sid gi id w).turn = s.turn := by simp [State.complete]
@[simp] theorem State.complete_cur (s : State) (sid gi id : Nat) (w : List RegWr) : (s.complete sid gi id w).cur = s.cur := by simp [State.complete]
@[simp] theorem State.complete_nextId (s : State) (sid gi id : Nat) (w : List RegWr) : (s.complete sid gi id w).nextId = s.nextId := by simp [State.complete]
@[simp] theorem State.complete_out (s : State) (sid gi id : Nat) (w : List RegWr) : (s.complete sid gi id w).out = s.out := by simp [State.complete]

/-! Fixed-latency results added. -/

@[simp] theorem State.addFixed_clock (s : State) (r : StrandRef) (l : List Fixed) : (s.addFixed r l).clock = s.clock := by simp [State.addFixed]
@[simp] theorem State.addFixed_chip (s : State) (r : StrandRef) (l : List Fixed) : (s.addFixed r l).chip = s.chip := by simp [State.addFixed]
@[simp] theorem State.addFixed_mem (s : State) (r : StrandRef) (l : List Fixed) : (s.addFixed r l).mem = s.mem := by simp [State.addFixed]
@[simp] theorem State.addFixed_memFailed (s : State) (r : StrandRef) (l : List Fixed) : (s.addFixed r l).memFailed = s.memFailed := by simp [State.addFixed]
@[simp] theorem State.addFixed_hostMem (s : State) (r : StrandRef) (l : List Fixed) : (s.addFixed r l).hostMem = s.hostMem := by simp [State.addFixed]
@[simp] theorem State.addFixed_hostPages (s : State) (r : StrandRef) (l : List Fixed) : (s.addFixed r l).hostPages = s.hostPages := by simp [State.addFixed]
@[simp] theorem State.addFixed_tenants (s : State) (r : StrandRef) (l : List Fixed) : (s.addFixed r l).tenants = s.tenants := by simp [State.addFixed]
@[simp] theorem State.addFixed_regions (s : State) (r : StrandRef) (l : List Fixed) : (s.addFixed r l).regions = s.regions := by simp [State.addFixed]
@[simp] theorem State.addFixed_queues (s : State) (r : StrandRef) (l : List Fixed) : (s.addFixed r l).queues = s.queues := by simp [State.addFixed]
@[simp] theorem State.addFixed_jobs (s : State) (r : StrandRef) (l : List Fixed) : (s.addFixed r l).jobs = s.jobs := by simp [State.addFixed]
@[simp] theorem State.addFixed_cores (s : State) (r : StrandRef) (l : List Fixed) : (s.addFixed r l).cores = s.cores := by simp [State.addFixed]
@[simp] theorem State.addFixed_harnesses (s : State) (r : StrandRef) (l : List Fixed) : (s.addFixed r l).harnesses = s.harnesses := by simp [State.addFixed]
@[simp] theorem State.addFixed_gens (s : State) (r : StrandRef) (l : List Fixed) : (s.addFixed r l).gens = s.gens := by simp [State.addFixed]
@[simp] theorem State.addFixed_watches (s : State) (r : StrandRef) (l : List Fixed) : (s.addFixed r l).watches = s.watches := by simp [State.addFixed]
@[simp] theorem State.addFixed_promoted (s : State) (r : StrandRef) (l : List Fixed) : (s.addFixed r l).promoted = s.promoted := by simp [State.addFixed]
@[simp] theorem State.addFixed_dcache (s : State) (r : StrandRef) (l : List Fixed) : (s.addFixed r l).dcache = s.dcache := by simp [State.addFixed]
@[simp] theorem State.addFixed_remotes (s : State) (r : StrandRef) (l : List Fixed) : (s.addFixed r l).remotes = s.remotes := by simp [State.addFixed]
@[simp] theorem State.addFixed_batches (s : State) (r : StrandRef) (l : List Fixed) : (s.addFixed r l).batches = s.batches := by simp [State.addFixed]
@[simp] theorem State.addFixed_lagging (s : State) (r : StrandRef) (l : List Fixed) : (s.addFixed r l).lagging = s.lagging := by simp [State.addFixed]
@[simp] theorem State.addFixed_made (s : State) (r : StrandRef) (l : List Fixed) : (s.addFixed r l).made = s.made := by simp [State.addFixed]
@[simp] theorem State.addFixed_got (s : State) (r : StrandRef) (l : List Fixed) : (s.addFixed r l).got = s.got := by simp [State.addFixed]
@[simp] theorem State.addFixed_mgmt (s : State) (r : StrandRef) (l : List Fixed) : (s.addFixed r l).mgmt = s.mgmt := by simp [State.addFixed]
@[simp] theorem State.addFixed_agenda (s : State) (r : StrandRef) (l : List Fixed) : (s.addFixed r l).agenda = s.agenda := by simp [State.addFixed]
@[simp] theorem State.addFixed_turn (s : State) (r : StrandRef) (l : List Fixed) : (s.addFixed r l).turn = s.turn := by simp [State.addFixed]
@[simp] theorem State.addFixed_cur (s : State) (r : StrandRef) (l : List Fixed) : (s.addFixed r l).cur = s.cur := by simp [State.addFixed]
@[simp] theorem State.addFixed_nextId (s : State) (r : StrandRef) (l : List Fixed) : (s.addFixed r l).nextId = s.nextId := by simp [State.addFixed]
@[simp] theorem State.addFixed_out (s : State) (r : StrandRef) (l : List Fixed) : (s.addFixed r l).out = s.out := by simp [State.addFixed]

/-! A trap record that waits to be pushed. -/

@[simp] theorem State.queueRecord_clock (s : State) (rk : Nat) (t : TrapRec) : (s.queueRecord rk t).clock = s.clock := by simp [State.queueRecord]
@[simp] theorem State.queueRecord_chip (s : State) (rk : Nat) (t : TrapRec) : (s.queueRecord rk t).chip = s.chip := by simp [State.queueRecord]
@[simp] theorem State.queueRecord_mem (s : State) (rk : Nat) (t : TrapRec) : (s.queueRecord rk t).mem = s.mem := by simp [State.queueRecord]
@[simp] theorem State.queueRecord_memFailed (s : State) (rk : Nat) (t : TrapRec) : (s.queueRecord rk t).memFailed = s.memFailed := by simp [State.queueRecord]
@[simp] theorem State.queueRecord_hostMem (s : State) (rk : Nat) (t : TrapRec) : (s.queueRecord rk t).hostMem = s.hostMem := by simp [State.queueRecord]
@[simp] theorem State.queueRecord_hostPages (s : State) (rk : Nat) (t : TrapRec) : (s.queueRecord rk t).hostPages = s.hostPages := by simp [State.queueRecord]
@[simp] theorem State.queueRecord_tenants (s : State) (rk : Nat) (t : TrapRec) : (s.queueRecord rk t).tenants = s.tenants := by simp [State.queueRecord]
@[simp] theorem State.queueRecord_queues (s : State) (rk : Nat) (t : TrapRec) : (s.queueRecord rk t).queues = s.queues := by simp [State.queueRecord]
@[simp] theorem State.queueRecord_jobs (s : State) (rk : Nat) (t : TrapRec) : (s.queueRecord rk t).jobs = s.jobs := by simp [State.queueRecord]
@[simp] theorem State.queueRecord_slices (s : State) (rk : Nat) (t : TrapRec) : (s.queueRecord rk t).slices = s.slices := by simp [State.queueRecord]
@[simp] theorem State.queueRecord_cores (s : State) (rk : Nat) (t : TrapRec) : (s.queueRecord rk t).cores = s.cores := by simp [State.queueRecord]
@[simp] theorem State.queueRecord_harnesses (s : State) (rk : Nat) (t : TrapRec) : (s.queueRecord rk t).harnesses = s.harnesses := by simp [State.queueRecord]
@[simp] theorem State.queueRecord_gens (s : State) (rk : Nat) (t : TrapRec) : (s.queueRecord rk t).gens = s.gens := by simp [State.queueRecord]
@[simp] theorem State.queueRecord_watches (s : State) (rk : Nat) (t : TrapRec) : (s.queueRecord rk t).watches = s.watches := by simp [State.queueRecord]
@[simp] theorem State.queueRecord_promoted (s : State) (rk : Nat) (t : TrapRec) : (s.queueRecord rk t).promoted = s.promoted := by simp [State.queueRecord]
@[simp] theorem State.queueRecord_dcache (s : State) (rk : Nat) (t : TrapRec) : (s.queueRecord rk t).dcache = s.dcache := by simp [State.queueRecord]
@[simp] theorem State.queueRecord_remotes (s : State) (rk : Nat) (t : TrapRec) : (s.queueRecord rk t).remotes = s.remotes := by simp [State.queueRecord]
@[simp] theorem State.queueRecord_batches (s : State) (rk : Nat) (t : TrapRec) : (s.queueRecord rk t).batches = s.batches := by simp [State.queueRecord]
@[simp] theorem State.queueRecord_lagging (s : State) (rk : Nat) (t : TrapRec) : (s.queueRecord rk t).lagging = s.lagging := by simp [State.queueRecord]
@[simp] theorem State.queueRecord_made (s : State) (rk : Nat) (t : TrapRec) : (s.queueRecord rk t).made = s.made := by simp [State.queueRecord]
@[simp] theorem State.queueRecord_got (s : State) (rk : Nat) (t : TrapRec) : (s.queueRecord rk t).got = s.got := by simp [State.queueRecord]
@[simp] theorem State.queueRecord_mgmt (s : State) (rk : Nat) (t : TrapRec) : (s.queueRecord rk t).mgmt = s.mgmt := by simp [State.queueRecord]
@[simp] theorem State.queueRecord_agenda (s : State) (rk : Nat) (t : TrapRec) : (s.queueRecord rk t).agenda = s.agenda := by simp [State.queueRecord]
@[simp] theorem State.queueRecord_turn (s : State) (rk : Nat) (t : TrapRec) : (s.queueRecord rk t).turn = s.turn := by simp [State.queueRecord]
@[simp] theorem State.queueRecord_cur (s : State) (rk : Nat) (t : TrapRec) : (s.queueRecord rk t).cur = s.cur := by simp [State.queueRecord]
@[simp] theorem State.queueRecord_nextId (s : State) (rk : Nat) (t : TrapRec) : (s.queueRecord rk t).nextId = s.nextId := by simp [State.queueRecord]
@[simp] theorem State.queueRecord_out (s : State) (rk : Nat) (t : TrapRec) : (s.queueRecord rk t).out = s.out := by simp [State.queueRecord]

/-! A run that ends. -/

@[simp] theorem State.endRun_clock (s : State) (r : StrandRef) : (s.endRun r).clock = s.clock := by unfold State.endRun; split <;> (try rfl); split <;> simp
@[simp] theorem State.endRun_chip (s : State) (r : StrandRef) : (s.endRun r).chip = s.chip := by unfold State.endRun; split <;> (try rfl); split <;> simp
@[simp] theorem State.endRun_mem (s : State) (r : StrandRef) : (s.endRun r).mem = s.mem := by unfold State.endRun; split <;> (try rfl); split <;> simp
@[simp] theorem State.endRun_memFailed (s : State) (r : StrandRef) : (s.endRun r).memFailed = s.memFailed := by unfold State.endRun; split <;> (try rfl); split <;> simp
@[simp] theorem State.endRun_hostMem (s : State) (r : StrandRef) : (s.endRun r).hostMem = s.hostMem := by unfold State.endRun; split <;> (try rfl); split <;> simp
@[simp] theorem State.endRun_hostPages (s : State) (r : StrandRef) : (s.endRun r).hostPages = s.hostPages := by unfold State.endRun; split <;> (try rfl); split <;> simp
@[simp] theorem State.endRun_tenants (s : State) (r : StrandRef) : (s.endRun r).tenants = s.tenants := by unfold State.endRun; split <;> (try rfl); split <;> simp
@[simp] theorem State.endRun_regions (s : State) (r : StrandRef) : (s.endRun r).regions = s.regions := by unfold State.endRun; split <;> (try rfl); split <;> simp
@[simp] theorem State.endRun_queues (s : State) (r : StrandRef) : (s.endRun r).queues = s.queues := by unfold State.endRun; split <;> (try rfl); split <;> simp
@[simp] theorem State.endRun_jobs (s : State) (r : StrandRef) : (s.endRun r).jobs = s.jobs := by unfold State.endRun; split <;> (try rfl); split <;> simp
@[simp] theorem State.endRun_harnesses (s : State) (r : StrandRef) : (s.endRun r).harnesses = s.harnesses := by unfold State.endRun; split <;> (try rfl); split <;> simp
@[simp] theorem State.endRun_gens (s : State) (r : StrandRef) : (s.endRun r).gens = s.gens := by unfold State.endRun; split <;> (try rfl); split <;> simp
@[simp] theorem State.endRun_watches (s : State) (r : StrandRef) : (s.endRun r).watches = s.watches := by unfold State.endRun; split <;> (try rfl); split <;> simp
@[simp] theorem State.endRun_promoted (s : State) (r : StrandRef) : (s.endRun r).promoted = s.promoted := by unfold State.endRun; split <;> (try rfl); split <;> simp
@[simp] theorem State.endRun_dcache (s : State) (r : StrandRef) : (s.endRun r).dcache = s.dcache := by unfold State.endRun; split <;> (try rfl); split <;> simp
@[simp] theorem State.endRun_remotes (s : State) (r : StrandRef) : (s.endRun r).remotes = s.remotes := by unfold State.endRun; split <;> (try rfl); split <;> simp
@[simp] theorem State.endRun_batches (s : State) (r : StrandRef) : (s.endRun r).batches = s.batches := by unfold State.endRun; split <;> (try rfl); split <;> simp
@[simp] theorem State.endRun_lagging (s : State) (r : StrandRef) : (s.endRun r).lagging = s.lagging := by unfold State.endRun; split <;> (try rfl); split <;> simp
@[simp] theorem State.endRun_made (s : State) (r : StrandRef) : (s.endRun r).made = s.made := by unfold State.endRun; split <;> (try rfl); split <;> simp
@[simp] theorem State.endRun_got (s : State) (r : StrandRef) : (s.endRun r).got = s.got := by unfold State.endRun; split <;> (try rfl); split <;> simp
@[simp] theorem State.endRun_mgmt (s : State) (r : StrandRef) : (s.endRun r).mgmt = s.mgmt := by unfold State.endRun; split <;> (try rfl); split <;> simp
@[simp] theorem State.endRun_agenda (s : State) (r : StrandRef) : (s.endRun r).agenda = s.agenda := by unfold State.endRun; split <;> (try rfl); split <;> simp
@[simp] theorem State.endRun_turn (s : State) (r : StrandRef) : (s.endRun r).turn = s.turn := by unfold State.endRun; split <;> (try rfl); split <;> simp
@[simp] theorem State.endRun_cur (s : State) (r : StrandRef) : (s.endRun r).cur = s.cur := by unfold State.endRun; split <;> (try rfl); split <;> simp
@[simp] theorem State.endRun_nextId (s : State) (r : StrandRef) : (s.endRun r).nextId = s.nextId := by unfold State.endRun; split <;> (try rfl); split <;> simp
@[simp] theorem State.endRun_out (s : State) (r : StrandRef) : (s.endRun r).out = s.out := by unfold State.endRun; split <;> (try rfl); split <;> simp

/-! A strand that leaves Ready. -/

@[simp] theorem State.putWait_clock (s : State) (r : StrandRef) (w : SState) : (s.putWait r w).clock = s.clock := by simp [State.putWait]
@[simp] theorem State.putWait_chip (s : State) (r : StrandRef) (w : SState) : (s.putWait r w).chip = s.chip := by simp [State.putWait]
@[simp] theorem State.putWait_mem (s : State) (r : StrandRef) (w : SState) : (s.putWait r w).mem = s.mem := by simp [State.putWait]
@[simp] theorem State.putWait_memFailed (s : State) (r : StrandRef) (w : SState) : (s.putWait r w).memFailed = s.memFailed := by simp [State.putWait]
@[simp] theorem State.putWait_hostMem (s : State) (r : StrandRef) (w : SState) : (s.putWait r w).hostMem = s.hostMem := by simp [State.putWait]
@[simp] theorem State.putWait_hostPages (s : State) (r : StrandRef) (w : SState) : (s.putWait r w).hostPages = s.hostPages := by simp [State.putWait]
@[simp] theorem State.putWait_tenants (s : State) (r : StrandRef) (w : SState) : (s.putWait r w).tenants = s.tenants := by simp [State.putWait]
@[simp] theorem State.putWait_regions (s : State) (r : StrandRef) (w : SState) : (s.putWait r w).regions = s.regions := by simp [State.putWait]
@[simp] theorem State.putWait_queues (s : State) (r : StrandRef) (w : SState) : (s.putWait r w).queues = s.queues := by simp [State.putWait]
@[simp] theorem State.putWait_jobs (s : State) (r : StrandRef) (w : SState) : (s.putWait r w).jobs = s.jobs := by simp [State.putWait]
@[simp] theorem State.putWait_harnesses (s : State) (r : StrandRef) (w : SState) : (s.putWait r w).harnesses = s.harnesses := by simp [State.putWait]
@[simp] theorem State.putWait_gens (s : State) (r : StrandRef) (w : SState) : (s.putWait r w).gens = s.gens := by simp [State.putWait]
@[simp] theorem State.putWait_watches (s : State) (r : StrandRef) (w : SState) : (s.putWait r w).watches = s.watches := by simp [State.putWait]
@[simp] theorem State.putWait_promoted (s : State) (r : StrandRef) (w : SState) : (s.putWait r w).promoted = s.promoted := by simp [State.putWait]
@[simp] theorem State.putWait_dcache (s : State) (r : StrandRef) (w : SState) : (s.putWait r w).dcache = s.dcache := by simp [State.putWait]
@[simp] theorem State.putWait_remotes (s : State) (r : StrandRef) (w : SState) : (s.putWait r w).remotes = s.remotes := by simp [State.putWait]
@[simp] theorem State.putWait_batches (s : State) (r : StrandRef) (w : SState) : (s.putWait r w).batches = s.batches := by simp [State.putWait]
@[simp] theorem State.putWait_lagging (s : State) (r : StrandRef) (w : SState) : (s.putWait r w).lagging = s.lagging := by simp [State.putWait]
@[simp] theorem State.putWait_made (s : State) (r : StrandRef) (w : SState) : (s.putWait r w).made = s.made := by simp [State.putWait]
@[simp] theorem State.putWait_got (s : State) (r : StrandRef) (w : SState) : (s.putWait r w).got = s.got := by simp [State.putWait]
@[simp] theorem State.putWait_mgmt (s : State) (r : StrandRef) (w : SState) : (s.putWait r w).mgmt = s.mgmt := by simp [State.putWait]
@[simp] theorem State.putWait_agenda (s : State) (r : StrandRef) (w : SState) : (s.putWait r w).agenda = s.agenda := by simp [State.putWait]
@[simp] theorem State.putWait_turn (s : State) (r : StrandRef) (w : SState) : (s.putWait r w).turn = s.turn := by simp [State.putWait]
@[simp] theorem State.putWait_cur (s : State) (r : StrandRef) (w : SState) : (s.putWait r w).cur = s.cur := by simp [State.putWait]
@[simp] theorem State.putWait_nextId (s : State) (r : StrandRef) (w : SState) : (s.putWait r w).nextId = s.nextId := by simp [State.putWait]
@[simp] theorem State.putWait_out (s : State) (r : StrandRef) (w : SState) : (s.putWait r w).out = s.out := by simp [State.putWait]

/-! A trap taken. -/

@[simp] theorem State.takeTrap_clock (s : State) (r : StrandRef) (a b c d e : Nat) (x : Bool) : (s.takeTrap r a b c d e x).clock = s.clock := by unfold State.takeTrap; split <;> (try rfl); split <;> simp
@[simp] theorem State.takeTrap_chip (s : State) (r : StrandRef) (a b c d e : Nat) (x : Bool) : (s.takeTrap r a b c d e x).chip = s.chip := by unfold State.takeTrap; split <;> (try rfl); split <;> simp
@[simp] theorem State.takeTrap_mem (s : State) (r : StrandRef) (a b c d e : Nat) (x : Bool) : (s.takeTrap r a b c d e x).mem = s.mem := by unfold State.takeTrap; split <;> (try rfl); split <;> simp
@[simp] theorem State.takeTrap_memFailed (s : State) (r : StrandRef) (a b c d e : Nat) (x : Bool) : (s.takeTrap r a b c d e x).memFailed = s.memFailed := by unfold State.takeTrap; split <;> (try rfl); split <;> simp
@[simp] theorem State.takeTrap_hostMem (s : State) (r : StrandRef) (a b c d e : Nat) (x : Bool) : (s.takeTrap r a b c d e x).hostMem = s.hostMem := by unfold State.takeTrap; split <;> (try rfl); split <;> simp
@[simp] theorem State.takeTrap_hostPages (s : State) (r : StrandRef) (a b c d e : Nat) (x : Bool) : (s.takeTrap r a b c d e x).hostPages = s.hostPages := by unfold State.takeTrap; split <;> (try rfl); split <;> simp
@[simp] theorem State.takeTrap_tenants (s : State) (r : StrandRef) (a b c d e : Nat) (x : Bool) : (s.takeTrap r a b c d e x).tenants = s.tenants := by unfold State.takeTrap; split <;> (try rfl); split <;> simp
@[simp] theorem State.takeTrap_queues (s : State) (r : StrandRef) (a b c d e : Nat) (x : Bool) : (s.takeTrap r a b c d e x).queues = s.queues := by unfold State.takeTrap; split <;> (try rfl); split <;> simp
@[simp] theorem State.takeTrap_jobs (s : State) (r : StrandRef) (a b c d e : Nat) (x : Bool) : (s.takeTrap r a b c d e x).jobs = s.jobs := by unfold State.takeTrap; split <;> (try rfl); split <;> simp
@[simp] theorem State.takeTrap_harnesses (s : State) (r : StrandRef) (a b c d e : Nat) (x : Bool) : (s.takeTrap r a b c d e x).harnesses = s.harnesses := by unfold State.takeTrap; split <;> (try rfl); split <;> simp
@[simp] theorem State.takeTrap_gens (s : State) (r : StrandRef) (a b c d e : Nat) (x : Bool) : (s.takeTrap r a b c d e x).gens = s.gens := by unfold State.takeTrap; split <;> (try rfl); split <;> simp
@[simp] theorem State.takeTrap_watches (s : State) (r : StrandRef) (a b c d e : Nat) (x : Bool) : (s.takeTrap r a b c d e x).watches = s.watches := by unfold State.takeTrap; split <;> (try rfl); split <;> simp
@[simp] theorem State.takeTrap_promoted (s : State) (r : StrandRef) (a b c d e : Nat) (x : Bool) : (s.takeTrap r a b c d e x).promoted = s.promoted := by unfold State.takeTrap; split <;> (try rfl); split <;> simp
@[simp] theorem State.takeTrap_dcache (s : State) (r : StrandRef) (a b c d e : Nat) (x : Bool) : (s.takeTrap r a b c d e x).dcache = s.dcache := by unfold State.takeTrap; split <;> (try rfl); split <;> simp
@[simp] theorem State.takeTrap_remotes (s : State) (r : StrandRef) (a b c d e : Nat) (x : Bool) : (s.takeTrap r a b c d e x).remotes = s.remotes := by unfold State.takeTrap; split <;> (try rfl); split <;> simp
@[simp] theorem State.takeTrap_batches (s : State) (r : StrandRef) (a b c d e : Nat) (x : Bool) : (s.takeTrap r a b c d e x).batches = s.batches := by unfold State.takeTrap; split <;> (try rfl); split <;> simp
@[simp] theorem State.takeTrap_lagging (s : State) (r : StrandRef) (a b c d e : Nat) (x : Bool) : (s.takeTrap r a b c d e x).lagging = s.lagging := by unfold State.takeTrap; split <;> (try rfl); split <;> simp
@[simp] theorem State.takeTrap_made (s : State) (r : StrandRef) (a b c d e : Nat) (x : Bool) : (s.takeTrap r a b c d e x).made = s.made := by unfold State.takeTrap; split <;> (try rfl); split <;> simp
@[simp] theorem State.takeTrap_got (s : State) (r : StrandRef) (a b c d e : Nat) (x : Bool) : (s.takeTrap r a b c d e x).got = s.got := by unfold State.takeTrap; split <;> (try rfl); split <;> simp
@[simp] theorem State.takeTrap_mgmt (s : State) (r : StrandRef) (a b c d e : Nat) (x : Bool) : (s.takeTrap r a b c d e x).mgmt = s.mgmt := by unfold State.takeTrap; split <;> (try rfl); split <;> simp
@[simp] theorem State.takeTrap_agenda (s : State) (r : StrandRef) (a b c d e : Nat) (x : Bool) : (s.takeTrap r a b c d e x).agenda = s.agenda := by unfold State.takeTrap; split <;> (try rfl); split <;> simp
@[simp] theorem State.takeTrap_turn (s : State) (r : StrandRef) (a b c d e : Nat) (x : Bool) : (s.takeTrap r a b c d e x).turn = s.turn := by unfold State.takeTrap; split <;> (try rfl); split <;> simp
@[simp] theorem State.takeTrap_cur (s : State) (r : StrandRef) (a b c d e : Nat) (x : Bool) : (s.takeTrap r a b c d e x).cur = s.cur := by unfold State.takeTrap; split <;> (try rfl); split <;> simp
@[simp] theorem State.takeTrap_nextId (s : State) (r : StrandRef) (a b c d e : Nat) (x : Bool) : (s.takeTrap r a b c d e x).nextId = s.nextId := by unfold State.takeTrap; split <;> (try rfl); split <;> simp
@[simp] theorem State.takeTrap_out (s : State) (r : StrandRef) (a b c d e : Nat) (x : Bool) : (s.takeTrap r a b c d e x).out = s.out := by unfold State.takeTrap; split <;> (try rfl); split <;> simp

/-! A return from a trap. -/

@[simp] theorem State.resumeAt_clock (s : State) (r : StrandRef) (pc : Nat) (x : Bool) : (s.resumeAt r pc x).clock = s.clock := by simp [State.resumeAt]
@[simp] theorem State.resumeAt_chip (s : State) (r : StrandRef) (pc : Nat) (x : Bool) : (s.resumeAt r pc x).chip = s.chip := by simp [State.resumeAt]
@[simp] theorem State.resumeAt_mem (s : State) (r : StrandRef) (pc : Nat) (x : Bool) : (s.resumeAt r pc x).mem = s.mem := by simp [State.resumeAt]
@[simp] theorem State.resumeAt_memFailed (s : State) (r : StrandRef) (pc : Nat) (x : Bool) : (s.resumeAt r pc x).memFailed = s.memFailed := by simp [State.resumeAt]
@[simp] theorem State.resumeAt_hostMem (s : State) (r : StrandRef) (pc : Nat) (x : Bool) : (s.resumeAt r pc x).hostMem = s.hostMem := by simp [State.resumeAt]
@[simp] theorem State.resumeAt_hostPages (s : State) (r : StrandRef) (pc : Nat) (x : Bool) : (s.resumeAt r pc x).hostPages = s.hostPages := by simp [State.resumeAt]
@[simp] theorem State.resumeAt_tenants (s : State) (r : StrandRef) (pc : Nat) (x : Bool) : (s.resumeAt r pc x).tenants = s.tenants := by simp [State.resumeAt]
@[simp] theorem State.resumeAt_regions (s : State) (r : StrandRef) (pc : Nat) (x : Bool) : (s.resumeAt r pc x).regions = s.regions := by simp [State.resumeAt]
@[simp] theorem State.resumeAt_queues (s : State) (r : StrandRef) (pc : Nat) (x : Bool) : (s.resumeAt r pc x).queues = s.queues := by simp [State.resumeAt]
@[simp] theorem State.resumeAt_jobs (s : State) (r : StrandRef) (pc : Nat) (x : Bool) : (s.resumeAt r pc x).jobs = s.jobs := by simp [State.resumeAt]
@[simp] theorem State.resumeAt_cores (s : State) (r : StrandRef) (pc : Nat) (x : Bool) : (s.resumeAt r pc x).cores = s.cores := by simp [State.resumeAt]
@[simp] theorem State.resumeAt_harnesses (s : State) (r : StrandRef) (pc : Nat) (x : Bool) : (s.resumeAt r pc x).harnesses = s.harnesses := by simp [State.resumeAt]
@[simp] theorem State.resumeAt_gens (s : State) (r : StrandRef) (pc : Nat) (x : Bool) : (s.resumeAt r pc x).gens = s.gens := by simp [State.resumeAt]
@[simp] theorem State.resumeAt_watches (s : State) (r : StrandRef) (pc : Nat) (x : Bool) : (s.resumeAt r pc x).watches = s.watches := by simp [State.resumeAt]
@[simp] theorem State.resumeAt_promoted (s : State) (r : StrandRef) (pc : Nat) (x : Bool) : (s.resumeAt r pc x).promoted = s.promoted := by simp [State.resumeAt]
@[simp] theorem State.resumeAt_dcache (s : State) (r : StrandRef) (pc : Nat) (x : Bool) : (s.resumeAt r pc x).dcache = s.dcache := by simp [State.resumeAt]
@[simp] theorem State.resumeAt_remotes (s : State) (r : StrandRef) (pc : Nat) (x : Bool) : (s.resumeAt r pc x).remotes = s.remotes := by simp [State.resumeAt]
@[simp] theorem State.resumeAt_batches (s : State) (r : StrandRef) (pc : Nat) (x : Bool) : (s.resumeAt r pc x).batches = s.batches := by simp [State.resumeAt]
@[simp] theorem State.resumeAt_lagging (s : State) (r : StrandRef) (pc : Nat) (x : Bool) : (s.resumeAt r pc x).lagging = s.lagging := by simp [State.resumeAt]
@[simp] theorem State.resumeAt_made (s : State) (r : StrandRef) (pc : Nat) (x : Bool) : (s.resumeAt r pc x).made = s.made := by simp [State.resumeAt]
@[simp] theorem State.resumeAt_got (s : State) (r : StrandRef) (pc : Nat) (x : Bool) : (s.resumeAt r pc x).got = s.got := by simp [State.resumeAt]
@[simp] theorem State.resumeAt_mgmt (s : State) (r : StrandRef) (pc : Nat) (x : Bool) : (s.resumeAt r pc x).mgmt = s.mgmt := by simp [State.resumeAt]
@[simp] theorem State.resumeAt_agenda (s : State) (r : StrandRef) (pc : Nat) (x : Bool) : (s.resumeAt r pc x).agenda = s.agenda := by simp [State.resumeAt]
@[simp] theorem State.resumeAt_turn (s : State) (r : StrandRef) (pc : Nat) (x : Bool) : (s.resumeAt r pc x).turn = s.turn := by simp [State.resumeAt]
@[simp] theorem State.resumeAt_cur (s : State) (r : StrandRef) (pc : Nat) (x : Bool) : (s.resumeAt r pc x).cur = s.cur := by simp [State.resumeAt]
@[simp] theorem State.resumeAt_nextId (s : State) (r : StrandRef) (pc : Nat) (x : Bool) : (s.resumeAt r pc x).nextId = s.nextId := by simp [State.resumeAt]
@[simp] theorem State.resumeAt_out (s : State) (r : StrandRef) (pc : Nat) (x : Bool) : (s.resumeAt r pc x).out = s.out := by simp [State.resumeAt]

/-! Sectors mended. -/

@[simp] theorem State.cacheMend_clock (s : State) (l : List Nat) : (s.cacheMend l).clock = s.clock := by unfold State.cacheMend; split <;> rfl
@[simp] theorem State.cacheMend_chip (s : State) (l : List Nat) : (s.cacheMend l).chip = s.chip := by unfold State.cacheMend; split <;> rfl
@[simp] theorem State.cacheMend_mem (s : State) (l : List Nat) : (s.cacheMend l).mem = s.mem := by unfold State.cacheMend; split <;> rfl
@[simp] theorem State.cacheMend_memFailed (s : State) (l : List Nat) : (s.cacheMend l).memFailed = s.memFailed := by unfold State.cacheMend; split <;> rfl
@[simp] theorem State.cacheMend_hostMem (s : State) (l : List Nat) : (s.cacheMend l).hostMem = s.hostMem := by unfold State.cacheMend; split <;> rfl
@[simp] theorem State.cacheMend_hostPages (s : State) (l : List Nat) : (s.cacheMend l).hostPages = s.hostPages := by unfold State.cacheMend; split <;> rfl
@[simp] theorem State.cacheMend_tenants (s : State) (l : List Nat) : (s.cacheMend l).tenants = s.tenants := by unfold State.cacheMend; split <;> rfl
@[simp] theorem State.cacheMend_regions (s : State) (l : List Nat) : (s.cacheMend l).regions = s.regions := by unfold State.cacheMend; split <;> rfl
@[simp] theorem State.cacheMend_queues (s : State) (l : List Nat) : (s.cacheMend l).queues = s.queues := by unfold State.cacheMend; split <;> rfl
@[simp] theorem State.cacheMend_jobs (s : State) (l : List Nat) : (s.cacheMend l).jobs = s.jobs := by unfold State.cacheMend; split <;> rfl
@[simp] theorem State.cacheMend_slices (s : State) (l : List Nat) : (s.cacheMend l).slices = s.slices := by unfold State.cacheMend; split <;> rfl
@[simp] theorem State.cacheMend_cores (s : State) (l : List Nat) : (s.cacheMend l).cores = s.cores := by unfold State.cacheMend; split <;> rfl
@[simp] theorem State.cacheMend_harnesses (s : State) (l : List Nat) : (s.cacheMend l).harnesses = s.harnesses := by unfold State.cacheMend; split <;> rfl
@[simp] theorem State.cacheMend_gens (s : State) (l : List Nat) : (s.cacheMend l).gens = s.gens := by unfold State.cacheMend; split <;> rfl
@[simp] theorem State.cacheMend_watches (s : State) (l : List Nat) : (s.cacheMend l).watches = s.watches := by unfold State.cacheMend; split <;> rfl
@[simp] theorem State.cacheMend_promoted (s : State) (l : List Nat) : (s.cacheMend l).promoted = s.promoted := by unfold State.cacheMend; split <;> rfl
@[simp] theorem State.cacheMend_remotes (s : State) (l : List Nat) : (s.cacheMend l).remotes = s.remotes := by unfold State.cacheMend; split <;> rfl
@[simp] theorem State.cacheMend_batches (s : State) (l : List Nat) : (s.cacheMend l).batches = s.batches := by unfold State.cacheMend; split <;> rfl
@[simp] theorem State.cacheMend_lagging (s : State) (l : List Nat) : (s.cacheMend l).lagging = s.lagging := by unfold State.cacheMend; split <;> rfl
@[simp] theorem State.cacheMend_made (s : State) (l : List Nat) : (s.cacheMend l).made = s.made := by unfold State.cacheMend; split <;> rfl
@[simp] theorem State.cacheMend_got (s : State) (l : List Nat) : (s.cacheMend l).got = s.got := by unfold State.cacheMend; split <;> rfl
@[simp] theorem State.cacheMend_mgmt (s : State) (l : List Nat) : (s.cacheMend l).mgmt = s.mgmt := by unfold State.cacheMend; split <;> rfl
@[simp] theorem State.cacheMend_agenda (s : State) (l : List Nat) : (s.cacheMend l).agenda = s.agenda := by unfold State.cacheMend; split <;> rfl
@[simp] theorem State.cacheMend_turn (s : State) (l : List Nat) : (s.cacheMend l).turn = s.turn := by unfold State.cacheMend; split <;> rfl
@[simp] theorem State.cacheMend_cur (s : State) (l : List Nat) : (s.cacheMend l).cur = s.cur := by unfold State.cacheMend; split <;> rfl
@[simp] theorem State.cacheMend_nextId (s : State) (l : List Nat) : (s.cacheMend l).nextId = s.nextId := by unfold State.cacheMend; split <;> rfl
@[simp] theorem State.cacheMend_out (s : State) (l : List Nat) : (s.cacheMend l).out = s.out := by unfold State.cacheMend; split <;> rfl

/-! An instruction traced. -/

@[simp] theorem State.traceInstr_clock (s : State) (r : StrandRef) (pc unit clock : Nat) : (s.traceInstr r pc unit clock).clock = s.clock := by unfold State.traceInstr; split <;> (try rfl); split <;> (try rfl); split <;> simp
@[simp] theorem State.traceInstr_chip (s : State) (r : StrandRef) (pc unit clock : Nat) : (s.traceInstr r pc unit clock).chip = s.chip := by unfold State.traceInstr; split <;> (try rfl); split <;> (try rfl); split <;> simp
@[simp] theorem State.traceInstr_mem (s : State) (r : StrandRef) (pc unit clock : Nat) : (s.traceInstr r pc unit clock).mem = s.mem := by unfold State.traceInstr; split <;> (try rfl); split <;> (try rfl); split <;> simp
@[simp] theorem State.traceInstr_memFailed (s : State) (r : StrandRef) (pc unit clock : Nat) : (s.traceInstr r pc unit clock).memFailed = s.memFailed := by unfold State.traceInstr; split <;> (try rfl); split <;> (try rfl); split <;> simp
@[simp] theorem State.traceInstr_hostMem (s : State) (r : StrandRef) (pc unit clock : Nat) : (s.traceInstr r pc unit clock).hostMem = s.hostMem := by unfold State.traceInstr; split <;> (try rfl); split <;> (try rfl); split <;> simp
@[simp] theorem State.traceInstr_hostPages (s : State) (r : StrandRef) (pc unit clock : Nat) : (s.traceInstr r pc unit clock).hostPages = s.hostPages := by unfold State.traceInstr; split <;> (try rfl); split <;> (try rfl); split <;> simp
@[simp] theorem State.traceInstr_tenants (s : State) (r : StrandRef) (pc unit clock : Nat) : (s.traceInstr r pc unit clock).tenants = s.tenants := by unfold State.traceInstr; split <;> (try rfl); split <;> (try rfl); split <;> simp
@[simp] theorem State.traceInstr_regions (s : State) (r : StrandRef) (pc unit clock : Nat) : (s.traceInstr r pc unit clock).regions = s.regions := by unfold State.traceInstr; split <;> (try rfl); split <;> (try rfl); split <;> simp
@[simp] theorem State.traceInstr_queues (s : State) (r : StrandRef) (pc unit clock : Nat) : (s.traceInstr r pc unit clock).queues = s.queues := by unfold State.traceInstr; split <;> (try rfl); split <;> (try rfl); split <;> simp
@[simp] theorem State.traceInstr_jobs (s : State) (r : StrandRef) (pc unit clock : Nat) : (s.traceInstr r pc unit clock).jobs = s.jobs := by unfold State.traceInstr; split <;> (try rfl); split <;> (try rfl); split <;> simp
@[simp] theorem State.traceInstr_harnesses (s : State) (r : StrandRef) (pc unit clock : Nat) : (s.traceInstr r pc unit clock).harnesses = s.harnesses := by unfold State.traceInstr; split <;> (try rfl); split <;> (try rfl); split <;> simp
@[simp] theorem State.traceInstr_gens (s : State) (r : StrandRef) (pc unit clock : Nat) : (s.traceInstr r pc unit clock).gens = s.gens := by unfold State.traceInstr; split <;> (try rfl); split <;> (try rfl); split <;> simp
@[simp] theorem State.traceInstr_watches (s : State) (r : StrandRef) (pc unit clock : Nat) : (s.traceInstr r pc unit clock).watches = s.watches := by unfold State.traceInstr; split <;> (try rfl); split <;> (try rfl); split <;> simp
@[simp] theorem State.traceInstr_promoted (s : State) (r : StrandRef) (pc unit clock : Nat) : (s.traceInstr r pc unit clock).promoted = s.promoted := by unfold State.traceInstr; split <;> (try rfl); split <;> (try rfl); split <;> simp
@[simp] theorem State.traceInstr_dcache (s : State) (r : StrandRef) (pc unit clock : Nat) : (s.traceInstr r pc unit clock).dcache = s.dcache := by unfold State.traceInstr; split <;> (try rfl); split <;> (try rfl); split <;> simp
@[simp] theorem State.traceInstr_remotes (s : State) (r : StrandRef) (pc unit clock : Nat) : (s.traceInstr r pc unit clock).remotes = s.remotes := by unfold State.traceInstr; split <;> (try rfl); split <;> (try rfl); split <;> simp
@[simp] theorem State.traceInstr_batches (s : State) (r : StrandRef) (pc unit clock : Nat) : (s.traceInstr r pc unit clock).batches = s.batches := by unfold State.traceInstr; split <;> (try rfl); split <;> (try rfl); split <;> simp
@[simp] theorem State.traceInstr_lagging (s : State) (r : StrandRef) (pc unit clock : Nat) : (s.traceInstr r pc unit clock).lagging = s.lagging := by unfold State.traceInstr; split <;> (try rfl); split <;> (try rfl); split <;> simp
@[simp] theorem State.traceInstr_made (s : State) (r : StrandRef) (pc unit clock : Nat) : (s.traceInstr r pc unit clock).made = s.made := by unfold State.traceInstr; split <;> (try rfl); split <;> (try rfl); split <;> simp
@[simp] theorem State.traceInstr_got (s : State) (r : StrandRef) (pc unit clock : Nat) : (s.traceInstr r pc unit clock).got = s.got := by unfold State.traceInstr; split <;> (try rfl); split <;> (try rfl); split <;> simp
@[simp] theorem State.traceInstr_mgmt (s : State) (r : StrandRef) (pc unit clock : Nat) : (s.traceInstr r pc unit clock).mgmt = s.mgmt := by unfold State.traceInstr; split <;> (try rfl); split <;> (try rfl); split <;> simp
@[simp] theorem State.traceInstr_agenda (s : State) (r : StrandRef) (pc unit clock : Nat) : (s.traceInstr r pc unit clock).agenda = s.agenda := by unfold State.traceInstr; split <;> (try rfl); split <;> (try rfl); split <;> simp
@[simp] theorem State.traceInstr_turn (s : State) (r : StrandRef) (pc unit clock : Nat) : (s.traceInstr r pc unit clock).turn = s.turn := by unfold State.traceInstr; split <;> (try rfl); split <;> (try rfl); split <;> simp
@[simp] theorem State.traceInstr_cur (s : State) (r : StrandRef) (pc unit clock : Nat) : (s.traceInstr r pc unit clock).cur = s.cur := by unfold State.traceInstr; split <;> (try rfl); split <;> (try rfl); split <;> simp
@[simp] theorem State.traceInstr_nextId (s : State) (r : StrandRef) (pc unit clock : Nat) : (s.traceInstr r pc unit clock).nextId = s.nextId := by unfold State.traceInstr; split <;> (try rfl); split <;> (try rfl); split <;> simp
@[simp] theorem State.traceInstr_out (s : State) (r : StrandRef) (pc unit clock : Nat) : (s.traceInstr r pc unit clock).out = s.out := by unfold State.traceInstr; split <;> (try rfl); split <;> (try rfl); split <;> simp

/-! Fields that an update sets. -/

@[simp] theorem State.modCore_cores (s : State) (c : Nat) (f : Core → Core) : (s.modCore c f).cores = Sparse.set s.cores c (f (s.core c)) := rfl
@[simp] theorem State.fresh_fst (s : State) : s.fresh.1 = s.nextId := rfl
@[simp] theorem State.fresh_nextId (s : State) : s.fresh.2.nextId = s.nextId + 1 := rfl
@[simp] theorem State.emit_out (s : State) (m : OutMsg) : (s.emit m).out = s.out ++ [m] := rfl
theorem State.modSlice_some {s : State} {sid : Nat} {x : Slice} (h : s.slice? sid = some x) (f : Slice → Slice) :
    s.modSlice sid f = { s with slices := Sparse.set s.slices sid (f x) } := by
  unfold State.modSlice; rw [h]
theorem State.modSlice_none {s : State} {sid : Nat} (h : s.slice? sid = none) (f : Slice → Slice) : s.modSlice sid f = s := by
  unfold State.modSlice; rw [h]

end Sys2Proof.Machine
end

