-- ==== Sys2Proof/Laws/Lookup.lean ====
section
/-!
SUPPORT. What looking up a slice, a group, a strand, a core, a region or a job gives after each of them is changed.
-/

namespace Sys2Proof

variable {α : Type}

theorem setAt_length (l : List α) (n : Nat) (y : α) : (setAt l n y).length = l.length := by
  induction l generalizing n with
  | nil => rfl
  | cons x xs ih => cases n <;> simp [setAt, ih]
theorem setAt_get (l : List α) (n m : Nat) (y : α) : (setAt l n y)[m]? = if n = m ∧ m < l.length then some y else l[m]? := by
  induction l generalizing n m with
  | nil => simp [setAt]
  | cons x xs ih => cases n <;> cases m <;> simp [setAt, ih]
theorem setAt_getD (l : List α) (n m : Nat) (y d : α) (h : m < l.length) : (setAt l n y).getD m d = if n = m then y else l.getD m d := by
  simp only [List.getD_eq_getElem?_getD, setAt_get, h, and_true]
  split <;> rfl
/-- Replacing the first element that passes a test keeps what a search for another test finds. -/
theorem find_updFirst_self (p : α → Bool) (f : α → α) (hf : ∀ a, p a = true → p (f a) = true) (l : List α) :
    (updFirst p f l).find? p = (l.find? p).map f := by
  induction l with
  | nil => rfl
  | cons x xs ih =>
    simp only [updFirst]
    split
    · simp [hf x ‹_›, ‹p x = true›]
    · simp [‹¬p x = true›, ih]
theorem find_updFirst_other (p q : α → Bool) (f : α → α) (hf : ∀ a, p a = true → q a = false ∧ q (f a) = false) (l : List α) :
    (updFirst p f l).find? q = l.find? q := by
  induction l with
  | nil => rfl
  | cons x xs ih =>
    simp only [updFirst]
    split
    · simp [hf x ‹_›]
    · simp only [List.find?_cons, ih]

end Sys2Proof

namespace Sys2Proof.Machine

theorem State.slice?_modSlice (s : State) (a b : Nat) (f : Slice → Slice) :
    (s.modSlice a f).slice? b = if a = b then (s.slice? b).map f else s.slice? b := by
  unfold State.modSlice
  split
  · rename_i h
    split
    · subst_vars; simp [h]
    · rfl
  · rename_i x h
    simp only [State.slice?] at h ⊢
    rw [Sparse.find_set]
    split
    · subst_vars; simp [h]
    · rfl
@[simp] theorem Slice.modGroup_jn (x : Slice) (gi : Nat) (f : Group → Group) : (x.modGroup gi f).jn = x.jn := by
  unfold Slice.modGroup; split <;> rfl
@[simp] theorem Slice.modGroup_core (x : Slice) (gi : Nat) (f : Group → Group) : (x.modGroup gi f).core = x.core := by
  unfold Slice.modGroup; split <;> rfl
theorem Slice.groups_modGroup (x : Slice) (a b : Nat) (f : Group → Group) :
    (x.modGroup a f).groups[b]? = if a = b then x.groups[b]?.map f else x.groups[b]? := by
  unfold Slice.modGroup
  split
  · rename_i h; split
    · subst_vars; simp [h]
    · rfl
  · rename_i g h
    have hl : a < x.groups.length := by
      rcases List.getElem?_eq_some_iff.1 h with ⟨h, -⟩; exact h
    simp only [setAt_get]
    by_cases hab : a = b
    · subst hab
      rw [if_pos ⟨rfl, hl⟩, if_pos rfl, h]; rfl
    · simp [hab]
theorem State.group?_modSlice (s : State) (a b gi : Nat) (f : Slice → Slice) (hf : ∀ x, s.slice? a = some x → (f x).groups = x.groups) :
    (s.modSlice a f).group? b gi = s.group? b gi := by
  simp only [State.group?, State.slice?_modSlice]
  split
  · rename_i hab
    subst hab
    cases h : s.slice? a with
    | none => rfl
    | some x => simp [hf x h]
  · rfl
theorem State.group?_modGroup (s : State) (a b i j : Nat) (f : Group → Group) :
    (s.modGroup a i f).group? b j = if a = b ∧ i = j then (s.group? b j).map f else s.group? b j := by
  simp only [State.group?, State.modGroup, State.slice?_modSlice]
  by_cases hab : a = b
  · subst hab
    cases h : s.slice? a with
    | none => simp
    | some x => simp [Slice.groups_modGroup]
  · simp [hab]
@[simp] theorem State.group?_modCore (s : State) (c sid gi : Nat) (f : Core → Core) : (s.modCore c f).group? sid gi = s.group? sid gi := rfl
@[simp] theorem State.slice?_modCore (s : State) (c sid : Nat) (f : Core → Core) : (s.modCore c f).slice? sid = s.slice? sid := rfl
theorem State.core_modCore (s : State) (a b : Nat) (f : Core → Core) : (s.modCore a f).core b = if a = b then f (s.core a) else s.core b := by
  simp [State.core, State.modCore, Sparse.get_set]
@[simp] theorem State.group?_count (s : State) (c rk n sid gi : Nat) (k : Counter) : (s.count c rk k n).group? sid gi = s.group? sid gi := by
  unfold State.count; split <;> rfl
@[simp] theorem State.slice?_count (s : State) (c rk n sid : Nat) (k : Counter) : (s.count c rk k n).slice? sid = s.slice? sid := by
  unfold State.count; split <;> rfl
theorem Group.strand?_modStrand (g : Group) (a b : Nat) (f : Strand → Strand) (hf : ∀ t, (f t).sn = t.sn) :
    (g.modStrand a f).strand? b = if a = b then (g.strand? b).map f else g.strand? b := by
  unfold Group.modStrand Group.strand?
  split
  · subst_vars
    exact find_updFirst_self _ f (by intro t h; simpa [hf] using h) _
  · apply find_updFirst_other
    intro t h
    simp only [hf, beq_iff_eq, beq_eq_false_iff_ne, ne_eq] at *
    omega
theorem State.group?_modStrand (s : State) (r : StrandRef) (f : Strand → Strand) (sid gi : Nat) :
    (s.modStrand r f).group? sid gi = if r.sid = sid ∧ r.gi = gi then (s.group? sid gi).map (fun g => g.modStrand r.sn f) else s.group? sid gi :=
  State.group?_modGroup ..
/-- The strand after it is changed. -/
theorem State.strand?_modStrand (s : State) (r q : StrandRef) (f : Strand → Strand) (hf : ∀ t, (f t).sn = t.sn) :
    (s.modStrand r f).strand? q = if r = q then (s.strand? q).map f else s.strand? q := by
  obtain ⟨a, b, c⟩ := r
  obtain ⟨a', b', c'⟩ := q
  simp only [State.strand?, State.group?_modStrand]
  by_cases h : a = a' ∧ b = b'
  · obtain ⟨rfl, rfl⟩ := h
    cases s.group? a b with
    | none => simp
    | some g => simp [Group.strand?_modStrand _ _ _ _ hf]
  · have h' : ¬((⟨a, b, c⟩ : StrandRef) = ⟨a', b', c'⟩) := by
      intro e; injection e with e1 e2; exact h ⟨e1, e2⟩
    simp only [h, h', if_false]
theorem State.region?_modRegion (s : State) (a b : Nat) (f : Region → Region) :
    (s.modRegion a f).region? b = if a = b then (s.region? b).map f else s.region? b := by
  unfold State.modRegion
  split
  · rename_i h
    split
    · subst_vars; simp [h]
    · rfl
  · rename_i x h
    simp only [State.region?] at h ⊢
    rw [Sparse.find_set]
    split
    · subst_vars; simp [h]
    · rfl
theorem State.job?_modJob (s : State) (a b : Nat) (f : Job → Job) :
    (s.modJob a f).job? b = if a = b then (s.job? b).map f else s.job? b := by
  unfold State.modJob
  split
  · rename_i h
    split
    · subst_vars; simp [h]
    · rfl
  · rename_i x h
    simp only [State.job?] at h ⊢
    rw [Sparse.find_set]
    split
    · subst_vars; simp [h]
    · rfl

end Sys2Proof.Machine
end

