-- ==== Sys2Proof/Laws/Issue.lean ====
section
/-!
SUPPORT. What issuing an instruction is where nothing shared stops it, and what paying for the issue leaves unchanged.
-/

namespace Sys2Proof.Machine

/-- What the cursor gives an instruction. -/
theorem mkX_spec {c : Cursor} {i : Instr} {h : Hdr} {s : State} {x : X} (e : mkX c i h s = some x) :
    x.cur = c ∧ s.slice? c.who.sid = some x.x ∧ s.group? c.who.sid c.who.gi = some x.g ∧
    (∃ t, x.g.strand? c.who.sn = some t ∧ x.smask = t.c.mask) ∧
    ∃ j, s.job? x.x.jn = some j ∧ x.width = j.hdr.width ∧ x.hdr = j.hdr ∧ x.code = j.code ∧ x.rk = j.rk := by
  unfold mkX at e
  split at e
  · cases e
  · rename_i sl hs
    split at e
    · cases e
    · rename_i g hg
      split at e
      · rename_i t j ht hj
        injection e with e
        subst e
        refine ⟨rfl, hs, by simp [State.group?, hs, hg], ⟨t, ht, rfl⟩, j, hj, rfl, rfl, rfl, rfl⟩
      · cases e

/-- What `State.clear` says. -/
theorem State.clear_spec {s : State} {i : Instr} {x : X} (e : s.clear i = some x) :
    ∃ c h, s.cur = some c ∧ i.hdr = some h ∧ mkX c i h s = some x ∧ c.held = none ∧
      (x.ops i h).any (rangeBad x.vregs x.gregs x.acc i) = false ∧ (encCause i).isSome = false ∧ x.gfalse = false ∧
      (x.was.group.chk && (x.earlyRead (x.ops i h)).isSome) = false ∧ (x.windowBad i (x.ops i h) && !(claims i && x.underFork)) = false ∧ (noFork i && x.underFork) = false ∧
      x.eccBad i (x.ops i h) = false := by
  unfold State.clear at e
  split at e
  · rename_i c h hc hh
    cases hx : mkX c i h s with
    | none => simp [hx] at e
    | some y =>
      rw [hx] at e
      simp only [Option.bind_some] at e
      split at e
      · rename_i hb
        injection e with e; subst e
        simp only [Bool.and_eq_true, Bool.not_eq_true', Option.isNone_iff_eq_none] at hb
        obtain ⟨⟨⟨⟨⟨⟨⟨h1, h2⟩, h3⟩, h4⟩, h5⟩, h6⟩, h7⟩, h8⟩ := hb
        exact ⟨c, h, hc, hh, hx, h1, h2, by simp [h3], h4, h5, h6, h7, h8⟩
      · cases e
  · cases e

/-- A read found early among some operands is found among more. -/
theorem X.earlyRead_head {x : X} {o : Opnd} {l : List Opnd} (h : (x.earlyRead (o :: l)).isSome = false) : (x.earlyRead [o]).isSome = false := by
  unfold X.earlyRead at h ⊢
  simp only [firstSome] at h ⊢
  split at h
  · simp at h
  · simp

/-- The issue of an instruction that nothing shared stops: its effect on the state that has paid for the issue. -/
theorem issueWith_clear {s : State} {i : Instr} {x : X} (e : s.clear i = some x) (early : X → State → Option (Nat × Nat × Nat))
    (eff : X → State → Res) (he : early x s = none) :
    issueWith i early eff s = match eff x (s.charged x i) with
      | .ok t => .next (t.issued x i)
      | .trap cause lane detail => .next (s.trapped x cause lane detail)
      | .counted f cause lane detail => .next ((f s).trapped x cause lane detail)
      | .absent pages cause lane va => .next (s.pageFault x.cur.who x.rk pages cause lane va x.trapPc x.cur.pc (!noAhead i))
      | .pause f => .next (f s)
      | .wait b => .next (x.waits b s) := by
  obtain ⟨c, h, hc, hh, hx, h1, h2, h3, h4, h5, h6, h7, h8⟩ := State.clear_spec e
  have hcur := (mkX_spec hx).1
  subst hcur
  have h9 : (x.was.group.chk && (x.earlyRead [h.guard.op]).isSome) = false := by
    cases hk : x.was.group.chk with
    | false => rfl
    | true =>
      rw [hk, Bool.true_and] at h5
      simpa using X.earlyRead_head (l := i.ops (fmtA x.fmt).quarterRegs (passesOf x.width)) h5
  have h10 : (x.windowBad i (x.ops i h) && !((noFork i || claims i) && x.underFork)) = false := by
    revert h6
    cases x.windowBad i (x.ops i h) <;> cases noFork i <;> cases claims i <;> cases x.underFork <;> simp
  unfold issueWith State.charged
  simp only [hc, hh, hx, h1, h2, h3, h4, h5, h7, h8, h9, h10, he, Option.isNone_none, Bool.true_and, Bool.and_true, Option.isSome_none,
    Bool.false_eq_true, if_false, Option.getD_some, Bool.false_and]
  cases eff x (charge x i h s) with
  | wait b => rfl
  | _ => simp [State.issued, State.trapped, X.trapPc, hh, h1]

/-- The same where an entry puts no check of its own first. -/
theorem issue_clear {s : State} {i : Instr} {x : X} (e : s.clear i = some x) (eff : X → State → Res) :
    issue i eff s = match eff x (s.charged x i) with
      | .ok t => .next (t.issued x i)
      | .trap cause lane detail => .next (s.trapped x cause lane detail)
      | .counted f cause lane detail => .next ((f s).trapped x cause lane detail)
      | .absent pages cause lane va => .next (s.pageFault x.cur.who x.rk pages cause lane va x.trapPc x.cur.pc (!noAhead i))
      | .pause f => .next (f s)
      | .wait b => .next (x.waits b s) :=
  issueWith_clear e _ eff rfl

/-! ### Groups that differ only in what issuing changes -/

/-- Two groups with the same registers, pending results, frames and shared records, whose strands have the same numbers and contexts but for
the program counter. -/
structure Group.Like (a k : Group) : Prop where
  v : k.v = a.v
  g : k.g = a.g
  gp : k.gp = a.gp
  h : k.h = a.h
  b : k.b = a.b
  th : k.th = a.th
  sc : k.sc = a.sc
  am : k.am = a.am
  fixed : k.fixed = a.fixed
  inflight : k.inflight = a.inflight
  shared : sameShared a k
  strand : ∀ sn, match a.strand? sn, k.strand? sn with
    | some t, some u => u.c.p = t.c.p ∧ sameContext t.c u.c
    | none, none => True
    | _, _ => False

theorem sameShared.refl (g : Group) : sameShared g g := by simp [sameShared]
theorem sameShared.trans {a b c : Group} (h : sameShared a b) (k : sameShared b c) : sameShared a c := by
  obtain ⟨h1, h2, h3, h4, h5, h6, h7, h8, h9, h10, h11⟩ := h
  obtain ⟨k1, k2, k3, k4, k5, k6, k7, k8, k9, k10, k11⟩ := k
  exact ⟨k1.trans h1, k2.trans h2, k3.trans h3, k4.trans h4, k5.trans h5, k6.trans h6, k7.trans h7, k8.trans h8, k9.trans h9, k10.trans h10,
    k11.trans h11⟩
theorem sameContext.refl (c : Ctx) : sameContext c c := by simp [sameContext]
theorem sameContext.trans {a b c : Ctx} (h : sameContext a b) (k : sameContext b c) : sameContext a c := by
  obtain ⟨h1, h2, h3, h4, h5, h6, h7, h8, h9⟩ := h
  obtain ⟨k1, k2, k3, k4, k5, k6, k7, k8, k9⟩ := k
  exact ⟨k1.trans h1, k2.trans h2, k3.trans h3, k4.trans h4, k5.trans h5, k6.trans h6, k7.trans h7, k8.trans h8, k9.trans h9⟩
theorem Group.Like.refl (g : Group) : g.Like g := by
  refine ⟨rfl, rfl, rfl, rfl, rfl, rfl, rfl, rfl, rfl, rfl, .refl g, ?_⟩
  intro sn
  cases g.strand? sn with
  | none => trivial
  | some t => exact ⟨rfl, .refl _⟩
theorem Group.Like.trans {a b c : Group} (h : a.Like b) (k : b.Like c) : a.Like c := by
  refine ⟨k.v.trans h.v, k.g.trans h.g, k.gp.trans h.gp, k.h.trans h.h, k.b.trans h.b, k.th.trans h.th, k.sc.trans h.sc, k.am.trans h.am,
    k.fixed.trans h.fixed, k.inflight.trans h.inflight, h.shared.trans k.shared, ?_⟩
  intro sn
  have h1 := h.strand sn
  have k1 := k.strand sn
  revert h1 k1
  cases a.strand? sn <;> cases b.strand? sn <;> cases c.strand? sn <;> simp
  intro h1 h2 k1 k2
  exact ⟨k1.trans h1, h2.trans k2⟩
/-- A change of a strand that keeps its context but for the program counter. -/
theorem Group.like_modStrand (g : Group) (sn : Nat) (f : Strand → Strand)
    (hf : ∀ t, (f t).sn = t.sn ∧ (f t).c.p = t.c.p ∧ sameContext t.c (f t).c) : g.Like (g.modStrand sn f) := by
  refine ⟨rfl, rfl, rfl, rfl, rfl, rfl, rfl, rfl, rfl, rfl, .refl g, ?_⟩
  intro m
  rw [Group.strand?_modStrand _ _ _ _ fun t => (hf t).1]
  by_cases h : sn = m
  · simp only [h, if_true]
    cases g.strand? m with
    | none => trivial
    | some t => exact (hf t).2
  · simp only [h, if_false]
    cases g.strand? m with
    | none => trivial
    | some t => exact ⟨rfl, .refl _⟩

/-- A group of a state and the same group of a later one are alike. -/
def State.Like (s t : State) : Prop :=
  sameMachine s t ∧ ∀ sid gi, match s.group? sid gi, t.group? sid gi with
    | some g, some k => g.Like k
    | none, none => True
    | _, _ => False

theorem sameMachine.refl (s : State) : sameMachine s s := by simp [sameMachine]
theorem sameMachine.trans {a b c : State} (h : sameMachine a b) (k : sameMachine b c) : sameMachine a c := by
  obtain ⟨h1, h2, h3, h4, h5, h6, h7, h8, h9⟩ := h
  obtain ⟨k1, k2, k3, k4, k5, k6, k7, k8, k9⟩ := k
  exact ⟨k1.trans h1, k2.trans h2, k3.trans h3, k4.trans h4, k5.trans h5, k6.trans h6, k7.trans h7, k8.trans h8, k9.trans h9⟩
theorem State.Like.refl (s : State) : s.Like s := by
  refine ⟨.refl s, fun sid gi => ?_⟩
  cases s.group? sid gi with
  | none => trivial
  | some g => exact .refl g
theorem State.Like.trans {a b c : State} (h : a.Like b) (k : b.Like c) : a.Like c := by
  refine ⟨h.1.trans k.1, fun sid gi => ?_⟩
  have h1 := h.2 sid gi
  have k1 := k.2 sid gi
  revert h1 k1
  cases a.group? sid gi <;> cases b.group? sid gi <;> cases c.group? sid gi <;> simp
  exact fun h k => h.trans k
theorem State.Like.of_group {s t : State} (hm : sameMachine s t) (hg : ∀ sid gi, t.group? sid gi = s.group? sid gi) : s.Like t := by
  refine ⟨hm, fun sid gi => ?_⟩
  rw [hg]
  cases s.group? sid gi with
  | none => trivial
  | some g => exact .refl g
theorem State.like_modGroup (s : State) (sid gi : Nat) (f : Group → Group) (hf : ∀ g, s.group? sid gi = some g → g.Like (f g)) :
    s.Like (s.modGroup sid gi f) := by
  refine ⟨by simp [sameMachine], fun a b => ?_⟩
  rw [State.group?_modGroup]
  by_cases h : sid = a ∧ gi = b
  · obtain ⟨rfl, rfl⟩ := h
    simp only [and_self, if_true]
    cases hg : s.group? sid gi with
    | none => trivial
    | some g => exact hf g hg
  · simp only [h, if_false]
    cases s.group? a b with
    | none => trivial
    | some g => exact .refl g
theorem State.like_modStrand (s : State) (r : StrandRef) (f : Strand → Strand)
    (hf : ∀ t, (f t).sn = t.sn ∧ (f t).c.p = t.c.p ∧ sameContext t.c (f t).c) : s.Like (s.modStrand r f) :=
  s.like_modGroup _ _ _ fun g _ => g.like_modStrand _ f hf
theorem State.like_modCore (s : State) (c : Nat) (f : Core → Core) : s.Like (s.modCore c f) := .of_group (by simp [sameMachine]) fun _ _ => rfl
theorem State.like_count (s : State) (c rk n : Nat) (k : Counter) : s.Like (s.count c rk k n) := .of_group (by simp [sameMachine]) fun _ _ => by simp
theorem State.like_cur (s : State) (c : Option Cursor) : s.Like { s with cur := c } := .of_group (by simp [sameMachine]) fun _ _ => rfl
/-- The end of a run changes no register, context or memory. -/
theorem State.like_endRun (s : State) (r : StrandRef) : s.Like (s.endRun r) := by
  unfold State.endRun
  split
  · exact .refl s
  · split
    · exact .refl s
    · refine (State.like_modCore s _ _).trans (State.like_modStrand _ _ _ ?_)
      intro t
      exact ⟨rfl, rfl, .refl _⟩
theorem State.like_putWait (s : State) (r : StrandRef) (w : SState) : s.Like (s.putWait r w) := by
  unfold State.putWait
  refine (State.like_endRun s r).trans (State.like_modStrand _ _ _ ?_)
  intro t
  exact ⟨rfl, rfl, .refl _⟩
theorem State.like_issued (s : State) (x : X) (i : Instr) : s.Like (s.issued x i) := by
  unfold State.issued
  split
  · exact (State.like_endRun s _).trans (State.like_cur _ _)
  · exact State.like_cur _ _

theorem Group.like_retrace (g k : Group) : g.Like (g.retrace k) := by
  refine ⟨rfl, rfl, rfl, rfl, rfl, rfl, rfl, rfl, rfl, rfl, by simp [sameShared, Group.retrace], ?_⟩
  intro sn
  have : (g.retrace k).strand? sn = (g.strand? sn).map fun t => { t with tracePc := ((k.strand? t.sn).getD t).tracePc } := by
    simp only [Group.retrace, Group.strand?, List.find?_map]
    rfl
  rw [this]
  cases g.strand? sn with
  | none => trivial
  | some t => exact ⟨rfl, .refl _⟩
theorem State.like_traceInstr (s : State) (r : StrandRef) (pc unit clock : Nat) : s.Like (s.traceInstr r pc unit clock) := by
  unfold State.traceInstr
  split
  · exact .refl s
  · split
    · exact .refl s
    · split
      · exact .refl s
      · exact (State.like_modCore s _ _).trans (State.like_modGroup _ _ _ _ fun g _ => g.like_retrace _)
/-- Paying for an issue changes no register, context but for the program counter, or memory. -/
theorem State.like_charged (s : State) (x : X) (i : Instr) : s.Like (s.charged x i) := by
  unfold State.charged charge
  dsimp only
  split
  · exact .refl s
  · refine .trans ?_ (State.like_modCore _ _ _)
    refine .trans ?_ (State.like_modStrand _ _ _ ?_)
    · have h1 : s.Like (if x.cur.charge = true then s.modSlice x.cur.who.sid fun y => spendBudget y x.cur.who.gi x.cur.who.sn x.cur.pc x.cur.cycle (max (passCount i x.width) x.cur.passes) else s) := by
        split
        · refine .of_group (by simp [sameMachine]) fun _ _ => State.group?_modSlice _ _ _ _ _ ?_
          intro y _
          rfl
        · exact .refl s
      refine h1.trans ?_
      generalize (if x.cur.charge = true then s.modSlice x.cur.who.sid fun y => spendBudget y x.cur.who.gi x.cur.who.sn x.cur.pc x.cur.cycle (max (passCount i x.width) x.cur.passes) else s) = s1
      refine (State.like_count s1 x.x.core x.rk 1 .instructions).trans ?_
      generalize s1.count x.x.core x.rk .instructions 1 = s2
      have h2 : s2.Like (if (x.t.runLen == 0 && !x.cur.second) = true then s2.count x.x.core x.rk .runs 1 else s2) := by
        split
        · exact State.like_count _ _ _ _ _
        · exact .refl _
      refine h2.trans ?_
      generalize (if (x.t.runLen == 0 && !x.cur.second) = true then s2.count x.x.core x.rk .runs 1 else s2) = s3
      split
      · exact State.like_traceInstr _ _ _ _ _
      · exact .refl _
    · intro t
      refine ⟨rfl, ?_, ?_⟩ <;> (dsimp only; split <;> simp [sameContext])
end Sys2Proof.Machine
end

