-- ==== Sys2Proof/Laws/Registers.lean ====
section
/-!
SUPPORT. What a register reads after register writes, and after fixed-latency results are added (spec/02 R25; spec/03 R67).
-/

namespace Sys2Proof.Machine

/-- Whether a write goes to the register that `Group.reg` reads with these arguments. -/
def RegWr.goes (w : RegWr) (sn : Nat) (c : Cls) (n lane : Nat) : Bool :=
  w.hits c n && (match w with
    | .v _ l _ => l == lane
    | .p m _ l _ => m == sn && l == lane
    | _ => true)
/-- The value of a write as `Group.reg` gives it. -/
def RegWr.val : RegWr → Nat
  | .v _ _ x => x.toNat
  | .g _ x => x.toNat
  | .p _ _ _ x => if x then 1 else 0
  | .gp _ x => if x then 1 else 0
  | .h _ x => x.handle.toNat + 2 ^ 32 * x.chip
  | .b _ x => x.toNat
  | .th _ x => x.toNat
  | .am _ x => x.toNat
  | .sc _ x => x.toNat
/-- Whether a write names a lane and an index that exist. -/
def RegWr.sound : RegWr → Bool
  | .v _ l _ => decide (l < 128)
  | .p _ _ l _ => decide (l < 128)
  | .gp i _ => decide (i < 8)
  | _ => true

/-- The bits of a number with one bit set. -/
theorem oneHot_getLsbD (w i n : Nat) : (BitVec.ofNat w (2 ^ i)).getLsbD n = (decide (n < w) && decide (i = n)) := by
  rw [BitVec.getLsbD_ofNat, Nat.testBit_two_pow]
theorem Mask.put_getLsbD (m : Mask) (l k : Nat) (x : Bool) (hl : l < 128) :
    (Mask.put m l x).getLsbD k = if l = k then x else m.getLsbD k := by
  unfold Mask.put
  by_cases hk : k < 128
  · cases x <;> by_cases h : l = k <;>
      simp only [Bool.false_eq_true, if_true, if_false, BitVec.getLsbD_or, BitVec.getLsbD_and, BitVec.getLsbD_not, oneHot_getLsbD] <;> simp [hk, h]
  · have : l ≠ k := by omega
    simp only [BitVec.getLsbD_of_ge _ _ (Nat.le_of_not_lt hk), this, if_false]

/-- The strand is live and the predicate one of p0 to p6. -/
def Group.holdsP (g : Group) (sn n : Nat) : Prop := ∃ t, g.strand? sn = some t ∧ n < 7
theorem sevenPreds_getD (l : List Mask) (n : Nat) : (sevenPreds l).getD n 0 = l.getD n 0 := by
  unfold sevenPreds
  simp only [List.getD_eq_getElem?_getD]
  by_cases h : n < l.length
  · simp [List.getElem?_append_left h]
  · rw [List.getElem?_append_right (by omega), List.getElem?_eq_none (l := l) (by omega)]
    by_cases h2 : n - l.length < 7 - l.length
    · simp [h2]
    · simp [h2]
theorem sevenPreds_length (l : List Mask) : 7 ≤ (sevenPreds l).length := by
  simp only [sevenPreds, List.length_append, List.length_replicate]; omega

theorem RegWr.strand?_apply (g : Group) (w : RegWr) (sn : Nat) :
    (RegWr.apply g w).strand? sn = (match w with
      | .p m i l x => if m = sn then (g.strand? sn).map fun t =>
          { t with c := { t.c with p := setAt (sevenPreds t.c.p) i (Mask.put (t.c.p.getD i 0) l x) } } else g.strand? sn
      | _ => g.strand? sn) := by
  cases w with
  | p m i l x => exact Group.strand?_modStrand _ _ _ _ fun _ => rfl
  | am i x => simp only [RegWr.apply]; split <;> rfl
  | _ => rfl
theorem Group.holdsP_apply {g : Group} {sn n : Nat} (h : g.holdsP sn n) (w : RegWr) : (RegWr.apply g w).holdsP sn n := by
  obtain ⟨t, ht, hn⟩ := h
  unfold Group.holdsP
  rw [RegWr.strand?_apply]
  cases w with
  | p m i l x =>
    simp only
    split
    · exact ⟨_, by rw [ht]; rfl, hn⟩
    · exact ⟨t, ht, hn⟩
  | _ => exact ⟨t, ht, hn⟩

/-- A write leaves every register but its own as it was. -/
theorem Group.reg_apply_other (g : Group) (w : RegWr) (sn : Nat) (c : Cls) (n lane : Nat) (hs : w.sound = true) (hl : lane < 128)
    (h : w.goes sn c n lane = false) : (RegWr.apply g w).reg sn c n lane = g.reg sn c n lane := by
  cases w with
  | v r l x =>
    cases c <;> try rfl
    simp only [RegWr.goes, RegWr.hits, RegWr.sound, decide_eq_true_eq, beq_self_eq_true, Bool.true_and, Bool.and_eq_false_iff,
      beq_eq_false_iff_ne, ne_eq] at h hs
    simp only [Group.reg, RegWr.apply, Group.vreg, Sparse.get_put]
    rw [if_neg (by omega)]
  | g r x =>
    cases c <;> try rfl
    simp only [RegWr.goes, RegWr.hits, beq_self_eq_true, Bool.true_and, Bool.and_true, beq_eq_false_iff_ne, ne_eq] at h
    simp [Group.reg, RegWr.apply, Group.greg, Sparse.get_put, h]
  | b r x =>
    cases c <;> try rfl
    simp only [RegWr.goes, RegWr.hits, beq_self_eq_true, Bool.true_and, Bool.and_true, beq_eq_false_iff_ne, ne_eq] at h
    simp [Group.reg, RegWr.apply, Group.breg, Sparse.get_put, h]
  | th r x =>
    cases c <;> try rfl
    simp only [RegWr.goes, RegWr.hits, beq_self_eq_true, Bool.true_and, Bool.and_true, beq_eq_false_iff_ne, ne_eq] at h
    simp [Group.reg, RegWr.apply, Group.threg, Sparse.get_put, h]
  | h r x =>
    cases c <;> try rfl
    simp only [RegWr.goes, RegWr.hits, beq_self_eq_true, Bool.true_and, Bool.and_true, beq_eq_false_iff_ne, ne_eq] at h
    simp [Group.reg, RegWr.apply, Group.hreg, Sparse.get_put, h]
  | sc r x =>
    cases c <;> try rfl
    simp only [RegWr.goes, RegWr.hits, beq_self_eq_true, Bool.true_and, Bool.and_true, beq_eq_false_iff_ne, ne_eq] at h
    simp [Group.reg, RegWr.apply, Sparse.get_put, h]
  | am r x =>
    by_cases hx : (Sparse.get 0 g.am r).toNat < x.toNat
    · cases c <;> try (simp only [RegWr.apply, hx, if_true]; rfl)
      simp only [RegWr.goes, RegWr.hits, beq_self_eq_true, Bool.true_and, Bool.and_true, beq_eq_false_iff_ne, ne_eq] at h
      simp only [Group.reg, RegWr.apply, hx, if_true, Sparse.get_put, h, if_false]
    · simp only [RegWr.apply, hx, if_false]
  | gp r x =>
    cases c <;> try rfl
    simp only [RegWr.goes, RegWr.hits, RegWr.sound, beq_self_eq_true, Bool.true_and, Bool.and_true, beq_eq_false_iff_ne, ne_eq,
      decide_eq_true_eq] at h hs
    simp only [Group.reg, RegWr.apply]
    by_cases hn : n < 8
    · cases x <;> simp only [Bool.false_eq_true, if_true, if_false, BitVec.getLsbD_or, BitVec.getLsbD_and, BitVec.getLsbD_not, oneHot_getLsbD] <;>
        simp [hn, h]
    · cases x <;> simp [BitVec.getLsbD_of_ge _ _ (Nat.le_of_not_lt hn)]
  | p m i l x =>
    cases c <;> try rfl
    simp only [RegWr.goes, RegWr.hits, RegWr.sound, decide_eq_true_eq, beq_self_eq_true, Bool.true_and] at h hs
    simp only [Group.reg, RegWr.strand?_apply]
    by_cases hm : m = sn
    · subst hm
      simp only [if_true]
      cases g.strand? m with
      | none => rfl
      | some t =>
        simp only [Option.map_some]
        congr 2
        by_cases hi : i = n
        · subst hi
          have hlane : l ≠ lane := by
            intro e; subst e; simp at h
          by_cases hlen : i < (sevenPreds t.c.p).length
          · rw [setAt_getD _ _ _ _ _ hlen, if_pos rfl, Mask.put_getLsbD _ _ _ _ hs, if_neg hlane]
          · rw [← sevenPreds_getD t.c.p]
            simp [List.getD_eq_getElem?_getD, setAt_get, hlen]
        · have h0 : t.c.p.getD n 0 = (sevenPreds t.c.p).getD n 0 := (sevenPreds_getD t.c.p n).symm
          rw [h0]
          simp [List.getD_eq_getElem?_getD, setAt_get, hi]
    · simp [hm]
/-- A write gives its register its value; an amax register keeps the larger of its own and the write's (R354). -/
theorem Group.reg_apply_self (g : Group) (w : RegWr) (sn : Nat) (c : Cls) (n lane : Nat) (hs : w.sound = true)
    (h : w.goes sn c n lane = true) (hp : c = .p → g.holdsP sn n) (ha : c ≠ .am) : (RegWr.apply g w).reg sn c n lane = w.val := by
  cases w with
  | am r x =>
    exfalso; apply ha
    simp only [RegWr.goes, RegWr.hits, Bool.and_true, Bool.and_eq_true, beq_iff_eq] at h
    exact h.1
  | p m i l x =>
    simp only [RegWr.goes, RegWr.hits, Bool.and_eq_true, beq_iff_eq] at h
    obtain ⟨⟨rfl, rfl⟩, rfl, rfl⟩ := h
    obtain ⟨t, ht, hi⟩ := hp rfl
    simp only [RegWr.sound, decide_eq_true_eq] at hs
    simp only [Group.reg, RegWr.strand?_apply, if_true, ht, Option.map_some, RegWr.val]
    rw [setAt_getD _ _ _ _ _ (Nat.lt_of_lt_of_le hi (sevenPreds_length _)), if_pos rfl, Mask.put_getLsbD _ _ _ _ hs, if_pos rfl]
  | gp r x =>
    simp only [RegWr.goes, RegWr.hits, Bool.and_true, Bool.and_eq_true, beq_iff_eq] at h
    obtain ⟨rfl, rfl⟩ := h
    simp only [RegWr.sound, decide_eq_true_eq] at hs
    cases x <;> simp only [Group.reg, RegWr.apply, RegWr.val, Bool.false_eq_true, if_true, if_false, BitVec.getLsbD_or, BitVec.getLsbD_and,
      BitVec.getLsbD_not, oneHot_getLsbD] <;> simp [hs]
  | v r l x =>
    simp only [RegWr.goes, RegWr.hits, Bool.and_eq_true, beq_iff_eq] at h
    obtain ⟨⟨rfl, rfl⟩, rfl⟩ := h
    simp [Group.reg, RegWr.apply, RegWr.val, Group.vreg, Sparse.get_put]
  | _ =>
    simp only [RegWr.goes, RegWr.hits, Bool.and_true, Bool.and_eq_true, beq_iff_eq] at h
    obtain ⟨rfl, rfl⟩ := h
    simp [Group.reg, RegWr.apply, RegWr.val, Group.greg, Group.hreg, Group.breg, Group.threg, Sparse.get_put]

/-- An error mended changes no register and no strand. -/
theorem Group.mend_reg (g : Group) (e : EccWord) (sn : Nat) (c : Cls) (n lane : Nat) : (g.mend e).reg sn c n lane = g.reg sn c n lane := by
  unfold Group.mend
  split
  · rfl
  · cases c <;> rfl
theorem Group.mend_strand? (g : Group) (e : EccWord) (sn : Nat) : (g.mend e).strand? sn = g.strand? sn := by
  unfold Group.mend; split <;> rfl
theorem RegWr.store_reg (g : Group) (w : RegWr) (sn : Nat) (c : Cls) (n lane : Nat) :
    (RegWr.store g w).reg sn c n lane = (RegWr.apply g w).reg sn c n lane := by
  cases w <;> first | rfl | exact Group.mend_reg _ _ _ _ _ _
theorem RegWr.store_strand? (g : Group) (w : RegWr) (sn : Nat) : (RegWr.store g w).strand? sn = (RegWr.apply g w).strand? sn := by
  cases w <;> first | rfl | exact Group.mend_strand? _ _ _
theorem Group.holdsP_store {g : Group} {sn n : Nat} (h : g.holdsP sn n) (w : RegWr) : (RegWr.store g w).holdsP sn n := by
  have h := Group.holdsP_apply h w
  unfold Group.holdsP at h ⊢
  rwa [RegWr.store_strand?]
theorem Group.reg_store_other (g : Group) (w : RegWr) (sn : Nat) (c : Cls) (n lane : Nat) (hs : w.sound = true) (hl : lane < 128)
    (h : w.goes sn c n lane = false) : (RegWr.store g w).reg sn c n lane = g.reg sn c n lane :=
  (RegWr.store_reg g w sn c n lane).trans (g.reg_apply_other w sn c n lane hs hl h)
theorem Group.reg_store_self (g : Group) (w : RegWr) (sn : Nat) (c : Cls) (n lane : Nat) (hs : w.sound = true)
    (h : w.goes sn c n lane = true) (hp : c = .p → g.holdsP sn n) (ha : c ≠ .am) : (RegWr.store g w).reg sn c n lane = w.val :=
  (RegWr.store_reg g w sn c n lane).trans (g.reg_apply_self w sn c n lane hs h hp ha)

theorem Group.holdsP_applyAll {g : Group} {sn n : Nat} (h : g.holdsP sn n) (l : List RegWr) : (applyAll g l).holdsP sn n := by
  induction l generalizing g with
  | nil => exact h
  | cons w l ih => exact ih (Group.holdsP_store h w)
/-- Writes to other registers leave a register as it was. -/
theorem Group.reg_applyAll_other (g : Group) (l : List RegWr) (sn : Nat) (c : Cls) (n lane : Nat) (hs : ∀ w ∈ l, w.sound = true)
    (hl : lane < 128) (h : ∀ w ∈ l, w.goes sn c n lane = false) : (applyAll g l).reg sn c n lane = g.reg sn c n lane := by
  induction l generalizing g with
  | nil => rfl
  | cons w l ih =>
    have h1 := ih (RegWr.store g w) (fun v hv => hs v (List.mem_cons_of_mem _ hv)) fun v hv => h v (List.mem_cons_of_mem _ hv)
    exact h1.trans (g.reg_store_other w sn c n lane (hs w List.mem_cons_self) hl (h w List.mem_cons_self))
/-- Writes that all give a register one value give it that value. -/
theorem Group.reg_applyAll_self (g : Group) (l : List RegWr) (sn : Nat) (c : Cls) (n lane a : Nat) (hs : ∀ w ∈ l, w.sound = true)
    (hl : lane < 128) (hp : c = .p → g.holdsP sn n) (ha : c ≠ .am)
    (hv : ∀ w ∈ l, w.goes sn c n lane = true → w.val = a) (he : ∃ w ∈ l, w.goes sn c n lane = true) :
    (applyAll g l).reg sn c n lane = a := by
  induction l generalizing g with
  | nil => simp at he
  | cons w l ih =>
    have hs' : ∀ v ∈ l, v.sound = true := fun v hv => hs v (List.mem_cons_of_mem _ hv)
    have hp' : c = .p → (RegWr.store g w).holdsP sn n := fun e => Group.holdsP_store (hp e) w
    have hv' : ∀ v ∈ l, v.goes sn c n lane = true → v.val = a := fun v hm => hv v (List.mem_cons_of_mem _ hm)
    by_cases hl' : ∃ v ∈ l, v.goes sn c n lane = true
    · exact ih (RegWr.store g w) hs' hp' hv' hl'
    · have hw : w.goes sn c n lane = true := by
        obtain ⟨v, hm, hg⟩ := he
        rcases List.mem_cons.1 hm with rfl | hm
        · exact hg
        · exact absurd ⟨v, hm, hg⟩ hl'
      have h1 : (applyAll (RegWr.store g w) l).reg sn c n lane = (RegWr.store g w).reg sn c n lane := by
        refine Group.reg_applyAll_other _ _ _ _ _ _ hs' hl ?_
        intro v hm
        by_cases hg : v.goes sn c n lane = true
        · exact absurd ⟨v, hm, hg⟩ hl'
        · simpa using hg
      refine h1.trans ?_
      rw [g.reg_store_self w sn c n lane (hs w List.mem_cons_self) hw hp ha]
      exact hv w List.mem_cons_self hw

/-! ### Views -/

theorem RegWr.apply_fixed (g : Group) (w : RegWr) (l : List Fixed) :
    RegWr.apply { g with fixed := l } w = { RegWr.apply g w with fixed := l } := by
  cases w with
  | am i x => simp only [RegWr.apply]; split <;> rfl
  | _ => rfl
theorem Group.mend_fixed (g : Group) (e : EccWord) (l : List Fixed) : ({ g with fixed := l } : Group).mend e = { g.mend e with fixed := l } := by
  unfold Group.mend; split <;> rfl
theorem RegWr.store_fixed (g : Group) (w : RegWr) (l : List Fixed) :
    RegWr.store { g with fixed := l } w = { RegWr.store g w with fixed := l } := by
  cases w <;> simp only [RegWr.store, RegWr.apply_fixed, Group.mend_fixed]
theorem applyAll_fixed (g : Group) (ws : List RegWr) (l : List Fixed) :
    applyAll { g with fixed := l } ws = { applyAll g ws with fixed := l } := by
  induction ws generalizing g with
  | nil => rfl
  | cons w ws ih => exact (congrArg (fun k => applyAll k ws) (RegWr.store_fixed g w l)).trans (ih _)
theorem applyAll_append (g : Group) (a b : List RegWr) : applyAll g (a ++ b) = applyAll (applyAll g a) b := List.foldl_append
/-- A view is the writes of the results readable by then, in order. -/
theorem Group.view_eq (g : Group) (t : Nat) :
    g.view t = applyAll g (((g.fixed.filter fun f => decide (f.at_ ≤ t)).map Fixed.wrs).flatten) := by
  unfold Group.view
  generalize g.fixed.filter _ = l
  induction l generalizing g with
  | nil => rfl
  | cons f l ih => simp only [List.foldl_cons, List.map_cons, List.flatten_cons, applyAll_append]; exact ih _
/-- A view with later results added: they land after the older ones (R25, R68). -/
theorem Group.view_append (g : Group) (l : List Fixed) (t : Nat) :
    ({ g with fixed := g.fixed ++ l } : Group).view t =
      { applyAll (g.view t) (((l.filter fun f => decide (f.at_ ≤ t)).map Fixed.wrs).flatten) with fixed := g.fixed ++ l } := by
  rw [Group.view_eq, Group.view_eq]
  simp only [List.filter_append, List.map_append, List.flatten_append, applyAll_append, applyAll_fixed]
@[simp] theorem Group.reg_fixed (g : Group) (l : List Fixed) (sn : Nat) (c : Cls) (n lane : Nat) :
    ({ g with fixed := l } : Group).reg sn c n lane = g.reg sn c n lane := rfl
theorem Group.holdsP_view {g : Group} {sn n : Nat} (h : g.holdsP sn n) (t : Nat) : (g.view t).holdsP sn n := by
  rw [Group.view_eq]; exact Group.holdsP_applyAll h _

/-! ### Groups that are alike read alike -/

theorem Group.Like.reg {a k : Group} (h : a.Like k) (sn : Nat) (c : Cls) (n lane : Nat) : k.reg sn c n lane = a.reg sn c n lane := by
  have hs := h.strand sn
  cases c <;> simp only [Group.reg, Group.vreg, Group.greg, Group.hreg, Group.breg, Group.threg, h.v, h.g, h.gp, h.h, h.b, h.th, h.sc, h.am]
  revert hs
  cases a.strand? sn <;> cases k.strand? sn <;> simp
  intro h1 _
  rw [h1]
theorem Group.Like.apply {a k : Group} (h : a.Like k) (w : RegWr) : (RegWr.apply a w).Like (RegWr.apply k w) := by
  cases w with
  | am i x =>
    simp only [RegWr.apply, h.am]
    split
    · exact ⟨h.v, h.g, h.gp, h.h, h.b, h.th, h.sc, by simp, h.fixed, h.inflight, h.shared, h.strand⟩
    · exact h
  | p m i l x =>
    refine ⟨h.v, h.g, h.gp, h.h, h.b, h.th, h.sc, h.am, h.fixed, h.inflight, h.shared, ?_⟩
    intro sn
    have hs := h.strand sn
    rw [RegWr.strand?_apply, RegWr.strand?_apply]
    simp only
    by_cases hm : m = sn
    · simp only [hm, if_true]
      revert hs
      cases a.strand? sn <;> cases k.strand? sn <;> simp
      intro h1 h2
      rw [h1]
      exact ⟨rfl, h2⟩
    · simpa only [hm, if_false] using hs
  | v i l x => exact ⟨by simp [RegWr.apply, h.v], h.g, h.gp, h.h, h.b, h.th, h.sc, h.am, h.fixed, h.inflight, h.shared, h.strand⟩
  | g i x => exact ⟨h.v, by simp [RegWr.apply, h.g], h.gp, h.h, h.b, h.th, h.sc, h.am, h.fixed, h.inflight, h.shared, h.strand⟩
  | gp i x => exact ⟨h.v, h.g, by simp [RegWr.apply, h.gp], h.h, h.b, h.th, h.sc, h.am, h.fixed, h.inflight, h.shared, h.strand⟩
  | h i x => exact ⟨h.v, h.g, h.gp, by simp [RegWr.apply, h.h], h.b, h.th, h.sc, h.am, h.fixed, h.inflight, h.shared, h.strand⟩
  | b i x => exact ⟨h.v, h.g, h.gp, h.h, by simp [RegWr.apply, h.b], h.th, h.sc, h.am, h.fixed, h.inflight, h.shared, h.strand⟩
  | th i x => exact ⟨h.v, h.g, h.gp, h.h, h.b, by simp [RegWr.apply, h.th], h.sc, h.am, h.fixed, h.inflight, h.shared, h.strand⟩
  | sc i x => exact ⟨h.v, h.g, h.gp, h.h, h.b, h.th, by simp [RegWr.apply, h.sc], h.am, h.fixed, h.inflight, h.shared, h.strand⟩
theorem Group.Like.mend {a k : Group} (h : a.Like k) (e : EccWord) : (a.mend e).Like (k.mend e) := by
  have he : k.ecc = a.ecc := h.shared.2.2.2.2.2.2.1
  unfold Group.mend
  rw [he]
  split
  · exact h
  · refine ⟨h.v, h.g, h.gp, h.h, h.b, h.th, h.sc, h.am, h.fixed, h.inflight, ?_, h.strand⟩
    obtain ⟨h1, h2, h3, h4, h5, h6, h7, h8, h9, h10, h11⟩ := h.shared
    exact ⟨h1, h2, h3, h4, h5, h6, by simp only, h8, h9, h10, h11⟩
theorem Group.Like.store {a k : Group} (h : a.Like k) (w : RegWr) : (RegWr.store a w).Like (RegWr.store k w) := by
  have hw := h.apply w
  cases w with
  | p => exact hw
  | am => exact hw
  | _ => exact hw.mend _
theorem Group.Like.applyAll {a k : Group} (h : a.Like k) (l : List RegWr) : (applyAll a l).Like (applyAll k l) := by
  induction l generalizing a k with
  | nil => exact h
  | cons w l ih => exact ih (h.store w)
theorem Group.Like.view {a k : Group} (h : a.Like k) (t : Nat) : (a.view t).Like (k.view t) := by
  rw [Group.view_eq, Group.view_eq, h.fixed]; exact h.applyAll _
theorem Group.Like.holdsP {a k : Group} (h : a.Like k) {sn n : Nat} (hp : a.holdsP sn n) : k.holdsP sn n := by
  obtain ⟨t, ht, hn⟩ := hp
  have hs := h.strand sn
  rw [ht] at hs
  revert hs
  cases hk : k.strand? sn with
  | none => simp
  | some u => intro _; exact ⟨u, hk, hn⟩
/-- States whose groups are alike read alike at every cycle. -/
theorem State.Like.reg {s t : State} (h : s.Like t) (r : StrandRef) (cycle : Nat) (c : Cls) (n lane : Nat) :
    t.reg r cycle c n lane = s.reg r cycle c n lane := by
  have hg := h.2 r.sid r.gi
  unfold State.reg State.groupAt
  revert hg
  cases s.group? r.sid r.gi <;> cases t.group? r.sid r.gi <;> simp
  intro hg
  exact (hg.view cycle).reg _ _ _ _

end Sys2Proof.Machine
end

