-- ==== Sys2Proof/Laws/Fixed.lean ====
section
/-!
SUPPORT. What an instruction with a fixed-latency result leaves: the cycle at which its registers read as it computes them, and everything else
as it was (spec/02 R25; spec/03 R66 to R68).
-/

namespace Sys2Proof.Machine

/-- The state after an instruction of fixed latency has issued. -/
def State.afterFixed (s : State) (x : X) (i : Instr) (lat : Nat) (l : List (List RegWr)) : State :=
  ((s.charged x i).addFixed x.cur.who (x.fixed lat l)).issued x i

theorem issueFixed_clear {s : State} {i : Instr} {x : X} (e : s.clear i = some x) (lat : Nat) (ev : Eval) {l : List (List RegWr)}
    (hl : ev x = .ok l) : issueFixed i lat ev s = .next (s.afterFixed x i lat l) := by
  unfold issueFixed
  rw [issue_clear e]
  simp only [hl]
  rfl
theorem issueFixed_trap {s : State} {i : Instr} {x : X} (e : s.clear i = some x) (lat : Nat) (ev : Eval) {cause lane : Nat}
    (hl : ev x = .error (cause, lane)) : issueFixed i lat ev s = .next (s.trapped x cause lane 0) := by
  unfold issueFixed
  rw [issue_clear e]
  simp only [hl]

/-- The writes of the passes that have landed by a cycle. -/
theorem X.mem_landed (x : X) (lat : Nat) (l : List (List RegWr)) (t : Nat) (w : RegWr) :
    w ∈ (((x.fixed lat l).filter fun f => decide (f.at_ ≤ t)).map Fixed.wrs).flatten ↔
      ∃ k ws, l[k]? = some ws ∧ w ∈ ws ∧ x.cur.cycle + k + lat ≤ t := by
  simp only [X.fixed, List.mem_flatten, List.mem_map, List.mem_filter, List.mem_filterMap, decide_eq_true_eq]
  constructor
  · rintro ⟨ws, ⟨f, ⟨⟨p, hp, hf⟩, ht⟩, rfl⟩, hw⟩
    obtain ⟨i, hi⟩ := List.mem_iff_getElem?.1 hp
    rw [List.getElem?_zip_eq_some] at hi
    split at hf
    · cases hf
    · injection hf with hf
      subst hf
      refine ⟨i, p.1, hi.1, hw, ?_⟩
      have : p.2 = i := by
        have := hi.2
        rw [List.getElem?_range] at this
        · exact (Option.some.inj this).symm
        · rcases List.getElem?_eq_some_iff.1 this with ⟨h, -⟩; simpa using h
      simpa [this] using ht
  · rintro ⟨k, ws, hk, hw, ht⟩
    have hne : ws.isEmpty = false := by
      cases ws with
      | nil => cases hw
      | cons => rfl
    have hlen : k < l.length := by rcases List.getElem?_eq_some_iff.1 hk with ⟨h, -⟩; exact h
    refine ⟨ws, ⟨⟨x.cur.who.sn, x.cur.cycle + k + lat, ws, false⟩, ⟨⟨(ws, k), ?_, by simp [hne]⟩, ht⟩, rfl⟩, hw⟩
    apply List.mem_iff_getElem?.2
    exact ⟨k, by rw [List.getElem?_zip_eq_some]; exact ⟨hk, by rw [List.getElem?_range hlen]⟩⟩

theorem State.group?_addFixed (s : State) (r : StrandRef) (l : List Fixed) :
    (s.addFixed r l).group? r.sid r.gi = (s.group? r.sid r.gi).map fun g => { g with fixed := g.fixed ++ l } := by
  simp [State.addFixed, State.group?_modGroup]
/-- How a register reads once later results are added. -/
theorem State.reg_addFixed (s : State) (r : StrandRef) (l : List Fixed) (t : Nat) (c : Cls) (n lane : Nat) {g : Group}
    (hg : s.group? r.sid r.gi = some g) : (s.addFixed r l).reg r t c n lane =
      (applyAll (g.view t) (((l.filter fun f => decide (f.at_ ≤ t)).map Fixed.wrs).flatten)).reg r.sn c n lane := by
  unfold State.reg State.groupAt
  rw [State.group?_addFixed, hg]
  simp only [Option.map_some, Group.view_append, Group.reg_fixed]

/-- A register that a pass writes reads as written from the cycle at which the pass lands. -/
theorem State.afterFixed_reg {s : State} {x : X} {i : Instr} {g : Group} (hg : s.group? x.cur.who.sid x.cur.who.gi = some g) (lat : Nat)
    (l : List (List RegWr)) (c : Cls) (n lane a k : Nat) (hs : ∀ ws ∈ l, ∀ w ∈ ws, w.sound = true) (hl : lane < 128) (ha : c ≠ .am)
    (hp : c = .p → g.holdsP x.cur.who.sn n) (hv : ∀ ws ∈ l, ∀ w ∈ ws, w.goes x.cur.who.sn c n lane = true → w.val = a)
    (he : ∃ ws, l[k]? = some ws ∧ ∃ w ∈ ws, w.goes x.cur.who.sn c n lane = true) (t : Nat) (ht : x.cur.cycle + k + lat ≤ t) :
    (s.afterFixed x i lat l).reg x.cur.who t c n lane = a := by
  unfold State.afterFixed
  rw [(State.like_issued _ x i).reg]
  have h1 := State.like_charged s x i
  have h2 := h1.2 x.cur.who.sid x.cur.who.gi
  rw [hg] at h2
  cases hk : (s.charged x i).group? x.cur.who.sid x.cur.who.gi with
  | none => rw [hk] at h2; exact h2.elim
  | some y =>
    rw [hk] at h2
    rw [State.reg_addFixed _ _ _ _ _ _ _ hk]
    refine Group.reg_applyAll_self _ _ _ _ _ _ _ ?_ hl ?_ ha ?_ ?_
    · intro w hw
      obtain ⟨k, ws, hws, hw, -⟩ := (x.mem_landed lat l t w).1 hw
      exact hs ws (List.mem_of_getElem? hws) w hw
    · intro e; exact Group.holdsP_view (h2.holdsP (hp e)) t
    · intro w hw hgo
      obtain ⟨k, ws, hws, hw, -⟩ := (x.mem_landed lat l t w).1 hw
      exact hv ws (List.mem_of_getElem? hws) w hw hgo
    · obtain ⟨ws, hws, w, hw, hgo⟩ := he
      exact ⟨w, (x.mem_landed lat l t w).2 ⟨k, ws, hws, hw, ht⟩, hgo⟩
/-- A register that no pass writes reads as before at every cycle. -/
theorem State.afterFixed_other {s : State} {x : X} {i : Instr} {g : Group} (hg : s.group? x.cur.who.sid x.cur.who.gi = some g) (lat : Nat)
    (l : List (List RegWr)) (sn : Nat) (c : Cls) (n lane : Nat) (hs : ∀ ws ∈ l, ∀ w ∈ ws, w.sound = true) (hl : lane < 128)
    (hv : ∀ ws ∈ l, ∀ w ∈ ws, w.goes sn c n lane = false) (t : Nat) :
    (s.afterFixed x i lat l).reg ⟨x.cur.who.sid, x.cur.who.gi, sn⟩ t c n lane = s.reg ⟨x.cur.who.sid, x.cur.who.gi, sn⟩ t c n lane := by
  unfold State.afterFixed
  rw [(State.like_issued _ x i).reg]
  have h1 := State.like_charged s x i
  rw [← h1.reg]
  have h2 := h1.2 x.cur.who.sid x.cur.who.gi
  rw [hg] at h2
  cases hk : (s.charged x i).group? x.cur.who.sid x.cur.who.gi with
  | none => rw [hk] at h2; exact h2.elim
  | some y =>
    have h3 : (s.charged x i).addFixed x.cur.who (x.fixed lat l) = (s.charged x i).addFixed ⟨x.cur.who.sid, x.cur.who.gi, sn⟩ (x.fixed lat l) := rfl
    rw [h3, State.reg_addFixed _ ⟨x.cur.who.sid, x.cur.who.gi, sn⟩ _ _ _ _ _ hk]
    rw [Group.reg_applyAll_other]
    · simp [State.reg, State.groupAt, hk]
    · intro w hw
      obtain ⟨k, ws, hws, hw, -⟩ := (x.mem_landed lat l t w).1 hw
      exact hs ws (List.mem_of_getElem? hws) w hw
    · exact hl
    · intro w hw
      obtain ⟨k, ws, hws, hw, -⟩ := (x.mem_landed lat l t w).1 hw
      exact hv ws (List.mem_of_getElem? hws) w hw

/-! ### Lanes and passes -/

theorem X.mem_passLanes (x : X) (k L : Nat) : L ∈ x.passLanes k ↔ x.mask.getLsbD L = true ∧ L / 32 = k := by
  simp only [X.passLanes, List.mem_filterMap, List.mem_range]
  constructor
  · rintro ⟨i, hi, h⟩
    split at h
    · rename_i hb
      injection h with h; subst h
      exact ⟨hb, by omega⟩
    · cases h
  · rintro ⟨h, rfl⟩
    refine ⟨L % 32, by omega, ?_⟩
    have : 32 * (L / 32) + L % 32 = L := by omega
    simp [this, h]
theorem X.mem_lanes (x : X) (L : Nat) : L ∈ x.lanes ↔ x.mask.getLsbD L = true := by
  simp only [X.lanes, Mask.lanes, List.mem_filter, List.mem_range, and_iff_right_iff_imp]
  intro h
  by_cases hL : L < 128
  · exact hL
  · rw [BitVec.getLsbD_of_ge _ _ (by omega)] at h; cases h
theorem X.each_get (x : X) (f : Nat → List RegWr) (k : Nat) :
    (x.each f)[k]? = if k < passesOf x.width then some ((x.passLanes k).flatMap f) else none := by
  simp only [X.each, List.getElem?_map]
  split
  · rw [List.getElem?_range ‹_›]; rfl
  · rw [List.getElem?_eq_none (by simp; omega)]; rfl
theorem X.mem_each (x : X) (f : Nat → List RegWr) (ws : List RegWr) (h : ws ∈ x.each f) (w : RegWr) (hw : w ∈ ws) :
    ∃ L, L ∈ x.lanes ∧ w ∈ f L := by
  obtain ⟨k, hk⟩ := List.mem_iff_getElem?.1 h
  rw [X.each_get] at hk
  split at hk
  · injection hk with hk; subst hk
    obtain ⟨L, hL, hw⟩ := List.mem_flatMap.1 hw
    exact ⟨L, (x.mem_lanes L).2 ((x.mem_passLanes k L).1 hL).1, hw⟩
  · cases hk
theorem X.laneOk_lt {x : X} {L : Nat} (h : x.laneOk L) : L < 128 := by
  by_cases hL : L < 128
  · exact hL
  · have := h.1; rw [BitVec.getLsbD_of_ge _ _ (by omega)] at this; cases this
theorem X.lanes_lt {x : X} {L : Nat} (h : L ∈ x.lanes) : L < 128 := by
  simp only [X.lanes, Mask.lanes, List.mem_filter, List.mem_range] at h; exact h.1
/-- A per-lane result: the register that lane `L` writes reads its value once its pass has landed. -/
theorem State.afterEach_reg {s : State} {x : X} {i : Instr} {g : Group} (hg : s.group? x.cur.who.sid x.cur.who.gi = some g) (lat : Nat)
    (f : Nat → List RegWr) (c : Cls) (n L a : Nat) (hc : c = .v ∨ c = .p) (hf : ∀ K, K < 128 → ∀ w ∈ f K, w.sound = true)
    (hlane : ∀ K, ∀ w ∈ f K, w.goes x.cur.who.sn c n L = true → K = L) (hp : c = .p → g.holdsP x.cur.who.sn n)
    (hv : ∀ w ∈ f L, w.goes x.cur.who.sn c n L = true → w.val = a) (he : ∃ w ∈ f L, w.goes x.cur.who.sn c n L = true) (hL : x.laneOk L)
    (t : Nat) (ht : x.cur.cycle + L / 32 + lat ≤ t) : (s.afterFixed x i lat (x.each f)).reg x.cur.who t c n L = a := by
  refine State.afterFixed_reg hg lat _ c n L a (L / 32) ?_ (X.laneOk_lt hL) (by rcases hc with rfl | rfl <;> simp) hp ?_ ?_ t ht
  · intro ws hws w hw
    obtain ⟨K, hK, hw⟩ := x.mem_each f ws hws w hw
    exact hf K (X.lanes_lt hK) w hw
  · intro ws hws w hw hgo
    obtain ⟨K, hK, hw⟩ := x.mem_each f ws hws w hw
    have := hlane K w hw hgo; subst this
    exact hv w hw hgo
  · have h1 := hL.1
    have h2 := hL.2
    refine ⟨_, by rw [X.each_get, if_pos (by omega)], ?_⟩
    obtain ⟨w, hw, hgo⟩ := he
    exact ⟨w, List.mem_flatMap.2 ⟨L, (x.mem_passLanes _ L).2 ⟨h1, rfl⟩, hw⟩, hgo⟩

/-! ### Integer, v and predicate results -/

/-- Where an instruction that nothing shared stops finds its group. -/
theorem State.clear_group {s : State} {i : Instr} {x : X} (e : s.clear i = some x) :
    s.group? x.cur.who.sid x.cur.who.gi = some x.g ∧ ∃ t, x.g.strand? x.cur.who.sn = some t := by
  obtain ⟨c, h, -, -, hx, -⟩ := State.clear_spec e
  obtain ⟨rfl, -, hg, ⟨t, ht, -⟩, -⟩ := mkX_spec hx
  exact ⟨hg, t, ht⟩
/-- A result in one v register, lane by lane. -/
theorem completes_v {i : Instr} {s : State} {lat d : Nat} {ev : Eval} {f : X → Nat → Nat} (hx : exec i s = issueFixed i lat ev s)
    (hev : ∀ x, s.clear i = some x → ev x = .ok (x.each fun L => [.v d L (BitVec.ofNat 32 (f x L))])) :
    completes i s fun x t => x.wroteV t d lat (f x) := by
  intro x e
  refine ⟨_, hx.trans (issueFixed_clear e lat ev (hev x e)), ?_⟩
  intro L hL cycle hc
  refine State.afterEach_reg (State.clear_group e).1 lat _ .v d L (f x L % 2 ^ 32) (.inl rfl) ?_ ?_ (by simp) ?_ ?_ hL cycle hc
  · intro K hK w hw
    simp only [List.mem_singleton] at hw; subst hw
    simpa [RegWr.sound] using hK
  · intro K w hw
    simp only [List.mem_singleton] at hw; subst hw
    simp [RegWr.goes, RegWr.hits]
  · intro w hw _
    simp only [List.mem_singleton] at hw; subst hw
    simp [RegWr.val]
  · exact ⟨_, List.mem_singleton.2 rfl, by simp [RegWr.goes, RegWr.hits]⟩
/-- A result in one lane predicate, lane by lane. -/
theorem completes_p {i : Instr} {s : State} {lat d : Nat} {ev : Eval} {f : X → Nat → Bool} (hd : d < 7)
    (hx : exec i s = issueFixed i lat ev s)
    (hev : ∀ x, s.clear i = some x → ev x = .ok (x.each fun L => [.p x.cur.who.sn d L (f x L)])) :
    completes i s fun x t => x.wroteP t d lat (f x) := by
  intro x e
  refine ⟨_, hx.trans (issueFixed_clear e lat ev (hev x e)), ?_⟩
  intro L hL cycle hc
  obtain ⟨hg, u, hu⟩ := State.clear_group e
  refine State.afterEach_reg hg lat _ .p d L (if f x L then 1 else 0) (.inr rfl) ?_ ?_ (fun _ => ⟨u, hu, hd⟩) ?_ ?_ hL cycle hc
  · intro K hK w hw
    simp only [List.mem_singleton] at hw; subst hw
    simpa [RegWr.sound] using hK
  · intro K w hw
    simp only [List.mem_singleton] at hw; subst hw
    simp [RegWr.goes, RegWr.hits]
  · intro w hw _
    simp only [List.mem_singleton] at hw; subst hw
    simp [RegWr.val]
  · exact ⟨_, List.mem_singleton.2 rfl, by simp [RegWr.goes, RegWr.hits]⟩
/-- A register of the group written once, by the first pass. -/
theorem State.afterOnce_reg {s : State} {x : X} {i : Instr} (e : s.clear i = some x) (lat : Nat) (l : List RegWr) (c : Cls) (n a : Nat)
    (hc : c ≠ .p) (ha : c ≠ .am) (hs : ∀ w ∈ l, w.sound = true) (hv : ∀ w ∈ l, w.goes x.cur.who.sn c n 0 = true → w.val = a)
    (he : ∃ w ∈ l, w.goes x.cur.who.sn c n 0 = true) (t : Nat) (ht : x.cur.cycle + lat ≤ t) :
    (s.afterFixed x i lat [l]).reg x.cur.who t c n 0 = a := by
  refine State.afterFixed_reg (State.clear_group e).1 lat [l] c n 0 a 0 ?_ (by decide) ha (fun h => absurd h hc) ?_ ?_ t (by omega)
  · intro ws hws w hw; simp only [List.mem_singleton] at hws; subst hws; exact hs w hw
  · intro ws hws w hw; simp only [List.mem_singleton] at hws; subst hws; exact hv w hw
  · exact ⟨l, rfl, he⟩
/-- A 32-bit result or an even-odd pair, in v registers lane by lane or in g registers (R59, R108). -/
theorem completes_int {i : Instr} {s : State} {lat d : Nat} {u wide : Bool} {ev : Eval} {f : X → Nat → Nat}
    (hx : exec i s = issueFixed i lat ev s)
    (hev : ∀ x, s.clear i = some x → ev x = .ok (x.alu u fun L => dstWr u wide d L (f x L))) :
    completes i s fun x t => x.wroteInt t u wide d lat (f x) := by
  intro x e
  refine ⟨_, hx.trans (issueFixed_clear e lat ev (hev x e)), ?_⟩
  have hg := (State.clear_group e).1
  cases u with
  | true =>
    simp only [X.wroteInt, if_true, X.alu, X.wroteG]
    refine ⟨fun cycle hc => State.afterOnce_reg e lat _ .g d _ (by simp) (by simp) ?_ ?_ ?_ cycle hc, fun hw cycle hc =>
      State.afterOnce_reg e lat _ .g (d + 1) _ (by simp) (by simp) ?_ ?_ ?_ cycle hc⟩
    · intro w hw; cases wide <;> simp [dstWr] at hw <;> (try rcases hw with rfl | rfl) <;> rfl
    · intro w hw; cases wide <;> simp [dstWr] at hw <;> (try rcases hw with rfl | rfl) <;>
        simp [RegWr.goes, RegWr.hits, RegWr.val]
    · cases wide <;> simp [dstWr, RegWr.goes, RegWr.hits]
    · intro w hw; cases wide <;> simp [dstWr] at hw <;> (try rcases hw with rfl | rfl) <;> rfl
    · intro w hw; cases wide <;> simp [dstWr] at hw <;> (try rcases hw with rfl | rfl) <;>
        simp [RegWr.goes, RegWr.hits, RegWr.val]
    · subst hw; simp [dstWr, RegWr.goes, RegWr.hits]
  | false =>
    simp only [X.wroteInt, Bool.false_eq_true, if_false, X.alu, X.wroteV]
    refine ⟨fun L hL cycle hc => State.afterEach_reg hg lat _ .v d L _ (.inl rfl) ?_ ?_ (by simp) ?_ ?_ hL cycle hc, fun hw L hL cycle hc =>
      State.afterEach_reg hg lat _ .v (d + 1) L _ (.inl rfl) ?_ ?_ (by simp) ?_ ?_ hL cycle hc⟩
    · intro K hK w hw; cases wide <;> simp [dstWr] at hw <;> (try rcases hw with rfl | rfl) <;> simpa [RegWr.sound] using hK
    · intro K w hw; cases wide <;> simp [dstWr] at hw <;> (try rcases hw with rfl | rfl) <;> simp [RegWr.goes, RegWr.hits]
    · intro w hw; cases wide <;> simp [dstWr] at hw <;> (try rcases hw with rfl | rfl) <;>
        simp [RegWr.goes, RegWr.hits, RegWr.val]
    · cases wide <;> simp [dstWr, RegWr.goes, RegWr.hits]
    · intro K hK w hw; cases wide <;> simp [dstWr] at hw <;> (try rcases hw with rfl | rfl) <;> simpa [RegWr.sound] using hK
    · intro K w hw; cases wide <;> simp [dstWr] at hw <;> (try rcases hw with rfl | rfl) <;> simp [RegWr.goes, RegWr.hits]
    · intro w hw; cases wide <;> simp [dstWr] at hw <;> (try rcases hw with rfl | rfl) <;>
        simp [RegWr.goes, RegWr.hits, RegWr.val]
    · subst hw; simp [dstWr, RegWr.goes, RegWr.hits]

end Sys2Proof.Machine
end

