-- ==== Sys2Proof/Laws/Memory.lean ====
section
/-!
SUPPORT. The memory operations: what each byte reads as after them, what else they leave alone, and that each keeps the canonical form of
main memory and of the host's memory.
-/

namespace Sys2Proof.Machine

/-! ### Watches fire and nothing else changes -/

/-- An operation folded over a list keeps what each of its steps keeps. -/
theorem foldl_keeps {α β γ : Type} (f : β → α → β) (g : β → γ) (h : ∀ b a, g (f b a) = g b) (l : List α) (b : β) : g (l.foldl f b) = g b := by
  induction l generalizing b with
  | nil => rfl
  | cons a l ih => exact (ih (f b a)).trans (h b a)
/-- The same of a property. -/
theorem foldl_holds {α β : Type} (f : β → α → β) (P : β → Prop) (h : ∀ b a, P b → P (f b a)) (l : List α) (b : β) (hb : P b) : P (l.foldl f b) := by
  induction l generalizing b with
  | nil => exact hb
  | cons a l ih => exact ih (f b a) (h b a hb)
@[simp] theorem fireWatches_mem (s : State) (pa n : Nat) : (fireWatches s pa n).mem = s.mem :=
  foldl_keeps _ State.mem (fun b a => by simp) _ _
@[simp] theorem fireWatches_hostMem (s : State) (pa n : Nat) : (fireWatches s pa n).hostMem = s.hostMem :=
  foldl_keeps _ State.hostMem (fun b a => by simp) _ _
@[simp] theorem fireWatches_memFailed (s : State) (pa n : Nat) : (fireWatches s pa n).memFailed = s.memFailed :=
  foldl_keeps _ State.memFailed (fun b a => by simp) _ _
@[simp] theorem fireWatches_tenants (s : State) (pa n : Nat) : (fireWatches s pa n).tenants = s.tenants :=
  foldl_keeps _ State.tenants (fun b a => by simp) _ _
@[simp] theorem fireWatches_regions (s : State) (pa n : Nat) : (fireWatches s pa n).regions = s.regions :=
  foldl_keeps _ State.regions (fun b a => by simp) _ _

/-! ### Bytes at their home point -/

@[simp] theorem State.poke_mem (s : State) (pa : Nat) (bs : List Byte) : (s.poke pa bs).mem = Sparse.putList 0#8 s.mem pa bs := by
  simp [State.poke]
@[simp] theorem State.poke_hostMem (s : State) (pa : Nat) (bs : List Byte) : (s.poke pa bs).hostMem = s.hostMem := by
  simp [State.poke]
@[simp] theorem State.poke_memFailed (s : State) (pa : Nat) (bs : List Byte) : (s.poke pa bs).memFailed = s.memFailed := by
  simp [State.poke]
/-- A byte after bytes are written: new where they reach, as before elsewhere. -/
theorem State.byteAt_poke (s : State) (pa : Nat) (bs : List Byte) (a : Nat) :
    (s.poke pa bs).byteAt a = if pa ≤ a ∧ a < pa + bs.length then bs.getD (a - pa) 0#8 else s.byteAt a := by
  unfold State.byteAt
  rw [State.poke_mem, Sparse.get_putList]
/-- A byte outside the bytes written is as before. -/
theorem State.byteAt_poke_out (s : State) {pa a : Nat} {bs : List Byte} (h : a < pa ∨ pa + bs.length ≤ a) : (s.poke pa bs).byteAt a = s.byteAt a := by
  rw [State.byteAt_poke, if_neg (by omega)]
/-- Writing bytes where no granule has failed writes them all. -/
theorem State.writePa_clean (s : State) {pa : Nat} {bs : List Byte} (h : s.failedIn pa bs.length = []) : s.writePa pa bs = (s.poke pa bs, []) := by
  simp [State.writePa, h]
/-- Reading bytes where no granule has failed reads them all. -/
theorem State.readPa_clean (s : State) {pa n : Nat} (h : s.failedIn pa n = []) : s.readPa pa n = (s.peek pa n, []) := by
  simp [State.readPa, h]
/-- Reading bytes where a granule has failed reads zeros (R153). -/
theorem State.readPa_failed (s : State) {pa n f : Nat} {l : List Nat} (h : s.failedIn pa n = f :: l) : s.readPa pa n = (List.replicate n 0#8, f :: l) := by
  simp [State.readPa, h]

/-! ### The canonical form -/

/-- Main memory in canonical form, and the host's. -/
theorem State.memOk_iff (s : State) : s.memOk = true ↔ Memory.wf s.mem = true ∧ Memory.wf s.hostMem = true := by
  simp [State.memOk]
/-- An operation that leaves both memories alone keeps the form. -/
theorem State.memOk_of_eq {s t : State} (hm : t.mem = s.mem) (hh : t.hostMem = s.hostMem) (h : s.memOk = true) : t.memOk = true := by
  simpa [State.memOk, hm, hh] using h
theorem State.reset_memOk : State.reset.memOk = true := by decide
theorem fireWatches_memOk {s : State} (h : s.memOk = true) (pa n : Nat) : (fireWatches s pa n).memOk = true :=
  State.memOk_of_eq (fireWatches_mem s pa n) (fireWatches_hostMem s pa n) h
theorem State.poke_memOk {s : State} (h : s.memOk = true) (pa : Nat) (bs : List Byte) : (s.poke pa bs).memOk = true := by
  rw [State.memOk_iff] at h ⊢
  rw [State.poke_mem, State.poke_hostMem]
  exact ⟨Sparse.wf_putList h.1 pa bs, h.2⟩
theorem State.writePa_memOk {s : State} (h : s.memOk = true) (pa : Nat) (bs : List Byte) : (s.writePa pa bs).1.memOk = true := by
  unfold State.writePa
  dsimp only
  split
  · exact State.poke_memOk h pa bs
  · rw [State.memOk_iff] at h ⊢
    refine ⟨?_, by simpa using h.2⟩
    simp only [fireWatches_mem, State.cacheMend_mem]
    refine foldl_holds _ (fun m => Memory.wf m = true) (fun m e hm => ?_) _ _ h.1
    split
    · exact hm
    · exact Sparse.wf_put hm _ _
theorem State.pokeHost_memOk {s : State} (h : s.memOk = true) (vf va : Nat) (bs : List Byte) : (s.pokeHost vf va bs).memOk = true := by
  rw [State.memOk_iff] at h ⊢
  exact ⟨h.1, Sparse.wf_putList h.2 _ bs⟩
theorem State.devWrite_memOk {s : State} (h : s.memOk = true) (vf va : Nat) (bs : List Byte) : (s.devWrite vf va bs).memOk = true := by
  refine foldl_holds _ (fun (t : State) => t.memOk = true) (fun t p ht => ?_) _ _ h
  split
  · exact ht
  · exact State.poke_memOk ht _ _
theorem State.countRcb_memOk {s : State} (h : s.memOk = true) (rk off n : Nat) : (s.countRcb rk off n).memOk = true := by
  unfold State.countRcb
  split
  · exact h
  split
  · exact h
  split
  · exact h
  · exact State.devWrite_memOk h _ _ _
theorem State.countOob_memOk {s : State} (h : s.memOk = true) (rk n : Nat) : (s.countOob rk n).memOk = true := State.countRcb_memOk h rk 100 n
theorem State.countUncor_memOk {s : State} (h : s.memOk = true) (rk n : Nat) : (s.countUncor rk n).memOk = true := State.countRcb_memOk h rk 104 n
theorem State.countQerr_memOk {s : State} (h : s.memOk = true) (rk : Nat) : (s.countQerr rk).memOk = true := State.countRcb_memOk h rk 108 1
theorem State.countDmiss_memOk {s : State} (h : s.memOk = true) (rk : Nat) : (s.countDmiss rk).memOk = true := State.countRcb_memOk h rk 96 1
theorem State.modSlice_memOk {s : State} (h : s.memOk = true) (sid : Nat) (f : Slice → Slice) : (s.modSlice sid f).memOk = true :=
  State.memOk_of_eq (by simp) (by simp) h
theorem State.modGroup_memOk {s : State} (h : s.memOk = true) (sid gi : Nat) (f : Group → Group) : (s.modGroup sid gi f).memOk = true :=
  State.memOk_of_eq (by simp) (by simp) h
theorem State.modStrand_memOk {s : State} (h : s.memOk = true) (r : StrandRef) (f : Strand → Strand) : (s.modStrand r f).memOk = true :=
  State.memOk_of_eq (by simp) (by simp) h
theorem State.modCore_memOk {s : State} (h : s.memOk = true) (core : Nat) (f : Core → Core) : (s.modCore core f).memOk = true :=
  State.memOk_of_eq (by simp) (by simp) h

end Sys2Proof.Machine
end

