-- ==== Sys2Proof/Laws/PerInstr.lean ====
section
/-!
SUPPORT. What every encoding has in common, one lemma for each constructor of Instr: STALL, END and the guard of an instruction stand in the fields
that R49 gives them, and bit 82 is zero; an event has no header and no encoding.
-/

namespace Sys2Proof.Laws

/-- The fields of an encoding hold its header (R49). -/
def HeaderFields.Statement (i : Instr) : Prop :=
  (i.hdr = none → i.fields = none) ∧
  ∀ (h : Hdr) (f : Fields), i.hdr = some h → i.fields = some f → f.stall = h.stall ∧ f.endb = bit h.endRun ∧ f.rsv = 0 ∧ f.guard = h.guard

/-- A header's fields give its guard back. -/
theorem base_guard (h : Hdr) (maj func : Nat) : (h.base maj func).guard = h.guard := by
  obtain ⟨s, e, g⟩ := h
  cases g <;> rename_i n p <;> cases n <;> rfl

theorem HeaderFields.iadd (h : Hdr) (uni : Bool) (ty : IntTy) (sat : Bool) (d : Nat) (a : Src) (b : Src) : HeaderFields.Statement (.iadd h uni ty sat d a b) :=
  ⟨nofun, fun _ _ e k => by cases e; cases k; exact ⟨rfl, rfl, rfl, base_guard h 0 0⟩⟩
theorem HeaderFields.isub (h : Hdr) (uni : Bool) (ty : IntTy) (sat : Bool) (d : Nat) (a : Src) (b : Src) : HeaderFields.Statement (.isub h uni ty sat d a b) :=
  ⟨nofun, fun _ _ e k => by cases e; cases k; exact ⟨rfl, rfl, rfl, base_guard h 0 0⟩⟩
theorem HeaderFields.imin (h : Hdr) (uni : Bool) (ty : IntTy) (d : Nat) (a : Src) (b : Src) : HeaderFields.Statement (.imin h uni ty d a b) :=
  ⟨nofun, fun _ _ e k => by cases e; cases k; exact ⟨rfl, rfl, rfl, base_guard h 0 0⟩⟩
theorem HeaderFields.imax (h : Hdr) (uni : Bool) (ty : IntTy) (d : Nat) (a : Src) (b : Src) : HeaderFields.Statement (.imax h uni ty d a b) :=
  ⟨nofun, fun _ _ e k => by cases e; cases k; exact ⟨rfl, rfl, rfl, base_guard h 0 0⟩⟩
theorem HeaderFields.imul (h : Hdr) (uni : Bool) (ty : IntTy) (sat : Bool) (d : Nat) (a : Src) (b : Src) : HeaderFields.Statement (.imul h uni ty sat d a b) :=
  ⟨nofun, fun _ _ e k => by cases e; cases k; exact ⟨rfl, rfl, rfl, base_guard h 0 0⟩⟩
theorem HeaderFields.imad (h : Hdr) (uni : Bool) (ty : IntTy) (sat : Bool) (d : Nat) (a : Src) (b : Src) (c : Src) : HeaderFields.Statement (.imad h uni ty sat d a b c) :=
  ⟨nofun, fun _ _ e k => by cases e; cases k; exact ⟨rfl, rfl, rfl, base_guard h 0 0⟩⟩
theorem HeaderFields.imulh (h : Hdr) (uni : Bool) (ty : IntTy) (d : Nat) (a : Src) (b : Src) : HeaderFields.Statement (.imulh h uni ty d a b) :=
  ⟨nofun, fun _ _ e k => by cases e; cases k; exact ⟨rfl, rfl, rfl, base_guard h 0 0⟩⟩
theorem HeaderFields.idiv (h : Hdr) (uni : Bool) (ty : IntTy) (d : Nat) (a : Src) (b : Src) : HeaderFields.Statement (.idiv h uni ty d a b) :=
  ⟨nofun, fun _ _ e k => by cases e; cases k; exact ⟨rfl, rfl, rfl, base_guard h 0 0⟩⟩
theorem HeaderFields.irem (h : Hdr) (uni : Bool) (ty : IntTy) (d : Nat) (a : Src) (b : Src) : HeaderFields.Statement (.irem h uni ty d a b) :=
  ⟨nofun, fun _ _ e k => by cases e; cases k; exact ⟨rfl, rfl, rfl, base_guard h 0 0⟩⟩
theorem HeaderFields.ineg (h : Hdr) (uni : Bool) (ty : IntTy) (sat : Bool) (d : Nat) (a : Src) : HeaderFields.Statement (.ineg h uni ty sat d a) :=
  ⟨nofun, fun _ _ e k => by cases e; cases k; exact ⟨rfl, rfl, rfl, base_guard h 0 0⟩⟩
theorem HeaderFields.iabs (h : Hdr) (uni : Bool) (ty : IntTy) (sat : Bool) (d : Nat) (a : Src) : HeaderFields.Statement (.iabs h uni ty sat d a) :=
  ⟨nofun, fun _ _ e k => by cases e; cases k; exact ⟨rfl, rfl, rfl, base_guard h 0 0⟩⟩
theorem HeaderFields.and (h : Hdr) (uni : Bool) (wide : Bool) (d : Nat) (a : Src) (b : Src) : HeaderFields.Statement (.and h uni wide d a b) :=
  ⟨nofun, fun _ _ e k => by cases e; cases k; exact ⟨rfl, rfl, rfl, base_guard h 0 0⟩⟩
theorem HeaderFields.or (h : Hdr) (uni : Bool) (wide : Bool) (d : Nat) (a : Src) (b : Src) : HeaderFields.Statement (.or h uni wide d a b) :=
  ⟨nofun, fun _ _ e k => by cases e; cases k; exact ⟨rfl, rfl, rfl, base_guard h 0 0⟩⟩
theorem HeaderFields.xor (h : Hdr) (uni : Bool) (wide : Bool) (d : Nat) (a : Src) (b : Src) : HeaderFields.Statement (.xor h uni wide d a b) :=
  ⟨nofun, fun _ _ e k => by cases e; cases k; exact ⟨rfl, rfl, rfl, base_guard h 0 0⟩⟩
theorem HeaderFields.andn (h : Hdr) (uni : Bool) (wide : Bool) (d : Nat) (a : Src) (b : Src) : HeaderFields.Statement (.andn h uni wide d a b) :=
  ⟨nofun, fun _ _ e k => by cases e; cases k; exact ⟨rfl, rfl, rfl, base_guard h 0 0⟩⟩
theorem HeaderFields.not (h : Hdr) (uni : Bool) (wide : Bool) (d : Nat) (a : Src) : HeaderFields.Statement (.not h uni wide d a) :=
  ⟨nofun, fun _ _ e k => by cases e; cases k; exact ⟨rfl, rfl, rfl, base_guard h 0 0⟩⟩
theorem HeaderFields.shl (h : Hdr) (uni : Bool) (ty : IntTy) (d : Nat) (a : Src) (b : Src) : HeaderFields.Statement (.shl h uni ty d a b) :=
  ⟨nofun, fun _ _ e k => by cases e; cases k; exact ⟨rfl, rfl, rfl, base_guard h 0 0⟩⟩
theorem HeaderFields.shr (h : Hdr) (uni : Bool) (ty : IntTy) (d : Nat) (a : Src) (b : Src) : HeaderFields.Statement (.shr h uni ty d a b) :=
  ⟨nofun, fun _ _ e k => by cases e; cases k; exact ⟨rfl, rfl, rfl, base_guard h 0 0⟩⟩
theorem HeaderFields.sar (h : Hdr) (uni : Bool) (ty : IntTy) (d : Nat) (a : Src) (b : Src) : HeaderFields.Statement (.sar h uni ty d a b) :=
  ⟨nofun, fun _ _ e k => by cases e; cases k; exact ⟨rfl, rfl, rfl, base_guard h 0 0⟩⟩
theorem HeaderFields.bfe (h : Hdr) (uni : Bool) (ty : IntTy) (d : Nat) (a : Src) (b : Src) : HeaderFields.Statement (.bfe h uni ty d a b) :=
  ⟨nofun, fun _ _ e k => by cases e; cases k; exact ⟨rfl, rfl, rfl, base_guard h 0 0⟩⟩
theorem HeaderFields.bfi (h : Hdr) (uni : Bool) (wide : Bool) (d : Nat) (a : Src) (b : Src) (c : Src) : HeaderFields.Statement (.bfi h uni wide d a b c) :=
  ⟨nofun, fun _ _ e k => by cases e; cases k; exact ⟨rfl, rfl, rfl, base_guard h 0 0⟩⟩
theorem HeaderFields.brev (h : Hdr) (uni : Bool) (wide : Bool) (d : Nat) (a : Src) : HeaderFields.Statement (.brev h uni wide d a) :=
  ⟨nofun, fun _ _ e k => by cases e; cases k; exact ⟨rfl, rfl, rfl, base_guard h 0 0⟩⟩
theorem HeaderFields.clz (h : Hdr) (uni : Bool) (wide : Bool) (d : Nat) (a : Src) : HeaderFields.Statement (.clz h uni wide d a) :=
  ⟨nofun, fun _ _ e k => by cases e; cases k; exact ⟨rfl, rfl, rfl, base_guard h 0 0⟩⟩
theorem HeaderFields.popc (h : Hdr) (uni : Bool) (wide : Bool) (d : Nat) (a : Src) : HeaderFields.Statement (.popc h uni wide d a) :=
  ⟨nofun, fun _ _ e k => by cases e; cases k; exact ⟨rfl, rfl, rfl, base_guard h 0 0⟩⟩
theorem HeaderFields.isetp (h : Hdr) (uni : Bool) (cmp : Cmp) (ty : IntTy) (d : Nat) (a : Src) (b : Src) : HeaderFields.Statement (.isetp h uni cmp ty d a b) :=
  ⟨nofun, fun _ _ e k => by cases e; cases k; exact ⟨rfl, rfl, rfl, base_guard h 0 0⟩⟩
theorem HeaderFields.sel (h : Hdr) (uni : Bool) (wide : Bool) (d : Nat) (a : Src) (b : Src) (p : PredRef) : HeaderFields.Statement (.sel h uni wide d a b p) :=
  ⟨nofun, fun _ _ e k => by cases e; cases k; exact ⟨rfl, rfl, rfl, base_guard h 0 0⟩⟩
theorem HeaderFields.idp4 (h : Hdr) (uni : Bool) (sgn : Bool) (sat : Bool) (d : Nat) (a : Src) (b : Src) (c : Src) : HeaderFields.Statement (.idp4 h uni sgn sat d a b c) :=
  ⟨nofun, fun _ _ e k => by cases e; cases k; exact ⟨rfl, rfl, rfl, base_guard h 0 0⟩⟩
theorem HeaderFields.ishrq (h : Hdr) (uni : Bool) (ty : IntTy) (d : Nat) (a : Src) (b : Src) : HeaderFields.Statement (.ishrq h uni ty d a b) :=
  ⟨nofun, fun _ _ e k => by cases e; cases k; exact ⟨rfl, rfl, rfl, base_guard h 0 0⟩⟩
theorem HeaderFields.mov (h : Hdr) (uni : Bool) (wide : Bool) (d : Nat) (a : Src) : HeaderFields.Statement (.mov h uni wide d a) :=
  ⟨nofun, fun _ _ e k => by cases e; cases k; exact ⟨rfl, rfl, rfl, base_guard h 0 0⟩⟩
theorem HeaderFields.movi (h : Hdr) (uni : Bool) (d : Nat) (imm : W32) : HeaderFields.Statement (.movi h uni d imm) :=
  ⟨nofun, fun _ _ e k => by cases e; cases k; exact ⟨rfl, rfl, rfl, base_guard h 0 0⟩⟩
theorem HeaderFields.fadd (h : Hdr) (rm : Option Rm) (ty : FloatTy) (d : Nat) (a : Src) (b : Src) : HeaderFields.Statement (.fadd h rm ty d a b) :=
  ⟨nofun, fun _ _ e k => by cases e; cases k; exact ⟨rfl, rfl, rfl, base_guard h 0 0⟩⟩
theorem HeaderFields.fsub (h : Hdr) (rm : Option Rm) (ty : FloatTy) (d : Nat) (a : Src) (b : Src) : HeaderFields.Statement (.fsub h rm ty d a b) :=
  ⟨nofun, fun _ _ e k => by cases e; cases k; exact ⟨rfl, rfl, rfl, base_guard h 0 0⟩⟩
theorem HeaderFields.fmul (h : Hdr) (rm : Option Rm) (ty : FloatTy) (d : Nat) (a : Src) (b : Src) : HeaderFields.Statement (.fmul h rm ty d a b) :=
  ⟨nofun, fun _ _ e k => by cases e; cases k; exact ⟨rfl, rfl, rfl, base_guard h 0 0⟩⟩
theorem HeaderFields.fmin (h : Hdr) (ty : FloatTy) (d : Nat) (a : Src) (b : Src) : HeaderFields.Statement (.fmin h ty d a b) :=
  ⟨nofun, fun _ _ e k => by cases e; cases k; exact ⟨rfl, rfl, rfl, base_guard h 0 0⟩⟩
theorem HeaderFields.fmax (h : Hdr) (ty : FloatTy) (d : Nat) (a : Src) (b : Src) : HeaderFields.Statement (.fmax h ty d a b) :=
  ⟨nofun, fun _ _ e k => by cases e; cases k; exact ⟨rfl, rfl, rfl, base_guard h 0 0⟩⟩
theorem HeaderFields.ffma (h : Hdr) (rm : Option Rm) (ty : FloatTy) (d : Nat) (a : Src) (b : Src) (c : Src) : HeaderFields.Statement (.ffma h rm ty d a b c) :=
  ⟨nofun, fun _ _ e k => by cases e; cases k; exact ⟨rfl, rfl, rfl, base_guard h 0 0⟩⟩
theorem HeaderFields.fsetp (h : Hdr) (cmp : Cmp) (ty : FloatTy) (d : Nat) (a : Src) (b : Src) : HeaderFields.Statement (.fsetp h cmp ty d a b) :=
  ⟨nofun, fun _ _ e k => by cases e; cases k; exact ⟨rfl, rfl, rfl, base_guard h 0 0⟩⟩
theorem HeaderFields.fclass (h : Hdr) (ty : FloatTy) (d : Nat) (a : Src) : HeaderFields.Statement (.fclass h ty d a) :=
  ⟨nofun, fun _ _ e k => by cases e; cases k; exact ⟨rfl, rfl, rfl, base_guard h 0 0⟩⟩
theorem HeaderFields.frcp (h : Hdr) (rm : Option Rm) (d : Nat) (a : Src) : HeaderFields.Statement (.frcp h rm d a) :=
  ⟨nofun, fun _ _ e k => by cases e; cases k; exact ⟨rfl, rfl, rfl, base_guard h 0 0⟩⟩
theorem HeaderFields.frsq (h : Hdr) (d : Nat) (a : Src) : HeaderFields.Statement (.frsq h d a) :=
  ⟨nofun, fun _ _ e k => by cases e; cases k; exact ⟨rfl, rfl, rfl, base_guard h 0 0⟩⟩
theorem HeaderFields.fsqrt (h : Hdr) (rm : Option Rm) (d : Nat) (a : Src) : HeaderFields.Statement (.fsqrt h rm d a) :=
  ⟨nofun, fun _ _ e k => by cases e; cases k; exact ⟨rfl, rfl, rfl, base_guard h 0 0⟩⟩
theorem HeaderFields.fexp2 (h : Hdr) (d : Nat) (a : Src) : HeaderFields.Statement (.fexp2 h d a) :=
  ⟨nofun, fun _ _ e k => by cases e; cases k; exact ⟨rfl, rfl, rfl, base_guard h 0 0⟩⟩
theorem HeaderFields.flog2 (h : Hdr) (d : Nat) (a : Src) : HeaderFields.Statement (.flog2 h d a) :=
  ⟨nofun, fun _ _ e k => by cases e; cases k; exact ⟨rfl, rfl, rfl, base_guard h 0 0⟩⟩
theorem HeaderFields.fsin (h : Hdr) (d : Nat) (a : Src) : HeaderFields.Statement (.fsin h d a) :=
  ⟨nofun, fun _ _ e k => by cases e; cases k; exact ⟨rfl, rfl, rfl, base_guard h 0 0⟩⟩
theorem HeaderFields.fcos (h : Hdr) (d : Nat) (a : Src) : HeaderFields.Statement (.fcos h d a) :=
  ⟨nofun, fun _ _ e k => by cases e; cases k; exact ⟨rfl, rfl, rfl, base_guard h 0 0⟩⟩
theorem HeaderFields.hfma2 (h : Hdr) (rm : Option Rm) (ty : FloatTy) (d : Nat) (a : Src) (b : Src) (c : Src) : HeaderFields.Statement (.hfma2 h rm ty d a b c) :=
  ⟨nofun, fun _ _ e k => by cases e; cases k; exact ⟨rfl, rfl, rfl, base_guard h 0 0⟩⟩
theorem HeaderFields.cvt (h : Hdr) (rm : Option Rm) (sat : Bool) (dst : CvtTy) (src : CvtTy) (d : Nat) (a : Src) : HeaderFields.Statement (.cvt h rm sat dst src d a) :=
  ⟨nofun, fun _ _ e k => by cases e; cases k; exact ⟨rfl, rfl, rfl, base_guard h 0 0⟩⟩
theorem HeaderFields.bpack (h : Hdr) (rm : Option Rm) (w : Nat) (d : Nat) (a : Nat) : HeaderFields.Statement (.bpack h rm w d a) :=
  ⟨nofun, fun _ _ e k => by cases e; cases k; exact ⟨rfl, rfl, rfl, base_guard h 0 0⟩⟩
theorem HeaderFields.bunpack (h : Hdr) (rm : Option Rm) (w : Nat) (d : Nat) (a : Nat) : HeaderFields.Statement (.bunpack h rm w d a) :=
  ⟨nofun, fun _ _ e k => by cases e; cases k; exact ⟨rfl, rfl, rfl, base_guard h 0 0⟩⟩
theorem HeaderFields.amax (h : Hdr) (ty : FloatTy) (d : Nat) (a : Src) : HeaderFields.Statement (.amax h ty d a) :=
  ⟨nofun, fun _ _ e k => by cases e; cases k; exact ⟨rfl, rfl, rfl, base_guard h 0 0⟩⟩
theorem HeaderFields.shfl (h : Hdr) (mode : ShflMode) (d : Nat) (a : Nat) (b : Src) : HeaderFields.Statement (.shfl h mode d a b) :=
  ⟨nofun, fun _ _ e k => by cases e; cases k; exact ⟨rfl, rfl, rfl, base_guard h 0 0⟩⟩
theorem HeaderFields.rot (h : Hdr) (d : Nat) (a : Nat) (b : Src) : HeaderFields.Statement (.rot h d a b) :=
  ⟨nofun, fun _ _ e k => by cases e; cases k; exact ⟨rfl, rfl, rfl, base_guard h 0 0⟩⟩
theorem HeaderFields.vote (h : Hdr) (fn : VoteFn) (d : Nat) (neg : Bool) (p : Nat) : HeaderFields.Statement (.vote h fn d neg p) :=
  ⟨nofun, fun _ _ e k => by cases e; cases k; exact ⟨rfl, rfl, rfl, base_guard h 0 0⟩⟩
theorem HeaderFields.lred (h : Hdr) (toG : Bool) (rm : Option Rm) (op : RedOp) (ty : CvtTy) (d : Nat) (a : Nat) : HeaderFields.Statement (.lred h toG rm op ty d a) :=
  ⟨nofun, fun _ _ e k => by cases e; cases k; exact ⟨rfl, rfl, rfl, base_guard h 0 0⟩⟩
theorem HeaderFields.lscan (h : Hdr) (excl : Bool) (rm : Option Rm) (op : RedOp) (ty : CvtTy) (d : Nat) (a : Nat) : HeaderFields.Statement (.lscan h excl rm op ty d a) :=
  ⟨nofun, fun _ _ e k => by cases e; cases k; exact ⟨rfl, rfl, rfl, base_guard h 0 0⟩⟩
theorem HeaderFields.plog (h : Hdr) (op : PlogOp) (d : Nat) (a : PredRef) (b : PredRef) : HeaderFields.Statement (.plog h op d a b) :=
  ⟨nofun, fun _ _ e k => by cases e; cases k; exact ⟨rfl, rfl, rfl, base_guard h 0 0⟩⟩
theorem HeaderFields.pmov (h : Hdr) (form : PmovForm) : HeaderFields.Statement (.pmov h form) :=
  ⟨nofun, by cases form <;> exact fun _ _ e k => by cases e; cases k; exact ⟨rfl, rfl, rfl, base_guard h 0 0⟩⟩
theorem HeaderFields.gmov (h : Hdr) (d : Nat) (a : Nat) (lane : GmovLane) : HeaderFields.Statement (.gmov h d a lane) :=
  ⟨nofun, by cases lane <;> exact fun _ _ e k => by cases e; cases k; exact ⟨rfl, rfl, rfl, base_guard h 0 0⟩⟩
theorem HeaderFields.bra (h : Hdr) (t : Target) : HeaderFields.Statement (.bra h t) :=
  ⟨nofun, fun _ _ e k => by cases e; cases k; exact ⟨rfl, rfl, rfl, base_guard h 0 0⟩⟩
theorem HeaderFields.jmpx (h : Hdr) (a : Nat) : HeaderFields.Statement (.jmpx h a) :=
  ⟨nofun, fun _ _ e k => by cases e; cases k; exact ⟨rfl, rfl, rfl, base_guard h 0 0⟩⟩
theorem HeaderFields.call (h : Hdr) (n : Nat) (t : Target) : HeaderFields.Statement (.call h n t) :=
  ⟨nofun, fun _ _ e k => by cases e; cases k; exact ⟨rfl, rfl, rfl, base_guard h 0 0⟩⟩
theorem HeaderFields.ret (h : Hdr) : HeaderFields.Statement (.ret h) :=
  ⟨nofun, fun _ _ e k => by cases e; cases k; exact ⟨rfl, rfl, rfl, base_guard h 0 0⟩⟩
theorem HeaderFields.exit (h : Hdr) : HeaderFields.Statement (.exit h) :=
  ⟨nofun, fun _ _ e k => by cases e; cases k; exact ⟨rfl, rfl, rfl, base_guard h 0 0⟩⟩
theorem HeaderFields.fork (h : Hdr) (neg : Bool) (p : Nat) (split : Nat) (gap : Nat) (cont : Target) (taken : Target) : HeaderFields.Statement (.fork h neg p split gap cont taken) :=
  ⟨nofun, fun _ _ e k => by cases e; cases k; exact ⟨rfl, rfl, rfl, base_guard h 0 0⟩⟩
theorem HeaderFields.armend (h : Hdr) : HeaderFields.Statement (.armend h) :=
  ⟨nofun, fun _ _ e k => by cases e; cases k; exact ⟨rfl, rfl, rfl, base_guard h 0 0⟩⟩
theorem HeaderFields.jset (h : Hdr) (j : Nat) (v : Nat) : HeaderFields.Statement (.jset h j v) :=
  ⟨nofun, fun _ _ e k => by cases e; cases k; exact ⟨rfl, rfl, rfl, base_guard h 0 0⟩⟩
theorem HeaderFields.join (h : Hdr) (v : Nat) (j : Nat) : HeaderFields.Statement (.join h v j) :=
  ⟨nofun, fun _ _ e k => by cases e; cases k; exact ⟨rfl, rfl, rfl, base_guard h 0 0⟩⟩
theorem HeaderFields.jwait (h : Hdr) : HeaderFields.Statement (.jwait h) :=
  ⟨nofun, fun _ _ e k => by cases e; cases k; exact ⟨rfl, rfl, rfl, base_guard h 0 0⟩⟩
theorem HeaderFields.nop (h : Hdr) : HeaderFields.Statement (.nop h) :=
  ⟨nofun, fun _ _ e k => by cases e; cases k; exact ⟨rfl, rfl, rfl, base_guard h 0 0⟩⟩
theorem HeaderFields.ld (h : Hdr) (ty : MemTy) (o : MemOrd) (x : Src) (b : Nat) (d : Nat) (imm : W32) : HeaderFields.Statement (.ld h ty o x b d imm) :=
  ⟨nofun, fun _ _ e k => by cases e; cases k; exact ⟨rfl, rfl, rfl, base_guard h 0 0⟩⟩
theorem HeaderFields.st (h : Hdr) (ty : MemTy) (o : MemOrd) (x : Src) (b : Nat) (d : Nat) (imm : W32) : HeaderFields.Statement (.st h ty o x b d imm) :=
  ⟨nofun, fun _ _ e k => by cases e; cases k; exact ⟨rfl, rfl, rfl, base_guard h 0 0⟩⟩
theorem HeaderFields.atom (h : Hdr) (op : AtomOp) (ty : IntTy) (o : MemOrd) (x : Src) (b : Nat) (d : Nat) (c : Nat) (imm : W32) : HeaderFields.Statement (.atom h op ty o x b d c imm) :=
  ⟨nofun, fun _ _ e k => by cases e; cases k; exact ⟨rfl, rfl, rfl, base_guard h 0 0⟩⟩
theorem HeaderFields.atoms (h : Hdr) (op : AtomOp) (ty : IntTy) (o : MemOrd) (x : Src) (d : Nat) (c : Nat) (imm : W32) : HeaderFields.Statement (.atoms h op ty o x d c imm) :=
  ⟨nofun, fun _ _ e k => by cases e; cases k; exact ⟨rfl, rfl, rfl, base_guard h 0 0⟩⟩
theorem HeaderFields.lds (h : Hdr) (ty : MemTy) (o : MemOrd) (x : Src) (d : Nat) (imm : W32) : HeaderFields.Statement (.lds h ty o x d imm) :=
  ⟨nofun, fun _ _ e k => by cases e; cases k; exact ⟨rfl, rfl, rfl, base_guard h 0 0⟩⟩
theorem HeaderFields.sts (h : Hdr) (ty : MemTy) (o : MemOrd) (x : Src) (d : Nat) (imm : W32) : HeaderFields.Statement (.sts h ty o x d imm) :=
  ⟨nofun, fun _ _ e k => by cases e; cases k; exact ⟨rfl, rfl, rfl, base_guard h 0 0⟩⟩
theorem HeaderFields.ldk (h : Hdr) (ty : IntTy) (d : Nat) (imm : W32) : HeaderFields.Statement (.ldk h ty d imm) :=
  ⟨nofun, fun _ _ e k => by cases e; cases k; exact ⟨rfl, rfl, rfl, base_guard h 0 0⟩⟩
theorem HeaderFields.stk (h : Hdr) (ty : IntTy) (d : Nat) (imm : W32) : HeaderFields.Statement (.stk h ty d imm) :=
  ⟨nofun, fun _ _ e k => by cases e; cases k; exact ⟨rfl, rfl, rfl, base_guard h 0 0⟩⟩
theorem HeaderFields.ldw (h : Hdr) (ty : MemTy) (x : Src) (b : Nat) (d : Nat) (imm : W32) : HeaderFields.Statement (.ldw h ty x b d imm) :=
  ⟨nofun, fun _ _ e k => by cases e; cases k; exact ⟨rfl, rfl, rfl, base_guard h 0 0⟩⟩
theorem HeaderFields.pref (h : Hdr) (x : Src) (b : Nat) (imm : W32) : HeaderFields.Statement (.pref h x b imm) :=
  ⟨nofun, fun _ _ e k => by cases e; cases k; exact ⟨rfl, rfl, rfl, base_guard h 0 0⟩⟩
theorem HeaderFields.fence (h : Hdr) (acq : Bool) (rel : Bool) (scope : Scope) : HeaderFields.Statement (.fence h acq rel scope) :=
  ⟨nofun, fun _ _ e k => by cases e; cases k; exact ⟨rfl, rfl, rfl, base_guard h 0 0⟩⟩
theorem HeaderFields.fenceCounting (h : Hdr) (acq : Bool) (rel : Bool) (d : Nat) : HeaderFields.Statement (.fenceCounting h acq rel d) :=
  ⟨nofun, fun _ _ e k => by cases e; cases k; exact ⟨rfl, rfl, rfl, base_guard h 0 0⟩⟩
theorem HeaderFields.xfence (h : Hdr) (p1 : Path) (p2 : Path) (scope : Scope) : HeaderFields.Statement (.xfence h p1 p2 scope) :=
  ⟨nofun, fun _ _ e k => by cases e; cases k; exact ⟨rfl, rfl, rfl, base_guard h 0 0⟩⟩
theorem HeaderFields.mwatch (h : Hdr) (wide : Bool) (d : Nat) (x : Nat) (b : Nat) (imm : W32) : HeaderFields.Statement (.mwatch h wide d x b imm) :=
  ⟨nofun, fun _ _ e k => by cases e; cases k; exact ⟨rfl, rfl, rfl, base_guard h 0 0⟩⟩
theorem HeaderFields.mwait (h : Hdr) (d : Nat) (t : Nat) : HeaderFields.Statement (.mwait h d t) :=
  ⟨nofun, fun _ _ e k => by cases e; cases k; exact ⟨rfl, rfl, rfl, base_guard h 0 0⟩⟩
theorem HeaderFields.brset (h : Hdr) (d : Nat) (s : Nat) : HeaderFields.Statement (.brset h d s) :=
  ⟨nofun, fun _ _ e k => by cases e; cases k; exact ⟨rfl, rfl, rfl, base_guard h 0 0⟩⟩
theorem HeaderFields.cpy (h : Hdr) (esz : Nat) (ch : Nat) (d : Nat) (dst : CopySide) (src : CopySide) (l : Nat) (pv : Option Nat) : HeaderFields.Statement (.cpy h esz ch d dst src l pv) :=
  ⟨nofun, fun _ _ e k => by cases e; cases k; exact ⟨rfl, rfl, rfl, base_guard h 0 0⟩⟩
theorem HeaderFields.cpyt (h : Hdr) (esz : Nat) (ch : Nat) (d : Nat) (dst : CopySide) (src : CopySide) (l : Nat) (pv : Option Nat) : HeaderFields.Statement (.cpyt h esz ch d dst src l pv) :=
  ⟨nofun, fun _ _ e k => by cases e; cases k; exact ⟨rfl, rfl, rfl, base_guard h 0 0⟩⟩
theorem HeaderFields.cpkill (h : Hdr) (ch : Nat) (d : Nat) : HeaderFields.Statement (.cpkill h ch d) :=
  ⟨nofun, fun _ _ e k => by cases e; cases k; exact ⟨rfl, rfl, rfl, base_guard h 0 0⟩⟩
theorem HeaderFields.optstep (h : Hdr) (bf : Bool) (d : Nat) (bW : Nat) (bG : Nat) (p : Nat) (bM : Nat) (bV : Nat) : HeaderFields.Statement (.optstep h bf d bW bG p bM bV) :=
  ⟨nofun, fun _ _ e k => by cases e; cases k; exact ⟨rfl, rfl, rfl, base_guard h 0 0⟩⟩
theorem HeaderFields.thset (h : Hdr) (d : Nat) (t : Nat) (s : Nat) : HeaderFields.Statement (.thset h d t s) :=
  ⟨nofun, fun _ _ e k => by cases e; cases k; exact ⟨rfl, rfl, rfl, base_guard h 0 0⟩⟩
theorem HeaderFields.coll (h : Hdr) (w : Nat) (d : Nat) (bDst : Nat) (bSrc : Nat) (l : Nat) (hH : Nat) : HeaderFields.Statement (.coll h w d bDst bSrc l hH) :=
  ⟨nofun, fun _ _ e k => by cases e; cases k; exact ⟨rfl, rfl, rfl, base_guard h 0 0⟩⟩
theorem HeaderFields.mma (h : Hdr) (kind : MKind) (d : Nat) (a : Nat) (s : Nat) (row0 : Nat) : HeaderFields.Statement (.mma h kind d a s row0) :=
  ⟨nofun, fun _ _ e k => by cases e; cases k; exact ⟨rfl, rfl, rfl, base_guard h 0 0⟩⟩
theorem HeaderFields.mmat (h : Hdr) (kind : MKind) (d : Nat) (a : Nat) (s : Nat) (row0 : Nat) : HeaderFields.Statement (.mmat h kind d a s row0) :=
  ⟨nofun, fun _ _ e k => by cases e; cases k; exact ⟨rfl, rfl, rfl, base_guard h 0 0⟩⟩
theorem HeaderFields.mmad (h : Hdr) (kind : MKind) (kX : Nat) (kW : Nat) (thW : Nat) (thX : Nat) (s : Nat) (c0 : Nat) : HeaderFields.Statement (.mmad h kind kX kW thW thX s c0) :=
  ⟨nofun, fun _ _ e k => by cases e; cases k; exact ⟨rfl, rfl, rfl, base_guard h 0 0⟩⟩
theorem HeaderFields.mldw (h : Hdr) (kind : MKind) (m : Nat) (a : Nat) (s : Nat) : HeaderFields.Statement (.mldw h kind m a s) :=
  ⟨nofun, fun _ _ e k => by cases e; cases k; exact ⟨rfl, rfl, rfl, base_guard h 0 0⟩⟩
theorem HeaderFields.mswap (h : Hdr) (kind : MKind) (m : Nat) (s : Nat) : HeaderFields.Statement (.mswap h kind m s) :=
  ⟨nofun, fun _ _ e k => by cases e; cases k; exact ⟨rfl, rfl, rfl, base_guard h 0 0⟩⟩
theorem HeaderFields.mdrain (h : Hdr) (fmt : MFmt) (kind : MKind) (amx : Bool) (clr : Bool) (k : Nat) (a : Nat) (s : Nat) (sc : Nat) (am : Nat) (row0 : Nat) : HeaderFields.Statement (.mdrain h fmt kind amx clr k a s sc am row0) :=
  ⟨nofun, fun _ _ e k => by cases e; cases k; exact ⟨rfl, rfl, rfl, base_guard h 0 0⟩⟩
theorem HeaderFields.mzero (h : Hdr) (kind : MKind) (k : Nat) (s : Nat) (row0 : Nat) (count : Nat) : HeaderFields.Statement (.mzero h kind k s row0 count) :=
  ⟨nofun, fun _ _ e k => by cases e; cases k; exact ⟨rfl, rfl, rfl, base_guard h 0 0⟩⟩
theorem HeaderFields.mfill (h : Hdr) (fmt : MFmt) (kind : MKind) (k : Nat) (a : Nat) (s : Nat) (row0 : Nat) : HeaderFields.Statement (.mfill h fmt kind k a s row0) :=
  ⟨nofun, fun _ _ e k => by cases e; cases k; exact ⟨rfl, rfl, rfl, base_guard h 0 0⟩⟩
theorem HeaderFields.setfmt (h : Hdr) (a : Nat) : HeaderFields.Statement (.setfmt h a) :=
  ⟨nofun, fun _ _ e k => by cases e; cases k; exact ⟨rfl, rfl, rfl, base_guard h 0 0⟩⟩
theorem HeaderFields.setfmtSc (h : Hdr) (d : Nat) (a : Nat) : HeaderFields.Statement (.setfmtSc h d a) :=
  ⟨nofun, fun _ _ e k => by cases e; cases k; exact ⟨rfl, rfl, rfl, base_guard h 0 0⟩⟩
theorem HeaderFields.setfmtClr (h : Hdr) (d : Nat) : HeaderFields.Statement (.setfmtClr h d) :=
  ⟨nofun, fun _ _ e k => by cases e; cases k; exact ⟨rfl, rfl, rfl, base_guard h 0 0⟩⟩
theorem HeaderFields.screc (h : Hdr) (x : Nat) (b : Nat) (imm : W32) : HeaderFields.Statement (.screc h x b imm) :=
  ⟨nofun, fun _ _ e k => by cases e; cases k; exact ⟨rfl, rfl, rfl, base_guard h 0 0⟩⟩
theorem HeaderFields.scload (h : Hdr) (x : Nat) (b : Nat) (imm : W32) : HeaderFields.Statement (.scload h x b imm) :=
  ⟨nofun, fun _ _ e k => by cases e; cases k; exact ⟨rfl, rfl, rfl, base_guard h 0 0⟩⟩
theorem HeaderFields.scloadEnd (h : Hdr) : HeaderFields.Statement (.scloadEnd h) :=
  ⟨nofun, fun _ _ e k => by cases e; cases k; exact ⟨rfl, rfl, rfl, base_guard h 0 0⟩⟩
theorem HeaderFields.hcreate (h : Hdr) (cnt : Option Nat) (span : Span) (d : Nat) (gp : Nat) : HeaderFields.Statement (.hcreate h cnt span d gp) :=
  ⟨nofun, fun _ _ e k => by cases e; cases k; exact ⟨rfl, rfl, rfl, base_guard h 0 0⟩⟩
theorem HeaderFields.hfree (h : Hdr) (n : Nat) : HeaderFields.Statement (.hfree h n) :=
  ⟨nofun, fun _ _ e k => by cases e; cases k; exact ⟨rfl, rfl, rfl, base_guard h 0 0⟩⟩
theorem HeaderFields.hquery (h : Hdr) (sel : Nat) (d : Nat) (n : Nat) : HeaderFields.Statement (.hquery h sel d n) :=
  ⟨nofun, fun _ _ e k => by cases e; cases k; exact ⟨rfl, rfl, rfl, base_guard h 0 0⟩⟩
theorem HeaderFields.hstrag (h : Hdr) (n : Nat) (b : Nat) : HeaderFields.Statement (.hstrag h n b) :=
  ⟨nofun, fun _ _ e k => by cases e; cases k; exact ⟨rfl, rfl, rfl, base_guard h 0 0⟩⟩
theorem HeaderFields.hjoin (h : Hdr) (d : Nat) (s : Nat) : HeaderFields.Statement (.hjoin h d s) :=
  ⟨nofun, fun _ _ e k => by cases e; cases k; exact ⟨rfl, rfl, rfl, base_guard h 0 0⟩⟩
theorem HeaderFields.hleave (h : Hdr) (n : Nat) : HeaderFields.Statement (.hleave h n) :=
  ⟨nofun, fun _ _ e k => by cases e; cases k; exact ⟨rfl, rfl, rfl, base_guard h 0 0⟩⟩
theorem HeaderFields.harr (h : Hdr) (d : Nat) (n : Nat) (k : Option Nat) : HeaderFields.Statement (.harr h d n k) :=
  ⟨nofun, fun _ _ e k => by cases e; cases k; exact ⟨rfl, rfl, rfl, base_guard h 0 0⟩⟩
theorem HeaderFields.hbar (h : Hdr) (d : Nat) (n : Nat) (k : Option Nat) : HeaderFields.Statement (.hbar h d n k) :=
  ⟨nofun, fun _ _ e k => by cases e; cases k; exact ⟨rfl, rfl, rfl, base_guard h 0 0⟩⟩
theorem HeaderFields.hvote (h : Hdr) (fn : HVoteFn) (d : Nat) (n : Nat) (s : Nat) (k : Option Nat) : HeaderFields.Statement (.hvote h fn d n s k) :=
  ⟨nofun, fun _ _ e k => by cases e; cases k; exact ⟨rfl, rfl, rfl, base_guard h 0 0⟩⟩
theorem HeaderFields.hred (h : Hdr) (op : HRedOp) (ty : HRedTy) (d : Nat) (n : Nat) (s : Nat) (k : Option Nat) : HeaderFields.Statement (.hred h op ty d n s k) :=
  ⟨nofun, fun _ _ e k => by cases e; cases k; exact ⟨rfl, rfl, rfl, base_guard h 0 0⟩⟩
theorem HeaderFields.hwait (h : Hdr) (d : Nat) (n : Nat) (t : Nat) : HeaderFields.Statement (.hwait h d n t) :=
  ⟨nofun, fun _ _ e k => by cases e; cases k; exact ⟨rfl, rfl, rfl, base_guard h 0 0⟩⟩
theorem HeaderFields.spawn (h : Hdr) (d : Nat) (gp : Nat) (q : Nat) (e : Nat) (k : Nat) : HeaderFields.Statement (.spawn h d gp q e k) :=
  ⟨nofun, fun _ _ e k => by cases e; cases k; exact ⟨rfl, rfl, rfl, base_guard h 0 0⟩⟩
theorem HeaderFields.qpush (h : Hdr) (d : Nat) (gp : Nat) (q : Nat) (s : Nat) : HeaderFields.Statement (.qpush h d gp q s) :=
  ⟨nofun, fun _ _ e k => by cases e; cases k; exact ⟨rfl, rfl, rfl, base_guard h 0 0⟩⟩
theorem HeaderFields.qpop (h : Hdr) (d : Nat) (gp : Nat) (q : Nat) : HeaderFields.Statement (.qpop h d gp q) :=
  ⟨nofun, fun _ _ e k => by cases e; cases k; exact ⟨rfl, rfl, rfl, base_guard h 0 0⟩⟩
theorem HeaderFields.yield (h : Hdr) : HeaderFields.Statement (.yield h) :=
  ⟨nofun, fun _ _ e k => by cases e; cases k; exact ⟨rfl, rfl, rfl, base_guard h 0 0⟩⟩
theorem HeaderFields.rclaim (h : Hdr) (d : Nat) (m : W32) : HeaderFields.Statement (.rclaim h d m) :=
  ⟨nofun, fun _ _ e k => by cases e; cases k; exact ⟨rfl, rfl, rfl, base_guard h 0 0⟩⟩
theorem HeaderFields.rclaimTry (h : Hdr) (d : Nat) (m : W32) : HeaderFields.Statement (.rclaimTry h d m) :=
  ⟨nofun, fun _ _ e k => by cases e; cases k; exact ⟨rfl, rfl, rfl, base_guard h 0 0⟩⟩
theorem HeaderFields.rgive (h : Hdr) (d : Nat) (m : W32) : HeaderFields.Statement (.rgive h d m) :=
  ⟨nofun, fun _ _ e k => by cases e; cases k; exact ⟨rfl, rfl, rfl, base_guard h 0 0⟩⟩
theorem HeaderFields.movs (h : Hdr) (vd : Bool) (src : MovsSrc) (d : Nat) : HeaderFields.Statement (.movs h vd src d) :=
  ⟨nofun, by cases src <;> exact fun _ _ e k => by cases e; cases k; exact ⟨rfl, rfl, rfl, base_guard h 0 0⟩⟩
theorem HeaderFields.sets (h : Hdr) (n : Nat) (a : Nat) : HeaderFields.Statement (.sets h n a) :=
  ⟨nofun, fun _ _ e k => by cases e; cases k; exact ⟨rfl, rfl, rfl, base_guard h 0 0⟩⟩
theorem HeaderFields.svc (h : Hdr) (n : W32) : HeaderFields.Statement (.svc h n) :=
  ⟨nofun, fun _ _ e k => by cases e; cases k; exact ⟨rfl, rfl, rfl, base_guard h 0 0⟩⟩
theorem HeaderFields.trap (h : Hdr) (n : W32) : HeaderFields.Statement (.trap h n) :=
  ⟨nofun, fun _ _ e k => by cases e; cases k; exact ⟨rfl, rfl, rfl, base_guard h 0 0⟩⟩
theorem HeaderFields.bkpt (h : Hdr) : HeaderFields.Statement (.bkpt h) :=
  ⟨nofun, fun _ _ e k => by cases e; cases k; exact ⟨rfl, rfl, rfl, base_guard h 0 0⟩⟩
theorem HeaderFields.icinv (h : Hdr) (d : Nat) (s : Nat) : HeaderFields.Statement (.icinv h d s) :=
  ⟨nofun, fun _ _ e k => by cases e; cases k; exact ⟨rfl, rfl, rfl, base_guard h 0 0⟩⟩
theorem HeaderFields.issueArbitration (bay : Nat) : HeaderFields.Statement (.issueArbitration bay) := ⟨fun _ => rfl, fun _ _ e => nomatch e⟩
theorem HeaderFields.trapRecordPush (region : Nat) : HeaderFields.Statement (.trapRecordPush region) := ⟨fun _ => rfl, fun _ _ e => nomatch e⟩
theorem HeaderFields.budgetExhausted (sid : Nat) : HeaderFields.Statement (.budgetExhausted sid) := ⟨fun _ => rfl, fun _ _ e => nomatch e⟩
theorem HeaderFields.scoreboardResultWrite (id : Nat) : HeaderFields.Statement (.scoreboardResultWrite id) := ⟨fun _ => rfl, fun _ _ e => nomatch e⟩
theorem HeaderFields.loadDataReturn (id : Nat) : HeaderFields.Statement (.loadDataReturn id) := ⟨fun _ => rfl, fun _ _ e => nomatch e⟩
theorem HeaderFields.pageFaultRunAhead (st : StrandRef) : HeaderFields.Statement (.pageFaultRunAhead st) := ⟨fun _ => rfl, fun _ _ e => nomatch e⟩
theorem HeaderFields.priResponse (batch : Nat) (ok : Bool) (leaves : List (Nat × Bool × Bool × Bool)) : HeaderFields.Statement (.priResponse batch ok leaves) := ⟨fun _ => rfl, fun _ _ e => nomatch e⟩
theorem HeaderFields.atsInvalidation (vf : Nat) (va : Nat) (change : HostChange) : HeaderFields.Statement (.atsInvalidation vf va change) := ⟨fun _ => rfl, fun _ _ e => nomatch e⟩
theorem HeaderFields.codePageVerified (vf : Nat) (jn : Nat) (page : Nat) : HeaderFields.Statement (.codePageVerified vf jn page) := ⟨fun _ => rfl, fun _ _ e => nomatch e⟩
theorem HeaderFields.fenceConditionMet (st : StrandRef) : HeaderFields.Statement (.fenceConditionMet st) := ⟨fun _ => rfl, fun _ _ e => nomatch e⟩
theorem HeaderFields.heldQueueRelease (st : StrandRef) : HeaderFields.Statement (.heldQueueRelease st) := ⟨fun _ => rfl, fun _ _ e => nomatch e⟩
theorem HeaderFields.groupRetire (g : GroupRef) : HeaderFields.Statement (.groupRetire g) := ⟨fun _ => rfl, fun _ _ e => nomatch e⟩
theorem HeaderFields.completionEntryWrite (jn : Nat) : HeaderFields.Statement (.completionEntryWrite jn) := ⟨fun _ => rfl, fun _ _ e => nomatch e⟩
theorem HeaderFields.jobAdmission (vf : Nat) (va : Nat) (ticket : Nat) : HeaderFields.Statement (.jobAdmission vf va ticket) := ⟨fun _ => rfl, fun _ _ e => nomatch e⟩
theorem HeaderFields.qpushPublish (queue : Nat) : HeaderFields.Statement (.qpushPublish queue) := ⟨fun _ => rfl, fun _ _ e => nomatch e⟩
theorem HeaderFields.htailWrite (queue : Nat) (value : Nat) : HeaderFields.Statement (.htailWrite queue value) := ⟨fun _ => rfl, fun _ _ e => nomatch e⟩
theorem HeaderFields.hheadWrite (queue : Nat) (value : Nat) : HeaderFields.Statement (.hheadWrite queue value) := ⟨fun _ => rfl, fun _ _ e => nomatch e⟩
theorem HeaderFields.sliceDispatch : HeaderFields.Statement (.sliceDispatch) := ⟨fun _ => rfl, fun _ _ e => nomatch e⟩
theorem HeaderFields.contextSave (sid : Nat) : HeaderFields.Statement (.contextSave sid) := ⟨fun _ => rfl, fun _ _ e => nomatch e⟩
theorem HeaderFields.contextRestore (sid : Nat) : HeaderFields.Statement (.contextRestore sid) := ⟨fun _ => rfl, fun _ _ e => nomatch e⟩
theorem HeaderFields.claimDeadlock (sid : Nat) (bay : Nat) : HeaderFields.Statement (.claimDeadlock sid bay) := ⟨fun _ => rfl, fun _ _ e => nomatch e⟩
theorem HeaderFields.harnessArrivalReceive (key : HKey) (who : Member) (msg : HMsg) : HeaderFields.Statement (.harnessArrivalReceive key who msg) := ⟨fun _ => rfl, fun _ _ e => nomatch e⟩
theorem HeaderFields.stragglerEntryWrite (key : HKey) (seen : StragSeen) : HeaderFields.Statement (.stragglerEntryWrite key seen) := ⟨fun _ => rfl, fun _ _ e => nomatch e⟩
theorem HeaderFields.lagNotice (ftid : Nat) (tag : Nat) (on : Bool) : HeaderFields.Statement (.lagNotice ftid tag on) := ⟨fun _ => rfl, fun _ _ e => nomatch e⟩
theorem HeaderFields.harnessUnitFailure (err : StorageError) : HeaderFields.Statement (.harnessUnitFailure err) := ⟨fun _ => rfl, fun _ _ e => nomatch e⟩
theorem HeaderFields.watchFire (g : GroupRef) : HeaderFields.Statement (.watchFire g) := ⟨fun _ => rfl, fun _ _ e => nomatch e⟩
theorem HeaderFields.mwaitTimeout (g : GroupRef) : HeaderFields.Statement (.mwaitTimeout g) := ⟨fun _ => rfl, fun _ _ e => nomatch e⟩
theorem HeaderFields.watchEviction (die : Nat) : HeaderFields.Statement (.watchEviction die) := ⟨fun _ => rfl, fun _ _ e => nomatch e⟩
theorem HeaderFields.copyEntryFree (core : Nat) (ch : Nat) : HeaderFields.Statement (.copyEntryFree core ch) := ⟨fun _ => rfl, fun _ _ e => nomatch e⟩
theorem HeaderFields.copyByteProgress (core : Nat) (ch : Nat) (count : Nat) : HeaderFields.Statement (.copyByteProgress core ch count) := ⟨fun _ => rfl, fun _ _ e => nomatch e⟩
theorem HeaderFields.copyComplete (core : Nat) (ch : Nat) : HeaderFields.Statement (.copyComplete core ch) := ⟨fun _ => rfl, fun _ _ e => nomatch e⟩
theorem HeaderFields.arrayCommand (sid : Nat) (arr : Nat) : HeaderFields.Statement (.arrayCommand sid arr) := ⟨fun _ => rfl, fun _ _ e => nomatch e⟩
theorem HeaderFields.matrixOperandFetch (sid : Nat) (arr : Nat) : HeaderFields.Statement (.matrixOperandFetch sid arr) := ⟨fun _ => rfl, fun _ _ e => nomatch e⟩
theorem HeaderFields.planeSwapEffect (sid : Nat) (arr : Nat) : HeaderFields.Statement (.planeSwapEffect sid arr) := ⟨fun _ => rfl, fun _ _ e => nomatch e⟩
theorem HeaderFields.shadowPlaneWrite (sid : Nat) (arr : Nat) : HeaderFields.Statement (.shadowPlaneWrite sid arr) := ⟨fun _ => rfl, fun _ _ e => nomatch e⟩
theorem HeaderFields.matrixCommandComplete (sid : Nat) (arr : Nat) : HeaderFields.Statement (.matrixCommandComplete sid arr) := ⟨fun _ => rfl, fun _ _ e => nomatch e⟩
theorem HeaderFields.updateSpan (core : Nat) : HeaderFields.Statement (.updateSpan core) := ⟨fun _ => rfl, fun _ _ e => nomatch e⟩
theorem HeaderFields.updateComplete (core : Nat) : HeaderFields.Statement (.updateComplete core) := ⟨fun _ => rfl, fun _ _ e => nomatch e⟩
theorem HeaderFields.collectiveComplete (key : HKey) : HeaderFields.Statement (.collectiveComplete key) := ⟨fun _ => rfl, fun _ _ e => nomatch e⟩
theorem HeaderFields.collectiveTimeout (key : HKey) (g : GroupRef) : HeaderFields.Statement (.collectiveTimeout key g) := ⟨fun _ => rfl, fun _ _ e => nomatch e⟩
theorem HeaderFields.shutterWindow (die : Nat) (group : Nat) : HeaderFields.Statement (.shutterWindow die group) := ⟨fun _ => rfl, fun _ _ e => nomatch e⟩
theorem HeaderFields.inboundRemoteAccess (acc : InAccess) : HeaderFields.Statement (.inboundRemoteAccess acc) := ⟨fun _ => rfl, fun _ _ e => nomatch e⟩
theorem HeaderFields.remoteResponse (id : Nat) (ans : RemoteAnswer) : HeaderFields.Statement (.remoteResponse id ans) := ⟨fun _ => rfl, fun _ _ e => nomatch e⟩
theorem HeaderFields.remoteTimeout (id : Nat) : HeaderFields.Statement (.remoteTimeout id) := ⟨fun _ => rfl, fun _ _ e => nomatch e⟩
theorem HeaderFields.flitReplay (port : Nat) : HeaderFields.Statement (.flitReplay port) := ⟨fun _ => rfl, fun _ _ e => nomatch e⟩
theorem HeaderFields.chipUnreachable (chip : Nat) : HeaderFields.Statement (.chipUnreachable chip) := ⟨fun _ => rfl, fun _ _ e => nomatch e⟩
theorem HeaderFields.reachabilityProbe (chip : Nat) (ok : Bool) : HeaderFields.Statement (.reachabilityProbe chip ok) := ⟨fun _ => rfl, fun _ _ e => nomatch e⟩
theorem HeaderFields.stealOffer (jn : Nat) : HeaderFields.Statement (.stealOffer jn) := ⟨fun _ => rfl, fun _ _ e => nomatch e⟩
theorem HeaderFields.offerWithdrawal (jn : Nat) : HeaderFields.Statement (.offerWithdrawal jn) := ⟨fun _ => rfl, fun _ _ e => nomatch e⟩
theorem HeaderFields.offerReceive (o : Offer) : HeaderFields.Statement (.offerReceive o) := ⟨fun _ => rfl, fun _ _ e => nomatch e⟩
theorem HeaderFields.offerExpiry (job : JobKey) (withdrawn : Bool) : HeaderFields.Statement (.offerExpiry job withdrawn) := ⟨fun _ => rfl, fun _ _ e => nomatch e⟩
theorem HeaderFields.stealClaim (job : JobKey) (index : Nat) (word : Nat) (won : Bool) : HeaderFields.Statement (.stealClaim job index word won) := ⟨fun _ => rfl, fun _ _ e => nomatch e⟩
theorem HeaderFields.ownershipWordCas (jn : Nat) (index : Nat) (expect : Nat) (new : Nat) : HeaderFields.Statement (.ownershipWordCas jn index expect new) := ⟨fun _ => rfl, fun _ _ e => nomatch e⟩
theorem HeaderFields.stealDeferralExpiry (jn : Nat) : HeaderFields.Statement (.stealDeferralExpiry jn) := ⟨fun _ => rfl, fun _ _ e => nomatch e⟩
theorem HeaderFields.stolenSliceDone (sid : Nat) (won : Bool) : HeaderFields.Statement (.stolenSliceDone sid won) := ⟨fun _ => rfl, fun _ _ e => nomatch e⟩
theorem HeaderFields.stolenCompletionReceive (jn : Nat) (index : Nat) (chip : Nat) (failed : Bool) (late : Bool) (cause : Nat) : HeaderFields.Statement (.stolenCompletionReceive jn index chip failed late cause) := ⟨fun _ => rfl, fun _ _ e => nomatch e⟩
theorem HeaderFields.stealKill (job : JobKey) (index : Nat) : HeaderFields.Statement (.stealKill job index) := ⟨fun _ => rfl, fun _ _ e => nomatch e⟩
theorem HeaderFields.resume (c : Cmd) : HeaderFields.Statement (.resume c) := ⟨fun _ => rfl, fun _ _ e => nomatch e⟩
theorem HeaderFields.kill (c : Cmd) : HeaderFields.Statement (.kill c) := ⟨fun _ => rfl, fun _ _ e => nomatch e⟩
theorem HeaderFields.killJob (c : Cmd) : HeaderFields.Statement (.killJob c) := ⟨fun _ => rfl, fun _ _ e => nomatch e⟩
theorem HeaderFields.failDomain (c : Cmd) : HeaderFields.Statement (.failDomain c) := ⟨fun _ => rfl, fun _ _ e => nomatch e⟩
theorem HeaderFields.batchResume (c : Cmd) : HeaderFields.Statement (.batchResume c) := ⟨fun _ => rfl, fun _ _ e => nomatch e⟩
theorem HeaderFields.batchFail (c : Cmd) : HeaderFields.Statement (.batchFail c) := ⟨fun _ => rfl, fun _ _ e => nomatch e⟩
theorem HeaderFields.translationInvalidate (c : Cmd) : HeaderFields.Statement (.translationInvalidate c) := ⟨fun _ => rfl, fun _ _ e => nomatch e⟩
theorem HeaderFields.preempt (c : Cmd) : HeaderFields.Statement (.preempt c) := ⟨fun _ => rfl, fun _ _ e => nomatch e⟩
theorem HeaderFields.regionReload (c : Cmd) : HeaderFields.Statement (.regionReload c) := ⟨fun _ => rfl, fun _ _ e => nomatch e⟩
theorem HeaderFields.queueWatch (c : Cmd) : HeaderFields.Statement (.queueWatch c) := ⟨fun _ => rfl, fun _ _ e => nomatch e⟩
theorem HeaderFields.weightLoad (c : Cmd) : HeaderFields.Statement (.weightLoad c) := ⟨fun _ => rfl, fun _ _ e => nomatch e⟩
theorem HeaderFields.weightLoadComplete (id : Nat) : HeaderFields.Statement (.weightLoadComplete id) := ⟨fun _ => rfl, fun _ _ e => nomatch e⟩
theorem HeaderFields.regionCreate (vf : Nat) (va : Nat) : HeaderFields.Statement (.regionCreate vf va) := ⟨fun _ => rfl, fun _ _ e => nomatch e⟩
theorem HeaderFields.moduleReset : HeaderFields.Statement (.moduleReset) := ⟨fun _ => rfl, fun _ _ e => nomatch e⟩
theorem HeaderFields.hostLinkReset : HeaderFields.Statement (.hostLinkReset) := ⟨fun _ => rfl, fun _ _ e => nomatch e⟩
theorem HeaderFields.powerThermalLimit : HeaderFields.Statement (.powerThermalLimit) := ⟨fun _ => rfl, fun _ _ e => nomatch e⟩
theorem HeaderFields.limitRecovery : HeaderFields.Statement (.limitRecovery) := ⟨fun _ => rfl, fun _ _ e => nomatch e⟩
theorem HeaderFields.criticalLimitReset : HeaderFields.Statement (.criticalLimitReset) := ⟨fun _ => rfl, fun _ _ e => nomatch e⟩
theorem HeaderFields.unitFailure (kind : UnitKind) (at_ : UnitPlace) (cause : Nat) (slices : List Nat) : HeaderFields.Statement (.unitFailure kind at_ cause slices) := ⟨fun _ => rfl, fun _ _ e => nomatch e⟩
theorem HeaderFields.spareReplacement (kind : UnitKind) (die : Nat) (unit : Nat) : HeaderFields.Statement (.spareReplacement kind die unit) := ⟨fun _ => rfl, fun _ _ e => nomatch e⟩
theorem HeaderFields.imageTransfer (move : ImageMove) (chip : Nat) : HeaderFields.Statement (.imageTransfer move chip) := ⟨fun _ => rfl, fun _ _ e => nomatch e⟩
theorem HeaderFields.attestationRequest (vf : Nat) (nonce : List Byte) : HeaderFields.Statement (.attestationRequest vf nonce) := ⟨fun _ => rfl, fun _ _ e => nomatch e⟩
theorem HeaderFields.barWindowWrite (fn : Nat) (aperture : Nat) (offset : Nat) (bytes : List Byte) : HeaderFields.Statement (.barWindowWrite fn aperture offset bytes) := ⟨fun _ => rfl, fun _ _ e => nomatch e⟩
theorem HeaderFields.barWindowRead (fn : Nat) (aperture : Nat) (offset : Nat) (size : Nat) : HeaderFields.Statement (.barWindowRead fn aperture offset size) := ⟨fun _ => rfl, fun _ _ e => nomatch e⟩
theorem HeaderFields.tctlWrite (core : Nat) (value : W32) : HeaderFields.Statement (.tctlWrite core value) := ⟨fun _ => rfl, fun _ _ e => nomatch e⟩
theorem HeaderFields.tbaseWrite (core : Nat) (value : W64) : HeaderFields.Statement (.tbaseWrite core value) := ⟨fun _ => rfl, fun _ _ e => nomatch e⟩
theorem HeaderFields.tlostRead (core : Nat) : HeaderFields.Statement (.tlostRead core) := ⟨fun _ => rfl, fun _ _ e => nomatch e⟩
theorem HeaderFields.dctlHalt (core : Nat) (value : W32) : HeaderFields.Statement (.dctlHalt core value) := ⟨fun _ => rfl, fun _ _ e => nomatch e⟩
theorem HeaderFields.registerWrite (reg : MgmtReg) (value : Nat) : HeaderFields.Statement (.registerWrite reg value) := ⟨fun _ => rfl, fun _ _ e => nomatch e⟩
theorem HeaderFields.tracePacketCommit (core : Nat) : HeaderFields.Statement (.tracePacketCommit core) := ⟨fun _ => rfl, fun _ _ e => nomatch e⟩
theorem HeaderFields.samplePacket (core : Nat) (id : Nat) : HeaderFields.Statement (.samplePacket core id) := ⟨fun _ => rfl, fun _ _ e => nomatch e⟩
theorem HeaderFields.sorserUnlock (ok : Bool) : HeaderFields.Statement (.sorserUnlock ok) := ⟨fun _ => rfl, fun _ _ e => nomatch e⟩
theorem HeaderFields.sorserRead (core : Nat) (offset : Nat) : HeaderFields.Statement (.sorserRead core offset) := ⟨fun _ => rfl, fun _ _ e => nomatch e⟩
theorem HeaderFields.sorserWrite (core : Nat) (offset : Nat) (value : W64) : HeaderFields.Statement (.sorserWrite core offset value) := ⟨fun _ => rfl, fun _ _ e => nomatch e⟩
theorem HeaderFields.sorserPop : HeaderFields.Statement (.sorserPop) := ⟨fun _ => rfl, fun _ _ e => nomatch e⟩
theorem HeaderFields.sorserResume (named : SorserId) : HeaderFields.Statement (.sorserResume named) := ⟨fun _ => rfl, fun _ _ e => nomatch e⟩
theorem HeaderFields.sorserKill (named : SorserId) : HeaderFields.Statement (.sorserKill named) := ⟨fun _ => rfl, fun _ _ e => nomatch e⟩
theorem HeaderFields.sorserDump (id : Nat) (cls : Nat) (first : Nat) (count : Nat) : HeaderFields.Statement (.sorserDump id cls first count) := ⟨fun _ => rfl, fun _ _ e => nomatch e⟩
theorem HeaderFields.storeAcknowledgement (core : Nat) (id : Nat) : HeaderFields.Statement (.storeAcknowledgement core id) := ⟨fun _ => rfl, fun _ _ e => nomatch e⟩
theorem HeaderFields.routeUpdate (route : PortRoute) (up : Bool) : HeaderFields.Statement (.routeUpdate route up) := ⟨fun _ => rfl, fun _ _ e => nomatch e⟩
theorem HeaderFields.harnessCompletionMessage (key : HKey) (phase : Nat) (sent : HSent) (value : W32) (blocks : List (List W32)) : HeaderFields.Statement (.harnessCompletionMessage key phase sent value blocks) := ⟨fun _ => rfl, fun _ _ e => nomatch e⟩

end Sys2Proof.Laws
end

