-- ==== Sys2Proof/Tests/Slice0.lean ====
section
/-!
SUPPORT. Tests: ill-formed terms that WellFormed refuses, words of the spec's encodings, and for every statement of
Sys2Proof/Certificates/Slice0/Obligations.lean states and operands that meet its hypotheses, with the result where the spec or a hand calculation from
its rule gives one. Each runs at most one instruction, event or step.
-/

namespace Sys2Proof.Tests

open Sys2Proof Sys2Proof.Machine

set_option maxRecDepth 100000
set_option Elab.async false

/-! ### Small states -/

/-- A header with no stall, no END and guard p7. -/
def h0 : Hdr := ⟨0, false, .lane false 7⟩
/-- The strand of the test states, its slot and its group. -/
def me : StrandRef := ⟨1, 0, 0⟩
def pc0 : Nat := 2 ^ 56 + 65536
/-- One group of 32 lanes on core 0, whose strand is about to execute the first slot of its code at cycle 0. -/
def st0 : State := { State.reset.fetchState 0 with cur := some (cursorAt me pc0 (pc0 + 1) 0) }
/-- Changes of the group, the strand, the slice and the job. -/
def grp (f : Group → Group) (s : State) : State := s.modGroup 1 0 f
def str (f : Strand → Strand) (s : State) : State := s.modStrand me f
def ctx (f : Ctx → Ctx) (s : State) : State := str (fun t => { t with c := f t.c }) s
def slc (f : Slice → Slice) (s : State) : State := s.modSlice 1 f
def hdr (f : KHeader → KHeader) (s : State) : State := { s with jobs := s.jobs.map fun (e : Nat × Job) => (e.1, { e.2 with hdr := f e.2.hdr }) }
/-- Registers given: v (register, lane, value) and g (register, value). -/
def vs (l : List (Nat × Nat × Nat)) (s : State) : State :=
  grp (fun g => { g with v := l.foldl (fun m e => Sparse.put 0#32 m (e.1 * 128 + e.2.1) (BitVec.ofNat 32 e.2.2)) g.v }) s
def gs (l : List (Nat × Nat)) (s : State) : State :=
  grp (fun g => { g with g := l.foldl (fun m e => Sparse.put 0#32 m e.1 (BitVec.ofNat 32 e.2)) g.g }) s
/-- The lanes of the strand. -/
def lanes (m : Nat) (s : State) : State := ctx (fun c => { c with mask := BitVec.ofNat 128 m }) s
/-- Lane 0 alone, with v4, v6 and v10 (each with the register above it) holding 64-bit values, and FMT. -/
def alu (a b c : Nat) (fmt : Nat := 0) : State :=
  vs [(4, 0, a % 2 ^ 32), (5, 0, a / 2 ^ 32), (6, 0, b % 2 ^ 32), (7, 0, b / 2 ^ 32), (10, 0, c % 2 ^ 32), (11, 0, c / 2 ^ 32)]
    (lanes 1 (ctx (fun t => { t with fmt := BitVec.ofNat 32 fmt }) st0))
/-- The state after an instruction that nothing shared stops. -/
def ran (i : Instr) (s : State) : Option State := match s.clear i, exec i s with
  | some _, .next t => some t
  | _, _ => none
/-- A property of the instruction's view and of the state after it. -/
def does (i : Instr) (s : State) (P : X → State → Bool) : Bool := match s.clear i, exec i s with
  | some x, .next t => P x t
  | _, _ => false
/-- A property of the state after an event. -/
def gives (i : Instr) (s : State) (P : State → Bool) : Bool := match exec i s with
  | .next t => P t
  | _ => false
/-- Register 8 of a class just before its result lands and when it has. -/
def out (c : Cls) (lat : Nat) (i : Instr) (s : State) : Option (Nat × Nat) :=
  (ran i s).map fun t => (t.reg me (lat - 1) c 8 0, t.reg me lat c 8 0)
/-- The same for a pair of v registers as one value. -/
def out2 (lat : Nat) (i : Instr) (s : State) : Option Nat :=
  (ran i s).map fun t => t.reg me lat .v 8 0 + 2 ^ 32 * t.reg me lat .v 9 0
/-- The writes of the pending result that an instruction adds, with its registers and the cycle it is due. -/
def pend (i : Instr) (s : State) : Option (List (Cls × Nat) × Nat × List RegWr) := do
  let t ← ran i s
  let g ← t.group? 1 0
  let f ← g.inflight.getLast?
  match f.body with
  | .timed due wrs => some (f.dst, due, wrs)
  | _ => none
/-- An instruction takes a trap with a cause, lane and detail. -/
def traps (i : Instr) (s : State) (cause lane detail : Nat) : Bool := does i s fun x t => decide (t = s.trapped x cause lane detail)
/-- The last pending result of the group of the test states, and the load or atomic that it is. -/
def last (t : State) : Option Inflight := (t.group? 1 0).bind fun k => k.inflight.getLast?
def lastBody (t : State) : Option Body := (last t).map Inflight.body
def lastDst (t : State) : Option (List (Cls × Nat)) := (last t).map Inflight.dst
def lastMem (t : State) : Option MemOp := match lastBody t with
  | some (.mem m) => some m
  | _ => none
/-! ### Integer instructions: the examples of R361, R403, R406 to R410, R424, R433, R440 and R441, and values from their rules -/

theorem test_iadd_wraps_and_clamps :
    [out .v 4 (.iadd h0 false .s8 false 8 (.v 4) (.v 6)) (alu 0x78 0x10 0), out .v 4 (.iadd h0 false .s8 true 8 (.v 4) (.v 6)) (alu 120 16 0)] =
      [some (0, 0xFFFFFF88), some (0, 0x7F)] := by decide +kernel
theorem test_isub_imin_imax :
    [out .v 4 (.isub h0 false .n16 true 8 (.v 4) (.v 6)) (alu 3 5 0), out .v 4 (.imin h0 false .s32 8 (.v 4) (.v 6)) (alu 0xFFFFFFFF 1 0),
      out .v 4 (.imin h0 false .n32 8 (.v 4) (.v 6)) (alu 0xFFFFFFFF 1 0), out .v 4 (.imax h0 false .s32 8 (.v 4) (.v 6)) (alu 0xFFFFFFFF 1 0)] =
      [some (0, 0), some (0, 0xFFFFFFFF), some (0, 1), some (0, 1)] := by decide +kernel
theorem test_iadd_pair_carries : out2 4 (.iadd h0 false .s64 false 8 (.v 4) (.v 6)) (alu 0xFFFFFFFF 1 0) = some (2 ^ 32) := by decide +kernel
theorem test_iadd_uniform :
    out .g 4 (.iadd h0 true .s32 false 8 (.g 1) (.imm 5)) (gs [(1, 7)] st0) = some (0, 12) := by decide +kernel
theorem test_ineg_iabs :
    [out .v 4 (.ineg h0 false .s32 false 8 (.v 4)) (alu 0x80000000 0 0), out .v 4 (.ineg h0 false .s32 true 8 (.v 4)) (alu 0x80000000 0 0),
      out .v 4 (.iabs h0 false .s8 false 8 (.v 4)) (alu 0xFB 0 0)] = [some (0, 0x80000000), some (0, 0x7FFFFFFF), some (0, 5)] := by decide +kernel
theorem test_imul_imad_imulh :
    [out .v 6 (.imul h0 false .s32 false 8 (.v 4) (.v 6)) (alu 0xFFFFFFFD 5 0), out .v 6 (.imad h0 false .s32 false 8 (.v 4) (.v 6) (.v 10)) (alu 3 5 7),
      out .v 6 (.imulh h0 false .s32 8 (.v 4) (.v 6)) (alu 0x80000000 2 0), out .v 6 (.imulh h0 false .n32 8 (.v 4) (.v 6)) (alu 0x80000000 2 0)] =
      [some (0, 0xFFFFFFF1), some (0, 22), some (0, 0xFFFFFFFF), some (0, 1)] := by decide +kernel
theorem test_idiv_irem :
    [pend (.idiv h0 false .s32 8 (.v 4) (.v 6)) (alu (2 ^ 32 - 7) 2 0), pend (.irem h0 false .s32 8 (.v 4) (.v 6)) (alu (2 ^ 32 - 7) 2 0),
      pend (.idiv h0 false .s32 8 (.v 4) (.v 6)) (alu 0x80000000 0xFFFFFFFF 0), pend (.irem h0 true .n32 8 (.g 1) (.g 2)) (gs [(1, 0xFFFFFFF9), (2, 2)] st0)] =
      [some ([(.v, 8)], 40, [.v 8 0 0xFFFFFFFD]), some ([(.v, 8)], 40, [.v 8 0 0xFFFFFFFF]), some ([(.v, 8)], 40, [.v 8 0 0x80000000]),
        some ([(.g, 8)], 40, [.g 8 1])] := by decide +kernel
theorem test_zero_divisor :
    traps (.idiv h0 false .s32 8 (.v 4) (.v 6)) (vs [(6, 0, 3)] (lanes 7 st0)) 64 1 0 = true ∧
    traps (.irem h0 true .s32 8 (.g 1) (.g 2)) st0 64 0 0 = true := by decide +kernel
theorem test_bitwise :
    [out .v 4 (.and h0 false false 8 (.v 4) (.v 6)) (alu 12 10 0), out .v 4 (.or h0 false false 8 (.v 4) (.v 6)) (alu 12 10 0),
      out .v 4 (.xor h0 false false 8 (.v 4) (.v 6)) (alu 12 10 0), out .v 4 (.andn h0 false false 8 (.v 4) (.v 6)) (alu 12 10 0),
      out .v 4 (.not h0 false false 8 (.v 4)) (alu 12 10 0), out .v 4 (.mov h0 false false 8 (.v 4)) (alu 12 10 0),
      out .v 4 (.movi h0 false 8 77) (alu 12 10 0)] =
      [some (0, 8), some (0, 14), some (0, 6), some (0, 4), some (0, 0xFFFFFFF3), some (0, 12), some (0, 77)] := by decide +kernel
theorem test_bitwise_pair :
    [out2 4 (.andn h0 false true 8 (.v 4) (.imm 0xFFFFFFFF)) (alu (2 ^ 32 + 5) 0 0), out2 4 (.mov h0 false true 8 (.v 4)) (alu (2 ^ 40 + 9) 0 0)] =
      [some (2 ^ 32), some (2 ^ 40 + 9)] := by decide +kernel
theorem test_shifts_whole_count :
    [out .v 4 (.shl h0 false .n32 8 (.v 4) (.imm 32)) (alu 1 0 0), out .v 4 (.shr h0 false .n32 8 (.v 4) (.v 6)) (alu 0x80000000 31 0),
      out .v 4 (.sar h0 false .s32 8 (.v 4) (.imm 40)) (alu 0x80000000 0 0), out .v 4 (.ishrq h0 false .s8 8 (.v 4) (.imm 2)) (alu 250 0 0),
      out .v 4 (.ishrq h0 false .s8 8 (.v 4) (.imm 2)) (alu (2 ^ 32 - 6) 0 0), out .v 4 (.ishrq h0 false .n8 8 (.v 4) (.imm 2)) (alu 600 0 0)] =
      [some (0, 0), some (0, 1), some (0, 0xFFFFFFFF), some (0, 62), some (0, 0xFFFFFFFE), some (0, 150)] := by decide +kernel
theorem test_bit_fields :
    [out .v 4 (.bfe h0 false .s32 8 (.v 4) (.imm 0x0408)) (alu 0x0B00 0 0), out .v 4 (.bfe h0 false .n32 8 (.v 4) (.imm 0x0408)) (alu 0x0B00 0 0),
      out .v 4 (.bfi h0 false false 8 (.v 4) (.imm 0x0408) (.v 10)) (alu 5 0 0xFFFFFFFF), out .v 4 (.bfe h0 false .s32 8 (.v 4) (.imm 0x0820)) (alu 0x0B00 0 0)] =
      [some (0, 0xFFFFFFFB), some (0, 11), some (0, 0xFFFFF5FF), some (0, 0)] := by decide +kernel
theorem test_bit_counts :
    [out .v 4 (.brev h0 false false 8 (.v 4)) (alu 1 0 0), out .v 4 (.clz h0 false true 8 (.v 4)) (alu 1 0 0), out .v 4 (.popc h0 false true 8 (.v 4)) (alu (2 ^ 64 - 1) 0 0)] =
      [some (0, 0x80000000), some (0, 63), some (0, 64)] := by decide +kernel
theorem test_isetp_sel_idp4 :
    [out .v 4 (.sel h0 false false 8 (.v 4) (.v 6) ⟨false, 0, true⟩) (alu 3 5 0), out .v 6 (.idp4 h0 false true false 8 (.v 4) (.v 6) (.v 10)) (alu 0xFF807F02 0x01010103 10)] =
      [some (0, 3), some (0, 14)] ∧
    does (.isetp h0 false .lt .s32 3 (.v 4) (.v 6)) (alu 0xFFFFFFFF 1 0) (fun _ t => t.reg me 3 .p 3 0 == 0 && t.reg me 4 .p 3 0 == 1) = true ∧
    does (.isetp h0 true .lt .n32 3 (.g 1) (.g 2)) (gs [(1, 1), (2, 0xFFFFFFFF)] st0) (fun _ t => t.reg me 4 .gp 3 0 == 1) = true := by decide +kernel

/-! ### Floating and lane instructions -/

theorem test_float_arithmetic :
    [out .v 4 (.fadd h0 none .f32 8 (.v 4) (.v 6)) (alu 0x3F800000 0x40000000 0), out .v 4 (.fsub h0 none .f16 8 (.v 4) (.v 6)) (alu 0x3C00 0x4000 0),
      out .v 4 (.fmul h0 (some .rz) .f32 8 (.v 4) (.v 6)) (alu 0x3F800001 0x3F800001 0), out .v 4 (.ffma h0 none .f32 8 (.v 4) (.v 6) (.v 10)) (alu 0x40000000 0x40400000 0x3F800000),
      out .v 4 (.fmin h0 .f32 8 (.v 4) (.v 6)) (alu 0x7FC00000 0x40000000 0), out .v 4 (.fmax h0 .f32 8 (.v 4) (.v 6)) (alu 0x80000000 0 0)] =
      [some (0, 0x40400000), some (0, 0xBC00), some (0, 0x3F800002), some (0, 0x40E00000), some (0, 0x7FC00000), some (0, 0)] := by decide +kernel
theorem test_packed_and_converted :
    [out .v 4 (.hfma2 h0 none .f16 8 (.v 4) (.v 6) (.v 10)) (alu 0x40003C00 0x3C003C00 0), out .v 4 (.cvt h0 none false (.flt .f32) (.int .s32) 8 (.v 4)) (alu 0xFFFFFFFE 0 0),
      out .v 4 (.cvt h0 (some .rz) false (.int .s32) (.flt .f32) 8 (.v 4)) (alu 0xC0200000 0 0), out .v 4 (.cvt h0 none true (.int .s8) (.int .s32) 8 (.v 4)) (alu 300 0 0)] =
      [some (0, 0x40003C00), some (0, 0xC0000000), some (0, 0xFFFFFFFE), some (0, 127)] := by decide +kernel
/-- The example of R366. -/
theorem test_blocks :
    does (.bpack h0 none 4 8 4) (vs [(4, 0, 0x40400000), (4, 1, 0xBF400000), (4, 2, 0x3E99999A), (4, 3, 0x40B00000)] st0)
      (fun _ t => [0, 1, 2, 3, 4, 31].map (t.reg me 4 .v 8) == [0x60F3, 0, 0, 0, 0x7F, 0x7F]) = true ∧
    does (.bunpack h0 none 4 8 4) (vs [(4, 0, 0x60F3), (4, 4, 0x7F)] st0)
      (fun _ t => [0, 1, 2, 3, 4].map (t.reg me 4 .v 8) == [0x40400000, 0xBF800000, 0, 0x40C00000, 0]) = true := by decide +kernel
/-- FMT with TIV, TDZ or TOF set (R119). -/
theorem test_float_condition_traps :
    traps (.fmul h0 none .f32 8 (.v 4) (.v 6)) (alu 0x7F800000 0 0 0x20) 80 0 0 = true ∧
    traps (.frcp h0 none 8 (.v 4)) (alu 0 0 0 0x40) 81 0 0 = true ∧
    traps (.fmul h0 none .f32 8 (.v 4) (.v 6)) (alu 0x7F7FFFFF 0x7F7FFFFF 0 0x80) 82 0 0 = true := by decide +kernel
theorem test_float_functions :
    [out .v 12 (.frcp h0 none 8 (.v 4)) (alu 0x40000000 0 0), out .v 12 (.fsqrt h0 none 8 (.v 4)) (alu 0x40800000 0 0), out .v 4 (.fclass h0 .f32 8 (.v 4)) (alu 0xFF800000 0 0),
      out .v 12 (.flog2 h0 8 (.v 4)) (alu 0x7F800000 0 0), out .v 12 (.fexp2 h0 8 (.v 4)) (alu 0xFF800000 0 0), out .v 12 (.frsq h0 8 (.v 4)) (alu 0x7F800000 0 0),
      out .v 12 (.fcos h0 8 (.v 4)) (alu 0 0 0), out .v 12 (.fsin h0 8 (.v 4)) (alu 0x80000000 0 0)] =
      [some (0, 0x3F000000), some (0, 0x40000000), some (0, 1), some (0, 0x7F800000), some (0, 0), some (0, 0), some (0, 0x3F800000), some (0, 0x80000000)] := by decide +kernel
theorem test_fsetp_amax :
    does (.fsetp h0 .ne .f32 3 (.v 4) (.v 6)) (alu 0x7FC00000 0 0) (fun _ t => t.reg me 4 .p 3 0 == 1) = true ∧
    does (.fsetp h0 .le .f32 3 (.v 4) (.v 6)) (alu 0x7FC00000 0 0) (fun _ t => t.reg me 4 .p 3 0 == 0) = true ∧
    does (.amax h0 .f32 0 (.v 4)) (vs [(4, 1, 0xC0400000), (4, 2, 0x40000000)] st0) (fun _ t => t.reg me 3 .am 0 0 == 0 && t.reg me 4 .am 0 0 == 0x40400000) = true := by
  decide +kernel
theorem test_fsqrt_negative : (0 : Nat) < 0x3F800000 ∧ 0x3F800000 < 0x7F800000 ∧ fsqrtOf .rne false 0xBF800000 = ⟨0x7FC00000, true, false, false⟩ := by decide +kernel
/-- The scale of `RoundingAndExactness`: 1.5 and 2 in units of 1/2. -/
theorem test_exact_sum_hypotheses : (-1 : Int) ≤ -1 ∧ (-1 : Int) ≤ 1 ∧ (addV .rne (.num false 3 (-1)) (.num false 1 1)).1 = .num false 7 (-1) := by decide +kernel
/-- The lane example of R440: lanes 0 to 7, v3 = 10 × lane. -/
def exchange : State := vs ((List.range 8).map fun l => (3, l, 10 * l)) (lanes 0xFF st0)
theorem test_shfl_rot :
    [does (.shfl h0 .xor 5 3 (.imm 1)) exchange (fun _ t => [0, 1, 6, 7].map (t.reg me 4 .v 5) == [10, 0, 70, 60]),
      does (.shfl h0 .down 6 3 (.imm 2)) exchange (fun _ t => [0, 1, 6, 7].map (t.reg me 4 .v 6) == [20, 30, 0, 0]),
      does (.shfl h0 .up 7 3 (.imm 2)) exchange (fun _ t => [0, 1, 6, 7].map (t.reg me 4 .v 7) == [0, 10, 40, 50]),
      does (.rot h0 8 3 (.imm 1)) exchange (fun _ t => [0, 1, 6, 7].map (t.reg me 4 .v 8) == [10, 20, 70, 0])] = [true, true, true, true] := by decide +kernel
theorem test_vote_gmov :
    [does (.vote h0 .ballot 8 false 7) exchange (fun _ t => t.reg me 4 .g 8 0 == 0xFF), does (.vote h0 .cnt 8 true 0) exchange (fun _ t => t.reg me 4 .g 8 0 == 8),
      does (.vote h0 .any 3 false 0) exchange (fun _ t => t.reg me 4 .gp 3 0 == 0), does (.vote h0 .all 3 true 0) exchange (fun _ t => t.reg me 4 .gp 3 0 == 1),
      does (.gmov h0 8 3 (.imm 5)) exchange (fun _ t => t.reg me 4 .g 8 0 == 50), does (.gmov h0 8 3 (.imm 9)) exchange (fun _ t => t.reg me 4 .g 8 0 == 0),
      does (.gmov h0 8 3 .first) (lanes 0xFE exchange) (fun _ t => t.reg me 4 .g 8 0 == 10)] = [true, true, true, true, true, true, true] := by decide +kernel
theorem test_lred_lscan :
    [does (.lred h0 true none .add (.int .s32) 8 3) exchange (fun _ t => t.reg me 7 .g 8 0 == 0 && t.reg me 8 .g 8 0 == 280),
      does (.lred h0 false none .max (.int .s32) 8 3) exchange (fun _ t => t.reg me 8 .v 8 3 == 70),
      does (.lscan h0 false none .add (.int .s32) 8 3) exchange (fun _ t => [0, 1, 7].map (t.reg me 8 .v 8) == [0, 10, 280]),
      does (.lscan h0 true none .add (.int .s32) 8 3) exchange (fun _ t => [0, 1, 7].map (t.reg me 8 .v 8) == [0, 0, 210])] = [true, true, true, true] := by decide +kernel
theorem test_plog_pmov :
    [does (.plog h0 .xor 3 ⟨false, 7, false⟩ ⟨false, 0, false⟩) exchange (fun _ t => t.reg me 4 .p 3 2 == 1), does (.plog h0 .mov 3 ⟨true, 0, true⟩ ⟨false, 0, false⟩) exchange (fun _ t => t.reg me 4 .p 3 2 == 1),
      does (.pmov h0 (.toReg 8 7)) exchange (fun _ t => t.reg me 4 .v 8 7 == 1 && t.reg me 4 .v 8 8 == 0), does (.pmov h0 (.toPred 3 (.v 3))) exchange (fun _ t => t.reg me 4 .p 3 0 == 0 && t.reg me 4 .p 3 1 == 1)] =
      [true, true, true, true] := by decide +kernel
/-- The hypotheses of `AluFrame` and `SourcesReadByPass`. -/
theorem test_alu_frame_hypotheses :
    let i : Instr := .iadd h0 false .s32 false 8 (.v 4) (.v 6)
    i.wellFormed = true ∧ isPerLane i = true ∧ does i (alu 1 2 0) (fun x _ => x.cur.src.isNone && decide ((0 : Nat) < 32 * passesOf x.width) &&
      match evalOf i with | some ev => (match ev x with | .ok _ => true | .error _ => false) | none => false) = true := by decide +kernel
/-! ### Control, fork and join -/

/-- The strand of the test states goes to a program counter and its run has ended. -/
def went (t : State) (pc : Nat) (e : Entry) : Bool := match t.strand? me with
  | some u => u.c.pc == pc && u.entry == e && u.st == .ready && u.runLen == 0
  | none => false
theorem test_bra_jmpx_nop :
    [does (.bra h0 ⟨-1, 4⟩) st0 (fun _ t => went t (pc0 - 64 + 4) .transfer), does (.jmpx h0 1) (gs [(1, 0xC2)] st0) (fun _ t => went t (pc0 + 0xC2) .transfer),
      traps (.jmpx h0 1) (gs [(1, 8)] st0) 19 0 0, traps (.jmpx h0 1) (gs [(1, 5)] st0) 17 0 0, traps (.jmpx h0 1) (gs [(1, 65536)] st0) 18 0 0,
      does (.nop h0) st0 (fun x t => !x.cur.second && (t.strand? me).any fun u => u.c.pc == pc0 + 1)] = [true, true, true, true, true, true] := by decide +kernel
/-- CALL pushes the link of R370 below its N words, and RET pops it. -/
theorem test_call_ret :
    [does (.call h0 2 ⟨3, 1⟩) st0 (fun x t => x.g.stackFailed.isEmpty && x.g.inflight.isEmpty && decide (x.t.c.sl + 16 + 16 * 2 ≤ x.t.c.sp) &&
        went t (pc0 + 192 + 1) .transfer && (t.strand? me).any (fun u => u.c.sp == 4096 - 48) &&
        (t.group? 1 0).any fun k => ofBytes (k.peekStack 31 (4096 - 48) 16) == pc0 + 1 + 2 ^ 64 * 4096 + 2 ^ 96 * 0x4B4E494C),
      traps (.call h0 0 ⟨3, 1⟩) (ctx (fun c => { c with sl := 4081 }) st0) 155 0 4080,
      match exec (.call h0 0 ⟨3, 1⟩) (lanes 1 st0) with
        | .next t => does (.ret h0) { t with cur := some (cursorAt me (pc0 + 193) (pc0 + 194) 5) }
            (fun x t => !x.aboveBase (x.t.c.sp + 16) && x.t.c.held.isEmpty && went t (pc0 + 1) .ret && (t.strand? me).any fun u => u.c.sp == 4096)
        | _ => false] = [true, true, true] := by decide +kernel
/-- The state after a fork on p0, which lanes 0 and 2 hold, split at 32. -/
def forked : Option State := (ran (.fork h0 false 0 32 1 ⟨2, 0⟩ ⟨3, 0⟩) (ctx (fun c => { c with p := c.p.set 0 5 }) st0))
theorem test_fork :
    (forked.any fun t => (t.group? 1 0).any fun k => k.strands.map (fun u => (u.sn, u.c.mask, u.c.pc, u.entry, u.c.lo, u.c.hi, u.c.sp, u.c.sl)) ==
      [(0, 0xFFFFFFFF, pc0 + 128, .transfer, 32, 256, 3840, 0), (1, 0xFFFFFFFA, pc0 + 1, .seq, 0, 32, 4096, 3840), (2, 5, pc0 + 192, .transfer, 0, 32, 4096, 3840)] &&
      k.frames.map (fun f => (f.base, f.lo, f.split, f.arms)) == [(3840, 0, 32, 2)]) = true := by decide +kernel
/-- A state in which strand `sn` of the fork above executes an instruction at cycle 10. -/
def arm (sn : Nat) : State := match forked with
  | some t => { t with cur := some (cursorAt ⟨1, 0, sn⟩ (pc0 + 200) (pc0 + 201) 10) }
  | none => st0
/-- With three strands of one group a second fork would make five: it is serialised. -/
theorem test_fork_serialised :
    does (.fork h0 false 0 16 0 ⟨2, 0⟩ ⟨3, 0⟩) (arm 1 |>.modStrand ⟨1, 0, 1⟩ fun t => { t with c := { t.c with p := t.c.p.set 0 2 } })
      (fun x t => decide (4 < x.g.strands.length + 2) && (t.strand? ⟨1, 0, 1⟩).any fun u => u.c.mask == 0xFFFFFFF8 && u.next.map (fun p => p.c.mask) == [2, 0xFFFFFFFA]) = true := by
  decide +kernel
theorem test_exit : does (.exit h0) st0 (fun x t => x.g.frames.isEmpty && (t.strand? me).isNone) = true := by decide +kernel
/-- JSET by the lanes of an arm, its ARMEND, and the JOIN and JWAIT of the continuation. -/
theorem test_join_instructions :
    [does (.jset h0 3 4) (vs [(4, 2, 9)] (arm 2)) (fun x t => (x.armFrame.any fun f => f.deposited.length == 8 && f.absent.length == 8 && x.mask &&& f.deposited.getD 3 0 == 0) &&
        (t.group? 1 0).any fun k => k.frames.any fun f => f.deposited.getD 3 0 == 5 && Sparse.get 0 f.vals (3 * 128 + 2) == 9),
      does (.armend h0) (arm 2) (fun x t => x.t.c.own.isEmpty && x.t.next.isEmpty && (t.strand? ⟨1, 0, 2⟩).isNone &&
        (t.group? 1 0).any fun k => k.frames.any fun f => f.arms == 1 && f.absent.getD 0 0 == 5),
      does (.armend h0) ((arm 2).modStrand ⟨1, 0, 2⟩ fun t => { t with next := [⟨t.c, [], []⟩] }) (fun _ t => (t.strand? ⟨1, 0, 2⟩).any fun u => u.next.isEmpty),
      does (.join h0 40 3) (arm 0) (fun x t => x.ownFrame.isSome && (t.group? 1 0).any fun k => k.inflight.any fun y => y.dst == [(.v, 40)]),
      does (.jwait h0) ((arm 0).modGroup 1 0 fun g => { g with strands := g.strands.take 1, frames := g.frames.map fun f => { f with arms := 0 } })
        (fun x t => (x.ownFrame.any fun f => x.g.canClose x.t f) && (t.group? 1 0).any (fun k => k.frames.isEmpty) && (t.strand? me).any fun u => u.c.lo == 0 && u.c.own.isEmpty),
      does (.jwait h0) ((arm 0).modGroup 1 0 fun g => { g with strands := g.strands.take 1, frames := g.frames.map (fun f => { f with arms := 0 }), fixed := [⟨endedSn, 12, [.v 31 0 5], false⟩] })
        (fun x t => (x.ownFrame.any fun f => !x.g.canClose x.t f) && (t.strand? me).any fun u => u.st == .frame .jwait)] =
      [true, true, true, true, true, true] := by decide +kernel
theorem test_fork_and_join_traps :
    [traps (.fork h0 false 0 12 0 ⟨2, 0⟩ ⟨3, 0⟩) st0 193 0 0, traps (.fork h0 false 0 256 0 ⟨2, 0⟩ ⟨3, 0⟩) (hdr (fun k => { k with vregs := 240 }) (grp (fun g => { g with n := 240 }) st0)) 193 0 0,
      traps (.fork h0 false 0 32 17 ⟨2, 0⟩ ⟨3, 0⟩) st0 199 0 0, traps (.fork h0 false 0 64 0 ⟨2, 0⟩ ⟨3, 0⟩) ((arm 0).modGroup 1 0 fun g => { g with frames := List.replicate 8 (g.frames.getD 0 default) }) 198 0 0,
      traps (.exit h0) (arm 0) 196 0 0, traps (.armend h0) st0 195 0 0, traps (.armend h0) ((arm 1).modStrand ⟨1, 0, 1⟩ fun t => { t with c := { t.c with own := [7] } }) 196 0 0,
      traps (.jset h0 0 4) st0 195 0 0, traps (.jset h0 0 4) ((arm 2).modGroup 1 0 fun g => { g with frames := g.frames.map fun f => { f with deposited := f.deposited.set 0 6 } }) 194 2 0,
      traps (.join h0 4 0) st0 195 0 0, traps (.jwait h0) st0 195 0 0] = [true, true, true, true, true, true, true, true, true, true, true] := by decide +kernel
/-! ### Memory instructions -/

/-- A record of elements of 2^esz bytes with STRIDE that size, all permissions and the flags of bit 63 (R139). -/
def rec (base ext esz : Nat) (strict : Nat := 0) : BitVec 128 :=
  BitVec.ofNat 128 (base + esz * 2 ^ 57 + 7 * 2 ^ 60 + strict * 2 ^ 63 + 2 ^ esz * 2 ^ 76 + ext * 2 ^ 96)
/-- The data page of the test states: 64 KiB at PA 0x1010_0000. -/
def va0 : Nat := 2 ^ 56 + 0x100000
def pa0 : Nat := 0x10100000
/-- Lanes 0 to 3, b1 over 64 words at va0, b2 as b1 but strict, v3 the lane's number, v4 and v5 four values of it. -/
def mst : State :=
  vs ((List.range 4).flatMap fun l => [(3, l, l), (4, l, l + 100), (5, l, l + 200)])
    (lanes 15 (grp (fun g => { g with b := [(1, rec va0 64 2), (2, rec va0 64 2 1), (3, rec (2 ^ 56 + 2 ^ 28) 64 2)] }) st0))
/-- The weight store: a 256 MiB leaf behind the one of the test states. -/
def wst : State := { mst with mem := Sparse.putList 0#8 mst.mem 0x120008 (bytesOf 8 (127 + 0x8000000000)) }
def ord0 : MemOrd := ⟨false, false, .group, false⟩
/-- The places of a clear access and the result that it adds. -/
def loads (i : Instr) (s : State) (places : List (Option Loc)) (dst : List (Cls × Nat)) : Bool := does i s fun x t =>
  !x.holds && x.t.c.held.isEmpty && lastDst t == some dst && (lastMem t).any fun m => m.acc.map LaneAcc.loc == places && m.err.isNone
theorem test_loads_pend :
    [loads (.ld h0 (.int .s32) ord0 (.v 3) 1 8 4) mst [some (.mem (pa0 + 4)), some (.mem (pa0 + 8)), some (.mem (pa0 + 12)), some (.mem (pa0 + 16))] [(.v, 8)],
      loads (.ld h0 (.int .s32) ord0 (.v 3) 1 8 248) mst [some (.mem (pa0 + 248)), some (.mem (pa0 + 252)), none, none] [(.v, 8)],
      loads (.ldw h0 (.int .s64) (.g 0) 3 8 8) wst (List.replicate 4 (some (.mem 0x8000000008))) [(.v, 8), (.v, 9)],
      loads (.lds h0 (.int .s16) ord0 (.v 3) 8 65532) (lanes 3 (vs [(3, 1, 2)] mst)) [some (.sx 65532), some (.sx 65534)] [(.v, 8)],
      loads (.ldk h0 .s32 8 0xFFFFFFFC) (lanes 3 mst) [some (.stk 0 4092), some (.stk 1 4092)] [(.v, 8)]] = [true, true, true, true, true] := by decide +kernel
theorem test_atomics_pend :
    [does (.atom h0 .cas .s32 ord0 (.v 3) 1 8 4 0) mst fun x t => !x.holds && (lastMem t).any fun m => m.acc.map (fun a => (a.loc, a.cmp, a.arg)) == [(some (.mem pa0), 100, 200), (some (.mem (pa0 + 4)), 101, 201), (some (.mem (pa0 + 8)), 102, 202), (some (.mem (pa0 + 12)), 103, 203)],
      does (.atoms h0 .add .n64 ord0 (.g 0) 8 4 16) (lanes 1 mst) fun x t => !x.holds && lastDst t == some [(.v, 8), (.v, 9)] && (lastMem t).any fun m => m.acc.map (fun a => (a.loc, a.arg)) == [(some (.sx 16), 100 + 2 ^ 32 * 200)]] = [true, true] := by decide +kernel
/-- The causes of R141 and R145 at their edges: null record, strict and out of bounds, misaligned. -/
theorem test_load_traps :
    [traps (.ld h0 (.int .s32) ord0 (.v 3) 0 8 0) mst 133 0 0, does (.ld h0 (.int .s32) ord0 (.v 3) 2 8 244) mst (fun x t => decide (t = (mst.countOob x.rk 1).trapped x 128 3 256)), traps (.ld h0 (.int .s32) ord0 (.v 3) 1 8 2) mst 129 0 va0,
      traps (.ldk h0 .s32 8 0) mst 139 0 4096] = [true, true, true, true] := by decide +kernel
/-- A store enters the merge buffer by line, and memory keeps its bytes. -/
theorem test_st :
    does (.st h0 (.int .s32) ord0 (.v 3) 1 4 120) mst (fun x t => !x.holds && x.g.inflight.isEmpty && t.mem == mst.mem && (t.core 0).buf.map (fun e => (e.va, e.loc, e.bytes.map BitVec.toNat)) ==
      [(va0 + 120, .mem (pa0 + 120), [100, 0, 0, 0, 101, 0, 0, 0]), (va0 + 128, .mem (pa0 + 128), [102, 0, 0, 0, 103, 0, 0, 0])]) = true := by decide +kernel
theorem test_sts_stk :
    [does (.sts h0 (.int .s8) ord0 (.v 3) 4 16) mst fun x t => !x.holds && x.x.scratchFailed.isEmpty && (t.slice? 1).any fun y => (Sparse.getList 0#8 y.scratch 15 6).map BitVec.toNat == [0, 100, 101, 102, 103, 0],
      does (.stk h0 .s16 4 0xFFFFFFF0) mst fun x t => x.g.stackFailed.isEmpty && (t.group? 1 0).any fun k => (k.peekStack 3 4079 4).map BitVec.toNat == [0, 103, 0, 0]] = [true, true] := by decide +kernel
theorem test_pref_and_fences :
    [does (.pref h0 (.v 3) 1 244) (lanes 7 mst) fun x t => !x.loadHeld [] 0 && t.dcache.map (fun e => e.2.map fun c => (c.line, c.valid, c.dirty)) == [[((pa0 + 244) / 128, 8, 0)]] &&
        decide (t = ({ (lanes 7 mst).charged x (.pref h0 (.v 3) 1 244) with dcache := t.dcache, promoted := t.promoted } : State).issued x (.pref h0 (.v 3) 1 244)),
      does (.fence h0 true false .core) mst fun x t => x.mask != 0 && !x.holds && (t.strand? me).any fun u => u.fences.map (fun f => (f.path, f.ids, f.scope, f.sys)) == [(none, [], .core, false)],
      does (.fenceCounting h0 false true 8) mst fun x t => x.mask != 0 && (t.strand? me).any fun u => u.fences.map (fun f => (f.scope, f.sys, f.count.map Prod.snd)) == [(.sys, true, some 8)],
      does (.xfence h0 .ls .cp .dev) mst fun x t => !x.holds && (t.strand? me).any fun u => u.fences.map (fun f => (f.path, f.scope)) == [(some .cp, .dev)]] = [true, true, true, true] := by decide +kernel
theorem test_mwatch_mwait :
    [does (.mwatch h0 true 8 1 1 4) (lanes 0 (gs [(1, 1)] mst)) fun x t => (x.t.c.held.isEmpty) && lastDst t == some [(.g, 8), (.g, 9)] && (lastMem t).any fun m => m.watch && m.acc.map LaneAcc.loc == [some (.mem (pa0 + 8))],
      does (.mwait h0 8 1) mst fun _ t => lastBody t == some (.timed 4 [.g 8 5]),
      does (.mwait h0 8 1) (grp (fun g => { g with watch := some ⟨some 5, va0, false, false, true⟩ }) mst) fun _ t => (t.group? 1 0).any fun k => k.watch.isNone && lastBody t == some (.timed 4 [.g 8 4]),
      does (.mwait h0 8 1) (grp (fun g => { g with watch := some ⟨some 5, va0, true, true, false⟩ }) mst) fun _ t => (t.group? 1 0).any fun k => k.watch.isNone && lastBody t == some (.timed 4 [.g 8 3]),
      does (.mwait h0 8 1) (grp (fun g => { g with watch := some ⟨some 5, va0, true, false, false⟩ }) mst) fun _ t => (t.group? 1 0).any fun k => k.watch == some ⟨some 5, va0, false, false, false⟩ && lastBody t == some (.timed 4 [.g 8 1]),
      does (.mwait h0 8 1) (grp (fun g => { g with watch := some ⟨none, va0, false, false, false⟩ }) mst) fun _ t => lastBody t == some (.timed 4 [.g 8 5]),
      does (.mwait h0 8 1) (gs [(1, 50)] (grp (fun g => { g with watch := some ⟨some 5, va0, false, false, false⟩ }) mst)) fun _ t => (t.strand? me).any fun u => match u.st with | .parked (some 50) _ => true | _ => false] =
      [true, true, true, true, true, true, true] := by decide +kernel
/-- BRSET of a record, of one with STRIDE 0 (182) and of one whose base is no multiple of the element (183). -/
theorem test_brset :
    [does (.brset h0 5 0) (gs [(1, 2 ^ 24 + 2 ^ 30 + 2 ^ 26), (2, 4 * 2 ^ 12), (3, 64)] st0) fun _ t => lastDst t == some [(.b, 5)] && lastBody t == some (.timed 4 [.b 5 (BitVec.ofNat 128 ((2 ^ 24 + 2 ^ 30 + 2 ^ 26) * 2 ^ 32 + 2 ^ 78 + 64 * 2 ^ 96))]),
      traps (.brset h0 5 0) (gs [(0, 64), (3, 64)] st0) 182 0 0, traps (.brset h0 5 0) (gs [(0, 2), (1, 2 ^ 24 + 2 ^ 26), (2, 4 * 2 ^ 12), (3, 64)] st0) 183 0 0,
      does (.brset h0 5 0) st0 fun _ t => lastBody t == some (.timed 4 [.b 5 0])] = [true, true, true, true] := by decide +kernel
/-! ### Engines -/

/-- b1 to b4 over 64 words each, one MiB of registers set for the engines: g16 on holds a copy's LEN, DSTOFF and SRCOFF. -/
def est : State :=
  gs [(16, 64), (17, 0), (18, 0), (24, 16), (25, 32), (32, 1 + 0 * 2 ^ 0), (33, 64), (34, 0)]
    (grp (fun g => { g with b := [(1, rec va0 64 2), (2, rec (va0 + 256) 64 2), (3, rec (va0 + 512) 64 2), (4, rec (va0 + 768) 64 2)] }) st0)
theorem test_copy_issue :
    [does (.cpy h0 2 1 8 .sx (.buf 1) 16 (some 2)) est fun x t => !x.holds && t.reg me 4 .gp 2 0 == 1 && (t.chan 0 1).tail == 64 && (t.chan 0 1).entries.map (fun e => (e.len, e.fin, e.d)) == [(64, 64, 8)] && lastDst t == some [(.g, 9)],
      traps (.cpy h0 2 1 8 .sx (.buf 1) 32 none) (gs [(32, 1048580)] est) 256 0 0, traps (.cpy h0 2 1 8 .sx (.buf 1) 16 none) (gs [(16, 63)] est) 257 0 0,
      traps (.cpy h0 2 1 8 .sx (.buf 5) 16 none) est 259 0 0,
      does (.cpyt h0 2 0 8 .sx (.buf 1) 16 none) (gs [(16, 4 + 2 * 2 ^ 16), (17, 0), (18, 0), (19, 16), (20, 16), (21, 0)] est) fun _ t => (t.chan 0 0).entries.map (fun e => (e.len, e.tile)) == [(32, true)],
      does (.cpy h0 2 1 8 .sx (.buf 1) 16 (some 2)) (est.modChan 0 1 fun c => { c with entries := List.replicate 12 (default : CopyEntry) }) fun x t => !x.holds && t.reg me 4 .gp 2 0 == 0 && (t.chan 0 1).entries.length == 12] =
      [true, true, true, true, true, true] := by decide +kernel
/-- A copy of 64 bytes in channel 1, not begun. -/
def copying : State := match exec (.cpy h0 2 1 8 .sx (.buf 1) 16 none) est with
  | .next t => { t with cur := some (cursorAt me (pc0 + 2) (pc0 + 3) 10) }
  | _ => est
theorem test_cpkill :
    [does (.cpkill h0 1 10) est fun x t => !x.holds && lastBody t == some (.timed 4 [.g 10 0]),
      does (.cpkill h0 1 10) copying fun x t => !x.holds && lastBody t == some .await && (t.chan 0 1).entries.all fun e => e.stop && e.kill.isSome] = [true, true] := by decide +kernel
/-- A strict update or copy whose elements reach past its window counts them and traps (R237, R314). -/
theorem test_strict_counts :
    let strict := grp (fun g => { g with b := g.b.map fun e => (e.1, e.2 ||| BitVec.ofNat 128 (2 ^ 63)) })
    let counts := fun (i : Instr) (s : State) (n cause : Nat) => match s.clear i, exec i s with
      | some x, .next t => decide (t = (s.countOob x.rk n).trapped x cause 0 0)
      | _, _ => false
    [counts (.optstep h0 false 8 1 4 24 2 3) (gs [(24, 33)] (strict est)) 1 290, counts (.cpy h0 2 1 8 .sx (.buf 1) 16 none) (gs [(16, 256), (18, 16)] (strict est)) 4 260] = [true, true] := by decide +kernel
theorem test_optstep_thset :
    [does (.optstep h0 false 8 1 4 24 2 3) (gs [(24, 16), (25, 32)] est) fun x t => !x.holds && (t.core 0).upd.map (fun u => (u.next, u.updated)) == [(2, 0)] && lastDst t == some [(.g, 8), (.g, 9)],
      traps (.optstep h0 false 8 1 4 24 2 3) (gs [(24, 0)] est) 288 0 0, traps (.optstep h0 false 8 1 4 24 2 1) est 289 0 0,
      traps (.optstep h0 false 8 5 4 24 2 3) est 289 0 0,
      does (.thset h0 8 2 24) (gs [(24, 0), (25, 2 ^ 8 * 4), (26, 2 ^ 16 * 0)] est |> gs [(25, 64 * 2 ^ 8 + 2 ^ 16 * 16)]) fun _ t => lastDst t == some [(.th, 2), (.g, 8)],
      traps (.thset h0 8 2 24) (gs [(25, 65 * 2 ^ 8)] est) 273 0 0] = [true, true, true, true, true, true] := by decide +kernel
/-- th1 names 64 rows of the scratchpad, 64 bytes apart. -/
def mxst : State := grp (fun g => { g with th := [(1, BitVec.ofNat 256 (64 * 2 ^ 40 + 64 * 2 ^ 48))] }) est
/-- A matrix instruction joins the queue of array 0 with its status pending. -/
def queues (i : Instr) (dst : List (Cls × Nat)) (s : State := mxst) : Bool := does i s fun x t =>
  !x.holds && lastDst t == some dst && lastBody t == some .await && (t.array? 1 0).any fun a => a.queue.map (fun c => (c.instr, c.done)) == [(i, false)]
theorem test_matrix_issue :
    [queues (.mma h0 .regs 0 4 8 0) [(.g, 8)], queues (.mmat h0 .sx 1 1 8 0) [(.g, 8)], queues (.mmad h0 .sx 0 1 1 1 8 0) [(.g, 8)], queues (.mldw h0 .sx 0 1 8) [(.g, 8)], queues (.mswap h0 .regs 0 8) [(.g, 8)],
      queues (.mdrain h0 .f32 .regs false false 0 40 8 0 0 0) ((.g, 8) :: (List.range 8).map fun n => (.v, 40 + n)), queues (.mzero h0 .regs 2 8 60 4) [(.g, 8)], queues (.mfill h0 .f32 .sx 0 1 8 0) [(.g, 8)]] =
      [true, true, true, true, true, true, true, true] := by decide +kernel
theorem test_matrix_traps :
    [traps (.mma h0 .regs 0 4 8 0) (ctx (fun c => { c with fmt := 0x20000 }) mxst) 114 0 0,
      traps (.mma h0 .sx 0 2 8 0) mxst 273 0 0, traps (.mzero h0 .regs 2 8 61 4) mxst 274 0 0, traps (.mmad h0 .sx 1 1 1 1 8 0) mxst 275 0 0] = [true, true, true, true] := by decide +kernel

/-! ### Formats and records -/

theorem test_setfmt :
    [does (.setfmt h0 1) (gs [(1, 0xFF12FFFF)] st0) fun _ t => (t.strand? me).any fun u => u.c.fmt == 0x001200F7, traps (.setfmt h0 1) (gs [(1, 0x00040000)] st0) 112 0 0, traps (.setfmt h0 1) (gs [(1, 0x00F00000)] st0) 112 0 0,
      does (.setfmtSc h0 2 1) (gs [(1, 0xFF800001)] st0) fun _ t => t.reg me 4 .sc 2 0 == 0x7FC00000, does (.setfmtSc h0 2 1) (gs [(1, 0x40000000)] st0) fun _ t => t.reg me 4 .sc 2 0 == 0x40000000,
      does (.setfmtClr h0 2) (grp (fun g => { g with am := [(2, 5)] }) st0) fun _ t => t.reg me 4 .am 2 0 == 0] = [true, true, true, true, true, true] := by decide +kernel
/-- b1 over records of 128 bytes. -/
def scst : State := lanes 0 (grp (fun g => { g with b := [(1, BitVec.ofNat 128 (va0 + 2 * 2 ^ 57 + 7 * 2 ^ 60 + 128 * 2 ^ 76 + 4 * 2 ^ 96))], replay := some [] }) st0)
theorem test_screc_scload :
    [does (.screc h0 1 1 0) scst fun x t => x.t.c.held.isEmpty && x.g.inflight.isEmpty && (t.core 0).buf.map (fun e => (e.loc, e.bytes.length)) == [(.mem pa0, 128)],
      does (.scload h0 1 1 128) scst fun x t => x.t.c.held.isEmpty && (t.strand? me).any fun u => match u.st, lastBody t with
        | .scoreboard (.result n), some (.scload 1 va (some p) false got none) => got == some (List.replicate 128 0#8) && va == va0 + 128 && p == .mem (pa0 + 128) && (last t).any fun f => f.id == n
        | _, _ => false,
      does (.scloadEnd h0) scst fun _ t => (t.group? 1 0).any fun k => k.replay.isNone] = [true, true, true] := by decide +kernel
/-! ### Harnesses -/

/-- The handle of INDEX 0, generation 1, of region tag 1, and its harness: member 0 is the test group; `more` are other members. -/
def hv : W32 := handleOf 1 0 1
def hkey : HKey := madeKey 0 0
def other : HMember := ⟨1, .here ⟨1, 7⟩, false, false⟩
def harn (more : List HMember) (f : Harness → Harness := id) : State :=
  let s := grp (fun g => { g with h := [(4, ⟨hv, 0⟩)] }) (slc (fun x => { x with created := [0] }) st0)
  { s with harnesses := [(hkey, f { Harness.fresh hv 0 (regionKey 0 1) .core (some (.core 0 0)) false 1 with members := ⟨0, .here ⟨1, 0⟩, false, false⟩ :: more })] }
theorem test_hcreate :
    [does (.hcreate h0 none .core 4 2) st0 fun x t => !x.createFails st0 .core && lastBody t == some (.timed 4 [.h 4 ⟨hv, 0⟩, .gp 2 true]) && (t.harnesses.drop 2).map (fun e => (e.1, e.2.members)) == [(hkey, [⟨0, .here ⟨1, 0⟩, false, false⟩])],
      does (.hcreate h0 (some 1) .sys 4 2) (gs [(1, 2)] st0) fun x t => x.createFails st0 .sys && lastBody t == some (.timed 4 [.h 4 ⟨0, 0⟩, .gp 2 false]),
      traps (.hcreate h0 none .core 1 2) st0 216 0 0, traps (.hcreate h0 (some 1) .core 4 2) st0 220 0 0, traps (.hcreate h0 (some 1) .core 4 2) (gs [(1, 2 ^ 30)] st0) 220 0 0,
      does (.hcreate h0 (some 1) .core 4 2) (gs [(1, 2 ^ 30 - 1)] st0) fun _ t => (t.harnesses.drop 2).map (fun e => (e.2.counted, e.2.created)) == [(true, 2 ^ 30 - 1)]] =
      [true, true, true, true, true, true] := by decide +kernel
theorem test_hfree_hleave :
    [does (.hfree h0 4) (harn []) fun _ t => t.harnesses.isEmpty && (t.group? 1 0).any fun k => k.hreg 4 == ⟨0, 0⟩, traps (.hfree h0 4) (harn [other]) 215 0 0, traps (.hfree h0 5) (harn []) 209 0 0,
      does (.hfree h0 4) (harn [other] fun z => { z with failed := true }) fun _ t => t.harnesses.isEmpty,
      does (.hleave h0 4) (harn [other]) fun x t => (x.arriveWait (harn [other]) true).isNone && (t.group? 1 0).any (fun k => k.hreg 4 == ⟨0, 0⟩) && (t.harness? hkey).any fun z => z.coming.map (fun a => (a.idx, a.who, a.gone)) == [(0, .here ⟨1, 0⟩, some (false, false))],
      traps (.hleave h0 4) (harn [] fun z => { z with members := [other] }) 210 0 0] = [true, true, true, true, true, true] := by decide +kernel
theorem test_hjoin :
    [does (.hjoin h0 5 8) (gs [(8, hv.toNat)] (harn [] fun z => { z with members := [] })) fun _ t => (t.harness? hkey).any fun z => z.members == [⟨0, .here ⟨1, 0⟩, false, false⟩] && lastBody t == some (.timed 4 []),
      does (.hjoin h0 5 8) (gs [(8, hv.toNat)] (harn [] fun z => { z with members := [other] })) fun _ t => lastBody t == some .await && (t.harness? hkey).any fun z => z.members.any fun m => m.who == .here ⟨1, 0⟩ && m.joining && m.idx == 0,
      traps (.hjoin h0 5 8) (gs [(8, hv.toNat), (9, 4096)] (harn [])) 217 0 0, traps (.hjoin h0 1 8) (gs [(8, hv.toNat)] (harn [])) 216 0 0, traps (.hjoin h0 5 8) (gs [(8, hv.toNat)] (harn [])) 217 0 0,
      traps (.hjoin h0 5 8) (gs [(8, hv.toNat)] (slc (fun x => { x with created := [] }) (harn []))) 213 0 0, traps (.hjoin h0 5 8) (gs [(8, 1 + hv.toNat)] (harn [])) 208 0 0] =
      [true, true, true, true, true, true, true] := by decide +kernel
theorem test_harr_hbar :
    [does (.harr h0 8 4 none) (harn [other] fun z => { z with phase := 9 }) fun x t => (x.arriveWait st0 default).isNone && t.reg me 4 .g 8 0 == 9 && (t.harness? hkey).any fun z => z.phase == 9 && z.arrivals.isEmpty && z.coming.map (fun a => (a.idx, a.kind, a.res)) == [(0, .barrier, 2)],
      does (.hbar h0 8 4 none) (harn [other]) fun _ t => lastBody t == some .await && (t.strand? me).any (fun u => match u.st with | .harness n => (last t).any fun f => f.id == n | _ => false) && (t.harness? hkey).any fun z => z.coming.map (fun a => (a.idx, a.d, a.res)) == [(0, 8, 0)],
      traps (.harr h0 8 4 none) (harn [other] fun z => { z with kind := some .barrier, count := 2, arrivals := [⟨0, none, 0, 0, false⟩] }) 214 0 0,
      traps (.harr h0 8 4 none) (harn [other] fun z => { z with kind := some (.vote .any), count := 2, arrivals := [⟨1, none, 0, 0, false⟩] }) 219 0 0,
      traps (.harr h0 8 4 (some 1)) (harn [other]) 220 0 0, traps (.harr h0 8 4 (some 1)) (gs [(1, 2 ^ 30)] (harn [other])) 220 0 0, traps (.harr h0 8 4 (some 1)) (gs [(1, 3)] (harn [other])) 211 0 2,
      traps (.hbar h0 8 4 none) (harn [other] fun z => { z with failed := true }) 221 0 0] = [true, true, true, true, true, true, true, true] := by decide +kernel
theorem test_hvote_hred :
    [does (.hvote h0 .cnt 8 4 1 none) (gs [(1, 5)] (harn [other])) fun _ t => lastDst t == some [(.g, 8), (.g, 9)] && (t.harness? hkey).any fun z => z.coming.map (fun a => (a.idx, a.kind, a.value)) == [(0, .vote .cnt, some 5)],
      does (.hred h0 .max .s32 8 4 1 none) (gs [(1, 5)] (harn [other] fun z => { z with kind := some (.red .max .s32), count := 2, arrivals := [⟨1, some 7, 0, 0, false⟩] })) fun _ t => (t.harness? hkey).any fun z => z.phase == 0 && z.coming.map HComing.value == [some 5]] = [true, true] := by decide +kernel
/-- Arrivals that have reached the unit are taken: the first of two is recorded, the last one opens the next phase, and one of another kind is not recorded. -/
def come (k : HKind) : HComing := ⟨0, .here ⟨1, 0⟩, k, none, none, 0, none, 0, pc0, 50, 8, 0, none⟩
theorem test_arrivals_taken :
    [((harn [other] fun z => { z with phase := 9, coming := [come .barrier] }).takeOne hkey (come .barrier)).harness? hkey,
      ((harn [other] fun z => { z with phase := 9, kind := some .barrier, count := 2, arrivals := [⟨1, none, 0, 0, false⟩], coming := [come .barrier] }).takeOne hkey (come .barrier)).harness? hkey,
      ((harn [other] fun z => { z with phase := 9, kind := some .barrier, count := 2, arrivals := [⟨1, none, 0, 0, false⟩], coming := [come (.vote .any)] }).takeOne hkey (come (.vote .any))).harness? hkey].map
      (Option.map fun z => (z.phase, z.kind, z.arrivals.map HArrive.idx, z.coming.length)) =
      [some (9, some .barrier, [0], 0), some (10, none, [], 0), some (9, some .barrier, [1], 0)] := by decide +kernel
/-- A leave that is taken: of a member that has not arrived it counts as its arrival, a member that has arrived is marked, and one that joins goes. -/
theorem test_leaves_taken :
    let go : HComing := { come .barrier with gone := some (false, false) }
    let open_ := fun (i : Nat) (z : Harness) => { z with kind := some .barrier, count := 3, arrivals := [⟨i, none, 0, 0, false⟩], coming := [go] }
    [((harn [other] (open_ 1)).takeOne hkey go).harness? hkey, ((harn [other] (open_ 0)).takeOne hkey go).harness? hkey,
      ((harn [other] fun z => { z with members := [⟨0, .here ⟨1, 0⟩, true, false⟩], coming := [go] }).takeOne hkey go).harness? hkey].map
      (Option.map fun z => (z.members.map fun m => (m.idx, m.leaving), z.arrivals.map fun a => (a.idx, a.gone), z.coming.length)) =
      [some ([(1, false)], [(1, false), (0, true)], 0), some ([(0, true), (1, false)], [(0, false)], 0), some ([], [], 0)] := by decide +kernel
/-- What came in one cycle is taken in the order of member indices, and what came in an earlier cycle before it. -/
theorem test_arrivals_in_order :
    let z : HComing := { come .barrier with idx := 1, who := .here ⟨1, 7⟩, time := 3 }
    let u := (harn [other] fun h => { h with coming := [{ come .barrier with time := 4 }, z, { z with time := 9 }] }).takeComing hkey 5
    ((u.harness? hkey).map fun h => (h.phase, h.arrivals.length, h.coming.map HComing.time)) = some (1, 0, [9]) := by decide +kernel
/-- The result word of R255 for phase 3 with a lost member, and the vote value before it. -/
theorem test_phase_results :
    let s := str (fun t => { t with st := .harness 50 }) (grp (fun g => { g with inflight := [⟨50, 0, 1, [(.g, 8), (.g, 9)], 0, .await, [], none⟩] }) (harn [other] fun z => { z with phase := 3, waiters := [⟨⟨1, 0⟩, 50, 3, 8, 1⟩] }))
    ((s.harness? hkey).any fun z => z.waiters.filter (fun q => q.phase == z.phase.toNat) == [⟨⟨1, 0⟩, 50, 3, 8, 1⟩] && (s.group? 1 0).any (fun g => (g.inflight? 50).isSome) &&
      ((s.finishPhase hkey z true 77).group? 1 0).any fun k => k.greg 8 == 77 && k.greg 9 == 0xC0000003 && k.inflight.isEmpty && k.strands.all fun u => u.st == .ready) = true := by decide +kernel
theorem test_harness_queries :
    [does (.hquery h0 0 8 4) (harn [other]) fun _ t => lastBody t == some (.timed 4 [.g 8 hv]), does (.hquery h0 1 8 4) (harn [other] fun z => { z with phase := 9 }) fun _ t => lastBody t == some (.timed 4 [.g 8 9]),
      does (.hquery h0 2 8 4) (harn [other]) fun _ t => lastBody t == some (.timed 4 [.g 8 2]), does (.hquery h0 3 8 4) (harn [other]) fun _ t => lastBody t == some (.timed 4 [.g 8 0]),
      does (.hquery h0 4 8 4) (harn [other]) fun _ t => lastBody t == some (.timed 4 [.g 8 0]), does (.hquery h0 4 8 4) (harn [] fun z => { z with members := [other] }) fun _ t => lastBody t == some (.timed 4 [.g 8 0xFFFFFFFF]),
      does (.hquery h0 5 8 4) (harn [other]) fun _ t => lastBody t == some (.timed 4 [.g 8 0]), traps (.hquery h0 0 8 5) (harn [other]) 209 0 0, traps (.hquery h0 5 8 5) (harn [other]) 209 0 0, traps (.hquery h0 3 8 5) (harn [other]) 209 0 0] =
      [true, true, true, true, true, true, true, true, true, true] := by decide +kernel
theorem test_hwait :
    [does (.hwait h0 8 4 1) (gs [(1, 8)] (harn [other] fun z => { z with phase := 9, past := [8] })) fun _ t => lastBody t == some (.timed 4 [.g 8 0xC0000008]),
      does (.hwait h0 8 4 1) (gs [(1, 9)] (harn [other] fun z => { z with phase := 9 })) fun _ t => lastBody t == some .await && (t.harness? hkey).any fun z => z.waiters.map (fun w => (w.phase, w.kind)) == [(9, 0)],
      traps (.hwait h0 8 4 1) (gs [(1, 10)] (harn [other] fun z => { z with phase := 9 })) 214 0 0] = [true, true, true] := by decide +kernel
/-- b1 names a straggler record at va0 with 2 slots of 64 bytes; `magic` stands in its first word. -/
def strag (magic : Nat) : State :=
  let s := grp (fun g => { g with b := [(1, BitVec.ofNat 128 (va0 + 3 * 2 ^ 57 + 7 * 2 ^ 60 + 8 * 2 ^ 76 + 24 * 2 ^ 96))] }) (harn [other])
  { s with mem := Sparse.putList 0#8 s.mem pa0 (bytesOf 12 (magic + 2 ^ 64 * 2 + 2 ^ 80)) }
theorem test_hstrag :
    [does (.hstrag h0 4 1) (strag 0x53524753) fun x t =>
        let u := ((strag 0x53524753).charged x (.hstrag h0 4 1)).drainCore 0
        u.cores.all (fun k => k.2.buf.isEmpty) && x.g.inflight.isEmpty && (List.range 8).all (fun j => (u.failedIn (pa0 + 8 * j) 8).isEmpty && match u.translate (keyVf x.rk) .load (va0 + 8 * j) with
          | .ok (.mem p) => p == pa0 + 8 * j
          | _ => false) && (t.harness? hkey).any fun z => z.strag == some ⟨(x.view0.breg 1), regionKey 0 1, 2, 1, [], 0, 0⟩,
      traps (.hstrag h0 4 1) (strag 5) 218 0 0, traps (.hstrag h0 4 2) (strag 0x53524753) 133 0 0,
      traps (.hstrag h0 4 1) ((strag 0x53524753).modHarness hkey fun z => { z with phase := 1 }) 218 0 0,
      traps (.hstrag h0 4 1) ((strag 0x53524753).modHarness hkey fun z => { z with members := [⟨1, .here ⟨1, 0⟩, false, false⟩] }) 218 0 0] = [true, true, true, true, true] := by decide +kernel
/-- COLL of one of two ranks: g16 on holds NB, MOFF, EOFF and DOFF. -/
def cst : State := gs [(16, 1), (17, 0), (18, 128), (19, 0)] (grp (fun g => { g with b := [(1, rec va0 64 2), (2, rec (va0 + 256) 64 2)] }) (harn [other] fun z => { z with phase := 4 }))
theorem test_coll :
    [does (.coll h0 4 8 2 1 16 4) cst fun x t => !x.holds && t.reg me 4 .g 8 0 == 4 && lastBody t == some .await && (t.harness? hkey).any fun z => z.kind == some (.coll 4 1) && z.ranks.map (fun r => (r.idx, r.w, r.blocks, r.cause)) == [(0, 4, 1, none)],
      does (.coll h0 9 8 2 1 16 4) cst fun x t => !x.g.retired && t.reg me 4 .g 8 0 == 4 && lastBody t == some (.timed 4 [.g 9 0x88000000]) && (t.strand? me).any fun u => u.deferred.map Deferred.cause == [306],
      traps (.coll h0 4 8 2 1 16 5) cst 209 0 0,
      traps (.coll h0 4 8 2 1 16 4) (cst.modHarness hkey fun z => { z with kind := some (.coll 4 1), count := 2, arrivals := [⟨0, none, 0, 0, false⟩] }) 214 0 0,
      traps (.coll h0 4 8 2 1 16 4) (cst.modHarness hkey fun z => { z with kind := some .barrier, count := 2, arrivals := [⟨1, none, 0, 0, false⟩] }) 219 0 0] = [true, true, true, true, true] := by decide +kernel
/-- A harness that module 3 holds, of which the test group is member 2; `r` is the answer to the request of the instruction at pc0, if it has gone out. -/
def akey : HKey := madeKey 3 0
def away (r : Option (Option HReply)) : State :=
  { grp (fun g => { g with h := [(4, ⟨hv, 3⟩)], inflight := match r with | none => [] | some y => [⟨60, 0, 0xFFFFFFFF, [], pc0, .ask akey 3 y none, [], none⟩] }) cst with
    harnesses := [(akey, { Harness.fresh hv 3 (regionKey 0 1) .sys none false 1 with phase := 9, members := [⟨2, .here ⟨1, 0⟩, false, false⟩] })] }
/-- The request of an instruction, what a refusal of it does, and its course when it is granted (in phase 11). -/
def remotely (i : Instr) (op : HAsk) (P : X → State → Bool) (f : State → State := id) : Bool :=
  (does i (f (away none)) fun x t => x.asked.isNone && lastBody t == some (.ask akey 3 none none) && t.out.any fun m => match m with
    | .harness 3 k _ (.ask _ hd _ _ o) => k == akey && hd == hv && o == op
    | _ => false) &&
  (let s := f (away (some (some (.refuse 60 212 0)))); does i s fun x t => decide (t = x.refusal s 60 212 0)) &&
  (let s := f (away (some none)); does i s fun x t => decide (t = x.waits (.answer 60) s)) && does i (f (away (some (some (.grant 60 2 11 true 77))))) P
theorem test_harness_held_elsewhere :
    [remotely (.hfree h0 4) .free fun _ t => t.harnesses.isEmpty && (t.group? 1 0).any fun k => k.hreg 4 == ⟨0, 0⟩,
      remotely (.hjoin h0 5 8) .join (fun _ t => (t.group? 1 0).any (fun k => k.hreg 5 == ⟨hv, 3⟩) && (t.harness? akey).any fun z => z.members.any fun m => m.idx == 2 && !m.joining) (fun s => gs [(8, hv.toNat), (9, 3)] { s with harnesses := [] }),
      remotely (.hleave h0 4) .leave fun _ t => (t.harness? akey).isNone && (t.group? 1 0).any fun k => k.hreg 4 == ⟨0, 0⟩,
      remotely (.hleave h0 4) .leave (fun _ t => (t.group? 1 0).any fun k => k.hreg 4 == ⟨0, 0⟩) (fun s => { s with harnesses := [] }),
      remotely (.harr h0 8 4 none) (.arrive .barrier none none) fun _ t => t.reg me 4 .g 8 0 == 11,
      remotely (.hbar h0 8 4 none) (.arrive .barrier none none) fun _ t => lastBody t == some .await && (t.harness? akey).any fun z => z.waiters.map (fun w => (w.phase, w.d, w.kind)) == [(11, 8, 0)],
      remotely (.hvote h0 .any 8 4 1 none) (.arrive (.vote .any) none (some 0)) fun _ t => lastDst t == some [(.g, 8), (.g, 9)],
      remotely (.hred h0 .add .n32 8 4 1 none) (.arrive (.red .add .n32) none (some 0)) fun _ t => lastDst t == some [(.g, 8), (.g, 9)],
      remotely (.hquery h0 3 8 4) (.query 3) fun _ t => lastBody t == some (.timed 4 [.g 8 77]),
      remotely (.coll h0 4 8 2 1 16 4) (.arrive (.coll 4 1) none none) (fun _ t => t.reg me 4 .g 8 0 == 11 && (t.harness? akey).any fun z => z.ranks.map (fun r => (r.phase, r.w, r.blocks)) == [(11, 4, 1)]) (fun s => s.modTenant 0 fun t => { t with sys := true })] =
      [true, true, true, true, true, true, true, true, true, true] := by decide +kernel
/-- HWAIT, which the holder answers, and HSTRAG, whose record the holder binds once its header is read. -/
def bindable (s : State) : State :=
  grp (fun g => { g with b := [(1, BitVec.ofNat 128 (va0 + 3 * 2 ^ 57 + 7 * 2 ^ 60 + 8 * 2 ^ 76 + 24 * 2 ^ 96))] }) { s with mem := (strag 0x53524753).mem }
def asksFor (op : HAsk) (t : State) : Bool := t.out.any fun m => match m with
  | .harness 3 k _ (.ask _ hd _ _ o) => k == akey && hd == hv && o == op
  | _ => false
theorem test_wait_and_record_held_elsewhere :
    [remotely (.hwait h0 8 4 1) (.wait 0) fun _ t => lastBody t == some (.timed 4 [.g 8 77]),
      does (.hwait h0 8 4 1) (away (some (some (.grant 60 2 11 false 0)))) fun _ t => lastBody t == some .await && (t.harness? akey).any fun z => z.phase == 11 && z.waiters.map (fun w => (w.phase, w.kind)) == [(11, 0)],
      does (.hstrag h0 4 1) (bindable (away none)) fun _ t => asksFor (.only .check) t, does (.hstrag h0 4 1) (bindable (away (some (some (.passed 60))))) fun _ t => asksFor (.strag (BitVec.ofNat 128 (va0 + 3 * 2 ^ 57 + 7 * 2 ^ 60 + 8 * 2 ^ 76 + 24 * 2 ^ 96)) 2 1) t,
      (let s := away (some (some (.passed 60))); does (.hstrag h0 4 1) s fun x t => decide (t = x.refusal s 60 218 0)),
      does (.hstrag h0 4 1) (bindable (away (some (some (.grant 60 0 0 false 0))))) fun _ t => (last t).isNone] = [true, true, true, true, true, true] := by decide +kernel
/-! ### Queues, the register pool and the system instructions -/

/-- An active queue of four slots at va0, with HEAD, TAIL and FREE, its header in memory, and b1 over its block; b2 over entries at va0 + 0x1000. -/
def que (kind head tail free : Nat) : Queue :=
  { vf := 0, va := va0, kind := kind, logcap := 2, prod := false, cons := false, tag := 1, head := BitVec.ofNat 32 head, tail := BitVec.ofNat 32 tail,
    free := BitVec.ofNat 32 free, rtail := BitVec.ofNat 32 tail, htail := 0, hhead := 0, written := [], pushers := [] }
def qst (kind head tail free : Nat) (region : Nat := 1) : State :=
  let s := grp (fun g => { g with b := [(1, rec va0 256 2), (2, rec (va0 + 0x1000) 32 2)] }) st0
  { s with mem := Sparse.putList 0#8 s.mem pa0 (bytesOf 20 (0x45554551 + kind * 2 ^ 32 + 2 ^ 41 + region * 2 ^ 48 + head * 2 ^ 64 + tail * 2 ^ 96 + free * 2 ^ 128)),
           queues := [que kind head tail free] }
/-- A job entry of region tag 1 at va0 + 0x1000. -/
def entry (s : State) : State := { s with mem := Sparse.putList 0#8 s.mem (pa0 + 0x1000) (bytesOf 128 (2 ^ 124 + 2 ^ 56)) }
theorem test_qpush :
    [does (.qpush h0 8 2 1 16) (gs [(16, 7)] (qst 0 5 6 3)) fun x t => (x.pushWait (qst 0 5 6 3)).isNone && (x.queueWait (qst 0 5 6 3) [] [(va0 + 128, 32)]).isNone && lastBody t == some (.timed 4 [.g 8 6, .gp 2 true]) && (t.queue? 0 va0).any fun q => q.rtail == 7 && q.free == 2 && q.tail == 6 && q.written == [6] && t.byteAt (pa0 + 64 + 2 * 32) == 7,
      does (.qpush h0 8 2 1 16) (qst 0 2 6 0) fun _ t => lastBody t == some (.timed 4 [.gp 2 false]),
      traps (.qpush h0 8 2 3 16) (qst 0 5 6 3) 243 0 0, traps (.qpush h0 8 2 1 16) (qst 1 5 6 3) 241 0 0, traps (.qpush h0 8 2 1 16) (qst 3 5 6 3) 34 0 0, traps (.qpush h0 8 2 1 16) (qst 0 5 6 3 2) 242 0 0,
      traps (.qpush h0 8 2 1 16) (qst 6 5 6 3) 240 0 0,
      does (.qpush h0 8 2 1 16) (grp (fun g => { g with b := [(1, rec (2 ^ 56 + 2 ^ 29) 256 2)] }) st0) fun _ t => lastBody t == some (.timed 4 [.gp 2 false]) && (t.strand? me).any fun u => u.deferred.map Deferred.cause == [243],
      does (.qpush h0 8 2 1 16) (str (fun t => { t with c := { t.c with mask := 1 } }) (grp (fun g => { g with inflight := [⟨50, 0, 1, [(.v, 8)], pc0, .mem default, [], none⟩] }) (qst 0 5 6 3))) fun x t => x.pushWait t == some .loads && (t.strand? me).any fun u => u.st == .scoreboard .loads] =
      [true, true, true, true, true, true, true, true, true] := by decide +kernel
theorem test_spawn :
    [does (.spawn h0 8 2 1 2 16) (entry (qst 1 0 0 4)) fun _ t => lastBody t == some (.timed 4 [.g 8 0, .gp 2 true]) && t.byteAt (pa0 + 64 + 7) == 1 && (t.queue? 0 va0).any fun q => q.written == [0],
      traps (.spawn h0 8 2 1 3 16) (entry (qst 1 0 0 4)) 244 0 0, traps (.spawn h0 8 2 1 2 16) (qst 1 0 0 4) 244 0 0, traps (.spawn h0 8 2 1 2 16) (gs [(16, 1)] (entry (qst 1 0 0 4))) 244 0 0,
      does (.spawn h0 8 2 1 2 16) (qst 1 0 4 0) fun _ t => lastBody t == some (.timed 4 [.gp 2 false]), traps (.spawn h0 8 2 1 2 16) (entry (qst 0 0 0 4)) 241 0 0] = [true, true, true, true, true, true] := by decide +kernel
theorem test_qpop :
    [does (.qpop h0 16 2 1) (qst 0 5 6 3) fun _ t => lastBody t == some (.timed 4 (.gp 2 true :: (List.range 8).map fun j => .g (16 + j) 0)) && (t.queue? 0 va0).any fun q => q.head == 6 && q.free == 4,
      does (.qpop h0 16 2 1) (qst 2 6 6 4) fun _ t => lastBody t == some (.timed 4 [.gp 2 false]), traps (.qpop h0 56 2 1) (qst 4 5 6 3) 7 0 0, traps (.qpop h0 8 2 1) (qst 4 5 6 3) 15 0 0,
      does (.qpop h0 16 2 1) { qst 0 5 6 3 with memFailed := [pa0 + 96] } fun _ t => lastBody t == some (.timed 4 [.gp 2 true]) && (t.strand? me).any fun u => u.deferred.map Deferred.cause == [245]] = [true, true, true, true, true] := by decide +kernel
theorem test_yield : does (.yield h0) (slc (fun x => { x with budget := some 9 }) ((st0).modRegion 1 fun r => { r with budget := 5000 })) (fun _ t => (t.slice? 1).any fun y => (y.spendTo 1).budget == some 5000) = true := by decide +kernel
/-- A pass is taken from the budget in its own cycle (R31). -/
theorem test_budget_by_pass :
    let y := spendBudget { (default : Slice) with budget := some 9 } 0 0 pc0 10 4
    ([10, 11, 13, 14].map fun c => (y.spendTo c).budget) = [some 9, some 8, some 6, some 5] := by decide +kernel
/-- A group of 200 v registers in a bay with a reserve of 64. -/
def pool (n : Nat) : State := slc (fun x => { x with reserves := [(0, 64)] }) (grp (fun g => { g with n := n }) st0)
theorem test_rclaim :
    [does (.rclaim h0 8 56) (pool 200) fun x t => !x.underFork && (x.x.oldestClaim 0).isNone && lastBody t == some (.timed 4 [.g 8 256]) && (t.slice? 1).any fun y => y.reserve 0 == 8,
      does (.rclaimTry h0 8 48) (pool 200) fun _ t => lastBody t == some (.timed 4 [.g 8 248]), does (.rclaimTry h0 8 72) (pool 184) fun x t => !decide (72 ≤ x.x.reserve 0) && lastBody t == some (.timed 4 [.g 8 0]),
      does (.rclaim h0 8 72) (pool 184) fun _ t => lastBody t == some (.claim 72) && (t.slice? 1).any (fun y => y.claims.map (fun c => (c.gi, c.m)) == [(0, 72)]) && (t.strand? me).any fun u => u.st == .scoreboard .claim,
      traps (.rclaim h0 8 64) (pool 200) 225 0 0, traps (.rclaimTry h0 8 64) (pool 200) 225 0 0,
      traps (.rclaim h0 8 8) (grp (fun g => { g with frames := [default] }) (pool 200)) 224 0 0, traps (.rgive h0 8 8) (grp (fun g => { g with frames := [default] }) (pool 200)) 224 0 0] =
      [true, true, true, true, true, true, true, true] := by decide +kernel
theorem test_rgive :
    [does (.rgive h0 8 192) (vs [(7, 1, 5), (8, 1, 6)] (pool 200)) fun x t => !x.g.pendingV 0 8 192 && lastBody t == some (.timed 4 [.g 8 8]) && (t.slice? 1).any (fun y => y.reserve 0 == 256) && (t.group? 1 0).any fun k => k.n == 8 && k.vreg 7 1 == 5 && k.vreg 8 1 == 0,
      traps (.rgive h0 8 200) (pool 200) 225 0 0] = [true, true] := by decide +kernel
theorem test_movs_sets :
    [does (.movs h0 true (.sr 0) 8) st0 fun _ t => t.reg me 4 .v 8 31 == 31, does (.movs h0 false (.sr 0x0F) 8) st0 fun _ t => t.reg me 4 .g 8 0 == 256, does (.movs h0 false (.sr 0x12) 8) (slc (fun x => { x with deadline := 2 ^ 40 + 3 }) st0) fun _ t => t.reg me 4 .g 8 0 == 3 && t.reg me 4 .g 9 0 == 256,
      does (.movs h0 false (.sc 2) 8) st0 fun _ t => t.reg me 4 .g 8 0 == 0x3F800000, does (.sets h0 5 1) (gs [(1, 3)] st0) fun _ t => (t.group? 1 0).any fun k => k.chk, traps (.sets h0 5 1) (ctx (fun c => { c with arm := some 1 }) st0) 192 0 0] =
      [true, true, true, true, true, true] := by decide +kernel
theorem test_services :
    [does (.svc h0 9) st0 fun _ t => (t.strand? me).any fun u => u.deferred.map (fun e => (e.cause, e.due)) == [(35, .next)] && u.c.pc == pc0 + 1, does (.trap h0 9) st0 fun _ t => (t.strand? me).any fun u => u.deferred.map Deferred.cause == [36],
      does (.bkpt h0) st0 fun _ t => (t.strand? me).any fun u => u.deferred.map Deferred.cause == [336], traps (.icinv h0 8 16) (gs [(17, 2 ^ 25)] st0) 6 0 0,
      does (.icinv h0 8 16) (gs [(16, 65536), (17, 2 ^ 24)] st0) fun _ t => lastBody t == some (.timed 4 [.g 8 1]) && (t.job? 0).any fun j => j.verified.isEmpty,
      does (.icinv h0 8 16) ((gs [(16, 65536), (17, 2 ^ 24)] st0).modCore 0 fun k => { k with icache := [⟨0, pc0 - 65536 + 65536, []⟩, ⟨0, pc0 + 65536, []⟩] }) fun _ t => (t.core 0).icache.map CodeLine.va == [pc0 + 65536],
      does (.icinv h0 8 16) (gs [(16, 65536)] st0) fun _ t => t.reg me 4 .g 8 0 == 0 && (t.job? 0).any fun j => j.verified.length == 1] = [true, true, true, true, true, true, true] := by decide +kernel
/-! ### Results, memory and engine events -/

/-- The state after an instruction, at a later cycle with the cursor cleared. -/
def after (i : Instr) (s : State) (n : Nat) : State := match exec i s with
  | .next t => { t with clock := n, cur := none }
  | _ => s
/-- The number of the last pending result. -/
def lastId (s : State) : Nat := ((last s).map Inflight.id).getD 0
/-- One lane that loads or adds to the word at va0 + 4, which holds 7 and 0x80. -/
def word (s : State) : State := { s with mem := Sparse.putList 0#8 s.mem pa0 [1, 0, 0, 0, 7, 0x80] }
def lst : State := word (lanes 1 mst)
theorem test_scoreboard_write :
    let s := after (.setfmtClr h0 0) (after (.brset h0 5 0) (gs [(0, 0), (1, 2 ^ 24 + 2 ^ 30 + 2 ^ 26), (2, 4 * 2 ^ 12), (3, 64)] st0) 4) 4
    ((last s).any (fun f => f.shadow.isEmpty) && decide (lastBody s = some (.timed 4 [.b 5 (BitVec.ofNat 128 ((2 ^ 24 + 2 ^ 30 + 2 ^ 26) * 2 ^ 32 + 2 ^ 78 + 64 * 2 ^ 96))])) &&
      gives (.scoreboardResultWrite (lastId s)) s fun t => (t.group? 1 0).any fun k => k.inflight.isEmpty && k.breg 5 == BitVec.ofNat 128 ((2 ^ 24 + 2 ^ 30 + 2 ^ 26) * 2 ^ 32 + 2 ^ 78 + 64 * 2 ^ 96)) = true := by decide +kernel
/-- The accesses of a state as they are while they must still follow others. -/
def waitingOp (s : State) : State := grp (fun g => { g with inflight := g.inflight.map fun f => { f with body := match f.body with
  | .mem m => .mem { m with acc := m.acc.map fun a => { a with val := none }, started := false, after := [], shut := false }
  | b => b } }) { s with mem := lst.mem }
/-- The hypotheses of the LOAD_DATA_RETURN clauses, and what the register then reads. -/
def returns (i : Instr) (v w : Nat) (m : Nat) : Bool :=
  let s := waitingOp (after i lst 9000)
  let id := lastId s
  (match s.findInflight id with | some (1, 0, f) => f.shadow.isEmpty && ((s.group? 1 0).any fun g => g.isOldest f && (g.heldWrites f.sn 0 f.id).isEmpty) | _ => false) &&
  ((lastMem s).any fun m => m.err.isNone && !m.watch && !m.started && m.after.isEmpty && !(m.ord.acq && m.ord.rp) && m.acc.map (fun a => (a.val, a.loc)) == [(none, some (.mem (pa0 + 4)))]) &&
  (s.failedIn (pa0 + 4) 8).isEmpty && s.cores.all (fun c => c.2.buf.isEmpty) && !shuttered s.clock (pa0 + 4) &&
  gives (.loadDataReturn id) s fun t => (t.group? 1 0).any (fun k => k.inflight.isEmpty && k.vreg 8 0 == BitVec.ofNat 32 v && k.vreg 9 0 == BitVec.ofNat 32 w) && ofBytes (t.peek (pa0 + 4) 4) == m && t.byteAt pa0 == 1
theorem test_load_data_return :
    [returns (.ld h0 (.int .s16) ord0 (.g 0) 1 8 4) 0xFFFF8007 0 0x8007, returns (.ld h0 (.int .n16) ord0 (.g 0) 1 8 4) 0x8007 0 0x8007, returns (.atom h0 .add .s32 ord0 (.g 0) 1 8 4 4) 0x8007 0 (0x8007 + 100),
      returns (.atom h0 .cas .s32 ord0 (.g 0) 1 8 4 4) 0x8007 0 0x8007,
      let s := after (.ld h0 (.int .s16) ord0 (.g 0) 1 8 4) lst 9000
      ((lastMem s).any fun m => m.started && !m.shut && m.acc.map LaneAcc.val == [some 0x8007]) && (last s).any (fun f => f.shadow.isEmpty && (s.group? 1 0).any fun g => g.isOldest f) &&
        gives (.loadDataReturn (lastId s)) s fun t => (t.group? 1 0).any fun k => k.inflight.isEmpty && k.vreg 8 0 == 0xFFFF8007] = [true, true, true, true, true] := by decide +kernel
/-- A store of 1 word in the merge buffer of core 0, and the same of core 40, whose die is not the page's. -/
theorem test_store_acknowledgement :
    let s := after (.st h0 (.int .s32) ord0 (.g 0) 1 4 4) lst 50
    let id := ((s.core 0).buf.map StoreEntry.id).headD 0
    let far := (s.modCore 40 fun k => { k with buf := (s.core 0).buf }).modCore 0 fun k => { k with buf := [] }
    ((s.core 0).buf.map (fun e => (e.after, e.loc, e.bytes.length, e.level)) == [([], .mem (pa0 + 4), 4, 0)] && (s.failedIn (pa0 + 4) 4).isEmpty && paDie (pa0 + 4) == dieOf 0 && paDie (pa0 + 4) != dieOf 40 &&
      gives (.storeAcknowledgement 0 id) s (fun t => (t.core 0).buf.isEmpty && ofBytes (t.peek (pa0 + 4) 4) == 100 && t.byteAt pa0 == 1) &&
      gives (.storeAcknowledgement 40 id) far (fun t => (t.core 40).buf.map (fun e => e.level) == [1] && t.mem == far.mem)) = true := by decide +kernel
theorem test_fence_condition_met :
    let s := grp (fun g => { g with rerr := 3 }) (after (.fence h0 true true .sys) st0 5)
    (((s.strand? me).any fun u => u.fences.all fun F => F.sys && F.ids.all fun n => s.doneAt 1 0 0 F.scope n) && gives (.fenceConditionMet me) s fun t => (t.strand? me).any (fun u => u.fences.isEmpty) && (t.group? 1 0).any fun k => k.rerr == 0) = true := by decide +kernel
/-- A strand parked on the line of va0 until cycle 50. -/
def parked (w : Watch) (n : Nat) : State := after (.mwait h0 8 1) (gs [(1, 50)] (grp (fun g => { g with watch := some ⟨some (pa0 / 128), va0, false, false, false⟩ }) st0)) n |> grp fun g => { g with watch := some w }
/-- The parked strand wakes with a code. -/
def wakes (i : Instr) (s : State) (code : Nat) (w : Option Watch) : Bool :=
  ((s.group? 1 0).any fun g => (g.parked?).any fun p => p.2.1 == some 50 && (g.inflight? p.2.2).any fun f => f.dst == [(.g, 8)] && f.shadow.isEmpty) &&
  gives i s fun t => (t.group? 1 0).any fun k => k.inflight.isEmpty && k.greg 8 == BitVec.ofNat 32 code && k.watch == w && k.strands.all fun u => u.st == .ready
theorem test_watches :
    let w : Watch := ⟨some (pa0 / 128), va0, false, false, false⟩
    [wakes (.watchFire ⟨1, 0⟩) (parked { w with fired := true } 9) 1 (some w), wakes (.mwaitTimeout ⟨1, 0⟩) (parked w 50) 2 (some w), (parked { w with evicted := true } 9).evictedParked 0 == [⟨1, 0⟩] && wakes (.watchEviction 0) (parked { w with evicted := true } 9) 3 none] =
      [true, true, true] := by decide +kernel
/-- A held store to va0 + 4 by lane 0 of a continuation with no live arm. -/
theorem test_held_queue_release :
    let a : LaneAcc := ⟨0, va0 + 4, some (.mem (pa0 + 4)), 100, 0, none⟩
    let s := ctx (fun c => { c with own := [1], held := [⟨.st h0 (.int .s32) ord0 (.g 0) 1 4 4, pc0, 9, [], 1, 0, 0, false, [a], false, none, 0⟩] }) (grp (fun g => { g with frames := [{ (default : Frame) with id := 1 }] }) { lst with cur := none })
    ((s.group? 1 0).any (fun g => g.inflight.isEmpty && g.strands.all fun t => g.released t && t.fences.isEmpty) && (match s.translate 0 .store (va0 + 4) with | .ok (.mem p) => p == pa0 + 4 | _ => false) &&
      gives (.heldQueueRelease me) s fun t => (t.strand? me).any (fun u => u.c.held.isEmpty) && t.mem == s.mem && (t.core 0).buf.map (fun e => (e.va, e.loc, e.bytes)) == [(va0 + 4, .mem (pa0 + 4), [100, 0, 0, 0])]) = true := by decide +kernel
/-- A load sees the held stores of its own lane that come before it, and no other lane's (R103). -/
theorem test_held_stores_by_lane :
    let h : Held := ⟨.st h0 (.int .s32) ord0 (.g 0) 1 4 4, pc0, 9, [], 1, 0, 0, false, [⟨0, va0 + 4, some (.mem (pa0 + 4)), 100, 0, none⟩], false, none, 0⟩
    (((ctx (fun c => { c with held := [h] }) st0).group? 1 0).map fun g => [(0, 10), (1, 10), (0, 9)].map fun e => (g.heldWrites 0 e.1 e.2).length) = some [1, 0, 0] := by decide +kernel
theorem test_copy_entry_free :
    gives (.copyEntryFree 0 1) (str (fun t => { t with st := .scoreboard (.channel 1) }) st0) (fun t => (t.strand? me).any fun u => u.st == .ready) = true ∧ gives (.shutterWindow 0 3) st0 (fun t => t.clock == 0) = true := by decide +kernel
/-- A copy of 64 bytes from b1 to b2 of which 63 have passed, with no merge buffer in use, and its last byte. -/
def mid (n : Nat) : State := word ((after (.cpy h0 0 1 8 (.buf 2) (.buf 1) 16 none) est 90).modChan 0 1 fun c => { c with entries := c.entries.map fun e => { e with done := n } })
theorem test_copy_progress_complete :
    let s := { mid 63 with mem := Sparse.putList 0#8 (mid 63).mem (pa0 + 63) [9] }
    ((s.workingCopy 0 1).any (fun e => e.done + 1 == e.len && e.got.isEmpty && e.byteAt (s.scratchOf 1) 63 == (some 63, some 63, false, false)) && (s.core 0).buf.isEmpty &&
      gives (.copyByteProgress 0 1 1) s (fun t => t.byteAt (pa0 + 256 + 63) == 9 && t.byteAt (pa0 + 256 + 62) == 0 && (t.chan 0 1).entries.all fun e => e.done == 64)) = true ∧
    ((mid 64).chan 0 1).entries.all (fun e => e.finished && e.matrix.isNone && e.kill.isNone) = true ∧
    gives (.copyComplete 0 1) (mid 64) (fun t => (t.chan 0 1).entries.isEmpty && (t.group? 1 0).any fun k => k.inflight.isEmpty && k.greg 9 == 0x80000000) = true := by decide +kernel
/-- The bytes of one destination line pass together (R228). -/
theorem test_copy_line :
    gives (.copyByteProgress 0 1 1) { mid 0 with mem := Sparse.putList 0#8 (mid 0).mem (pa0 + 63) [9] } (fun t => t.byteAt (pa0 + 256) == 1 && t.byteAt (pa0 + 256 + 63) == 9 &&
      t.byteAt (pa0 + 256 + 64) == 0 && (t.chan 0 1).entries.all fun e => e.done == 64) = true := by decide +kernel
/-- A strict copy that owes a trap of its elements and then ends on a failed batch owes both (R231). -/
theorem test_copy_owes_both :
    let s := (mid 64).modChan 0 1 fun c => { c with entries := c.entries.map fun e => { e with cause := some 261, also := some 258 } }
    gives (.copyComplete 0 1) s (fun t => (t.group? 1 0).any fun k => k.strands.any fun u => u.owed.map Deferred.cause == [261, 258]) = true := by decide +kernel
/-- An OPTSTEP of one element with lr 1, β1 0, β2 0, ε 1, λ 0 and gs 1 on weight 3, momentum 0, variance 0 and gradient 2: by R238 m' = 2, v' = 4 and
w' = 3 − 2/(2 + 1) rounded. -/
def upd : State :=
  let s := gs [(24, 1), (25, 0), (26, 0x3F800000), (27, 0), (28, 0), (29, 0x3F800000), (30, 0), (31, 0x3F800000)] est
  after (.optstep h0 false 8 1 4 24 2 3) { s with mem := Sparse.putList 0#8 (Sparse.putList 0#8 s.mem pa0 (bytesOf 4 0x40400000)) (pa0 + 768) (bytesOf 4 0x40000000) } 90
theorem test_update_span_complete :
    ((upd.core 0).upd.all (fun u => !u.finished && u.batch.isNone && u.spanElems u.next == [0] && u.recs.length == 4) && (upd.core 0).buf.isEmpty &&
      gives (.updateSpan 0) upd (fun t => ofBytes (t.peek pa0 4) == 0x40155555 && ofBytes (t.peek (pa0 + 256) 4) == 0x40000000 && ofBytes (t.peek (pa0 + 512) 4) == 0x40800000 && (t.core 0).upd.map (fun u => (u.next, u.updated)) == [(1, 1)])) = true ∧
    gives (.updateComplete 0) (after (.updateSpan 0) upd 99) (fun t => (t.core 0).upd.isEmpty && (t.group? 1 0).any fun k => k.greg 8 == 1 && k.greg 9 == 0x80000000) = true := by decide +kernel
theorem test_array_events :
    [gives (.arrayCommand 1 0) (slc (fun x => { x with tiles := [(0, 5), (60 * 64, 7)] }) (after (.mzero h0 .regs 0 8 60 4) mxst 9)) fun t => (t.slice? 1).any (fun y => y.tile 0 60 0 == 0 && y.tile 0 0 0 == 5) && (t.array? 1 0).any fun a => a.queue.all fun c => c.done,
      gives (.planeSwapEffect 1 0) (after (.mswap h0 .regs 0 8) mxst 9) fun t => (t.array? 1 0).any fun a => a.active == 1 && a.queue.all fun c => c.done,
      gives (.matrixCommandComplete 1 0) (after (.planeSwapEffect 1 0) (after (.mswap h0 .regs 0 8) mxst 9) 12) fun t => (t.array? 1 0).any (fun a => a.queue.isEmpty) && (t.group? 1 0).any fun k => k.inflight.isEmpty && k.greg 8 == 0x80000000] = [true, true, true] := by decide +kernel
/-- One row of e4m3 ones from registers times a plane whose row 0 holds 2 in column 0 and whose row 63 holds 3 in column 1. -/
theorem test_mma_row :
    let s := after (.mma h0 .regs 0 4 8 0) (slc (fun x => { x with arrays := x.arrays.map fun a => { a with p0 := { a.p0 with els := [(0, 0x40), (63 * 64 + 1, 0x44)] } } }) (vs ((List.range 8).flatMap fun l => [(4, l, 0x38383838), (5, l, 0x38383838)]) (lanes 0xFF mxst))) 9
    ((s.array? 1 0).any (fun a => a.plane.failed.isEmpty && (a.working).any fun c => c.batch.isNone && c.regRows.map (fun r => (r.1, r.2.1.length)) == [(0, 64)]) &&
      gives (.arrayCommand 1 0) s fun t => (t.slice? 1).any fun y => y.tile 0 0 0 == 0x40000000 && y.tile 0 0 1 == 0x40400000 && y.tile 0 0 2 == 0 && y.tile 0 1 0 == 0) = true := by decide +kernel
/-- An MMA of one row of the scratchpad at byte 64, whose byte 65 is e4m3 one. -/
def mmaSx : State := slc (fun x => { x with scratch := [(65, 0x38)] }) (after (.mma h0 .sx 0 1 8 0) (grp (fun g => { g with th := [(1, BitVec.ofNat 256 (64 + 2 ^ 40 + 64 * 2 ^ 48))] }) mxst) 9)
theorem test_operand_fetch :
    ((mmaSx.array? 1 0).any (fun a => (a.working).any fun c => c.fetched.isNone && c.reads == some (.sx, .e4m3) && c.ths.map thRows == [1] && c.recs.length == 1 && !mmaSx.mxBlocked 1 c false && !mmaSx.mxStrict (regionKey 0 1) .sx (c.recs.headD 0)) &&
      gives (.matrixOperandFetch 1 0) mmaSx fun t => (t.array? 1 0).any fun a => a.queue.all fun c => c.fetched.any fun l =>
        l.map (fun o => o.rows.map fun r => (r.1, r.2.1.take 3)) == [[(0, [0, 0x38, 0])]]) = true := by decide +kernel
/-- An MLDW with its operand at hand: the plane that is not active takes it. -/
theorem test_shadow_plane_write :
    gives (.shadowPlaneWrite 1 0) (slc (fun x => { x with arrays := x.arrays.map fun a => { a with queue := a.queue.map fun c => { c with fetched := some [⟨[(1, [0, 0x38], [])], 0⟩] } } }) (after (.mldw h0 .sx 0 1 8) mxst 9))
      (fun u => (u.array? 1 0).any fun a => a.active == 0 && a.p1.els == [(65, 0x38)] && a.queue.all fun c => c.done) = true := by decide +kernel
/-! ### Arbitration, traps and faults -/

/-- The region of the test states, its records and a change of it. -/
def rg : Nat := regionKey 0 1
def waiting (t : State) : List TrapRec := ((t.region? rg).map Region.waiting).getD []
/-- The strand Ready with two more strands beside it, number 1 with lost arbitrations and number 2 not yet eligible. -/
def crowd : State :=
  let s := grp (fun g => { g with strands := g.strands.flatMap fun t => [{ t with st := .ready, readySince := 3 }, { t with sn := 1, st := .ready, readySince := 2 }, { t with sn := 2, st := .ready, nextIssue := 99 }] }) { st0 with cur := none, clock := 9 }
  s.modCore 0 fun k => { k with bays := List.replicate 4 Bay.reset }
theorem test_issue_arbitration :
    ((crowd.bayStrands 0 0).map (fun e => (e.1.sn, eligible 9 e.2.2.2)) == [(0, true), (1, true), (2, false)] && (crowd.bayStrands 0 0).all (fun e => decide (crowd.settleReady e = crowd)) &&
      gives (.issueArbitration 0) crowd fun t => ((t.core 0).bays.getD 0 Bay.reset).run == some ⟨1, 0, 1⟩ && (t.group? 1 0).any fun k => k.strands.map (fun u => (u.sn, u.st, u.lost)) == [(0, .ready, 1), (1, .issuing, 0), (2, .ready, 0)]) = true := by decide +kernel
/-- The state with a trap record of BKPT-like cause 19 waiting. -/
def trapped : State := { (st0.takeTrap me 19 0 0 pc0 pc0 false) with cur := none, clock := 9 }
theorem test_trap_taken :
    ((trapped.strand? me).any (fun u => u.st == .stopped none && u.c.pc == pc0 && u.runLen == 0) && (waiting trapped).map (fun (D : TrapRec) => (D.kind, D.cause, D.pc, D.cpc, D.defer, D.who)) == [(0, 19, pc0, pc0, false, some me)] && trapped.mem == st0.mem) = true := by decide +kernel
/-- A notice that is raised later stands behind an earlier record (R307). -/
theorem test_records_in_order : (waiting ({ trapped with clock := 12 }.notice rg 368 0 0 0)).map TrapRec.cause = [19, 368] := by decide +kernel
theorem test_trap_record_push :
    [gives (.trapRecordPush rg) trapped fun t => (t.group? 1 0).any (fun k => k.retired) && (waiting t).isEmpty,
      gives (.trapRecordPush rg) { (trapped.modRegion rg fun r => { r with waiting := r.waiting.map fun D => { D with toSorser := true } }) with mgmt := { trapped.mgmt with locked := false } } fun t =>
        t.mgmt.fifo.length == 1 && (waiting t).isEmpty && (t.region? rg).any fun r => r.nextId == 1 && r.out.map (fun o => (o.id, o.kind, o.cause, o.who)) == [(0, 0, 19, some me)],
      gives (.trapRecordPush rg) { (trapped.modRegion rg fun r => { r with trapq := va0 }) with queues := [que 4 5 6 3] } fun t => (t.queue? 0 va0).any (fun q => q.tail == 7 && q.free == 2) && (waiting t).isEmpty && (t.region? rg).any fun r => r.out.length == 1] =
      [true, true, true] := by decide +kernel
theorem test_budget_exhausted :
    gives (.budgetExhausted 1) (slc (fun x => { x with exhausted := some (0, 0, pc0), budget := some 0 }) st0) (fun t => (t.slice? 1).any (fun y => y.exhausted.isNone && y.preempt == some .budget && y.wantResume) && (waiting t).map (fun (D : TrapRec) => (D.kind, D.cause, D.cpc)) == [(2, 320, pc0)]) = true := by decide +kernel
theorem test_claim_deadlock :
    let s := after (.rclaim h0 8 72) (slc (fun x => { x with reserves := [(0, 64)] }) (grp (fun g => { g with n := 184 }) st0)) 9
    ((s.slice? 1).any (fun x => x.groups.all (fun y => s.stuck 1 x 0 y) && (x.oldestClaim 0).any fun c => decide (x.reserve 0 < c.m * passesOf (s.widthOf x))) &&
      gives (.claimDeadlock 1 0) s fun t => (t.slice? 1).any (fun y => y.claims.isEmpty) && (t.strand? me).any (fun u => u.st == .stopped none && u.c.pc == pc0) && (waiting t).map TrapRec.cause == [226]) = true := by decide +kernel
/-- A load of a page that no leaf maps, whose strand waits with its batch. -/
def faulted : State := after (.ld h0 (.int .s32) ord0 (.g 0) 1 8 0) (grp (fun g => { g with b := [(1, rec (2 ^ 56 + 2 ^ 29) 64 2)] }) mst) 9
/-- The number of the batch that the strand of the test states waits for. -/
def batchOf (s : State) : Nat := match (s.strand? me).map Strand.st with
  | some (.faultWait n) => n
  | _ => 0
/-- Its batch sent with an outstanding record, and a direct command on that record. -/
def sent : State :=
  let t := after (.pageFaultRunAhead me) faulted 10
  (t.modRegion rg fun r => { r with out := [⟨7, 1, 0, false, some me, some (batchOf t), pc0, false, false⟩, ⟨8, 0, 19, false, some me, none, pc0, false, false⟩, ⟨9, 2, 320, false, some me, none, pc0, false, false⟩] })
def cmd (a b : Nat) : Cmd := ⟨none, rg, a, b, 0⟩
theorem test_page_fault_run_ahead :
    ((Sparse.find faulted.batches (batchOf faulted)).any (fun b => b.filling && b.owner == .strand me && b.pages.length == 1) && (faulted.bayStrands 0 0).all (fun e => e.1 == me) &&
      gives (.pageFaultRunAhead me) faulted fun t => (Sparse.find t.batches (batchOf faulted)).any fun b => !b.filling && b.dev && !b.pri && b.pages.length == 1) = true := by decide +kernel
theorem test_batch_answers :
    let host := { sent with batches := sent.batches.map fun (e : Nat × Batch) => (e.1, { e.2 with pri := true, dev := false }) }
    [gives (.batchResume (cmd 7 0)) sent fun t => (t.strand? me).any fun u => u.st == .ready && u.c.pc == pc0,
      gives (.batchFail (cmd 7 0)) sent fun t => (t.strand? me).any (fun u => u.st == .stopped none) && ((waiting t).map TrapRec.cause).contains 130,
      gives (.priResponse (batchOf sent) true []) host fun t => (t.strand? me).any fun u => u.st == .ready,
      gives (.priResponse (batchOf sent) false []) host fun t => (t.strand? me).any (fun u => u.st == .stopped none) && ((waiting t).map TrapRec.cause).contains 130] = [true, true, true, true] := by decide +kernel
theorem test_resume_kill :
    let s := str (fun t => { t with st := .stopped (some 8) }) sent
    [gives (.resume (cmd 8 0)) s fun t => (t.strand? me).any fun u => u.st == .ready && u.c.pc == pc0, gives (.resume (cmd 8 1)) s fun t => (t.strand? me).any fun u => u.st == .ready && u.c.pc == pc0 + 1,
      gives (.resume (cmd 9 0)) (slc (fun x => { x with wantResume := true }) s) fun t => (t.slice? 1).any fun y => !y.wantResume,
      gives (.kill (cmd 8 0)) s fun t => (t.group? 1 0).any fun k => k.retired, gives (.kill (cmd 8 1)) s fun t => (t.slice? 1).any fun y => y.st == .failed && y.groups.all fun k => k.retired,
      gives (.kill (cmd 9 0)) s fun t => (t.slice? 1).any fun y => y.st == .failed] = [true, true, true, true, true, true] := by decide +kernel
/-! ### Slices and jobs -/

/-- The slice of the test states with its strand ended. -/
def ended : State := grp (fun g => { g with strands := [] }) { st0 with cur := none }
theorem test_group_retire :
    ((ended.slice? 1).any (fun x => x.groups.all (fun g => ended.mayRetire ⟨1, 0⟩ x g)) &&
      gives (.groupRetire ⟨1, 0⟩) ended fun t => (t.slice? 1).any fun y => y.st == .retired && y.groups.all fun k => k.retired && k.strands.isEmpty) = true := by decide +kernel
/-- The job of the test states with one more Queued slice, and with arguments 5 and 6. -/
def queued : State := { st0 with jobs := st0.jobs.map fun (e : Nat × Job) => (e.1, { e.2 with queued := [(1, 2)], slices := 2, args := [5, 6], deadline := 900 }), cur := none }
theorem test_slice_dispatch_places :
    ((match queued.dispatchAct with | some (.place d 1) => d == ⟨0, 1, none, 900, 1⟩ && (queued.fitOn d 1 none).isSome | _ => false) &&
      gives .sliceDispatch queued fun t => t.slices.any fun e => e.2.index == 1 && e.2.core == 1 && e.2.deadline == 900 && e.2.st == .resident &&
        e.2.groups.all fun z => z.n == 256 && z.greg 0 == 5 && z.greg 1 == 6 && z.strands.map (fun u => (u.st, u.c.pc, u.c.mask, u.c.sp)) == [(.ready, pc0, 0xFFFFFFFF, 4096)]) = true := by decide +kernel
/-- A slice that is to leave. -/
def leaving : State := slc (fun x => { x with preempt := some .command }) { st0 with cur := none }
theorem test_context_save :
    let full := leaving.modRegion rg fun r => { r with saveSize := 2 }
    ((leaving.slice? 1).any (fun x => leaving.saveReady 1 x && ((leaving.drainCore 0).poolTake rg (leaving.imageSize x)).isSome && ((full.drainCore 0).poolTake rg (full.imageSize x)).isNone) &&
      gives (.contextSave 1) full (fun t => (t.slice? 1).any (fun y => y.st == .resident && y.saveWait) && (waiting t).map (fun (D : TrapRec) => (D.kind, D.cause)) == [(3, 321)])) = true := by decide +kernel
/-- A Swapped slice whose image is a header alone, 64 bytes at va0; its region's BUDGET is 5000. -/
def swapped (why : Preempt) (first : Nat) : State :=
  slc (fun x => { x with st := .swapped, preempt := some why, budget := some 9, image := some ⟨va0, 64, 0, bytesOf 64 7, none⟩ })
    ({ (st0.modRegion rg fun r => { r with budget := 5000 }) with cur := none, mem := Sparse.putList 0#8 st0.mem pa0 (bytesOf 64 first) }.modCore 0 fun _ => Core.reset)
theorem test_context_restore :
    [((swapped .command 7).slice? 1).any fun x => (swapped .command 7).imageGood x,
      gives (.contextRestore 1) (swapped .command 7) fun t => (t.slice? 1).any fun y => y.st == .resident && y.core == 0 && y.budget == some 9 && y.image.isNone,
      gives (.contextRestore 1) (swapped .command 8) fun t => (t.slice? 1).any fun y => y.st == .failed && y.failCause == some 323] = [true, true, true] := by decide +kernel
/-- A slice that module 5 has sent: its source is told how its restore went (R348). -/
theorem test_guest_restore :
    let key : JobKey := ⟨5, 3, 9⟩
    let sent := slc fun x => { x with stolen := some key, source := some 5 }
    [gives (.contextRestore 1) (sent (swapped .command 7)) fun t => t.out.contains (.restored 5 key 0 true) && (t.slice? 1).any fun y => y.source.isNone,
      gives (.contextRestore 1) (sent (swapped .command 8)) fun t => t.out.contains (.restored 5 key 0 false)] = [true, true] := by decide +kernel
theorem test_restored_budget :
    [(match (swapped .budget 7).dispatchAct with | some (.place d 0) => d.sid == some 1 && ((swapped .budget 7).fitOn d 0 none).isSome | _ => false),
      gives .sliceDispatch (swapped .budget 7) fun t => (t.slice? 1).any fun y => y.st == .resident && y.budget == some 5000] = [true, true] := by decide +kernel
/-- The one resident slice is at its job's barrier, more are Queued, and 64 completion entries wait (R287), so that no slice is placed. -/
theorem test_slice_dispatch_preempts :
    let s := { str (fun t => { t with st := .harness 9 }) queued with
      jobs := queued.jobs.map fun (e : Nat × Job) => (e.1, { e.2 with completions := List.replicate 64 default })
      harnesses := queued.harnesses.map fun e => (e.1, { e.2 with waiters := [⟨⟨1, 0⟩, 9, 0, 0, 0⟩], kind := some .barrier, count := 3, arrivals := [⟨0, none, 0, 0, false⟩] }) }
    ((match s.dispatchAct with | some (.preempt 1 .barrier) => true | _ => false) &&
      gives .sliceDispatch s fun t => (t.slice? 1).any fun y => y.preempt == some .barrier) = true := by decide +kernel
theorem test_preempt :
    [gives (.preempt ⟨none, rg, 0, 0, 0⟩) { st0 with cur := none } fun t => (t.slice? 1).any fun y => y.preempt == some .command, st0.jobNamed 0 0 0 == some 0] = [true, true] := by decide +kernel
/-- A job queue at va0 whose slot 0 holds an entry of two slices with the code object at 2^56 and the completion queue at va0 + 0x2000. -/
def admitting (magic : Nat) : State :=
  let s := { qst 1 0 1 3 with cur := none, slices := [], jobs := [], nextId := 40 }
  let m := Sparse.putList 0#8 s.mem (pa0 + 64) (bytesOf 128 (2 ^ 16 * 2 ^ 40 + (va0 + 0x2000) / 64 * 2 ^ 69 + 2 ^ 124 + 2 ^ 136 + 9 * 2 ^ 256))
  let m := Sparse.putList 0#8 m (pa0 + 0x2000) (bytesOf 28 (0x45554551 + 2 * 2 ^ 32 + 2 ^ 41 + 2 ^ 48))
  { s with mem := Sparse.putList 0#8 m 0x10000000 (bytesOf 72 (magic + 2 ^ 32 + 32 * 2 ^ 64 + 2 ^ 72 + 8 * 2 ^ 80 + 64 * 2 ^ 320 + 2 ^ 512 + 16224 * 2 ^ 544)) }
/-- The head of its queue taken: the entry's bytes and the state after. -/
def popped (s : State) : List Byte × State :=
  let p := s.popEntry (que 1 0 1 3)
  (p.1, { p.2.2 with queues := (p.2.2.queues.filter fun (y : Queue) => !(y.vf == 0 && y.va == va0)) ++ (p.2.2.queues.filter fun (y : Queue) => y.vf == 0 && y.va == va0) })
theorem test_job_admission :
    let s := admitting 0x4B344E43
    let p := popped s
    let f := parseEntry (ofBytes p.1)
    (s.nextAdmission == some (que 1 0 1 3) && !(s.popEntry (que 1 0 1 3)).2.1 && entryClean (ofBytes p.1) && p.2.cqOk 0 f.cq && (p.2.region? rg).any (fun r => (p.2.codeChecks 0 r f .valid).isNone && p.2.codeChecks 0 r f .invalid == some 352) &&
      (p.2.region? rg).any (fun r => ((p.2.acceptJob (que 1 0 1 3) 0 rg r f).job? 40).any fun j => !j.finished && j.queued == [(0, 2)] && j.ticket == 0 && j.rk == rg && j.args.getD 0 0 == 9)) = true := by decide +kernel
/-- A code object with a bad MAGIC fails its job with 322, whatever its signature. -/
theorem test_job_admission_fails :
    let p := popped (admitting 5)
    ((p.2.region? rg).any (fun r => p.2.codeCheck 0 r (parseEntry (ofBytes p.1)) == some 322) &&
      gives (.jobAdmission 0 va0 0) (admitting 5) (fun t => (t.job? 40).any fun j => j.finished && j.failN == 2 && j.completions.map (fun w => (w.kind, w.cause)) == [(2, 322)])) = true := by decide +kernel
theorem test_completion_entry_write :
    gives (.completionEntryWrite 0) { st0 with queues := [que 2 0 0 4], jobs := st0.jobs.map fun (e : Nat × Job) => (e.1, { e.2 with completions := [⟨5, va0, 1, false, false, 0, 0, 7, 0, 0, 1, 0⟩] }) }
      (fun t => !t.olderEntry 0 va0 5 && (t.job? 0).any (fun j => j.completions.isEmpty) && (t.queue? 0 va0).any fun q => q.tail == 1 && q.free == 3) = true := by decide +kernel
/-- A strand that waits for a page under verification. -/
def verifying : State := str (fun t => { t with st := .verify 77 }) { st0 with cur := none, jobs := st0.jobs.map fun (e : Nat × Job) => (e.1, { e.2 with verifying := [77], fdom := 3 }) }
/-- The same where the code object cannot be read. -/
def unreadable : State := { verifying with jobs := verifying.jobs.map fun (e : Nat × Job) => (e.1, { e.2 with code := 2 ^ 56 + 2 ^ 29 }) }
theorem test_code_page_and_job_commands :
    [(unreadable.job? 0).any (fun j => !j.finished && !j.dying && !unreadable.pageHashOk (keyVf j.rk) j.code (77 - codeBase j.code / 65536)) && gives (.codePageVerified 0 0 77) unreadable fun t => (t.slice? 1).any fun y => y.st == .failed,
      gives (.killJob (cmd 0 0)) verifying fun t => (t.slice? 1).any fun y => y.st == .failed, gives (.failDomain (cmd 3 0)) verifying fun t => (t.slice? 1).any fun y => y.st == .failed] = [true, true, true] := by decide +kernel
/-- The bytes of the first page of the code object, and the place for the hash that it names for it: the hash of those bytes. -/
def page0 : List Byte := verifying.peek 0x10010000 65536
def hash32 : List (Nat × Byte) := ((List.range 32).zip (bytesOf 32 (Config.sha256 page0).toNat)).map fun e => (0x10000100 + e.1, e.2)
def hashed : State := { verifying with mem := verifying.mem ++ hash32 }
theorem hash32_below : ∀ e ∈ hash32, e.1 < 0x10010000 := by
  intro e he
  obtain ⟨⟨k, v⟩, hk, rfl⟩ := List.mem_map.1 he
  have := List.mem_range.1 (List.of_mem_zip hk).1
  show 0x10000100 + k < 0x10010000
  omega
theorem devRead_local (s : State) (vf va n pa page : Nat) (hn : va % 65536 + n ≤ 65536)
    (hw : s.walk vf va = some ⟨s.chip, pa, false, true, true, true, true, page⟩) : s.devRead vf va n = some (s.peek pa n) := by
  simp [State.devRead, pageParts, hn, hw]
theorem hashed_page : hashed.devRead 0 (2 ^ 56 + 65536) 65536 = some page0 := by
  rw [devRead_local hashed 0 _ _ 0x10010000 (2 ^ 28) (by decide) (by decide +kernel)]
  exact congrArg some (Sparse.getList_append_of_lt 0#8 verifying.mem hash32 0x10010000 65536 hash32_below)
theorem hashed_hash : hashed.devRead 0 (2 ^ 56 + 256) 32 = some (bytesOf 32 (Config.sha256 page0).toNat) := by
  rw [devRead_local hashed 0 _ _ 0x10000100 (2 ^ 28) (by decide) (by decide +kernel)]
  rfl
/-- A verification with a hash that is the page's (CODE_PAGE_VERIFIED). -/
theorem test_code_page_runs : (hashed.job? 0).any (fun j => !j.finished && !j.dying && j.verifying.contains 77 && j.code == 2 ^ 56) = true := by decide +kernel
theorem test_code_page_hash : hashed.pageHashOk 0 (2 ^ 56) 0 = true := by
  unfold State.pageHashOk
  rw [show 2 ^ 56 + 65536 * (0 + 1) = 2 ^ 56 + 65536 from rfl, hashed_page, show 2 ^ 56 + 256 + 32 * 0 = 2 ^ 56 + 256 from rfl, hashed_hash]
  generalize page0 = p
  show ((Config.sha256 p).toNat == ofBytes (bytesOf 32 (Config.sha256 p).toNat)) = true
  have h : (Config.sha256 p).toNat < 256 ^ 32 := Nat.lt_of_lt_of_le (Config.sha256 p).isLt (by decide)
  rw [ofBytes_bytesOf, Nat.mod_eq_of_lt h]
  exact beq_self_eq_true _
/-! ### Queue, region and translation events, and the weight store -/

/-- The test queue of a host producer or consumer. -/
def hostQ (kind head tail free : Nat) (prod cons : Bool) : State :=
  { st0 with cur := none, queues := [{ que kind head tail free with prod := prod, cons := cons }] }
theorem test_host_counters :
    let q := fun (i : Instr) (s : State) => gives i s fun t => s.queueOfKey (hostKey 0 va0) == s.queue? 0 va0 && (t.queue? 0 va0).any fun k => (k.head.toNat, k.tail.toNat, k.free.toNat) == (6, 8, 2)
    [q (.htailWrite (hostKey 0 va0) 8) (hostQ 0 6 7 3 true false), q (.htailWrite (hostKey 0 va0) 11) (hostQ 0 6 8 2 true false), q (.htailWrite (hostKey 0 va0) 9) (hostQ 0 6 8 2 false false),
      q (.hheadWrite (hostKey 0 va0) 6) (hostQ 0 5 8 1 false true), q (.hheadWrite (hostKey 0 va0) 9) (hostQ 0 6 8 2 false true)] = [true, true, true, true, true] := by decide +kernel
theorem test_qpush_publish :
    gives (.qpushPublish (hostKey 0 va0)) { st0 with cur := none, queues := [{ que 0 5 6 1 with written := [7, 6, 9], rtail := 9 }] } (fun t => (t.queue? 0 va0).any fun k => k.tail == 8 && k.written == [9]) = true := by decide +kernel
theorem test_queue_watch :
    let s := { qst 0 5 6 3 with cur := none, queues := [] }
    ((s.queue? 0 va0).isNone && s.devOpen 0 va0 64 && (s.devRead 0 va0 64).any (fun b => !qhBad (ofBytes b)) && s.devOpen 0 va0 (blockBytes 0 2) && keyVf (cmdTarget (cmd va0 0)) == 0 &&
      gives (.queueWatch (cmd va0 0)) s fun t => (t.queue? 0 va0).any fun k => k.kind == 0 && k.logcap == 2 && k.tag == 1 && (k.head.toNat, k.tail.toNat, k.free.toNat, k.rtail.toNat) == (5, 6, 3, 6)) = true := by decide +kernel
theorem test_translations :
    let w : Watch := ⟨some 5, va0, false, false, false⟩
    let s := { grp (fun g => { g with watch := some w }) st0 with cur := none, watches := [⟨0, ⟨1, 0⟩⟩], hostPages := [(8192, true, true, true), (16384, true, true, true)] }
    (!s.hostHeld 0 8195 8000 && gives (.atsInvalidation 0 8195 ⟨8000, [(12288, true, false, false), (32768, true, true, true)]⟩) s (fun t => t.hostPages == [(16384, true, true, true), (12288, true, false, false)]) && keyVf rg == keyVf (cmdTarget (cmd va0 1)) && !s.devHeld 0 (va0 + 5) 1 &&
      gives (.translationInvalidate (cmd (va0 + 5) 1)) s fun t => t.watches.isEmpty && (t.group? 1 0).any fun k => k.watch == some { w with evicted := true }) = true := by decide +kernel
/-- TRANSLATION_INVALIDATE waits for an access that keeps a place it has found (R138). -/
theorem test_invalidate_waits :
    let m := { (default : MemOp) with acc := [⟨0, va0 + 8, some (.mem (pa0 + 8)), 0, 0, none⟩] }
    let s := { grp (fun g => { g with inflight := [⟨50, 0, 1, [(.v, 8)], pc0, .mem m, [], none⟩] }) st0 with cur := none }
    [s.devHeld 0 va0 1, gives (.translationInvalidate (cmd va0 1)) s fun t => decide (t = s)] = [true, true] := by decide +kernel
/-- An RCB in memory: its tag, level and parent, PRIO 3, BUDGET 7 and a save area of its own; the test region's stands at 2^56 + 0x20000. -/
def rcb (pa tag level up : Nat) (s : State) : State :=
  { s with mem := Sparse.putList 0#8 s.mem pa (bytesOf 256 (0x52424352 + tag * 2 ^ 32 + level * 2 ^ 44 + 3 * 2 ^ 52 + up * 2 ^ 64 + 7 * 2 ^ 128 + va0 * 2 ^ 512 + 4 * 2 ^ 576)) }
theorem test_region_create :
    let s := rcb pa0 2 2 (2 ^ 56 + 0x20000) ({ st0 with cur := none }.modRegion rg fun r => { r with prio := 5 })
    ((s.readRcb 0 va0).any (fun e => e.1 == 2 && (s.region? 2).isNone) &&
      gives (.regionCreate 0 va0) s fun t => (t.region? 2).any fun r => r.level == 2 && r.parent == some rg && r.prio == 3 && r.budget == 7 && r.hquota == 4096 && r.save == va0 && r.saveSize == 4) = true := by decide +kernel
theorem test_resolve_rcb :
    let P := { tenantDefaults with level := 1, saveSize := 4, save := va0, budget := 5, prio := 2, strict := true, period := 6, fdom := 7, trapq := 64 }
    let f := fun (prio : Nat) => (resolveRcb 0 va0 (0x52424352 + 2 * 2 ^ 32 + 2 * 2 ^ 44 + prio * 2 ^ 52) (some (rg, P))).map fun r => (r.strict, [r.level, r.prio, r.budget, r.period, r.hquota, r.fdom, r.trapq, r.save, r.saveSize])
    (f 0 == some (true, [2, 2, 5, 6, 4096, 7, 64, va0, 4]) && f 3 == none) = true := by decide +kernel
theorem test_region_reload :
    let s := rcb 0x10020000 1 1 0 ({ st0 with cur := none }.modRegion rg fun r => { r with nextId := 9 })
    ((s.readRcb 0 (2 ^ 56 + 0x20000)).any (fun e => e.1 == rg && e.2.parent.isNone) && s.regions.all (fun e => e.2.parent.isNone) &&
      gives (.regionReload (cmd 0 0)) s fun t => (t.region? rg).any fun r => r.prio == 3 && r.budget == 7 && r.nextId == 9) = true := by decide +kernel
theorem test_weight_load :
    let s := { wst with slices := [], cur := none }
    let c : Cmd := ⟨none, rg, 2 ^ 56 + 2 ^ 28, va0, 65536⟩
    let w : WLoad := ⟨7, none, 0, 2 ^ 56 + 2 ^ 28, va0, 65536⟩
    let t := { s with mgmt := { s.mgmt with loads := [w] } }
    (!s.loadBad 0 c.a c.b c.c && gives (.weightLoad c) s (fun t => t.mgmt.loads.map (fun y => (y.vf, y.dst, y.src, y.len)) == [(0, c.a, c.b, c.c)]) &&
      t.mgmt.loads.find? (fun y => y.id == 7) == some w && t.wsPa 0 w.dst == some 0x8000000000 && t.devPa 0 w.src == some pa0 && (t.failedIn pa0 65536).isEmpty) = true := by decide +kernel
/-! ### Harness units and collectives -/

/-- Member 1 of the test harness is on module 3, and member 0 has arrived at a barrier. -/
def far : Member := .there 3 7
def remote (f : Harness → Harness := id) : State := { (harn [⟨1, far, false, false⟩] f) with cur := none, clock := 9, tenants := [(0, { st0.tenant 0 with ftid := 6 })] }
def waits (f : Harness → Harness := id) (kind : Nat := 0) : State :=
  str (fun t => { t with st := .harness 50 }) (grp (fun g => { g with inflight := [⟨50, 0, 1, [(.g, 8), (.g, 9)], 0, .await, [], none⟩] })
    (remote fun z => f { z with phase := 3, holder := 5, unit := some (.core 0 0), waiters := [⟨⟨1, 0⟩, 50, 3, 8, kind⟩] }))
def arrived (z : Harness) : Harness := { z with kind := some .barrier, count := 2, phase := 3, arrivals := [⟨0, none, 0, 0, false⟩] }
/-- What module 3 asks for its member, with request number 70. -/
def asks (o : HAsk) : Instr := .harnessArrivalReceive hkey far (.ask 70 hv 6 1 o)
/-- An arrival of it that reached the unit a cycle ago. -/
def due (k : HKind) (c : Option Nat := none) : HComing := ⟨1, far, k, c, none, 8, some 70, 0, 0, 0, 0, 0, none⟩
def answered (t : State) (r : HReply) : Bool := t.out.any fun m => m == .released 3 hkey 6 1 r
theorem test_harness_arrival_receive :
    [gives (asks (.arrive .barrier none none)) (remote fun z => { z with phase := 3 }) fun t => (t.harness? hkey).any fun z => z.arrivals.isEmpty && z.coming == [⟨1, far, .barrier, none, none, 9, some 70, 0, 0, 0, 0, 0, none⟩],
      gives (asks (.arrive .barrier none none)) (remote fun z => { z with failed := true }) fun t => answered t (.refuse 70 221 0) && (t.harness? hkey).any fun z => z.coming.isEmpty,
      gives (asks .leave) (remote fun z => { z with members := [] }) fun t => answered t (.refuse 70 210 0),
      gives (asks .check) (remote fun z => { z with members := [] }) fun t => answered t (.refuse 70 210 0),
      gives (asks .join) (remote fun z => { z with span := .sys, members := [other] }) fun t => answered t (.grant 70 0 0 false 0) && (t.harness? hkey).any fun z => z.members.any fun m => m.who == far && m.joining && m.idx == 0,
      gives (asks .join) (remote fun z => { z with span := .sys, members := [] }) fun t => answered t (.grant 70 0 0 true 0) && (t.harness? hkey).any fun z => z.members == [⟨0, far, false, false⟩],
      gives (asks .join) (remote fun z => { z with members := [] }) fun t => answered t (.refuse 70 213 0)] = [true, true, true, true, true, true, true] := by decide +kernel
/-- A collective is refused on a counted harness, and a message of a tenant that has no part in the harness changes nothing (R337, R342). -/
theorem test_messages_refused :
    [gives (asks (.arrive (.coll 4 1) none none)) (remote fun z => { z with counted := true }) fun t => answered t (.refuse 70 305 0) && (t.harness? hkey).any fun z => z.coming.isEmpty,
      gives (.harnessCompletionMessage hkey 3 ⟨7, 1, .completed true⟩ 77 []) waits fun t => decide (t = waits),
      gives (.harnessArrivalReceive hkey far (.loss 7 1)) (remote arrived) fun t => decide (t = remote arrived),
      gives (.harnessArrivalReceive hkey far (.loss 6 1)) (remote arrived) fun t => (t.harness? hkey).any fun z => z.phase == 4 && z.members.all fun m => m.who != far] = [true, true, true, true] := by decide +kernel
theorem test_harness_arrivals_taken :
    [gives (.harnessArrivalReceive hkey far .take) (remote fun z => { arrived z with coming := [due .barrier] }) fun t => answered t (.grant 70 1 3 false 0) && (t.harness? hkey).any fun z => z.phase == 4 && z.arrivals.isEmpty && z.coming.isEmpty,
      gives (.harnessArrivalReceive hkey far .take) (remote fun z => { z with phase := 3, coming := [due .barrier] }) fun t => (t.harness? hkey).any fun z => z.phase == 3 && z.arrivals == [⟨1, none, 8, 3, false⟩],
      gives (.harnessArrivalReceive hkey far .take) (remote fun z => { arrived z with coming := [due (.vote .any)] }) fun t => answered t (.refuse 70 219 0) && (t.harness? hkey).any fun z => z.phase == 3 && z.arrivals.length == 1,
      gives (.harnessArrivalReceive hkey far .take) (remote fun z => { arrived z with coming := [due .barrier (some 5)] }) fun t => answered t (.refuse 70 211 2)] = [true, true, true, true] := by decide +kernel
theorem test_harness_completion_message :
    let done := fun (a b : Nat) (t : State) => (t.harness? hkey).any (fun z => z.phase == 4) && (t.group? 1 0).any fun k => k.greg 8 == BitVec.ofNat 32 a && k.greg 9 == BitVec.ofNat 32 b && k.inflight.isEmpty && k.strands.all fun u => u.st == .ready
    [gives (.harnessCompletionMessage hkey 3 ⟨6, 1, .completed true⟩ 77 []) (waits) (done 0xC0000003 0), gives (.harnessCompletionMessage hkey 3 ⟨6, 1, .completed false⟩ 77 []) (waits id 1) (done 77 0x80000003),
      gives (.harnessCompletionMessage akey 11 ⟨6, 1, .granted 60 2 true⟩ 77 []) (str (fun t => { t with st := .scoreboard (.answer 60) }) { away (some none) with cur := none, tenants := [(0, { st0.tenant 0 with ftid := 6 })] }) fun t => (t.group? 1 0).any fun k => k.strands.map Strand.st == [.ready] && (k.inflight? 60).any fun f => f.body == .ask akey 3 (some (.grant 60 2 11 true 77)) none] =
      [true, true, true] := by decide +kernel
/-- A straggler record of 2 slots of 64 bytes at va0, with an entry that waits. -/
def stragq (write : Nat) (e : List Byte) : State :=
  remote fun z => { z with strag := some ⟨BitVec.ofNat 128 (va0 + 3 * 2 ^ 57 + 7 * 2 ^ 60 + 8 * 2 ^ 76 + 24 * 2 ^ 96), rg, 2, 1, [e], write, 4⟩ }
theorem test_straggler_entry_write :
    let q := fun (s : State) (ok : Bool) => match exec (.stragglerEntryWrite hkey ⟨ok, none⟩) s with
      | .next t => ((t.harness? hkey).bind Harness.strag).map fun g => (g.waiting.length, g.write, g.drop)
      | _ => none
    let e := bytesOf 64 5
    ([q (stragq 0 e) true, q (stragq 0 e) false, q (stragq 2 e) true] == [some (0, 1, 4), some (0, 1, 4), some (0, 2, 5)] && !(((stragq 0 e).harness? hkey).bind Harness.strag).any (fun g => (stragq 0 e).stragAway g 64) &&
      (((stragq 0 e).harness? hkey).bind Harness.strag).any fun g => ((stragq 0 e).stragPut g 64 e).isSome && ((stragq 0 e).stragRead g none).1 == some 0) = true := by decide +kernel
theorem test_lag_notice :
    (let s := { st0 with tenants := [(0, { st0.tenant 0 with ftid := 6 })] }; s.regionOf 6 1 == some rg && gives (.lagNotice 6 1 true) s (fun t => t.lagging == [⟨rg, 1, 0⟩] && gives (.lagNotice 6 1 false) t fun t => t.lagging.isEmpty)) = true := by decide +kernel
theorem test_harness_unit_failure :
    gives (.harnessUnitFailure (.unit (.core 0 0))) (waits) (fun t => (t.harness? hkey).any (fun z => z.failed && z.waiters.isEmpty) && (t.strand? me).any (fun u => u.st == .stopped none && u.c.pc == 0) && (waiting t).map TrapRec.cause == [221]) = true := by decide +kernel
/-- The one rank of a collective phase over a block of 32 fours, its result at va0; b2 over its source, or over a page no leaf maps. -/
def coll (ready : Bool) (src : Nat) : State :=
  let r : CollRank := ⟨0, .here ⟨1, 0⟩, 4, ready, 0, 50, pc0, 8, 4, 1, rec va0 64 2, rec src 64 2, 0, 128, 0, false, false, 0, none, [], 0, [], [], false, none⟩
  grp (fun g => { g with inflight := [⟨50, 0, pc0, [(.g, 9)], 0, .await, [], none⟩] })
    { (harn [] fun z => { z with phase := 5, ranks := [r] }) with cur := none, tenants := [(0, { st0.tenant 0 with ftid := 6 })], mem := Sparse.putList 0#8 st0.mem (pa0 + 256) (List.replicate 16 0x11#8 ++ List.replicate 112 0#8 ++ [129#8]) }
theorem test_collective_complete :
    [gives (.collectiveComplete hkey) (coll true (va0 + 256)) fun t => (t.harness? hkey).any (fun z => z.ranks.isEmpty) && (t.group? 1 0).any fun k => k.greg 9 == 0x80000000 && k.inflight.isEmpty && t.peek pa0 4 == bytesOf 4 0x40800000,
      gives (.collectiveComplete hkey) (coll true (2 ^ 56 + 2 ^ 29)) fun t => (t.harness? hkey).any (fun z => z.ranks.isEmpty) && (t.group? 1 0).any fun k => bitAt (k.greg 9).toNat 31 && bitAt (k.greg 9).toNat 27 && k.inflight.isEmpty && k.strands.any fun u => u.deferred.map (fun d => (d.cause, d.key)) == [(308, 50)]] =
      [true, true] := by decide +kernel
theorem test_collective_message :
    [gives (.harnessCompletionMessage hkey 4 ⟨6, 1, .collective none⟩ 0xA0000003 [[7]]) (coll false (va0 + 256)) fun t => (t.harness? hkey).any (fun z => z.ranks.isEmpty) && (t.group? 1 0).any fun k => k.greg 9 == 0xE0000003 && k.inflight.isEmpty && t.peek pa0 4 == bytesOf 4 7,
      gives (.harnessCompletionMessage hkey 4 ⟨6, 1, .collective (some 313)⟩ 0x88000000 []) (coll false (va0 + 256)) fun t => (t.harness? hkey).any (fun z => z.ranks.isEmpty) && (t.group? 1 0).any fun k => bitAt (k.greg 9).toNat 31 && bitAt (k.greg 9).toNat 27 && k.inflight.isEmpty && k.strands.any fun u => u.deferred.map (fun d => (d.cause, d.key)) == [(313, 50)]] =
      [true, true] := by decide +kernel
theorem test_collective_timeout :
    gives (.collectiveTimeout hkey ⟨1, 0⟩) { coll false va0 with clock := 1400 * (st0.tenant 0).tmo } (fun t => (t.harness? hkey).any (fun z => z.ranks.map (fun r => (r.id, r.cause)) == [(50, some 312)]) && (t.group? 1 0).any fun k => k.inflight.isEmpty && k.strands.any fun u => u.deferred.map Deferred.cause == [312]) = true := by decide +kernel
/-! ### The fabric and work stealing -/

/-- The test tenant with fabric tenant id 6 and the words 7 and 8 at va0; an access of module 3 to it. -/
def fst : State :=
  { st0 with cur := none, tenants := [(0, { st0.tenant 0 with ftid := 6 })], mem := Sparse.putList 0#8 st0.mem pa0 [7, 0, 0, 0, 8], mgmt := { st0.mgmt with locked := false } }
def acc (tag va : Nat) (k : InKind) : InAccess := ⟨3, 6, tag, va, 4, k, 0⟩
theorem test_inbound_remote_access :
    ((fst.walk 0 va0).any (fun l => l.chip == 0 && !l.ws && l.rd && l.w && l.at_ && l.pa == pa0 && decide (l.pa % l.page + 4 ≤ l.page)) && fst.regionOf 6 1 == some rg && (fst.failedIn pa0 4).isEmpty &&
      gives (.inboundRemoteAccess (acc 1 va0 (.load 1))) fst (fun t => t.out == [.answer 3 (.data [7, 0, 0, 0] [])]) &&
      gives (.inboundRemoteAccess (acc 1 va0 (.load 2))) fst (fun t => t.out == [.answer 3 (.data [0, 0, 0, 0] [])]) &&
      gives (.inboundRemoteAccess (acc 1 va0 (.store [(0, [1]), (2, [3, 4])]))) fst (fun t => t.out == [.answer 3 (.ack [])] && t.peek pa0 5 == [1, 0, 3, 4, 8]) &&
      gives (.inboundRemoteAccess (acc 1 va0 (.atom .add .n32 [(2 ^ 32 - 1, 0), (2 ^ 32 - 1, 0)]))) fst (fun t => t.out == [.answer 3 (.data [7, 0, 0, 0] [])] && t.peek pa0 5 == [5, 0, 0, 0, 8]) &&
      gives (.inboundRemoteAccess (acc 2 va0 (.load 1))) fst (fun t => t.out == [.answer 3 (.nack 8)] && t.mgmt.faultLog.length == 1) &&
      gives (.inboundRemoteAccess (acc 1 5 (.load 1))) fst fun t => t.out == [.answer 3 (.nack 8)]) = true := by decide +kernel
/-- An access that waited past the tenant's TMO of 2 µs is answered with NACK 9, a failed module serves none, and a probe is answered. -/
theorem test_inbound_refused :
    let late : InAccess := { acc 1 va0 (.load 1) with waited := 2801 }
    let dead := { fst with mgmt := { fst.mgmt with failed := true } }
    [gives (.inboundRemoteAccess late) (fst.modTenant 0 fun t => { t with tmo := 2 }) fun t => t.out == [.answer 3 (.nack 9)] && t.mgmt.faultLog.length == 1 && t.mem == fst.mem,
      gives (.inboundRemoteAccess (acc 1 va0 (.load 1))) dead fun t => decide (t = dead), gives (.inboundRemoteAccess (acc 1 va0 .probe)) fst fun t => t.out == [.answer 3 (.ack [])] && t.mgmt.faultLog.isEmpty,
      gives (.inboundRemoteAccess (acc 1 va0 .limit)) fst fun t => t.out.isEmpty && t.mgmt.faultLog.length == 1] = [true, true, true, true] := by decide +kernel
/-- Loads of lanes 0 and 1 that one request asks another module for, and an atomic add of both to one element there. -/
def asked (atom : Option AtomOp := none) : State :=
  let y : Nat → LaneAcc := fun l => ⟨l, va0 + 4 * l, some (.peer 3 (0x5000 + if atom.isSome then 0 else 4 * l)), 10 + l, 0, none⟩
  let m := { (default : MemOp) with acc := [y 0, y 1], atom := atom, ty := .int .n32 }
  { grp (fun g => { g with inflight := [⟨50, 0, 3, [(.v, 8)], pc0, .mem m, [], none⟩] }) st0 with cur := none, remotes := [⟨77, 3, .load me 50 [0, 1], 0x5000, 128, 10, 2⟩] }
theorem test_remote_response :
    let m := fun (t : State) => (t.memOp? 1 0 50).map fun e => (e.2.err, e.2.acc.map LaneAcc.val)
    (m asked == some (none, [none, none]) && gives (.remoteResponse 77 (.data [5, 0, 0, 0, 6, 0, 0, 0] [])) asked (fun t => t.remotes.isEmpty && m t == some (none, [some 5, some 6])) &&
      gives (.remoteResponse 77 (.data [5, 0, 0, 0] [])) (asked (some .add)) (fun t => t.remotes.isEmpty && m t == some (none, [some 5, some 15])) &&
      gives (.remoteResponse 77 (.nack 15)) asked (fun t => t.remotes.isEmpty && m t == some (some (143, 0, va0), [some 0, some 0])) &&
      gives (.remoteTimeout 77) { asked with clock := 2810 } (fun t => t.remotes.isEmpty && (m t).any fun e => e.1.any fun c => c.1 == 137) &&
      gives (.remoteTimeout 77) { asked with clock := 2809 } fun t => t.remotes.length == 1) = true := by decide +kernel
/-- Two buffered stores that one request asks another module to perform. -/
def asking : State :=
  let e : Nat → StoreEntry := fun n => { (default : StoreEntry) with id := n, who := me, strict := n == 61, va := va0, loc := .peer 3 0x5000, bytes := [1] }
  { asked.modCore 0 fun k => { k with buf := [e 60, e 61] } with remotes := [⟨77, 3, .store 0 [60, 61], va0, 128, 10, 2⟩] }
theorem test_remote_store_response :
    let g := fun (t : State) => (t.group? 1 0).map fun k => (k.rerr, k.rerrKind)
    (gives (.remoteResponse 77 (.ack [])) asking (fun t => t.remotes.isEmpty && (t.core 0).buf.isEmpty && g t == some (0, none)) &&
      gives (.remoteResponse 77 (.nack 9)) asking fun t => t.remotes.isEmpty && (t.core 0).buf.isEmpty && g t == some (1, some (9, true, va0))) = true := by decide +kernel
theorem test_routes :
    let to3 := fun (s : State) (up : Bool) => { s with mgmt := { s.mgmt with routes := [(2, 3, up)] } }
    let cut := { to3 asked false with clock := 1400005 }
    let cut := { cut with mgmt := { cut.mgmt with noRoute := [(3, 5)] } }
    let lost := to3 { asked with mgmt := { asked.mgmt with unreachable := [3] } } true
    [gives (.routeUpdate ⟨2, 3⟩ false) { to3 asked true with clock := 5 } fun t => t.mgmt.routeless 3 == some 5 && t.mgmt.routes == [(2, 3, false)] && gives (.routeUpdate ⟨1, 3⟩ true) t fun u => (u.mgmt.routeless 3).isNone,
      gives (.routeUpdate ⟨16, 3⟩ true) asked fun t => t.mgmt.routes.isEmpty,
      gives (.chipUnreachable 3) cut fun t => t.mgmt.unreachable == [3] && t.remotes.isEmpty,
      lost.probeDue 3 && gives (.reachabilityProbe 3 true) lost fun t => t.mgmt.unreachable.isEmpty && t.out == [.probe 3 2] && !t.probeDue 3,
      gives (.reachabilityProbe 3 false) (to3 lost false) fun t => t.mgmt.unreachable == [3] && t.out == [.probe 3 2] && !t.probeDue 3 && { t with clock := t.clock + 140000 }.probeDue 3, gives (.flitReplay 0) asked fun t => t.mgmt.softErrors == 1, gives (.flitReplay 16) asked fun t => t.mgmt.softErrors == 0] =
      [true, true, true, true, true, true, true] := by decide +kernel
/-- A STEAL job of the test region with two Queued slices, one Claimed by module 3, its words at va0 and its steal set at va0 + 0x1000. -/
def owner (w : Nat) : State :=
  let s := { fst with slices := [], lagging := [⟨rg, 1, 0⟩], jobs := st0.jobs.map fun (e : Nat × Job) =>
    (e.1, { e.2 with hdr := { e.2.hdr with steal := true }, table := some va0, queued := [(0, 2)], claimed := [(2, 3)], slices := 3 }) }
  { (s.modRegion rg fun r => { r with stealVa := va0 + 0x1000 }) with mem := Sparse.putList 0#8 (Sparse.putList 0#8 s.mem pa0 (bytesOf 8 w)) (pa0 + 0x1000) [0x28] }
theorem test_steal_offer : (owner 0).offerChips rg ≠ [] := by
  have h : 3 ∈ (owner 0).offerChips rg := List.mem_filter.mpr ⟨List.mem_range.mpr (by decide), by decide +kernel⟩
  exact List.ne_nil_of_mem h
theorem test_stealable : ((owner 0).job? 0).any (fun j => (owner 0).stealable j && j.rk == rg) = true := by decide +kernel
theorem test_offer_withdrawal :
    let s := { (owner 0) with lagging := [], made := [⟨0, rg, 5⟩] }
    (s.made.find? (fun y => y.jn == 0) == some ⟨0, rg, 5⟩ && (s.job? 0).any (fun k => !s.stealable k) && s.inStealSet rg 5 && !s.inStealSet rg 4) = true := by decide +kernel
theorem test_steal_deferral_expiry :
    let s := { owner 0 with clock := 1400000 }
    ((s.job? 0).any (fun j => s.lagSince j.rk == some 0 && j.admitted == 0 && decide (timeAt 0 + 1000000 ≤ s.time)) && gives (.stealDeferralExpiry 0) s fun t => (t.job? 0).any Job.ordinary) = true := by decide +kernel
/-- GEN 1 Queued, GEN 2 Claimed by module 3, GEN 3 Started by it. -/
def w1 : Nat := 2 ^ 32
def w2 : Nat := 2 * 2 ^ 32 + 3 * 2 ^ 16 + 1
def w3 : Nat := 3 * 2 ^ 32 + 3 * 2 ^ 16 + 2
theorem test_ownership_word_cas :
    let cas := fun (w expect new : Nat) (claimed : List (Nat × Nat)) (now : Nat) => gives (.ownershipWordCas 0 0 expect new) (owner w) fun t =>
      t.out == [.answer (ownChip new) (.data (bytesOf 8 w) [])] && (t.job? 0).any (fun j => j.claimed == claimed) && t.peek pa0 8 == bytesOf 8 now
    (((owner w1).job? 0).any (fun j => (owner w1).ownRead j 0 == some w1) && ownValid 0 w1 && (owner w1).devPa 0 va0 == some pa0 &&
      cas w1 w1 w2 [(2, 3), (0, 3)] w2 && cas w2 w2 w3 [(2, 3)] w3 && cas w2 w1 w2 [(2, 3)] w2 && cas w1 w1 (w2 + 2 ^ 32) [(2, 3)] w1 &&
      cas w2 w2 (w3 + 2 ^ 16) [(2, 3)] w2) = true := by decide +kernel
theorem test_failed_owner :
    let s := { owner w1 with mgmt := { (owner w1).mgmt with failed := true } }
    gives (.ownershipWordCas 0 0 w1 w2) s (fun t => decide (t = s)) = true := by decide +kernel
theorem test_stolen_completion_receive :
    gives (.stolenCompletionReceive 0 2 3 true false 19) (owner 0) (fun t => (t.job? 0).any fun j => j.claimed.isEmpty && j.failN == 1 && j.doneN == 0 && j.completions.map (fun c => (c.kind, c.doneN, c.fail, c.chip, c.cause)) == [(1, 2, true, 3, 19)]) = true := by decide +kernel
/-- An offer of module 3's job 4, whose entry names the code object at 2^56, where a header stands. -/
def key4 : JobKey := ⟨3, 6, 4⟩
def offer : Offer := ⟨key4, 1, bytesOf 128 (2 ^ 16 * 2 ^ 40 + 2 ^ 124 + 2 ^ 136), 0, 1, 500, 5000, [0]⟩
def thief : State :=
  { fst with slices := [], jobs := [], clock := 9, got := [⟨offer, 5, true, 1, 16⟩]
             mem := Sparse.putList 0#8 fst.mem 0x10000000 (bytesOf 72 (0x4B344E43 + 2 ^ 32 + 32 * 2 ^ 64 + 2 ^ 72 + 8 * 2 ^ 80 + 64 * 2 ^ 320 + 2 ^ 512 + 16224 * 2 ^ 544)) }
theorem test_offers :
    [gives (.offerReceive offer) { thief with got := [] } fun t => t.got.map (fun q => (q.o, q.time, q.next, q.tries)) == [(offer, 9, 1, 16)], gives (.offerReceive offer) thief fun t => t.got.map (fun q => (q.o, q.time)) == [(offer, 9)],
      gives (.offerExpiry key4 true) thief fun t => t.got.isEmpty, gives (.offerExpiry key4 false) thief fun t => t.got.length == 1,
      gives (.offerExpiry key4 false) { thief with clock := 5 + 256 * 1400 } fun t => t.got.isEmpty] = [true, true, true, true, true] := by decide +kernel
theorem test_steal_claim :
    (thief.mayTake ⟨offer, 5, true, 1, 16⟩ == some rg && thief.chosenOffer == some ⟨offer, 5, true, 1, 16⟩ && (thief.stolenSlice key4 1).isNone &&
      gives (.stealClaim key4 1 (w1 + 3 * 2 ^ 16) true) thief (fun t => t.out == [.claim key4 1] && t.mgmt.stealWins == 1 && t.slices.map (fun e => (e.2.st, e.2.index, e.2.stolen)) == [(.claimed, 1, some key4)]) &&
      gives (.stealClaim key4 1 w2 true) thief fun t => t.out == [.claim key4 1] && t.mgmt.stealFails == 1 && t.slices.isEmpty && t.got.map OfferGot.next == [0]) = true := by decide +kernel
/-- A Claimed slice that the dispatcher places next, on core 0, is started where its word becomes Started, and is dropped where it does not (R299). -/
def claimedSlice : State := match exec (.stealClaim key4 1 (w1 + 3 * 2 ^ 16) true) thief with
  | .next t => t
  | _ => thief
theorem test_steal_start :
    let at_ := fun (t : State) => t.slices.map fun e => (e.2.st, e.2.stolen.isSome)
    ((match claimedSlice.dispatchAct with | some (.place c 0) => (claimedSlice.stolenSlice key4 1).any fun e => c.sid == some e.1 | _ => false) &&
      gives (.stealClaim key4 1 (2 * 2 ^ 32 + 1) true) claimedSlice (fun t => at_ t == [(.resident, true)]) &&
      gives (.stealClaim key4 1 w1 true) claimedSlice fun t => at_ t == [(.failed, false)]) = true := by decide +kernel
/-- The slice of the test states stolen. -/
def stolen (f : Slice → Slice) : State := slc (fun x => f { x with stolen := some key4 }) fst
def lostSlice : State := stolen fun x => { x with st := .failed, failCause := some 19 }
theorem test_stolen_slices :
    [((lostSlice.drainCore 0).slice? 1).any (fun x => (lostSlice.drainCore 0).quiet 1 x) && gives (.stolenSliceDone 1 true) lostSlice fun t => t.out == [.stolenDone key4 0 true false 19] && (t.slice? 1).any fun y => y.stolen.isNone,
      gives (.stealKill key4 0) (stolen id) fun t => (t.slice? 1).any fun y => y.st == .failed] = [true, true] := by decide +kernel
/-! ### The service plane, the registers of the debug block, and the Sorser port -/

/-- A load of the host half whose lane has not returned. -/
def hosted : State :=
  let m := { (default : MemOp) with started := true, acc := [⟨5, 4096, some (.host 0 4096), 0, 0, some 9⟩] }
  let m' := { (default : MemOp) with acc := [⟨5, 4096, some (.host 0 4096), 0, 0, none⟩] }
  grp (fun g => { g with inflight := [⟨50, 0, 1, [(.v, 8)], pc0, .mem m, [], none⟩, ⟨51, 0, 1, [(.v, 9)], pc0, .mem m', [], none⟩] }) fst
theorem test_host_link_reset :
    gives .hostLinkReset hosted (fun t => (t.memOp? 1 0 50).any fun e => e.2.err.any (fun c => c.1 == 142 && c.2.1 == 5) && e.2.acc.map (fun a => (a.lane, a.val)) == [(5, some 0)] && (t.memOp? 1 0 51).any fun e => e.2.err.isNone && e.2.acc.map LaneAcc.val == [none]) = true := by decide +kernel
theorem test_resets_and_limits :
    [gives .moduleReset { fst with mgmt := { fst.mgmt with used := [(.core, 0, 1)], routes := [(1, 3, true)] } } fun t => t.slices.isEmpty && t.mem == fst.mem && t.mgmt.locked && t.mgmt.used == [(.core, 0, 1)] && t.mgmt.routes.isEmpty,
      gives (.spareReplacement .module 0 0) { fst with mgmt := { fst.mgmt with used := [(.core, 0, 1)], failed := true } } fun t => t.mgmt.used.isEmpty && !t.mgmt.failed && t.slices == fst.slices, gives .criticalLimitReset fst fun t => t.jobs.isEmpty,
      gives .powerThermalLimit fst fun t => t.mgmt.hold && (t.slice? 1).any fun y => y.preempt.isSome, gives .limitRecovery { fst with mgmt := { fst.mgmt with hold := true } } fun t => !t.mgmt.hold] = [true, true, true, true, true] := by decide +kernel
/-- A unit that waits for its spare has it after a module reset; a critical limit tells module 3, where a member of a harness of slice 1 lies. -/
theorem test_reset_brings_spares :
    [gives .moduleReset { fst with mgmt := { fst.mgmt with used := [(.core, 0, 1)], replacing := [(.core, 0, 7)] } } fun t => t.mgmt.usedAt .core 0 == 2 && t.mgmt.replacing.isEmpty && t.mgmt.physicalCore 7 == 41 && t.mgmt.degraded,
      let s := { remote with clock := 2800 }
      (s.slice? 1).any (fun x => s.residentIds == [1] && s.peersOf 1 x == [3]) && gives .criticalLimitReset s fun t => t.out == [.peerFault 3 (faultEntry 2000 ⟨0, 6, 1, 0, 0, .limit, 0⟩ 369)] && t.slices.isEmpty] = [true, true] := by decide +kernel
theorem test_units :
    let s := fun (n : Nat) => { fst with mgmt := { fst.mgmt with used := [(.core, 0, n)] } }
    [gives (.unitFailure .core ⟨0, 5⟩ 341 [1]) (s 1) fun t => t.mgmt.used == [(.core, 0, 2)] && t.mgmt.physicalCore 5 == 41 && t.mgmt.degraded && !t.mgmt.failed && t.slices == (s 1).slices && t.out == [.exhausted .core 0],
      gives (.unitFailure .core ⟨0, 0⟩ 341 [1]) (s 1) fun t => t.mgmt.used == [(.core, 0, 1)] && t.mgmt.replacing == [(.core, 0, 0)] && (t.slice? 1).any (fun y => y.preempt.isSome) && gives (.unitFailure .core ⟨0, 0⟩ 341 [1]) t fun u => u.mgmt == t.mgmt && u.slices == t.slices,
      gives (.unitFailure .core ⟨0, 0⟩ 341 [1]) (s 2) fun t => t.mgmt.failed && (t.slice? 1).any fun y => y.st == .failed && y.failCause == some 341,
      gives (.spareReplacement .core 0 0) (s 2) fun t => t.mgmt == (s 2).mgmt && t.slices == (s 2).slices,
      gives (.spareReplacement .core 0 0) (s 1) fun t => t.mgmt.replacing == [(.core, 0, 0)] && (t.slice? 1).any fun y => y.preempt.isSome,
      (s 1).unitUsers .core 0 5 == [] && !(s 1).unitHolds .core 0 5 && gives (.spareReplacement .core 0 5) (s 1) fun t => t.mgmt.used == [(.core, 0, 2)]] = [true, true, true, true, true, true] := by decide +kernel
/-- A row of array 1 of core 0 fails: only the slice that holds that array is a user of it. -/
theorem test_array_row :
    let s := slc (fun x => { x with phys := [1] }) fst
    [s.unitUsers .arrayRow 1 9 == [1], s.unitUsers .arrayRow 0 9 == [], gives (.unitFailure .arrayRow ⟨0, 9⟩ 341 []) s fun t => t.mgmt.usedAt .arrayRow 0 == 1 && t.mgmt.replacing.isEmpty,
      gives (.unitFailure .arrayRow ⟨1, 9⟩ 341 []) s fun t => t.mgmt.usedAt .arrayRow 1 == 0 && t.mgmt.replacing == [(.arrayRow, 1, 9)]] = [true, true, true, true] := by decide +kernel
theorem test_image_transfer :
    let s := { swapped .command 7 with tenants := fst.tenants }
    let name : JobKey := ⟨0, 6, 0⟩
    let gone := slc (fun x => { x with move := some 3 }) s
    [(s.tenant 0).ftid == 6 && gives (.imageTransfer (.send 1) 3) s fun t => (t.out.any fun m => match m with | .image 3 6 1 _ => true | _ => false) && t.slices == gone.slices,
      (gone.sentTo name 0 3).any (fun e => e.1 == 1), gives (.imageTransfer (.restored name 0 false) 3) gone fun t => t.slices == s.slices,
      gives (.imageTransfer (.restored name 0 true) 3) gone fun t => (t.slice? 1).any (fun y => y.st == .retired && y.groups.isEmpty && y.image.isNone) && (t.job? 0).any fun k => k.claimed == [(0, 3)],
      (s.regionOf 9 1).isNone && gives (.imageTransfer (.receive 9 1 (bytesOf 64 (5 * 2 ^ 128 + 8 * 2 ^ 160))) 3) s fun t => decide (t = s.emit (.restored 3 ⟨3, 9, 8⟩ 5 false))] = [true, true, true, true, true] := by decide +kernel
theorem test_attestation_request :
    gives (.attestationRequest 0 (List.replicate 32 5)) fst (fun t => t.mgmt.report.take 34 == List.replicate 32 5 ++ [0, 0]) = true := by decide +kernel
/-- Aperture 2 of the physical function leads to va0 of tenant 0, and its aperture 3 where no leaf is. -/
def window : State := { fst with mgmt := { fst.mgmt with apertures := [(64 * 16 + 2, va0), (64 * 16 + 3, 2 ^ 56 + 2 ^ 29)] }, mem := Sparse.putList 0#8 fst.mem pa0 [7, 0, 0, 0, 8] }
theorem test_bar_windows :
    (window.aperture 64 2 == (0, va0) && window.windowPa 0 va0 true == some pa0 && window.windowPa 0 va0 false == some pa0 && (window.failedIn pa0 4).isEmpty && window.queues.isEmpty &&
      window.windowPa 0 (2 ^ 56 + 2 ^ 29) true == none && window.windowPa 0 (2 ^ 56 + 2 ^ 29) false == none &&
      gives (.barWindowWrite 64 2 0 [1, 2]) window (fun t => t.peek pa0 5 == [1, 2, 0, 0, 8]) && gives (.barWindowWrite 64 3 0 [1, 2]) window (fun t => t.mem == window.mem && t.mgmt.faultLog.length == 1) &&
      gives (.barWindowRead 64 2 0 2) window (fun t => t.mgmt.readVal == [7, 0]) && gives (.barWindowRead 64 3 0 2) window (fun t => t.mgmt.readVal == [255, 255]) &&
      gives (.barWindowRead 64 16 0x300000 24) { fst with mgmt := { fst.mgmt with stealTries := 3, stealWins := 2, stealFails := 1 } } fun t => t.mgmt.readVal == bytesOf 8 3 ++ bytesOf 8 2 ++ bytesOf 8 1) = true := by decide +kernel
/-- Half of a debug register, and accesses that no function accepts. -/
theorem test_bar0_writes :
    [bar0Core 0x1000124 == some 1, gives (.barWindowWrite 64 16 0x1000124 [5, 0, 0, 0]) (fst.modCore 1 fun k => { k with dbg := { k.dbg with trp := 7 } }) fun t => (t.core 1).dbg.trp == 5 * 2 ^ 32 + 7,
      !barAccepts 64 2 0 0 && gives (.barWindowWrite 64 2 0 []) window fun t => decide (t = window), gives (.barWindowRead 65 2 0 2) window fun t => decide (t = window),
      gives (.registerWrite (.tenantRoot 64) 9) window fun t => decide (t = window), gives (.barWindowWrite 64 16 0x100020 (bytesOf 8 0x4000)) window fun t => (t.tenant 0).root == 0x4000] = [true, true, true, true, true, true] := by decide +kernel
theorem test_debug_registers :
    let d := fun (P : Debug → Bool) (t : State) => P (t.core 0).dbg
    [gives (.tctlWrite 0 0xFFFFFFFF) fst (d fun e => e.tctl == 0xFFF8F81F), gives (.tbaseWrite 0 0x12345) fst (d fun e => e.tbase == 0x12000 && e.twp == 0),
      gives (.tlostRead 0) (fst.modCore 0 fun k => { k with dbg := { k.dbg with tlost := 5 } }) fun t => t.mgmt.readVal == bytesOf 8 5 && (t.core 0).dbg.tlost == 0,
      gives (.dctlHalt 0 0xFFFFFFFF) fst (d fun e => e.dctl &&& 0xFFFFFF7F == 0xFFF80070), gives (.registerWrite (.counter 0 3) 9) fst (d fun e => e.read 0x98 == 9)] = [true, true, true, true, true] := by decide +kernel
/-- A ring of 4096 bytes at 0x6000 with 4094 written and `trp` read, and a packet of three bytes. -/
def ring (trp : Nat) : State := fst.modCore 0 fun k =>
  { k with dbg := { k.dbg with tbase := 0x6000, tsize := 12, twp := 4094, trp := BitVec.ofNat 64 trp }, trace := { k.trace with packets := [(5, [1, 2, 3])], samples := [⟨40, 9, 5, 0, pc0, 1, 1, 1, 0, true, 1⟩] } }
theorem test_trace_commit :
    [gives (.tracePacketCommit 0) (ring 1) fun t => (t.core 0).dbg.twp == 4097 && (t.core 0).trace.packets.isEmpty && t.peek 0x6FFE 2 == [1, 2] && t.peek 0x6000 2 == [3, 0],
      gives (.tracePacketCommit 0) (ring 0) fun t => decide (t = ring 0)] = [true, true] := by decide +kernel
theorem test_sample_packet :
    ((ring 100).sampleOver 0 40 && ((ring 100).core 0).trace.dropped == 0 && ((ring 100).core 0).trace.samples.any fun m => m.id == 40 && fits ((ring 100).core 0) (sampleBytes m).length && !fits ((ring 0).core 0) (sampleBytes m).length && (ring 0).sampleOver 0 40 && gives (.samplePacket 0 40) (ring 0) fun t => (t.core 0).dbg.tlost == 1 && (t.core 0).trace.packets.length == 1) = true := by decide +kernel
/-- A record in the FIFO, and a strand Stopped by BKPT with its id outstanding. -/
def port : State :=
  let s := str (fun t => { t with st := .stopped (some 8) }) (gs [(4, 0x01020304)] (fst.modRegion rg fun r => { r with out := [⟨8, 0, 336, false, some me, none, pc0, false, true⟩] }))
  { s with mgmt := { s.mgmt with locked := false, fifo := [[1, 2], [3]] } }
theorem test_sorser :
    let lock := fun (i : Instr) (n : Nat) => gives i { port with mgmt := { port.mgmt with locked := true } } fun t => t.mgmt.readVal == List.replicate n 0 && t.mgmt.fifo == port.mgmt.fifo
    let gid := match port.slice? 1 with | some x => (x.groups.map fun g => groupId x g).headD 0 | none => 0
    [(port.debugId 8).any fun o => o.kind == 0 && o.who == some me, lock (.sorserRead 0 0) 8, lock .sorserPop 64, lock (.sorserDump 8 1 0 2) 8, gives .sorserPop port fun t => t.mgmt.readVal == [1, 2] && t.mgmt.fifo == [[3]],
      gives (.sorserRead 0 0x28) (port.modCore 0 fun k => { k with dbg := { k.dbg with tlost := 5 } }) fun t => t.mgmt.readVal == bytesOf 8 5 && (t.core 0).dbg.tlost == 0,
      gives (.sorserWrite 0 0x20 77) port fun t => (t.core 0).dbg.trp == 77, gives (.sorserResume ⟨8, false⟩) port fun t => (t.strand? me).any fun u => u.st == .ready && u.c.pc == pc0,
      gives (.sorserResume ⟨8, true⟩) port fun t => (t.strand? me).any fun u => u.st == .ready && u.c.pc == pc0 + 1,
      gives (.sorserKill ⟨8, false⟩) port fun t => (t.group? 1 0).any fun k => k.retired, gives (.sorserKill ⟨8, true⟩) port fun t => (t.slice? 1).any fun y => y.st == .failed, (port.stoppedGroup gid).isSome,
      gives (.sorserDump gid 1 4 1) port fun t => t.mgmt.readVal.length == 31 && t.mgmt.readVal.drop 27 == [4, 3, 2, 1],
      gives (.sorserUnlock true) { port with mgmt := { port.mgmt with locked := true } } fun t => !t.mgmt.locked] = List.replicate 14 true := by decide +kernel
/-! ### Issue, steps and invariants -/

/-- What an instruction sees meets a property, and its trap is the state that it leaves. -/
def stops (i : Instr) (s : State) (cause detail : Nat) (P : X → Bool := fun _ => true) : Bool := match i.hdr, s.cur with
  | some h, some c => c.held.isNone && (match mkX c i h s with
    | some x => P x && gives i s fun t => decide (t = s.trapped x cause 0 detail)
    | none => false)
  | _, _ => false
def add846 : Instr := .iadd h0 false .s32 false 8 (.v 4) (.v 6)
/-- The state in checked mode after an IADD to v4 issued at cycle 0, about to read v4 at cycle 1. -/
def early : State := (match exec (.iadd h0 false .s32 false 4 (.v 2) (.v 6)) (grp (fun g => { g with chk := true }) st0) with
  | .next t => { t with cur := some (cursorAt me (pc0 + 1) (pc0 + 2) 1), clock := 1 }
  | _ => st0)
/-- The state in checked mode after an ISETP to p3 issued at cycle 0, about to read p3 as a guard at cycle 1. -/
def earlyGuard : State := (match exec (.isetp h0 false .lt .s32 3 (.v 4) (.v 6)) (grp (fun g => { g with chk := true }) st0) with
  | .next t => { t with cur := some (cursorAt me (pc0 + 1) (pc0 + 2) 1), clock := 1 }
  | _ => st0)
theorem test_stale_guard :
    let h : Hdr := ⟨0, false, .lane false 3⟩
    stops (.iadd h false .s32 false 8 (.v 4) (.v 6)) earlyGuard 48 3 (fun x => x.g.chk && x.earlyRead [h.guard.op] == some 3) = true := by decide +kernel
theorem test_checks_before_issue :
    [stops add846 (grp (fun g => { g with n := 8 }) st0) 7 0, stops (.mswap h0 .sx 0 8) st0 272 0, stops (.mfill h0 (.reserved 5) .regs 0 8 8 0) st0 280 0, stops (.movs h0 false (.sr 0x14) 8) st0 32 0,
      stops add846 early 48 4 fun x => x.g.chk, stops add846 (ctx (fun c => { c with lo := 16 }) st0) 192 0, stops (.hcreate h0 none .core 4 2) (grp (fun g => { g with frames := [default] }) st0) 197 0 X.underFork,
      stops add846 (grp (fun g => { g with ecc := [.vreg 4 0] }) st0) 227 0, stops (.rgive h0 8 8) (ctx (fun c => { c with arm := some 1 }) (grp (fun g => { g with frames := [default] }) st0)) 224 0 X.underFork] = List.replicate 9 true := by decide +kernel
/-- A false group guard leaves the cost alone. -/
theorem test_false_guard :
    let h : Hdr := ⟨0, false, .group false 0⟩
    let i : Instr := .iadd h false .s32 false 8 (.v 4) (.v 6)
    (match mkX (cursorAt me pc0 (pc0 + 1) 0) i h st0 with
      | some x => x.gfalse && !(x.ops i h).any (rangeBad x.vregs x.gregs x.acc i) && gives i st0 fun t => decide (t = (st0.charged x i).issued x i)
      | none => false) = true := by decide +kernel
/-- A copy's trap that the strand owes falls due at an EXIT with its effect, and not at one whose group guard is false (R379); where FUNC is none of the entry's, its operand fields
still count as reads (R306). -/
theorem test_deferred_falls_due :
    let u := str (fun t => { t with deferred := [⟨9, 258, pc0, 0, 0, .reads [(.g, 9), (.v, 4)] true⟩] }) st0
    let due := fun (f : Fields) => match u.group? 1 0, u.strand? me with
      | some g, some t => (dueBy g t 32 [f]).map Deferred.cause
      | _, _ => none
    let fld := fun (i : Instr) => i.fields.getD default
    [due (fld (.exit h0)), due (fld (.exit ⟨0, false, .group false 0⟩)), due (fld add846), due { fld add846 with func := 63 }, due (fld (.iadd h0 false .s32 false 8 (.v 5) (.v 6)))] =
      [some 258, none, some 258, some 258, none] := by decide +kernel
/-- The word of `iadd.s32 v3, v1, v2` at the program counter of the first strand, as `State.fetchState` places it. -/
def fetching : State := State.reset.fetchState 0x0000E0000301020000000000
theorem test_step_runs_decoded :
    (match (fetching.slice? 1), (fetching.group? 1 0), (fetching.strand? me), (fetching.job? 0) with
      | some x, some g, some t, some j => match fetching.lineFor 0 j t with
        | .line l =>
          let f := singleFields l t
          let s₁ := fetching.keepLine 0 me (keyVf j.rk) (lineOf pc0) l
          let dbg := (fetching.core 0).dbg
          decide (fetching.settleHalts = fetching) && t.half.isNone && fetching.agenda.isEmpty && fetching.cur.isNone && fetching.schedule.isNone && fetching.nextBay == some 0 && !fetching.bayBusy 0 0 && x.issues && t.deferred.isEmpty && t.nextIssue ≤ fetching.clock && (dueBy g t j.hdr.width [f]).isNone && !bitAt dbg.dctl.toNat 7 &&
          !dbg.breaks (groupId x g) pc0 && t.runLen < 24 &&
          slotsAt l pc0 == [0] && lineCause l [0] == none && targetCause j t l g.chk == none && (match decodeSlot j g t f with | .ok i => i == .iadd h0 false .s32 false 3 (.v 1) (.v 2) | .error _ => false) &&
          (waitBlock fetching.clock g t 32 [f] [.iadd h0 false .s32 false 3 (.v 1) (.v 2)]).isNone &&
          (match exec (.iadd h0 false .s32 false 3 (.v 1) (.v 2)) { s₁ with cur := some (cursorAt me pc0 (nextSlot pc0) 0) } with
            | .next s' => ((s₁.settleIssue s' me).cutRun me 0 j).bayBusy 0 0 && (((s₁.settleIssue s' me).cutRun me 0 j).strand? me).all fun u => u.half.isNone
            | _ => false)
        | _ => false
      | _, _, _, _ => false) = true := by decide +kernel
/-- A step from a state whose memories are in canonical form. -/
theorem test_memory_canonical : (fetching.memOk && match step fetching with | .next t => t.memOk && decide (t ≠ fetching) | _ => false) = true := by decide +kernel
/-- A command queue whose head entry, ticket 5, holds a command of region tag 1; record 8 names the Stopped strand. -/
def headed (op tag a : Nat) : State :=
  let s := str (fun t => { t with st := .stopped (some 8) }) (st0.modRegion rg fun r => { r with out := [⟨8, 0, 19, false, some me, none, pc0, false, false⟩] })
  { s with cur := none, queues := [que 3 5 6 3], mem := Sparse.putList 0#8 s.mem (pa0 + 64 + 32) (bytesOf 32 (op + tag * 2 ^ 52 + a * 2 ^ 64)) }
theorem test_commands_at_the_head :
    let c : Cmd := ⟨some (hostKey 0 va0), 1, 8, 0, 0⟩
    let passed := fun (t : State) => (t.queue? 0 va0).any fun q => q.head == 6 && q.free == 4 && q.tail == 6
    ((headed 1 1 8).queueOfKey (hostKey 0 va0) == some (que 3 5 6 3) && ((headed 1 1 8).devRead 0 ((que 3 5 6 3).slot 5) 32).any (fun bs => bitsAt (ofBytes bs) 0 8 == 1 && bitsAt (ofBytes bs) 52 12 == 1 && bitsAt (ofBytes bs) 64 64 == 8) &&
      (headed 1 1 8).isAncestor rg rg && (headed 1 1 8).region? 2 == none && (headed 1 1 8).outId rg 99 == none &&
      gives (.resume c) (headed 1 1 8) (fun t => passed t && (t.strand? me).any fun u => u.st == .ready) &&
      gives (.resume { c with tag := 2 }) (headed 1 2 8) (fun t => passed t && (t.strand? me).any fun u => u.st == .stopped (some 8)) &&
      gives (.resume { c with a := 99 }) (headed 1 1 99) (fun t => passed t && (t.strand? me).any fun u => u.st == .stopped (some 8)) &&
      gives (.resume c) (headed 2 1 8) fun t => decide (t = headed 2 1 8)) = true := by decide +kernel
/-- The RESUME of a Swapped slice stays at the head until the slice is back. -/
theorem test_resume_of_swapped :
    let c : Cmd := ⟨some (hostKey 0 va0), 1, 8, 0, 0⟩
    let s := slc (fun x => { x with st := .swapped }) (headed 1 1 8)
    ((s.outId rg 8).any (fun o => o.kind == 0 && o.who == some me) && ((s.strand? me).any fun u => u.st == .stopped (some 8)) && s.isAncestor rg rg &&
      gives (.resume c) s fun t => decide (t.queues = s.queues) && (t.strand? me).any fun u => u.st == .ready) = true := by decide +kernel
/-- The bank group and the cycles to its window: open at cycle 0, and at 2100 the next opens 3500 cycles on (R83, R151). -/
theorem test_shutter_register :
    [0, 2099, 2100, 5599, 5600, 89599].map (fun n => (mkX (cursorAt me pc0 (pc0 + 1) n) add846 h0 st0).map fun x => x.special st0 7 0) =
      [some 0, some 0, some (2 ^ 28 + 3500), some (2 ^ 28 + 1), some (2 ^ 28), some 1] := by decide +kernel
theorem test_reset : (State.reset.memOk && match step State.reset with | .next t => t.clock == 1 | _ => false) = true := by decide +kernel
/-! ### Encodings -/

/-- Words 2, 1 and 0 of an instruction as the spec's assembly examples print them stand for it, both ways. -/
def word3 (w2 w1 w0 : Nat) (i : Instr) : Bool :=
  (match decode (w2 * 2 ^ 64 + w1 * 2 ^ 32 + w0) with | .ok k => k == i | .error _ => false) && encode i == some (w2 * 2 ^ 64 + w1 * 2 ^ 32 + w0) && i.wellFormed
/-- A guard by a lane predicate or a group predicate, a stall, and `!e`. -/
def ended0 : Hdr := ⟨0, true, .lane false 7⟩
theorem test_decode_integer :
    [word3 0x00306000 0x03010200 0 (.iadd ⟨3, false, .lane false 3⟩ false .s32 false 3 (.v 1) (.v 2)), word3 0x400B2040 0x05040000 0x64 (.iadd ⟨0, true, .group true 1⟩ true .s32 false 5 (.g 4) (.imm 100)),
      word3 0x0000E201 0x03010200 0 (.iadd h0 false .s8 true 3 (.v 1) (.v 2)), word3 0x0A00E090 0x04040200 0 (.imax h0 false .n32 4 (.v 4) (.g 2)), word3 0x0300E380 0x0A020400 0 (.imulh h0 false .n64 10 (.v 2) (.v 4)),
      word3 0x0400E000 0x05010203 0 (.imad h0 false .s32 false 5 (.v 1) (.v 2) (.v 3)), word3 0x0700E001 0x03010000 0 (.ineg h0 false .s32 true 3 (.v 1)), word3 0x4B00E0C0 0x070A0000 7 (.and h0 true false 7 (.g 10) (.imm 7)),
      word3 0x5120E0C0 0x090C0000 2 (.shr ⟨2, false, .lane false 7⟩ true .n32 9 (.g 12) (.imm 2)), word3 0x1300E040 0x05040000 0x408 (.bfe h0 false .s32 5 (.v 4) (.imm 0x408)), word3 0x1700E380 0x02040000 0 (.popc h0 false true 2 (.v 4)),
      word3 0x5800F4C0 0x030D0000 0 (.isetp h0 true .ge .n32 3 (.g 13) (.imm 0)), word3 0x5900E080 0x03040512 0 (.sel h0 true false 3 (.g 4) (.g 5) ⟨true, 2, false⟩), word3 0x1A00E200 0x23220923 0 (.idp4 h0 false true false 35 (.v 34) (.v 9) (.v 35)),
      word3 0x1B00E240 0x24230000 2 (.ishrq h0 false .s8 36 (.v 35) (.imm 2)), word3 0x1C00E020 0x06040000 0 (.mov h0 false false 6 (.g 4)), word3 0x5D00E000 0x04000000 0x3FC00000 (.movi h0 true 4 0x3FC00000)] = List.replicate 17 true := by decide +kernel
theorem test_decode_float :
    [word3 0x2000E007 0x02000100 0 (.fadd h0 (some .rup) .f32 2 (.v 0) (.v 1)), word3 0x2300E000 0x03000102 0 (.ffma h0 none .f32 3 (.v 0) (.v 1) (.v 2)), word3 0x2600E800 0x01000100 0 (.fsetp h0 .lt .f32 1 (.v 0) (.v 1)),
      word3 0x2700E000 0x04000000 0 (.fclass h0 .f32 4 (.v 0)), word3 0x2A00E005 0x05000000 0 (.fsqrt h0 (some .rz) 5 (.v 0)), word3 0x2F00E080 0x03000102 0 (.hfma2 h0 none .f16 3 (.v 0) (.v 1) (.v 2)),
      word3 0x3000EC00 0x02000300 0 (.cvt h0 none false (.flt .e4m3) (.flt .f32) 2 (.v 0)), word3 0x3000E005 0x01000100 0 (.cvt h0 (some .rz) false (.int .s32) (.flt .f32) 1 (.v 0)), word3 0x3100E200 0x02010000 0 (.bpack h0 none 4 2 1),
      word3 0x3300E000 0x01050000 0 (.amax h0 .f32 1 (.v 5))] = List.replicate 10 true := by decide +kernel
theorem test_decode_lanes_and_control :
    [word3 0x6000E1C0 0x05030000 1 (.shfl h0 .xor 5 3 (.imm 1)), word3 0x6100E040 0x04020000 1 (.rot h0 4 2 (.imm 1)), word3 0x6200E180 0x09090000 0 (.vote h0 .cnt 9 true 1), word3 0x6300E000 0x06030300 0 (.lred h0 true none .add (.flt .f32) 6 3),
      word3 0x6400E000 0x05030200 0 (.lscan h0 false none .add (.flt .f32) 5 3), word3 0x6500E1A1 0x04020000 0 (.plog h0 .mov 4 ⟨true, 2, true⟩ ⟨false, 0, false⟩), word3 0x6600E080 0x02070000 0 (.pmov h0 (.toPred 2 (.v 7))),
      word3 0x6700E040 0x04070000 3 (.gmov h0 4 7 (.imm 3)), word3 0x70092000 0 0xFFFFFFFA (.bra ⟨0, true, .group false 1⟩ ⟨-1, 2⟩), word3 0x7100E000 0x000C0000 0 (.jmpx h0 12), word3 0x7200E000 0x02000000 0x18 (.call h0 2 ⟨3, 0⟩),
      word3 0x7308E000 0 0 (.ret ended0), word3 0x7408E000 0 0 (.exit ended0), word3 0x7500E000 0x10010010 8 (.fork h0 false 1 16 0 ⟨2, 0⟩ ⟨1, 0⟩), word3 0x77008000 0x01040000 0 (.jset ⟨0, false, .lane false 4⟩ 1 4), word3 0x7800E000 0x15010000 0 (.join h0 21 1),
      word3 0x7908E000 0 0 (.jwait ended0)] = List.replicate 17 true := by decide +kernel
theorem test_decode_memory :
    [word3 0x8000E0A4 0x04070300 16 (.ld h0 (.int .n32) ⟨true, false, .core, false⟩ (.v 7) 3 4 16), word3 0x8000E0AE 0x02050100 0 (.ld h0 (.int .n32) ⟨true, false, .dev, true⟩ (.v 5) 1 2 0), word3 0x8000E400 0x08010200 0 (.ld h0 .b128 ord0 (.v 1) 2 8 0),
      word3 0x8100E0C5 0x07050300 0 (.st h0 (.int .n32) ⟨false, true, .core, false⟩ (.g 5) 3 7 0), word3 0x8200F8CC 0x0407020A 0 (.atom h0 .cas .n32 ⟨false, true, .dev, false⟩ (.v 7) 2 4 10 0), word3 0x8300E080 0x05020006 0x40 (.atoms h0 .add .n32 ord0 (.v 2) 5 6 64),
      word3 0x8400E080 0x1A140000 4 (.lds h0 (.int .n32) ord0 (.v 20) 26 4), word3 0x8500E0C4 0x03050000 0x40 (.sts h0 (.int .n32) ⟨false, true, .core, false⟩ (.v 5) 3 64), word3 0x8600E080 0x03000000 16 (.ldk h0 .n32 3 16), word3 0x8700E380 0x04000000 32 (.stk h0 .n64 4 32),
      word3 0x8800E380 0x08020600 0 (.ldw h0 (.int .n64) (.v 2) 6 8 0), word3 0x8900E000 0x00070200 0x80 (.pref h0 (.v 7) 2 128), word3 0x8A00E06C 0 0 (.fence h0 true true .dev), word3 0x8A00E0D0 0x03000000 0 (.fenceCounting h0 false true 3),
      word3 0x8B00E0E4 0 0 (.xfence h0 .ls .cp .core), word3 0x8C00E081 0x0D0B0300 0 (.mwatch h0 false 13 11 3 0), word3 0x8D00E001 0x0E0F0000 0 (.mwait h0 14 15), word3 0x8E00E001 0x05080000 0 (.brset h0 5 8)] = List.replicate 18 true := by decide +kernel
theorem test_decode_engines :
    [word3 0x9100E004 0x14000028 0 (.cpyt h0 0 0 20 .sx (.buf 0) 40 none), word3 0x9300E080 0x12040530 0x76 (.optstep h0 true 18 4 5 48 6 7), word3 0x9400E000 0x16000800 0 (.thset h0 22 0 8), word3 0x9800E200 0x14060518 2 (.coll h0 4 20 6 5 24 2),
      word3 0xA000E000 0x31080D00 4 (.mma h0 .regs 49 8 13 4), word3 0xA100E040 0x02030900 0 (.mmat h0 .g 2 3 9 0), word3 0xA208E040 0x00011200 0x201 (.mmad ended0 .g 0 1 1 2 18 0), word3 0xA300E040 0x00001000 0 (.mldw h0 .g 0 0 16),
      word3 0xA400E000 0x30000C00 0 (.mswap h0 .regs 1 12), word3 0xA500E141 0x01041409 0 (.mdrain h0 .bf16 .g true false 1 4 20 1 1 0), word3 0xA600E000 0x05000900 0x1000 (.mzero h0 .regs 5 9 0 64), word3 0xA700E200 0x02100700 0 (.mfill h0 .f32 .regs 2 16 7 0),
      word3 0xB000E000 0x00070000 0 (.setfmt h0 7), word3 0xB000E080 0x00040000 0 (.setfmtSc h0 0 4), word3 0xB000E100 0x02000000 0 (.setfmtClr h0 2), word3 0xB100E000 0x00050300 0 (.screc h0 5 3 0), word3 0xB200E080 0 0 (.scloadEnd h0)] = List.replicate 17 true := by decide +kernel
theorem test_decode_scheduling :
    [word3 0xB800E044 0x04000C00 1 (.hcreate h0 (some 12) .core 4 1), word3 0xB800E010 0x02000000 2 (.hcreate h0 none .sys 2 2), word3 0xB800E080 0x00030000 0 (.hfree h0 3), word3 0xB800E100 0x09020000 1 (.hquery h0 1 9 2), word3 0xB800E180 0x00020400 0 (.hstrag h0 2 4),
      word3 0xB900E000 0x02000400 0 (.hjoin h0 2 4), word3 0xBA00E000 0x00030000 0 (.hleave h0 3), word3 0xBB00E001 0x0502000B 0 (.harr h0 5 2 (some 11)), word3 0xBC00E000 0x06020005 0 (.hwait h0 6 2 5), word3 0xBD00E000 0x05010000 0 (.hbar h0 5 1 none),
      word3 0xBE00E080 0x08030400 0 (.hvote h0 .all 8 3 4 none), word3 0xBF00E880 0x06020900 0 (.hred h0 .max .n32 6 2 9 none), word3 0xC000E000 0x1005060F 2 (.spawn h0 16 2 5 6 15), word3 0xC100E000 0x04020800 1 (.qpush h0 4 1 2 8),
      word3 0xC200E000 0x10050000 3 (.qpop h0 16 3 5), word3 0xC300E000 0 0 (.yield h0), word3 0xC400E080 0x05000000 0x20 (.rclaimTry h0 5 32), word3 0xC500E000 0x06000000 0x38 (.rgive h0 6 56), word3 0xC830E001 0x10000000 0 (.movs ⟨3, false, .lane false 7⟩ true (.sr 0) 16),
      word3 0xC900E000 0x00030000 5 (.sets h0 5 3), word3 0xCA00E000 0 5 (.svc h0 5), word3 0xCC00E000 0 0 (.bkpt h0), word3 0xCD00E000 0x06020000 0 (.icinv h0 6 2)] = List.replicate 23 true := by decide +kernel
/-- Words that R58, R61, R56 and R51 refuse: an unassigned major, the fill of R58, an unlisted type, a used field where the entry has none. -/
def refused (w : Nat) : Bool := match decode w with | .error _ => true | .ok _ => false
theorem test_decode_refuses :
    [refused 0x1E00E0000000000000000000, refused 0xFF00E0000000000000000000, refused (2 ^ 96 - 1), refused 0x1000E1000301020000000000, refused 0x0004E0000301020000000000, refused 0x7408E0000000000000000001, refused 0] = [true, true, true, true, true, true, false] := by decide +kernel
theorem test_wellformed_refuses :
    ([.iadd ⟨16, false, .lane false 7⟩ false .s32 false 3 (.v 1) (.v 2), .iadd ⟨0, false, .lane false 8⟩ false .s32 false 3 (.v 1) (.v 2), .iadd h0 false .s32 false 256 (.v 1) (.v 2), .iadd h0 true .s32 false 64 (.g 1) (.g 2), .iadd h0 false .s64 false 3 (.v 2) (.v 4),
      .iadd h0 true .s32 false 3 (.v 1) (.g 2), .iadd h0 false .s32 false 3 (.imm 1) (.v 2), .iadd h0 false .s8 false 3 (.v 1) (.imm 128), .imulh h0 false .s16 3 (.v 1) (.v 2), .ineg h0 false .n32 false 3 (.v 1), .shr h0 false .s32 3 (.v 1) (.v 2),
      .bfe h0 false .s32 3 (.v 1) (.imm 65536), .isetp h0 false .num .s32 1 (.v 1) (.v 2), .isetp h0 false .lt .s32 7 (.v 1) (.v 2), .sel h0 true false 3 (.g 1) (.g 2) ⟨false, 1, false⟩, .ishrq h0 false .s8 3 (.v 1) (.imm 32), .fadd h0 none .e4m3 3 (.v 1) (.v 2),
      .fadd h0 none .f16 3 (.v 1) (.imm 65536), .hfma2 h0 none .f32 3 (.v 0) (.v 1) (.v 2), .cvt h0 (some .rz) false (.int .s32) (.int .s16) 3 (.v 1), .cvt h0 none true (.flt .f16) (.flt .f32) 3 (.v 1), .bpack h0 none 16 2 1, .amax h0 .e5m2 1 (.v 5),
      .rot h0 4 2 (.imm 128), .lred h0 true none .and (.flt .f32) 6 3, .lred h0 true (some .rz) .add (.int .s32) 6 3, .gmov h0 4 7 (.imm 128), .bra h0 ⟨0, 5⟩, .bra h0 ⟨2 ^ 28, 0⟩, .call h0 256 ⟨0, 0⟩, .fork h0 false 1 16 128 ⟨0, 0⟩ ⟨0, 0⟩, .fork h0 false 1 16 0 ⟨4096, 0⟩ ⟨0, 0⟩,
      .exit ⟨0, false, .lane false 3⟩, .ld h0 (.int .n32) ⟨false, true, .core, false⟩ (.v 1) 0 4 0, .ld h0 (.int .n32) ⟨false, false, .core, false⟩ (.v 1) 0 4 0, .ld h0 (.int .n32) ord0 (.imm 1) 0 4 0, .ld h0 (.int .n32) ord0 (.v 1) 16 4 0, .st h0 (.int .n32) ⟨true, false, .core, false⟩ (.v 1) 0 4 0,
      .atom h0 .add .s16 ord0 (.v 1) 0 4 5 0, .atom h0 .fadd .n32 ord0 (.v 1) 0 4 5 0, .fence h0 false false .dev, .xfence h0 .ls .ls .core, .cpy h0 5 0 20 .sx (.buf 0) 40 none, .cpy h0 0 4 20 .sx (.buf 0) 40 none, .coll h0 16 20 6 5 24 2, .coll h0 4 20 6 5 25 2,
      .mma h0 .regs 49 8 13 64, .mldw h0 .g 4 0 16, .mdrain h0 (.bfp 9) .g true false 1 4 20 1 1 0, .mdrain h0 .bf16 .g false false 1 4 20 1 1 0, .mzero h0 .regs 5 9 0 65, .hcreate h0 none .core 8 1, .hquery h0 6 9 2, .qpop h0 16 7 5, .rclaim h0 5 33, .rclaim h0 5 256,
      .movs h0 false (.sr 0) 4, .sets h0 256 3, .issueArbitration 0] : List Instr).any Instr.wellFormed = false := by decide +kernel

end Sys2Proof.Tests
end

section
/-!
What a kill leaves of the rest of the machine (R258, R302, R313). A kill runs through everything that a group holds something of: harness units, whose phases may complete,
the pool, the queues of records, memory and its watches, ownership words and job counts. `Kept` is the one relation in which all of these operations stand.
-/

namespace Sys2Proof

variable {α β : Type}

theorem Sparse.find_map (f : Nat × α → β) (m : List (Nat × α)) (a : Nat) :
    Sparse.find (m.map fun e => (e.1, f e)) a = (Sparse.find m a).map fun x => f (a, x) := by
  induction m with
  | nil => rfl
  | cons e m ih =>
    simp only [List.map_cons, Sparse.find, ih]
    split
    · subst_vars; rfl
    · rfl
theorem Sparse.mem_of_find {m : List (Nat × α)} {a : Nat} {x : α} (h : Sparse.find m a = some x) : (a, x) ∈ m := by
  induction m with
  | nil => simp at h
  | cons e m ih =>
    obtain ⟨k, v⟩ := e
    simp only [Sparse.find] at h
    split at h
    · cases h; subst_vars; exact List.mem_cons_self
    · exact List.mem_cons_of_mem _ (ih h)

end Sys2Proof

namespace Sys2Proof.Machine

/-! ### The relation -/

/-- Whether a slice has a group of some index, which has ended. -/
def Slice.Ended (x : Slice) (gi : Nat) : Prop := ∃ g, x.groups[gi]? = some g ∧ g.retired = true
/-- What the operations of a kill with cause `c` leave of a slice: its failure cause, or `c` where it had none; its state, or Failed where it has a failure cause by now; and its
groups, of which those that have ended stay so. -/
structure Slice.Kept (c : Nat) (x y : Slice) : Prop where
  cause : y.failCause = x.failCause ∨ y.failCause = some (x.failCause.getD c)
  st : y.st = x.st ∨ (y.st = .failed ∧ x.st ≠ .retired ∧ y.failCause.isSome = true)
  length : y.groups.length = x.groups.length
  ended : ∀ gi, x.Ended gi → y.Ended gi
/-- What these operations leave of the machine: its management state and its chip id, what it has sent, and its slices. -/
structure Kept (c : Nat) (s t : State) : Prop where
  mgmt : t.mgmt = s.mgmt
  chip : t.chip = s.chip
  out : s.out ⊆ t.out
  slice : ∀ sid x, s.slice? sid = some x → ∃ y, t.slice? sid = some y ∧ x.Kept c y

variable {c : Nat} {s t u : State}

theorem Slice.Kept.of_eq {x y : Slice} (h1 : y.failCause = x.failCause) (h2 : y.st = x.st) (h3 : y.groups = x.groups) : x.Kept c y :=
  ⟨.inl h1, .inl h2, by rw [h3], fun gi h => by rwa [Slice.Ended, h3]⟩
theorem Slice.Kept.refl (x : Slice) : x.Kept c x := .of_eq rfl rfl rfl
theorem Slice.Kept.isSome {x y : Slice} (h : x.Kept c y) (hx : x.failCause.isSome = true) : y.failCause.isSome = true := by
  rcases h.cause with e | e <;> simp [e, hx]
theorem Slice.Kept.failed {x y : Slice} (h : x.Kept c y) (hx : x.st = .failed) : y.st = .failed := by
  rcases h.st with e | e
  · rw [e, hx]
  · exact e.1
theorem Slice.Kept.not_retired {x y : Slice} (h : x.Kept c y) (hx : x.st ≠ .retired) : y.st ≠ .retired := by
  rcases h.st with e | e
  · rwa [e]
  · rw [e.1]; nofun
/-- A slice that has failed on the way has the cause that it had, or else that of the kill. -/
theorem Slice.Kept.failCause_of_failed {x y : Slice} (h : x.Kept c y) (hx : x.st ≠ .failed) (hy : y.st = .failed) :
    y.failCause = some (x.failCause.getD c) := by
  rcases h.cause with e | e
  · rcases h.st with e' | ⟨-, -, e'⟩
    · exact absurd (e' ▸ hy) hx
    · rw [e] at e' ⊢
      obtain ⟨k, hk⟩ := Option.isSome_iff_exists.1 e'
      simp [hk]
  · exact e
theorem Slice.Kept.trans {x y z : Slice} (h : x.Kept c y) (k : y.Kept c z) : x.Kept c z where
  cause := by
    rcases h.cause with e | e <;> rcases k.cause with e' | e' <;> simp [e, e']
  st := by
    rcases k.st with e' | ⟨e1, e2, e3⟩
    · rcases h.st with e | ⟨f1, f2, f3⟩
      · exact .inl (e'.trans e)
      · exact .inr ⟨e'.trans f1, f2, k.isSome f3⟩
    · refine .inr ⟨e1, fun hx => ?_, e3⟩
      rcases h.st with e | ⟨-, f2, -⟩
      · exact e2 (e.trans hx)
      · exact f2 hx
  length := k.length.trans h.length
  ended := fun gi e => k.ended gi (h.ended gi e)
theorem Slice.Ended.modGroup {x : Slice} {gi : Nat} {f : Group → Group} (hf : ∀ g, g.retired = true → (f g).retired = true) {n : Nat} (h : x.Ended n) :
    (x.modGroup gi f).Ended n := by
  obtain ⟨g, hg, hr⟩ := h
  by_cases e : gi = n
  · exact ⟨f g, by simp [Slice.groups_modGroup, e, hg], hf g hr⟩
  · exact ⟨g, by simp [Slice.groups_modGroup, e, hg], hr⟩
theorem Slice.length_modGroup (x : Slice) (gi : Nat) (f : Group → Group) : (x.modGroup gi f).groups.length = x.groups.length := by
  unfold Slice.modGroup
  split
  · rfl
  · simp [setAt_length]
@[simp] theorem Slice.modGroup_st (x : Slice) (gi : Nat) (f : Group → Group) : (x.modGroup gi f).st = x.st := by
  unfold Slice.modGroup; split <;> rfl
@[simp] theorem Slice.modGroup_failCause (x : Slice) (gi : Nat) (f : Group → Group) : (x.modGroup gi f).failCause = x.failCause := by
  unfold Slice.modGroup; split <;> rfl
theorem Slice.Kept.modGroup {x y : Slice} {gi : Nat} {f : Group → Group} (h : x.Kept c y) (hf : ∀ g, g.retired = true → (f g).retired = true) :
    x.Kept c (y.modGroup gi f) :=
  h.trans ⟨.inl (by simp), .inl (by simp), y.length_modGroup gi f, fun _ e => e.modGroup hf⟩

theorem Kept.refl (s : State) : Kept c s s := ⟨rfl, rfl, List.Subset.refl _, fun _ x h => ⟨x, h, .refl x⟩⟩
theorem Kept.trans (h : Kept c s t) (k : Kept c t u) : Kept c s u where
  mgmt := k.mgmt.trans h.mgmt
  chip := k.chip.trans h.chip
  out := List.Subset.trans h.out k.out
  slice := fun sid x hx =>
    have ⟨y, hy, e⟩ := h.slice sid x hx
    have ⟨z, hz, e'⟩ := k.slice sid y hy
    ⟨z, hz, e.trans e'⟩
/-- An operation that leaves the slices as they are, and what has been sent too. -/
theorem Kept.of_eq (h : Kept c s t) (h1 : u.mgmt = t.mgmt) (h2 : u.chip = t.chip) (h3 : u.out = t.out) (h4 : u.slices = t.slices) : Kept c s u :=
  h.trans ⟨h1, h2, h3 ▸ List.Subset.refl _, fun sid x e => ⟨x, by rw [State.slice?, h4]; exact e, .refl x⟩⟩
theorem Kept.ite {p : Prop} [Decidable p] {a b : State} (ha : Kept c s a) (hb : Kept c s b) : Kept c s (if p then a else b) := by
  split
  · exact ha
  · exact hb
/-- A list of operations each of which keeps the machine. -/
theorem Kept.foldl {α : Type} {f : State → α → State} {l : List α} (h : Kept c s t) (hf : ∀ t a, Kept c s t → Kept c s (f t a)) :
    Kept c s (l.foldl f t) := List.foldlRecOn l f h fun t ht a _ => hf t a ht
/-- An operation on the slices one by one that keeps each of them. -/
theorem Kept.mapSlices {f : Nat × Slice → Slice} (h : Kept c s t) (hf : ∀ e : Nat × Slice, e.2.Kept c (f e)) :
    Kept c s { t with slices := t.slices.map fun e => (e.1, f e) } :=
  h.trans ⟨rfl, rfl, List.Subset.refl _, fun sid x e => ⟨f (sid, x), by rw [State.slice?, Sparse.find_map, show Sparse.find t.slices sid = some x from e]; rfl, hf (sid, x)⟩⟩
theorem Kept.modSlice {sid : Nat} {f : Slice → Slice} (h : Kept c s t) (hf : ∀ x, t.slice? sid = some x → x.Kept c (f x)) :
    Kept c s (t.modSlice sid f) := by
  refine h.trans ⟨by simp, by simp, by simp, fun n x hx => ?_⟩
  rw [State.slice?_modSlice]
  by_cases e : sid = n
  · subst e; exact ⟨f x, by simp [hx], hf x hx⟩
  · exact ⟨x, by simp [e, hx], .refl x⟩
theorem Kept.modGroup {sid gi : Nat} {f : Group → Group} (h : Kept c s t) (hf : ∀ g, g.retired = true → (f g).retired = true) :
    Kept c s (t.modGroup sid gi f) := h.modSlice fun x _ => .modGroup (.refl x) hf
theorem Kept.modStrand {r : StrandRef} {f : Strand → Strand} (h : Kept c s t) : Kept c s (t.modStrand r f) := h.modGroup fun _ e => e
theorem Kept.modCore {core : Nat} {f : Core → Core} (h : Kept c s t) : Kept c s (t.modCore core f) := h.of_eq rfl rfl rfl rfl
theorem Kept.modJob {jn : Nat} {f : Job → Job} (h : Kept c s t) : Kept c s (t.modJob jn f) := h.of_eq (by simp) (by simp) (by simp) (by simp)
theorem Kept.modRegion {rk : Nat} {f : Region → Region} (h : Kept c s t) : Kept c s (t.modRegion rk f) := h.of_eq (by simp) (by simp) (by simp) (by simp)
theorem Kept.modHarness {k : HKey} {f : Harness → Harness} (h : Kept c s t) : Kept c s (t.modHarness k f) := h.of_eq rfl rfl rfl rfl
theorem Kept.setHarnesses {l : List (HKey × Harness)} (h : Kept c s t) : Kept c s { t with harnesses := l } := h.of_eq rfl rfl rfl rfl
theorem Kept.setHarnesses_mapSlices {l : List (HKey × Harness)} {f : Nat × Slice → Slice} (h : Kept c s t) (hf : ∀ e : Nat × Slice, e.2.Kept c (f e)) :
    Kept c s { t with harnesses := l, slices := t.slices.map fun e => (e.1, f e) } := .setHarnesses (.mapSlices h hf)
theorem Kept.setBatches {l : List (Nat × Batch)} (h : Kept c s t) : Kept c s { t with batches := l } := h.of_eq rfl rfl rfl rfl
theorem Kept.fresh (h : Kept c s t) : Kept c s t.fresh.2 := h.of_eq rfl rfl rfl rfl
theorem Kept.emit {m : OutMsg} (h : Kept c s t) : Kept c s (t.emit m) :=
  h.trans ⟨rfl, rfl, List.subset_append_left _ _, fun _ x e => ⟨x, e, .refl x⟩⟩

end Sys2Proof.Machine
end

section
/-!
The operations that a kill comes through, each of which keeps the machine: one lemma an operation, in the order in which the model defines them.
-/

namespace Sys2Proof.Machine

variable {c : Nat} {s t u : State}

/-! ### Registers, strands and records -/

@[simp] theorem Group.mend_retired (g : Group) (w : EccWord) : (g.mend w).retired = g.retired := by
  unfold Group.mend; split <;> rfl
@[simp] theorem RegWr.apply_retired (g : Group) (w : RegWr) : (w.apply g).retired = g.retired := by
  cases w with
  | am i x => simp only [RegWr.apply]; split <;> rfl
  | _ => rfl
@[simp] theorem RegWr.store_retired (g : Group) (w : RegWr) : (w.store g).retired = g.retired := by
  cases w <;> simp [RegWr.store]
@[simp] theorem applyAll_retired (g : Group) (l : List RegWr) : (applyAll g l).retired = g.retired := by
  induction l generalizing g with
  | nil => rfl
  | cons w l ih => exact (ih _).trans (RegWr.store_retired g w)
theorem Kept.complete {sid gi id : Nat} {w : List RegWr} (h : Kept c s t) : Kept c s (t.complete sid gi id w) := by
  refine h.modGroup fun g e => ?_
  split
  · exact e
  · simpa [Group.overtake] using e
theorem Kept.endRun {r : StrandRef} (h : Kept c s t) : Kept c s (t.endRun r) := by
  unfold State.endRun
  split
  · exact h
  · split
    · exact h
    · exact .modStrand (.modCore h)
theorem Kept.takeTrap {r : StrandRef} {cause lane detail pc cpc : Nat} {defer : Bool} (h : Kept c s t) :
    Kept c s (t.takeTrap r cause lane detail pc cpc defer) := by
  unfold State.takeTrap
  split
  · exact h
  · split
    · exact h
    · exact .modRegion (.modStrand (.modStrand (.endRun h)))
theorem Kept.sliceNotice {sid cause : Nat} (h : Kept c s t) : Kept c s (t.sliceNotice sid cause) := by
  unfold State.sliceNotice
  split
  · exact h
  · exact .modRegion h

/-! ### Memory -/

theorem Kept.fireWatches {pa n : Nat} (h : Kept c s t) : Kept c s (fireWatches t pa n) := by
  refine .foldl h fun t w h => .modGroup h fun g e => ?_
  split
  · split
    · split <;> exact e
    · exact e
  · exact e
theorem Kept.poke {pa : Nat} {bs : List Byte} (h : Kept c s t) : Kept c s (t.poke pa bs) := .fireWatches (h.of_eq rfl rfl rfl rfl)
theorem Kept.devWrite {vf va : Nat} {bs : List Byte} (h : Kept c s t) : Kept c s (t.devWrite vf va bs) := by
  refine .foldl h fun t p h => ?_
  split
  · exact h
  · exact .poke h
theorem Kept.countRcb {rk off n : Nat} (h : Kept c s t) : Kept c s (t.countRcb rk off n) := by
  unfold State.countRcb
  split
  · exact h
  · split
    · exact h
    · split
      · exact h
      · exact .devWrite h
theorem Kept.poolTake {rk n va : Nat} (h : Kept c s t) (e : t.poolTake rk n = some (va, u)) : Kept c s u := by
  simp only [State.poolTake] at e
  split at e
  · cases e
  · split at e
    · cases e
    · cases e; exact .modRegion h

/-! ### The arrival log of a Swapped slice -/

theorem Kept.logPut {sid : Nat} {e : LogEntry} (h : Kept c s t) : Kept c s (t.logPut sid e) := by
  simp only [State.logPut]
  split
  · exact h
  · split
    · exact .modSlice h fun _ _ => .of_eq rfl rfl rfl
    · exact .modSlice (.devWrite h) fun _ _ => .of_eq rfl rfl rfl
theorem Kept.logAdd {sid : Nat} {e : LogEntry} (h : Kept c s t) : Kept c s (t.logAdd sid e) := by
  simp only [State.logAdd]
  split
  · exact h
  · refine .ite (.modSlice h fun _ _ => .of_eq rfl rfl rfl) (.ite (.logPut h) ?_)
    split
    · exact .sliceNotice (.logPut h)
    · next e => exact .logPut (.modSlice (.poolTake h e) fun _ _ => .of_eq rfl rfl rfl)

/-! ### Harness units -/

theorem Kept.deliver {g : GroupRef} {id : Nat} {w : List RegWr} {bs : List Byte} (h : Kept c s t) : Kept c s (t.deliver g id w bs) := by
  unfold State.deliver
  split
  · exact h
  · exact .ite (.logAdd h) (.modGroup (.complete h) fun _ e => e)
theorem Kept.modAsks {f : Inflight → Option Body} {entry : Option (List Byte)} (h : Kept c s t) : Kept c s (t.modAsks f entry) := by
  refine .foldl h fun t e h => ?_
  dsimp only
  split
  · exact .logAdd (.fresh (.modGroup h fun _ e => e))
  · exact .modGroup h fun _ e => e
  · exact .modGroup (.modGroup h fun _ e => e) fun _ e => e
theorem Kept.finishPhase {key : HKey} {y : Harness} {lost : Bool} {value : W32} (h : Kept c s t) : Kept c s (t.finishPhase key y lost value) := by
  refine .foldl (.modHarness (.modAsks (.mapSlices h fun e => ?_))) fun _ _ h => .deliver h
  split
  · exact .of_eq rfl rfl rfl
  · exact .refl e.2
theorem Kept.lagNote {rk : Nat} {on : Bool} (h : Kept c s t) : Kept c s (t.lagNote rk on) := h.of_eq rfl rfl rfl rfl
theorem Kept.tryComplete {key : HKey} (h : Kept c s t) : Kept c s (t.tryComplete key) := by
  unfold State.tryComplete
  split
  · exact h
  · exact .ite h (.foldl (.finishPhase (.modHarness (.foldl h fun _ _ h => .ite (.lagNote h) (.emit h)))) fun _ _ h => .emit h)
theorem Kept.recordArrival {key : HKey} {kind : Option HKind} {n : Option Nat} {a : HArrive} {lost : Bool} (h : Kept c s t) :
    Kept c s (t.recordArrival key kind n a lost) := .tryComplete (.modHarness h)
theorem Kept.refuseHere {g : GroupRef} {a : HComing} {cause detail : Nat} (h : Kept c s t) : Kept c s (t.refuseHere g a cause detail) :=
  .takeTrap (.complete (.modGroup h fun _ e => e))
theorem Kept.takeLeave {key : HKey} {y : Harness} {w : Member} {time : Nat} {lost forced : Bool} (h : Kept c s t) :
    Kept c s (t.takeLeave key y w time lost forced) := by
  unfold State.takeLeave
  split
  · exact h
  · exact .ite (.modHarness h) (.ite (.modHarness h) (.recordArrival (.modHarness h)))
theorem Kept.takeArrival {key : HKey} {y : Harness} {a : HComing} (h : Kept c s t) : Kept c s (t.takeArrival key y a) := by
  simp only [State.takeArrival]
  split
  · exact .modAsks h
  · exact .refuseHere h
  · exact .emit h
  · refine .recordArrival ?_
    split
    · exact .modHarness (.emit h)
    · exact .emit h
  · exact .recordArrival (.modAsks h)
  · exact .recordArrival (.ite (.modGroup h fun _ e => e) (.modHarness h))
theorem Kept.takeOne {key : HKey} {a : HComing} (h : Kept c s t) : Kept c s (t.takeOne key a) := by
  simp only [State.takeOne]
  split
  · exact h
  · split
    · exact .takeLeave (.modHarness h)
    · exact .takeArrival (.modHarness h)
theorem Kept.takeComing {key : HKey} {before : Nat} (h : Kept c s t) : Kept c s (t.takeComing key before) := by
  unfold State.takeComing
  split
  · exact h
  · exact .foldl h fun _ _ h => .takeOne h
theorem Kept.dropMember {key : HKey} {w : Member} (h : Kept c s t) : Kept c s (t.dropMember key w) := by
  simp only [State.dropMember]
  split
  · exact .ite (.setHarnesses (.modHarness h)) (.modHarness h)
  · exact .modHarness h
theorem Kept.leaveHarness {key : HKey} {w : Member} {time : Nat} {lost forced : Bool} (h : Kept c s t) :
    Kept c s (t.leaveHarness key w time lost forced) := by
  unfold State.leaveHarness
  split
  · exact h
  · split
    · exact h
    · exact .ite (.dropMember (.emit h)) (.ite (.takeComing (.modHarness h)) (.modHarness h))
theorem Kept.leaveAll {g : GroupRef} {lost : Bool} (h : Kept c s t) : Kept c s (t.leaveAll g lost) :=
  .foldl (.foldl h fun _ _ h => .emit h) fun _ _ h => .leaveHarness h
theorem Kept.freeHarness {key : HKey} (h : Kept c s t) : Kept c s (t.freeHarness key) := by
  simp only [State.freeHarness]
  refine .setHarnesses_mapSlices ?_ fun _ => .of_eq rfl rfl rfl
  split
  · exact h
  · exact .foldl h fun _ _ h => .ite (.lagNote h) (.emit h)

/-! ### Claims, ownership words and counts -/

theorem Slice.Kept.grant (x : Slice) (p bay gi m : Nat) : x.Kept c (x.grant p bay gi m) := .modGroup (.of_eq rfl rfl rfl) fun _ e => e
theorem Kept.grantWaiting {sid bay fuel : Nat} (h : Kept c s t) : Kept c s (t.grantWaiting sid bay fuel) := by
  induction fuel generalizing t with
  | zero => exact h
  | succ fuel ih =>
    simp only [State.grantWaiting]
    split
    · exact h
    · split
      · exact h
      · exact .ite h (ih (.complete (.modSlice h fun x _ => (Slice.Kept.grant x _ _ _ _).trans (.of_eq rfl rfl rfl))))
theorem Kept.endCopies {core ch sid : Nat} (h : Kept c s t) : Kept c s (t.endCopies core ch sid) := .setBatches (.modCore h)
theorem Kept.releaseIds {p : OutId → Bool} (h : Kept c s t) : Kept c s (t.releaseIds p) := h.of_eq rfl rfl rfl rfl
theorem Kept.dropWatchEntry {g : GroupRef} (h : Kept c s t) : Kept c s (t.dropWatchEntry g) := h.of_eq rfl rfl rfl rfl
theorem Kept.ownMove {j : Job} {i : Nat} {e : OwnEvent} (h : Kept c s t) : Kept c s (t.ownMove j i e).2 := by
  unfold State.ownMove
  split
  · split
    · exact h
    · split
      · exact .devWrite h
      · exact h
  · exact h
theorem Kept.jobOver {jn : Nat} (h : Kept c s t) : Kept c s (t.jobOver jn) := by
  unfold State.jobOver
  split
  · exact h
  · exact .ite h (.freeHarness (.modJob (.fresh h)))
theorem Kept.sliceCounted {jn index cause chip : Nat} {failed late stolen : Bool} (h : Kept c s t) :
    Kept c s (t.sliceCounted jn index failed late cause chip stolen) := by
  simp only [State.sliceCounted]
  split
  · exact h
  · exact .jobOver (.ite (.countRcb (.modJob (.fresh h))) (.modJob (.fresh h)))

end Sys2Proof.Machine
end

section
/-!
Kills (R302, R313): a killed group ends, a slice whose groups have all ended is over, and a killed slice is Failed with the first cause.
-/

namespace Sys2Proof.Machine

variable {c : Nat} {s t u : State}

/-! ### The end of a group and of a slice -/

theorem Slice.Ended.of_modGroup {x : Slice} {gi : Nat} {f : Group → Group} (hf : ∀ g, (f g).retired = true) (h : gi < x.groups.length) :
    (x.modGroup gi f).Ended gi :=
  ⟨f x.groups[gi], by simp [Slice.groups_modGroup, h], hf _⟩
/-- What a group holds goes, it is marked as ended, and waiting claims are granted. -/
theorem State.endGroup_cases {g : GroupRef} {lost : Bool} {x : Slice} {y : Group} (hx : s.slice? g.sid = some x) (hy : s.group? g.sid g.gi = some y) :
    ∃ t f, Kept c s t ∧ (∀ x : Slice, x.Kept c (f x)) ∧ (∀ x : Slice, g.gi < x.groups.length → (f x).Ended g.gi) ∧
      Kept c (t.modSlice g.sid f) (s.endGroup g lost) := by
  simp only [State.endGroup, hx, hy]
  refine ⟨_, _, ?_, fun x => ?_, fun x h => ?_, .grantWaiting (.refl _)⟩
  · exact .leaveAll (.foldl (.dropWatchEntry (.refl s)) fun _ _ h => .endRun h)
  · exact .modGroup (.of_eq rfl rfl rfl) fun _ _ => rfl
  · exact .of_modGroup (fun _ => rfl) h
theorem State.endGroup_ended {g : GroupRef} {lost : Bool} {x : Slice} (hx : s.slice? g.sid = some x) (hl : g.gi < x.groups.length) :
    ∃ y, (s.endGroup g lost).slice? g.sid = some y ∧ y.Ended g.gi := by
  have hy : s.group? g.sid g.gi = some x.groups[g.gi] := by simp [State.group?, hx, hl]
  obtain ⟨t, f, k1, -, k3, k4⟩ := State.endGroup_cases (c := 0) (lost := lost) hx hy
  obtain ⟨y, hy, k⟩ := k1.slice g.sid x hx
  obtain ⟨z, hz, kz⟩ := k4.slice g.sid (f y) (by simp [State.slice?_modSlice, hy])
  exact ⟨z, hz, kz.ended _ (k3 y (by rwa [k.length]))⟩
theorem Kept.endGroup {g : GroupRef} {lost : Bool} (h : Kept c s t) : Kept c s (t.endGroup g lost) := by
  cases hx : t.slice? g.sid with
  | none => simpa [State.endGroup, hx] using h
  | some x =>
    cases hy : t.group? g.sid g.gi with
    | none => simpa [State.endGroup, hx, hy] using h
    | some y =>
      obtain ⟨u, f, h1, h2, -, h4⟩ := State.endGroup_cases (c := c) (lost := lost) hx hy
      exact ((h.trans h1).modSlice fun x _ => h2 x).trans h4
theorem Kept.poolFree {rk va : Nat} (h : Kept c s t) : Kept c s (t.poolFree rk va) := .modRegion h
/-- A slice that has not ended, and whose groups all have, gives back its storage, is Failed where it has a failure cause, and is counted. -/
theorem State.sliceOver_cases {sid : Nat} {x : Slice} (hx : s.slice? sid = some x) (h1 : x.st ≠ .retired) (h2 : x.st ≠ .failed) (h3 : x.groups.all Group.retired = true)
    (h4 : x.failCause.isSome = true) :
    ∃ t f, Kept c s t ∧ (∀ x : Slice, (f x).st = .failed ∧ (f x).failCause = x.failCause ∧ (f x).groups = x.groups) ∧ Kept c (t.modSlice sid f) (s.sliceOver sid) := by
  simp only [State.sliceOver, hx]
  split
  · next h => cases e : x.st <;> simp_all only [Bool.not_true, Bool.or_self, Bool.false_eq_true, ne_eq, not_true_eq_false]
  · simp only [h4, Bool.not_true, Bool.false_and]
    refine ⟨_, _, ?_, fun x => ?_, .ite (.setHarnesses (.refl _)) ?_⟩
    · refine .foldl ?_ fun _ _ h => .poolFree h
      split
      · exact .poolFree (.refl s)
      · exact .refl s
    · exact ⟨rfl, rfl, rfl⟩
    · generalize State.modSlice _ sid _ = t
      refine .ite (.sliceCounted ?_) (.sliceCounted ?_) <;>
      · split
        · exact .ownMove (.setHarnesses (.refl _))
        · exact .setHarnesses (.refl _)
theorem State.sliceOver_of_not {sid : Nat} {x : Slice} (hx : s.slice? sid = some x) (h : x.st = .retired ∨ x.st = .failed ∨ x.groups.all Group.retired = false) :
    s.sliceOver sid = s := by
  simp only [State.sliceOver, hx]
  rcases h with h | h | h <;> simp [h]

theorem Kept.sliceOver {sid : Nat} (h : Kept c s t) (hf : ∀ x, t.slice? sid = some x → x.failCause.isSome = true) : Kept c s (t.sliceOver sid) := by
  cases hx : t.slice? sid with
  | none => simpa [State.sliceOver, hx] using h
  | some x =>
    by_cases e : x.st = .retired ∨ x.st = .failed ∨ x.groups.all Group.retired = false
    · rwa [State.sliceOver_of_not hx e]
    · simp only [not_or, Bool.not_eq_false] at e
      obtain ⟨h1, h2, h3⟩ := e
      obtain ⟨u, f, k1, k2, k3⟩ := State.sliceOver_cases (c := c) hx h1 h2 h3 (hf x hx)
      refine (h.trans (k1.modSlice fun y hy => ?_)).trans k3
      obtain ⟨z, hz, e⟩ := k1.slice sid x hx
      obtain rfl : z = y := Option.some.inj (hz.symm.trans hy)
      obtain ⟨e1, e2, e3⟩ := k2 z
      exact ⟨.inl e2, .inr ⟨e1, e.not_retired h1, by rw [e2]; exact e.isSome (hf x hx)⟩, by rw [e3], fun gi => by rw [Slice.Ended, Slice.Ended, e3]; exact id⟩
/-- A slice with a failure cause whose groups have all ended is Failed, if it was not Retired before. -/
theorem State.sliceOver_failed {sid : Nat} {x : Slice} (hx : s.slice? sid = some x) (h1 : x.st ≠ .retired) (h3 : x.groups.all Group.retired = true)
    (h4 : x.failCause.isSome = true) : ∃ y, (s.sliceOver sid).slice? sid = some y ∧ y.st = .failed := by
  by_cases h2 : x.st = .failed
  · exact ⟨x, by rw [State.sliceOver_of_not hx (.inr (.inl h2)), hx], h2⟩
  · obtain ⟨u, f, k1, k2, k3⟩ := State.sliceOver_cases (c := 0) hx h1 h2 h3 h4
    obtain ⟨y, hy, -⟩ := k1.slice sid x hx
    obtain ⟨z, hz, e⟩ := k3.slice sid (f y) (by simp [State.slice?_modSlice, hy])
    exact ⟨z, hz, e.failed (k2 y).1⟩

/-! ### Kills -/

/-- A slice with the cause of a kill, of which the first stands (R313). -/
def Slice.fail (c : Nat) (x : Slice) : Slice := { x with failCause := if x.failCause.isSome then x.failCause else some c }
theorem Slice.Kept.fail (x : Slice) : x.Kept c (x.fail c) := by
  refine ⟨?_, .inl rfl, rfl, fun _ => id⟩
  unfold Slice.fail
  cases x.failCause
  · exact .inr rfl
  · exact .inl rfl
theorem Slice.fail_isSome (c : Nat) (x : Slice) : (x.fail c).failCause.isSome = true := by
  unfold Slice.fail
  cases x.failCause <;> rfl
theorem State.fail_isSome {sid : Nat} {x : Slice} (h : (s.modSlice sid (Slice.fail c)).slice? sid = some x) : x.failCause.isSome = true := by
  rw [State.slice?_modSlice, if_pos rfl] at h
  obtain ⟨y, -, rfl⟩ := Option.map_eq_some_iff.1 h
  exact y.fail_isSome c
/-- Every slice keeps having a failure cause. -/
theorem Kept.isSome (h : Kept c s t) {sid : Nat} {x : Slice} (hx : s.slice? sid = some x) (e : x.failCause.isSome = true) {y : Slice} (hy : t.slice? sid = some y) :
    y.failCause.isSome = true := by
  obtain ⟨z, hz, k⟩ := h.slice sid x hx
  obtain rfl : z = y := Option.some.inj (hz.symm.trans hy)
  exact k.isSome e
/-- A kill of a group that has not ended: its slice receives the cause, and it ends. -/
theorem State.killGroup_cases (c : Nat) {g : GroupRef} {x : Slice} {y : Group} (hx : s.slice? g.sid = some x) (hy : s.group? g.sid g.gi = some y) (hr : y.retired = false) :
    ∃ t, Kept c s t ∧ s.killGroup g c = ((t.modSlice g.sid (Slice.fail c)).endGroup g true).sliceOver g.sid := by
  simp only [State.killGroup, hx, hy, hr, Bool.false_eq_true, if_false]
  exact ⟨_, .setBatches (.releaseIds (.refl s)), rfl⟩
/-- A slice that has received a cause ends, where it does, as Failed. -/
theorem Kept.sliceOver_of_fail {sid : Nat} {x : Slice} (hx : s.slice? sid = some x) (h : Kept c (s.modSlice sid (Slice.fail c)) t) : Kept c t (t.sliceOver sid) :=
  .sliceOver (.refl t) fun _ hy => h.isSome (x := x.fail c) (by simp [State.slice?_modSlice, hx]) (x.fail_isSome c) hy
theorem Kept.killGroup {g : GroupRef} (h : Kept c s t) : Kept c s (t.killGroup g c) := by
  cases hx : t.slice? g.sid with
  | none => simpa [State.killGroup, hx] using h
  | some x =>
    cases hy : t.group? g.sid g.gi with
    | none => simpa [State.killGroup, hx, hy] using h
    | some y =>
      cases hr : y.retired with
      | true => simpa [State.killGroup, hx, hy, hr] using h
      | false =>
        obtain ⟨u, k, e⟩ := State.killGroup_cases c hx hy hr
        obtain ⟨z, hz, -⟩ := k.slice g.sid x hx
        rw [e]
        exact (h.trans (.endGroup (.modSlice k fun x _ => .fail x))).trans (.sliceOver_of_fail hz (.endGroup (.refl _)))
theorem State.killGroup_ended (c : Nat) {g : GroupRef} {x : Slice} (hx : s.slice? g.sid = some x) (hl : g.gi < x.groups.length) :
    ∃ y, (s.killGroup g c).slice? g.sid = some y ∧ y.Ended g.gi := by
  have hy : s.group? g.sid g.gi = some x.groups[g.gi] := by simp [State.group?, hx, hl]
  cases hr : x.groups[g.gi].retired with
  | true => exact ⟨x, by simp [State.killGroup, hx, hy, hr], _, List.getElem?_eq_getElem hl, hr⟩
  | false =>
    obtain ⟨t, k, e⟩ := State.killGroup_cases c hx hy hr
    obtain ⟨z, hz, kz⟩ := k.slice g.sid x hx
    obtain ⟨v, hv, he⟩ := State.endGroup_ended (s := t.modSlice g.sid (Slice.fail c)) (g := g) (lost := true) (x := z.fail c)
      (by simp [State.slice?_modSlice, hz]) (by rw [Slice.fail, kz.length]; exact hl)
    obtain ⟨w, hw, kw⟩ := (Kept.sliceOver_of_fail hz (.endGroup (.refl _))).slice g.sid v hv
    exact ⟨w, by rw [e]; exact hw, kw.ended _ he⟩
/-- The first `n` groups of a slice killed. -/
def State.killGroups (s : State) (sid c n : Nat) : State := (List.range n).foldl (fun t gi => t.killGroup ⟨sid, gi⟩ c) s
theorem Kept.killGroups {sid n : Nat} (h : Kept c s t) : Kept c s (t.killGroups sid c n) := .foldl h fun _ _ h => .killGroup h
/-- A kill of a slice that has not ended: it receives the cause, its groups are killed, and it is over. -/
theorem State.killSlice_cases (c : Nat) {sid : Nat} {x : Slice} (hx : s.slice? sid = some x) (h1 : x.st ≠ .retired) (h2 : x.st ≠ .failed) :
    ∃ t, Kept c s t ∧ s.killSlice sid c = ((t.modSlice sid (Slice.fail c)).killGroups sid c x.groups.length).sliceOver sid := by
  simp only [State.killSlice, hx]
  split
  · cases e : x.st <;> simp_all
  · exact ⟨_, .releaseIds (.foldl (.refl s) fun _ _ h => .endCopies h), rfl⟩
theorem State.killSlice_of_ended {sid : Nat} {x : Slice} (hx : s.slice? sid = some x) (h : x.st = .retired ∨ x.st = .failed) : s.killSlice sid c = s := by
  rcases h with h | h <;> simp [State.killSlice, hx, h]
theorem Kept.killSlice {sid : Nat} (h : Kept c s t) : Kept c s (t.killSlice sid c) := by
  cases hx : t.slice? sid with
  | none => simpa [State.killSlice, hx] using h
  | some x =>
    by_cases e : x.st = .retired ∨ x.st = .failed
    · rwa [State.killSlice_of_ended hx e]
    · obtain ⟨e1, e2⟩ := not_or.1 e
      obtain ⟨u, k, e⟩ := State.killSlice_cases c hx e1 e2
      obtain ⟨z, hz, -⟩ := k.slice sid x hx
      rw [e]
      exact (h.trans (.killGroups (.modSlice k fun x _ => .fail x))).trans (.sliceOver_of_fail hz (.killGroups (.refl _)))

/-- What an element of a list brings about stands at the end, where each of them keeps it. -/
theorem foldl_of_mem {α : Type} {f : State → α → State} {P Q : State → Prop} {l : List α} {a : α} (ha : a ∈ l) (hP : ∀ s b, P s → P (f s b))
    (hQ : ∀ s b, Q s → Q (f s b)) (h : ∀ s, P s → Q (f s a)) (hs : P s) : Q (l.foldl f s) := by
  have keep : ∀ (l : List α) (s : State), Q s → Q (l.foldl f s) := fun l => by
    induction l with
    | nil => exact fun _ e => e
    | cons b l ih => exact fun s e => ih _ (hQ s b e)
  induction l generalizing s with
  | nil => cases ha
  | cons b l ih =>
    rcases List.mem_cons.1 ha with rfl | ha
    · exact keep l _ (h s hs)
    · exact ih ha (hP s b hs)
/-- Kills of the groups of a slice: each of them ends. -/
theorem State.killGroups_ended (c : Nat) {sid gi n : Nat} {x : Slice} (hx : s.slice? sid = some x) (hn : gi < n) (hl : gi < x.groups.length) :
    ∃ y, (s.killGroups sid c n).slice? sid = some y ∧ y.Ended gi := by
  refine foldl_of_mem (P := fun s => ∃ x, s.slice? sid = some x ∧ gi < x.groups.length) (Q := fun s => ∃ y, s.slice? sid = some y ∧ y.Ended gi) (List.mem_range.2 hn)
    (fun s b ⟨x, hx, hl⟩ => ?_) (fun s b ⟨x, hx, he⟩ => ?_) (fun s ⟨x, hx, hl⟩ => State.killGroup_ended c (g := ⟨sid, gi⟩) hx hl) ⟨x, hx, hl⟩
  · obtain ⟨y, hy, k⟩ := (Kept.killGroup (c := c) (g := ⟨sid, b⟩) (.refl s)).slice sid x hx
    exact ⟨y, hy, by rwa [k.length]⟩
  · obtain ⟨y, hy, k⟩ := (Kept.killGroup (c := c) (g := ⟨sid, b⟩) (.refl s)).slice sid x hx
    exact ⟨y, hy, k.ended gi he⟩
theorem State.killGroups_all (c : Nat) {sid : Nat} {x : Slice} (hx : s.slice? sid = some x) :
    ∃ y, (s.killGroups sid c x.groups.length).slice? sid = some y ∧ x.Kept c y ∧ y.groups.all Group.retired = true := by
  obtain ⟨y, hy, k⟩ := (Kept.killGroups (c := c) (.refl s)).slice sid x hx
  refine ⟨y, hy, k, List.all_eq_true.2 fun g hg => ?_⟩
  obtain ⟨gi, hi, rfl⟩ := List.mem_iff_getElem.1 hg
  have hl : gi < x.groups.length := by rwa [k.length] at hi
  obtain ⟨z, hz, g, hg, hr⟩ := State.killGroups_ended c hx hl hl
  obtain rfl : y = z := Option.some.inj (hy.symm.trans hz)
  obtain rfl : y.groups[gi] = g := Option.some.inj ((List.getElem?_eq_getElem hi).symm.trans hg)
  exact hr
/-- A killed slice is Failed, if it was not Retired before. -/
theorem State.killSlice_failed (c : Nat) {sid : Nat} {x : Slice} (hx : s.slice? sid = some x) (h1 : x.st ≠ .retired) :
    ∃ y, (s.killSlice sid c).slice? sid = some y ∧ y.st = .failed := by
  by_cases h2 : x.st = .failed
  · exact ⟨x, by rw [State.killSlice_of_ended hx (.inr h2), hx], h2⟩
  · obtain ⟨t, k, e⟩ := State.killSlice_cases c hx h1 h2
    obtain ⟨y, hy, ky⟩ := (k.modSlice (sid := sid) (f := Slice.fail c) fun x _ => .fail x).slice sid x hx
    obtain ⟨z, hz, kz, ended⟩ := State.killGroups_all c hy
    rw [e, ← ky.length]
    exact State.sliceOver_failed hz ((ky.trans kz).not_retired h1) ended (kz.isSome (State.fail_isSome hy))
/-- Slices killed one after another: each of them that had not ended fails with the cause that it had, or else with that of the kills. -/
theorem State.killSlices_failed {sid : Nat} {x : Slice} {l : List Nat} (hx : s.slice? sid = some x) (hs : sid ∈ l) (h1 : x.st ≠ .retired) (h2 : x.st ≠ .failed) :
    ∃ y, (l.foldl (fun s sid => s.killSlice sid c) s).slice? sid = some y ∧ y.st = .failed ∧ y.failCause = some (x.failCause.getD c) := by
  have k : Kept c s (l.foldl (fun s sid => s.killSlice sid c) s) := .foldl (.refl s) fun _ _ h => .killSlice h
  obtain ⟨y, hy, ky⟩ := k.slice sid x hx
  obtain ⟨z, hz, hf⟩ := foldl_of_mem (f := fun s sid => s.killSlice sid c) (P := fun s => ∃ x, s.slice? sid = some x ∧ x.st ≠ .retired) (Q := fun s => ∃ y, s.slice? sid = some y ∧ y.st = .failed) hs
    (fun s b ⟨x, hx, h⟩ => have ⟨y, hy, k⟩ := (Kept.killSlice (c := c) (sid := b) (.refl s)).slice sid x hx; ⟨y, hy, k.not_retired h⟩)
    (fun s b ⟨x, hx, h⟩ => have ⟨y, hy, k⟩ := (Kept.killSlice (c := c) (sid := b) (.refl s)).slice sid x hx; ⟨y, hy, k.failed h⟩)
    (fun s ⟨x, hx, h⟩ => State.killSlice_failed c hx h) ⟨x, hx, h1⟩
  obtain rfl : y = z := Option.some.inj (hy.symm.trans hz)
  exact ⟨y, hy, hf, ky.failCause_of_failed h2 hf⟩

end Sys2Proof.Machine
end

section
/-!
What a reset of the host link does to outstanding results (R336). `Pending` says that the results of every group stay as they are.
-/
namespace Sys2Proof.Machine

variable {s t u : State}

/-- The pending results of the groups stay as they are. -/
def Pending (s t : State) : Prop := ∀ sid gi g, s.group? sid gi = some g → ∃ k, t.group? sid gi = some k ∧ k.inflight = g.inflight

theorem Pending.refl (s : State) : Pending s s := fun _ _ g h => ⟨g, h, rfl⟩
theorem Pending.trans (h : Pending s t) (k : Pending t u) : Pending s u := fun sid gi g e =>
  have ⟨y, hy, e⟩ := h sid gi g e
  have ⟨z, hz, e'⟩ := k sid gi y hy
  ⟨z, hz, e'.trans e⟩
theorem Pending.foldl {α : Type} {f : State → α → State} {l : List α} (h : Pending s t) (hf : ∀ t a, Pending s t → Pending s (f t a)) : Pending s (l.foldl f t) :=
  List.foldlRecOn l f h fun t ht a _ => hf t a ht
theorem Pending.modSlice {sid : Nat} {f : Slice → Slice} (h : Pending s t) (hf : ∀ x, (f x).groups = x.groups) : Pending s (t.modSlice sid f) :=
  h.trans fun n gi g e => ⟨g, by rw [State.group?_modSlice _ _ _ _ _ fun x _ => hf x]; exact e, rfl⟩
theorem Pending.modGroup {sid gi : Nat} {f : Group → Group} (h : Pending s t) (hf : ∀ g, (f g).inflight = g.inflight) : Pending s (t.modGroup sid gi f) :=
  h.trans fun n j g e => by
    rw [State.group?_modGroup, e]
    split
    · exact ⟨f g, rfl, hf g⟩
    · exact ⟨g, rfl, rfl⟩
theorem Pending.modStrand {r : StrandRef} {f : Strand → Strand} (h : Pending s t) : Pending s (t.modStrand r f) := h.modGroup fun _ => rfl
theorem Pending.modCore {core : Nat} {f : Core → Core} (h : Pending s t) : Pending s (t.modCore core f) := h
theorem Pending.modRegion {rk : Nat} {f : Region → Region} (h : Pending s t) : Pending s (t.modRegion rk f) :=
  h.trans fun _ _ g e => ⟨g, by rw [State.group?, State.slice?, State.modRegion_slices]; exact e, rfl⟩
theorem Pending.setBatches {l : List (Nat × Batch)} (h : Pending s t) : Pending s { t with batches := l } := h
theorem Pending.endRun {r : StrandRef} (h : Pending s t) : Pending s (t.endRun r) := by
  unfold State.endRun
  split
  · exact h
  · split
    · exact h
    · exact .modStrand (.modCore h)
theorem Pending.takeTrap {r : StrandRef} {cause lane detail pc cpc : Nat} {defer : Bool} (h : Pending s t) :
    Pending s (t.takeTrap r cause lane detail pc cpc defer) := by
  unfold State.takeTrap
  split
  · exact h
  · split
    · exact h
    · exact .modRegion (.modStrand (.modStrand (.endRun h)))
theorem Pending.modCmd {sid arr id : Nat} {f : MCmd → MCmd} (h : Pending s t) : Pending s (t.modCmd sid arr id f) := by
  refine .modSlice h fun x => ?_
  split <;> rfl
theorem Pending.mxFail {sid arr id cause : Nat} (h : Pending s t) : Pending s (t.mxFail sid arr id cause) := by
  refine .modCmd ?_
  unfold State.dropFetch
  split
  · exact h
  · exact .modCore h
theorem Pending.batchFails {id : Nat} {b : Batch} (h : Pending s t) : Pending s (t.batchFails id b) := by
  unfold State.batchFails
  split
  · split
    · split
      · exact .takeTrap h
      · exact h
    · exact h
  · exact .modCore h
  · exact .mxFail (.modCmd h)
  · exact .modCore h
theorem Pending.batchGo {id : Nat} {o : BatchOwner} (h : Pending s t) : Pending s (t.batchGo id o) := by
  unfold State.batchGo
  split
  · split
    · split
      · exact .modStrand h
      · exact h
    · exact h
  · exact .modCore h
  · exact .modCmd h
  · exact .modCore h
theorem Pending.batchAnswer {id : Nat} {pri ok : Bool} (h : Pending s t) : Pending s (t.batchAnswer id pri ok) := by
  simp only [State.batchAnswer]
  split
  · exact h
  · split
    · exact .setBatches h
    · split
      · exact .batchFails (.setBatches h)
      · exact .batchGo (.setBatches h)
theorem Pending.unlinkStores {core : Nat} (h : Pending s t) : Pending s (t.unlinkStores core) := .foldl (.modCore h) fun _ _ h => .modStrand h

/-- A slice with the pending results of its groups as a reset of the link leaves them. -/
def Slice.unlinked (x : Slice) : Slice := { x with groups := x.groups.map fun g => { g with inflight := g.inflight.map Inflight.unlinked } }
/-- After a reset of the link each pending result is as `Inflight.unlinked` leaves it. -/
theorem State.group?_linkReset {sid gi : Nat} {g : Group} (h : s.group? sid gi = some g) :
    ∃ k, s.linkReset.group? sid gi = some k ∧ k.inflight = g.inflight.map Inflight.unlinked := by
  obtain ⟨x, hx, hg⟩ := Option.bind_eq_some_iff.1 h
  have first : State.group? { s with slices := s.slices.map fun e => (e.1, e.2.unlinked) } sid gi = some { g with inflight := g.inflight.map Inflight.unlinked } := by
    simp only [State.group?, State.slice?, Sparse.find_map, show Sparse.find s.slices sid = some x from hx]
    simp [Slice.unlinked, hg]
  have rest : Pending { s with slices := s.slices.map fun e => (e.1, e.2.unlinked) } s.linkReset :=
    .foldl (.foldl (.foldl (.refl _) fun _ _ h => .unlinkStores h) fun _ _ h => .batchAnswer h) fun _ _ h => .modRegion h
  exact rest sid gi _ first
/-- A presented load or atomic of one lane in the host half ends with value 0 and the cause of kind 14. -/
theorem MemOp.unlinked_host {m : MemOp} {a : LaneAcc} {v p : Nat} (h1 : m.acc = [a]) (h2 : m.started = true) (h3 : a.loc = some (.host v p)) (h4 : m.err = none) :
    m.unlinked = { m with acc := [{ a with val := some 0 }], err := some (if m.atom.isSome = true then 174 else 142, a.lane, a.va / 128 * 128) } := by
  cases h : m.atom <;> simp [MemOp.unlinked, MemOp.fail, h1, h2, h3, h4, h]
/-- One that is not presented stays. -/
theorem Inflight.unlinked_waiting {f : Inflight} {m : MemOp} (h1 : f.body = .mem m) (h2 : m.started = false) : f.unlinked = f := by
  have hm : m.unlinked = m := by simp [MemOp.unlinked, h2]
  simp only [Inflight.unlinked, h1, hm]
  rw [← h1]

end Sys2Proof.Machine
end

section
/-!
The service plane: pre-emption of several slices, spares, resets, images on their way, and reports (R15 to R17, R336, R344, R346 to R349).
-/
namespace Sys2Proof

variable {α : Type}

theorem Sparse.mem_set (m : List (Nat × α)) (a : Nat) (x : α) : (a, x) ∈ Sparse.set m a x := Sparse.mem_of_find (Sparse.find_set_self m a x)
theorem find_filter_not (p : α → Bool) (l : List α) : (l.filter fun a => !p a).find? p = none :=
  List.find?_eq_none.2 fun _ ha => by simpa using (List.mem_filter.1 ha).2
@[simp] theorem length_bytesOf (n x : Nat) : (bytesOf n x).length = n := by
  induction n generalizing x with
  | zero => rfl
  | succ n ih => simp [bytesOf, ih]

end Sys2Proof

namespace Sys2Proof.Machine

variable {s t u : State} {k : UnitKind} {place unit : Nat}

/-! ### Pre-emption -/

/-- A slice that is to be pre-empted, where it is resident and is not yet. -/
def Slice.preempted (why : Preempt) (x : Slice) : Slice := if x.st == .resident && x.preempt.isNone then { x with preempt := some why } else x
@[simp] theorem Slice.preempted_st (why : Preempt) (x : Slice) : (x.preempted why).st = x.st := by
  unfold Slice.preempted; split <;> rfl
theorem Slice.preempted_preempt (why : Preempt) {x : Slice} (h : x.st = .resident) : (x.preempted why).preempt ≠ none := by
  unfold Slice.preempted
  split
  · simp
  · simp_all
theorem Slice.preempted_of_preempt (why : Preempt) {x : Slice} (h : x.st = .resident → x.preempt ≠ none) : x.preempted why = x := by
  rw [Slice.preempted, if_neg]
  simpa using h
@[simp] theorem Slice.preempted_preempted (why : Preempt) (x : Slice) : (x.preempted why).preempted why = x.preempted why :=
  Slice.preempted_of_preempt why fun h => Slice.preempted_preempt why (by simpa using h)
theorem State.startPreempts_mgmt (s : State) (l : List Nat) (why : Preempt) : (l.foldl (fun s sid => s.startPreempt sid why) s).mgmt = s.mgmt :=
  List.foldlRecOn (motive := fun t : State => t.mgmt = s.mgmt) l _ rfl fun t h sid _ => (State.modSlice_mgmt t sid (Slice.preempted why)).trans h
theorem State.slice?_startPreempts (s : State) (l : List Nat) (why : Preempt) (n : Nat) :
    (l.foldl (fun s sid => s.startPreempt sid why) s).slice? n = if n ∈ l then (s.slice? n).map (Slice.preempted why) else s.slice? n := by
  induction l generalizing s with
  | nil => rfl
  | cons sid l ih =>
    have hd : (s.startPreempt sid why).slice? n = if sid = n then (s.slice? n).map (Slice.preempted why) else s.slice? n := State.slice?_modSlice ..
    rw [List.foldl_cons, ih, hd]
    by_cases e : sid = n
    · subst e
      cases s.slice? sid <;> simp
    · simp [e, Ne.symm e]

/-! ### Spares -/

theorem Mgmt.sparesFree_pos {m : Mgmt} : 0 < m.sparesFree k place ↔
    m.usedAt k place + (m.replacing.filter fun e => e.1 == k && e.2.1 == place).length < sparesOf k := by
  unfold Mgmt.sparesFree; omega
/-- The management state with one more spare in use for a unit. -/
def Mgmt.spareUsed (m : Mgmt) (k : UnitKind) (place unit : Nat) : Mgmt :=
  let n := m.usedAt k place + 1
  { m with
    used := (m.used.filter fun e => !(e.1 == k && e.2.1 == place)) ++ [(k, place, n)]
    degraded := m.degraded || n == sparesOf k
    replacing := m.replacing.filter fun e => e != (k, place, unit)
    coreMap := if k = .core then (m.coreMap.filter fun e => e.1 != unit) ++ [(unit, Config.coresPerDie + n - 1)] else m.coreMap }
theorem State.useSpare_eq (s : State) (k : UnitKind) (place unit : Nat) : s.useSpare k place unit =
    { s with mgmt := s.mgmt.spareUsed k place unit, out := if s.mgmt.usedAt k place + 1 = sparesOf k then s.out ++ [.exhausted k place] else s.out } := by
  simp only [State.useSpare, beq_iff_eq]
  by_cases e : s.mgmt.usedAt k place + 1 = sparesOf k
  · rw [if_pos e, if_pos e]; rfl
  · rw [if_neg e, if_neg e]; rfl
theorem Mgmt.usedAt_spareUsed (m : Mgmt) : (m.spareUsed k place unit).usedAt k place = m.usedAt k place + 1 := by
  rw [Mgmt.usedAt]
  simp only [Mgmt.spareUsed, List.find?_append, find_filter_not fun e : UnitKind × Nat × Nat => e.1 == k && e.2.1 == place]
  simp
theorem Mgmt.physicalCore_spareUsed (m : Mgmt) : (m.spareUsed .core place unit).physicalCore unit = 39 + (m.usedAt .core place + 1) := by
  simp only [Mgmt.physicalCore, Mgmt.spareUsed, if_true, List.find?_append, bne, find_filter_not fun e : Nat × Nat => e.1 == unit]
  simp [Config.coresPerDie]
  omega
theorem Mgmt.not_mem_spareUsed (m : Mgmt) : (k, place, unit) ∉ (m.spareUsed k place unit).replacing := by
  simp [Mgmt.spareUsed]

/-- A unit is replaced: nothing where no spare is free for it; its spare where it is idle; and otherwise it waits, and its core's slices are pre-empted. -/
theorem State.replaceUnit_of_none (h1 : (k, place, unit) ∉ s.mgmt.replacing) (h2 : ¬0 < s.mgmt.sparesFree k place) : s.replaceUnit k place unit = s := by
  have h2 : s.mgmt.sparesFree k place = 0 := by omega
  simp [State.replaceUnit, h1, h2]
theorem State.replaceUnit_of_idle (h1 : 0 < s.mgmt.sparesFree k place ∨ (k, place, unit) ∈ s.mgmt.replacing)
    (h2 : s.unitUsers k place unit = [] ∧ s.unitHolds k place unit = false) : s.replaceUnit k place unit = s.useSpare k place unit := by
  have h1 : (k, place, unit) ∈ s.mgmt.replacing ∨ s.mgmt.sparesFree k place ≠ 0 := h1.symm.imp_right fun h => by omega
  simp only [State.replaceUnit, h2]
  simpa using fun a b => absurd b (h1.resolve_left a)
theorem State.replaceUnit_of_busy (h1 : 0 < s.mgmt.sparesFree k place ∨ (k, place, unit) ∈ s.mgmt.replacing)
    (h2 : ¬(s.unitUsers k place unit = [] ∧ s.unitHolds k place unit = false)) :
    ∃ l, (k, place, unit) ∈ l ∧ s.replaceUnit k place unit =
      (if k = .core then s.unitUsers k place unit else []).foldl (fun s sid => s.startPreempt sid .spare) { s with mgmt := { s.mgmt with replacing := l } } := by
  have h2 : ¬((s.unitUsers k place unit).isEmpty && !s.unitHolds k place unit) = true := by simpa using h2
  have h3 : ¬(!s.mgmt.replacing.contains (k, place, unit) && s.mgmt.sparesFree k place == 0) = true := by
    simp only [List.contains_eq_mem, Bool.and_eq_true, Bool.not_eq_true', decide_eq_false_iff_not, beq_iff_eq, not_and]
    exact fun a => by have := h1.resolve_right a; omega
  by_cases w : (k, place, unit) ∈ s.mgmt.replacing
  · refine ⟨s.mgmt.replacing, w, ?_⟩
    simp only [State.replaceUnit, if_neg h2, if_neg h3]
    cases k <;> simp [w]
  · refine ⟨s.mgmt.replacing ++ [(k, place, unit)], by simp, ?_⟩
    simp only [State.replaceUnit, if_neg h2, if_neg h3]
    cases k <;> simp [w]

end Sys2Proof.Machine
end

section
/-!
Units in failure, resets, and images on their way to other modules (R17, R346 to R349).
-/

namespace Sys2Proof.Machine

variable {s t u : State} {k : UnitKind} {place unit : Nat}

/-! ### Units in failure -/

theorem State.unitFailure_of_waiting {cause : Nat} {l : List Nat} (h : (k, place, unit) ∈ s.mgmt.replacing) : s.unitFailure k place unit cause l = s := by
  simp [State.unitFailure, h]
theorem State.unitFailure_of_spare {cause : Nat} {l : List Nat} (h1 : (k, place, unit) ∉ s.mgmt.replacing) (h2 : 0 < s.mgmt.sparesFree k place) :
    s.unitFailure k place unit cause l = s.replaceUnit k place unit := by
  simp [State.unitFailure, h1, h2]
/-- Without a spare the module is failed, and the slices that use the unit are killed (R17). -/
theorem State.unitFailure_of_none {cause : Nat} {l : List Nat} (h1 : (k, place, unit) ∉ s.mgmt.replacing) (h2 : ¬0 < s.mgmt.sparesFree k place) :
    s.unitFailure k place unit cause l = (l ++ s.unitUsers k place unit ++ s.unitMembers k place unit).foldl (fun s sid => s.killSlice sid cause)
      { s with mgmt := { s.mgmt with failed := true, degraded := true } } := by
  simp [State.unitFailure, h1, h2]
/-- A resident slice on a core uses it. -/
theorem State.mem_unitUsers_core {sid : Nat} {x : Slice} (hx : s.slice? sid = some x) (h1 : x.st = .resident) (h2 : x.core = unit) :
    sid ∈ s.unitUsers .core place unit :=
  List.mem_map.2 ⟨(sid, x), List.mem_filter.2 ⟨Sparse.mem_of_find hx, by simp [h1, h2]⟩, rfl⟩
theorem State.mem_residentIds {sid : Nat} {x : Slice} (hx : s.slice? sid = some x) (h : x.st = .resident) : sid ∈ s.residentIds :=
  List.mem_map.2 ⟨(sid, x), List.mem_filter.2 ⟨Sparse.mem_of_find hx, by simp [h]⟩, rfl⟩

/-! ### Resets -/

/-- What spares that are brought in leave of the management state. -/
structure Mgmt.Spared (m n : Mgmt) : Prop where
  locked : n.locked = m.locked
  failed : n.failed = m.failed
  firmware : n.firmware = m.firmware
  replacing : n.replacing ⊆ m.replacing
/-- Spares brought into service one after another change the management state and send messages. -/
theorem State.useSpares_eq (s : State) (l : List (UnitKind × Nat × Nat)) :
    ∃ m o, l.foldl (fun s e => s.useSpare e.1 e.2.1 e.2.2) s = { s with mgmt := m, out := o } ∧ s.out ⊆ o ∧ s.mgmt.Spared m := by
  refine List.foldlRecOn (motive := fun t => ∃ m o, t = { s with mgmt := m, out := o } ∧ s.out ⊆ o ∧ s.mgmt.Spared m) l _
    ⟨s.mgmt, s.out, rfl, List.Subset.refl _, rfl, rfl, rfl, List.Subset.refl _⟩ fun t h e _ => ?_
  obtain ⟨m, o, rfl, ho, h1, h2, h3, h4⟩ := h
  refine ⟨_, _, State.useSpare_eq .., ?_, h1, h2, h3, fun _ he => h4 (List.mem_filter.1 he).1⟩
  split
  · exact List.Subset.trans ho (List.subset_append_left _ _)
  · exact ho
/-- What a machine is after a module reset, given its chip id and its management state before (R346). -/
def AsReset (chip : Nat) (m : Mgmt) (t : State) : Prop := t.chip = chip ∧ t.clock = State.reset.clock ∧ t.slices = [] ∧
  t.jobs = [] ∧ t.queues = [] ∧ t.regions = [] ∧ t.harnesses = [] ∧ t.cores = [] ∧ t.tenants = State.reset.tenants ∧ t.remotes = [] ∧
  t.dcache = [] ∧ t.mgmt.locked = State.reset.mgmt.locked ∧ t.mgmt.replacing = [] ∧
  t.mgmt.firmware = Config.slhVerify Config.rootKey Config.firmware Config.firmwareSig ∧ t.mgmt.failed = m.failed ∧
  (m.replacing = [] → t.mgmt.used = m.used ∧ t.mgmt.degraded = m.degraded)
/-- The machine after a module reset, before spares come in for the units that waited for one. -/
def State.rebooted (s : State) : State := { State.reset with
  chip := s.chip, mem := s.mem, memFailed := s.memFailed, hostMem := s.hostMem, agenda := s.agenda, out := s.out
  mgmt := { Mgmt.reset with used := s.mgmt.used, degraded := s.mgmt.degraded, failed := s.mgmt.failed, coreMap := s.mgmt.coreMap
                            firmware := Config.slhVerify Config.rootKey Config.firmware Config.firmwareSig } }
theorem State.moduleReset_eq (s : State) : s.moduleReset = s.mgmt.replacing.foldl (fun s e => s.useSpare e.1 e.2.1 e.2.2) s.rebooted := rfl
theorem State.asReset_moduleReset (s : State) : AsReset s.chip s.mgmt s.moduleReset := by
  obtain ⟨m, o, e, -, h⟩ := s.rebooted.useSpares_eq s.mgmt.replacing
  have used : s.mgmt.replacing = [] → m.used = s.mgmt.used ∧ m.degraded = s.mgmt.degraded := fun h => by
    rw [h] at e
    have e := congrArg State.mgmt e
    exact ⟨(congrArg Mgmt.used e).symm, (congrArg Mgmt.degraded e).symm⟩
  rw [State.moduleReset_eq, e]
  exact ⟨rfl, rfl, rfl, rfl, rfl, rfl, rfl, rfl, rfl, rfl, rfl, h.locked, List.subset_nil.1 h.replacing, h.firmware, h.failed, used⟩
/-- A module reset keeps the memories. -/
theorem State.moduleReset_mem (s : State) : s.moduleReset.mem = s.mem ∧ s.moduleReset.memFailed = s.memFailed ∧ s.moduleReset.hostMem = s.hostMem := by
  obtain ⟨m, o, e, -⟩ := s.rebooted.useSpares_eq s.mgmt.replacing
  rw [State.moduleReset_eq, e]
  exact ⟨rfl, rfl, rfl⟩
/-- What has been sent before a module reset is sent. -/
theorem State.out_moduleReset (s : State) : s.out ⊆ s.moduleReset.out := by
  obtain ⟨m, o, e, h, -⟩ := s.rebooted.useSpares_eq s.mgmt.replacing
  rw [State.moduleReset_eq, e]
  exact h
theorem State.usedAt_moduleReset (h : s.mgmt.replacing = [(k, place, unit)]) : s.moduleReset.mgmt.usedAt k place = s.mgmt.usedAt k place + 1 := by
  rw [State.moduleReset_eq, h, List.foldl_cons, List.foldl_nil, State.useSpare_eq]
  exact Mgmt.usedAt_spareUsed _
/-- The access that the fault-log entry of a resident slice at a critical limit names (R349). -/
def State.limitAccess (s : State) (x : Slice) : InAccess :=
  ⟨s.chip, (s.tenant (keyVf (s.sliceRegion x))).ftid, keyTag (s.sliceRegion x), 0, 0, .limit, 0⟩
/-- Entries about an access sent to several modules. -/
def State.tellPeers (s : State) (l : List Nat) (a : InAccess) : State := l.foldl (fun t c => t.emit (.peerFault c (faultEntry t.time a 369))) s
theorem State.mem_tellPeers {l : List Nat} {c : Nat} (a : InAccess) (h : c ∈ l) : .peerFault c (faultEntry s.time a 369) ∈ (s.tellPeers l a).out := by
  refine foldl_of_mem (f := fun t c => t.emit (.peerFault c (faultEntry t.time a 369))) (P := fun t => t.clock = s.clock) (Q := fun t => .peerFault c (faultEntry s.time a 369) ∈ t.out) h (fun _ _ e => e) (fun t b e => ?_) (fun t e => ?_) rfl
  · exact List.mem_append_left _ e
  · have e : t.time = s.time := congrArg timeAt e
    simp [State.emit, e]
/-- One slice at a critical limit. -/
def State.limitKill (s : State) (sid : Nat) : State := match s.slice? sid with
  | none => s
  | some x => (s.tellPeers (s.peersOf sid x) (s.limitAccess x)).killSlice sid 369
theorem State.criticalReset_eq (s : State) : s.criticalReset = (s.residentIds.foldl State.limitKill s).moduleReset := rfl
theorem Kept.limitKill {sid : Nat} (h : Kept 369 s t) : Kept 369 s (t.limitKill sid) := by
  unfold State.limitKill
  split
  · exact h
  · exact .killSlice (.foldl h fun _ _ h => .emit h)
theorem State.asReset_criticalReset (s : State) : AsReset s.chip s.mgmt s.criticalReset := by
  have h : Kept 369 s (s.residentIds.foldl State.limitKill s) := .foldl (.refl s) fun _ _ h => .limitKill h
  rw [State.criticalReset_eq, ← h.chip, ← h.mgmt]
  exact State.asReset_moduleReset _
/-- The modules that the first resident slice reaches are told. -/
theorem State.criticalReset_tells {sid chip : Nat} {rest : List Nat} {x : Slice} (h1 : s.residentIds = sid :: rest) (h2 : s.slice? sid = some x) (h3 : chip ∈ s.peersOf sid x) :
    .peerFault chip (faultEntry s.time (s.limitAccess x) 369) ∈ s.criticalReset.out := by
  have told : Kept 369 (s.tellPeers (s.peersOf sid x) (s.limitAccess x)) (rest.foldl State.limitKill (s.limitKill sid)) := by
    refine .foldl ?_ fun _ _ h => .limitKill h
    simp only [State.limitKill, h2]
    exact .killSlice (.refl _)
  rw [State.criticalReset_eq, h1, List.foldl_cons]
  exact State.out_moduleReset _ (told.out (State.mem_tellPeers _ h3))

/-! ### Images -/

theorem State.sendImage_eq {sid chip : Nat} {x : Slice} {im : Image} {j : Job} (hx : s.slice? sid = some x) (hi : x.image = some im) (hj : s.job? x.jn = some j) (h1 : x.st = .swapped)
    (h2 : x.stolen = none) (h3 : x.move = none) (h4 : chip ≠ s.chip) (h5 : (s.tenant (keyVf j.rk)).ftid ≠ 0) (h6 : chip ∉ s.mgmt.unreachable) :
    s.sendImage sid chip = (s.emit (.image chip (s.tenant (keyVf j.rk)).ftid (keyTag j.rk) (Config.reseal chip im.bytes))).modSlice sid fun x => { x with move := some chip } := by
  simp [State.sendImage, hx, hi, hj, h1, h2, h3, h4, h5, h6]
/-- Storage given back block by block leaves slices and jobs as they are. -/
theorem State.poolFrees_same (s : State) (rk : Nat) (l : List Nat) :
    (l.foldl (fun t va => t.poolFree rk va) s).slices = s.slices ∧ (l.foldl (fun t va => t.poolFree rk va) s).jobs = s.jobs :=
  List.foldlRecOn (motive := fun t : State => t.slices = s.slices ∧ t.jobs = s.jobs) l _ ⟨rfl, rfl⟩ fun t h va _ => by simpa [State.poolFree] using h
theorem State.dropImage_cases {sid : Nat} {x : Slice} (hx : s.slice? sid = some x) : ∃ t : State, t.slices = s.slices ∧ t.jobs = s.jobs ∧
    s.dropImage sid = t.modSlice sid fun x => { x with image := none, logBlocks := [], log := [], logWait := [] } := by
  simp only [State.dropImage, hx]
  refine ⟨_, ?_, ?_, rfl⟩
  · rw [(State.poolFrees_same ..).1]
    split
    · exact State.modRegion_slices ..
    · rfl
  · rw [(State.poolFrees_same ..).2]
    split
    · exact State.modRegion_jobs ..
    · rfl
theorem State.slice?_dropImage {sid : Nat} {x : Slice} (hx : s.slice? sid = some x) :
    (s.dropImage sid).slice? sid = some { x with image := none, logBlocks := [], log := [], logWait := [] } := by
  obtain ⟨t, h1, -, h3⟩ := State.dropImage_cases hx
  have ht : t.slice? sid = some x := by rw [State.slice?, h1]; exact hx
  simp [h3, State.slice?_modSlice, ht]
theorem State.dropImage_jobs (s : State) (sid : Nat) : (s.dropImage sid).jobs = s.jobs := by
  cases hx : s.slice? sid with
  | none => simp [State.dropImage, hx]
  | some x =>
    obtain ⟨t, -, h2, h3⟩ := State.dropImage_cases hx
    rw [h3, State.modSlice_jobs, h2]
/-- The source frees what it held of a slice that now runs elsewhere; its job notes where, and the slice counts as Retired here (R348). -/
theorem State.freeSent_cases (s : State) (sid chip : Nat) (x : Slice) : ∃ t : State, t.slices = (s.dropImage sid).slices ∧ t.jobs = s.jobs ∧ s.freeSent sid chip x =
    (t.modJob x.jn fun j => { j with claimed := j.claimed ++ [(x.index, chip)] }).modSlice sid fun x =>
      { x with st := .retired, groups := [], scratch := [], tiles := [], arrays := [], stopped := [], stoppedUpd := [], move := none } := by
  refine ⟨_, ?_, ?_, rfl⟩
  · rfl
  · exact s.dropImage_jobs sid
theorem State.freeSent_slice {sid chip : Nat} {x : Slice} (hx : s.slice? sid = some x) :
    ∃ y, (s.freeSent sid chip x).slice? sid = some y ∧ y.st = .retired ∧ y.groups = [] ∧ y.image = none := by
  obtain ⟨t, h1, -, h3⟩ := s.freeSent_cases sid chip x
  have ht : ∀ f, (t.modJob x.jn f).slice? sid = some { x with image := none, logBlocks := [], log := [], logWait := [] } := fun f => by
    rw [State.slice?, State.modJob_slices, h1]; exact State.slice?_dropImage hx
  exact ⟨_, by rw [h3, State.slice?_modSlice, if_pos rfl, ht]; rfl, rfl, rfl, rfl⟩
theorem State.freeSent_job {sid chip : Nat} {x : Slice} {j : Job} (hj : s.job? x.jn = some j) :
    ∃ k, (s.freeSent sid chip x).job? x.jn = some k ∧ (x.index, chip) ∈ k.claimed := by
  obtain ⟨t, -, h2, h3⟩ := s.freeSent_cases sid chip x
  have ht : t.job? x.jn = some j := by rw [State.job?, h2]; exact hj
  refine ⟨{ j with claimed := j.claimed ++ [(x.index, chip)] }, ?_, by simp⟩
  rw [h3, State.job?, State.modSlice_jobs]
  exact (State.job?_modJob ..).trans (by simp [ht])
/-- The target's answer, for a slice that was sent to it. -/
theorem State.imageAnswer_refused {key : JobKey} {index chip sid : Nat} {x : Slice} (h : s.sentTo key index chip = some (sid, x)) :
    s.imageAnswer key index chip false = s.modSlice sid fun x => { x with move := none } := by
  simp [State.imageAnswer, h]
theorem State.imageAnswer_restored {key : JobKey} {index chip sid : Nat} {x : Slice} (h : s.sentTo key index chip = some (sid, x)) (hs : x.st = .swapped) :
    s.imageAnswer key index chip true = s.freeSent sid chip x := by
  simp [State.imageAnswer, h, hs]
/-- An image that comes makes a Swapped slice, or its sender is told that it is refused (R348). -/
theorem State.receiveImage_cases (s : State) (chip ftid tag : Nat) (bytes : List Byte) :
    let hd := ofBytes (bytes.take 64)
    let name : JobKey := ⟨chip, ftid, bitsAt hd 160 32⟩
    s.receiveImage chip ftid tag bytes = s.emit (.restored chip name (bitsAt hd 128 32) false) ∨
      ∃ e ∈ (s.receiveImage chip ftid tag bytes).slices, e.2.st = .swapped ∧ e.2.source = some chip ∧ e.2.stolen = some name ∧ e.2.index = bitsAt hd 128 32 := by
  simp only [State.receiveImage]
  split
  · split
    · exact .inl rfl
    · split
      · exact .inl rfl
      · exact .inr ⟨_, Sparse.mem_set .., rfl, rfl, rfl, rfl⟩
  · exact .inl rfl
theorem State.receiveImage_refused {chip ftid tag : Nat} {bytes : List Byte} (h : s.regionOf ftid tag = none) :
    s.receiveImage chip ftid tag bytes =
      s.emit (.restored chip ⟨chip, ftid, bitsAt (ofBytes (bytes.take 64)) 160 32⟩ (bitsAt (ofBytes (bytes.take 64)) 128 32) false) := by
  simp only [State.receiveImage, h]

end Sys2Proof.Machine
end

section
/-!
The events of the service plane, and the statement about them (R15 to R17, R336, R344, R346 to R349).
-/

namespace Sys2Proof.Machine

variable {s : State} {sid gi : Nat} {x : Slice} {g : Group} {f : Inflight} {m : MemOp} {a : LaneAcc}

/-- A reset of the link ends an outstanding load or atomic of one lane in the host half. -/
theorem State.linkReset_host (hg : s.group? sid gi = some g) (hf : f ∈ g.inflight) (hb : f.body = .mem m) (ha : m.acc = [a]) (hs : m.started = true)
    (hl : ∃ v p, a.loc = some (.host v p)) (he : m.err = none) : ∃ k q z, s.linkReset.group? sid gi = some k ∧ q ∈ k.inflight ∧ q.id = f.id ∧ q.body = .mem z ∧
      (∃ w, z.err = some (if m.atom.isSome = true then 174 else 142, a.lane, w)) ∧ ∃ b ∈ z.acc, b.lane = a.lane ∧ b.val = some 0 := by
  obtain ⟨v, p, hl⟩ := hl
  obtain ⟨k, hk, hi⟩ := State.group?_linkReset hg
  have hu : f.unlinked = { f with body := .mem m.unlinked } := by simp [Inflight.unlinked, hb]
  have hm := MemOp.unlinked_host ha hs hl he
  refine ⟨k, f.unlinked, m.unlinked, hk, by rw [hi]; exact List.mem_map_of_mem hf, by rw [hu], by rw [hu], ⟨_, by rw [hm]⟩, { a with val := some 0 }, ?_, rfl, rfl⟩
  rw [hm]
  exact List.mem_singleton_self _
/-- It leaves one that is not presented. -/
theorem State.linkReset_waiting (hg : s.group? sid gi = some g) (hf : f ∈ g.inflight) (hb : f.body = .mem m) (hs : m.started = false) :
    ∃ k, s.linkReset.group? sid gi = some k ∧ f ∈ k.inflight := by
  obtain ⟨k, hk, hi⟩ := State.group?_linkReset hg
  exact ⟨k, hk, by rw [hi]; exact List.mem_map.2 ⟨f, hf, Inflight.unlinked_waiting hb hs⟩⟩
/-- A limit holds dispatch, and every resident slice is to be pre-empted (R349). -/
theorem exec_powerThermalLimit (s : State) : ∃ t, exec .powerThermalLimit s = .next t ∧ t.mgmt.hold = true ∧
    ∀ n y, t.slice? n = some y → y.st = .resident → y.preempt ≠ none := by
  refine ⟨_, rfl, by rw [State.startPreempts_mgmt], fun n y hy hr => ?_⟩
  rw [State.slice?_startPreempts] at hy
  split at hy
  · obtain ⟨z, -, rfl⟩ := Option.map_eq_some_iff.1 hy
    exact Slice.preempted_preempt _ (by simpa using hr)
  · next h => exact absurd (State.mem_residentIds hy hr) h
/-- A slice on a core that waits for its spare is to be pre-empted (R347). -/
theorem State.slice?_replaceUnit_core {place unit : Nat} (h1 : 0 < s.mgmt.sparesFree .core place ∨ (.core, place, unit) ∈ s.mgmt.replacing)
    (h2 : ¬(s.unitUsers .core place unit = [] ∧ s.unitHolds .core place unit = false)) (hx : s.slice? sid = some x) (hr : x.st = .resident) (hc : x.core = unit) :
    ∃ y, (s.replaceUnit .core place unit).slice? sid = some y ∧ y.st = .resident ∧ y.preempt ≠ none := by
  obtain ⟨l, -, e⟩ := State.replaceUnit_of_busy h1 h2
  refine ⟨x.preempted .spare, ?_, by simpa using hr, Slice.preempted_preempt _ hr⟩
  rw [e, if_pos rfl, State.slice?_startPreempts, if_pos (State.mem_unitUsers_core hx hr hc)]
  exact congrArg (Option.map _) hx
/-- A unit that waits for its spare is listed, and nothing else of the management state changes. -/
theorem State.replaceUnit_mgmt {k : UnitKind} {place unit : Nat} (h1 : 0 < s.mgmt.sparesFree k place ∨ (k, place, unit) ∈ s.mgmt.replacing)
    (h2 : ¬(s.unitUsers k place unit = [] ∧ s.unitHolds k place unit = false)) : (k, place, unit) ∈ (s.replaceUnit k place unit).mgmt.replacing ∧
      (s.replaceUnit k place unit).mgmt = { s.mgmt with replacing := (s.replaceUnit k place unit).mgmt.replacing } := by
  obtain ⟨l, hl, e⟩ := State.replaceUnit_of_busy h1 h2
  rw [e, State.startPreempts_mgmt]
  exact ⟨hl, rfl⟩
/-- A unit in failure with no spare left: the module is failed, and each slice that uses the unit fails with the cause (R17). -/
theorem State.unitFailure_failed {k : UnitKind} {place unit cause : Nat} {l : List Nat} (h1 : (k, place, unit) ∉ s.mgmt.replacing) (h2 : ¬0 < s.mgmt.sparesFree k place) :
    (s.unitFailure k place unit cause l).mgmt.failed = true := by
  rw [State.unitFailure_of_none h1 h2]
  exact congrArg Mgmt.failed (Kept.foldl (c := cause) (.refl { s with mgmt := { s.mgmt with failed := true, degraded := true } }) fun _ _ h => .killSlice h).mgmt
theorem State.unitFailure_slice {k : UnitKind} {place unit cause : Nat} {l : List Nat} (h1 : (k, place, unit) ∉ s.mgmt.replacing) (h2 : ¬0 < s.mgmt.sparesFree k place)
    (hx : s.slice? sid = some x) (hs : sid ∈ l ∨ sid ∈ s.unitUsers k place unit ∨ sid ∈ s.unitMembers k place unit) (hr : x.st ≠ .retired) (hf : x.st ≠ .failed) :
    ∃ y, (s.unitFailure k place unit cause l).slice? sid = some y ∧ y.st = .failed ∧ y.failCause = some (x.failCause.getD cause) := by
  rw [State.unitFailure_of_none h1 h2]
  exact State.killSlices_failed hx (by simpa [or_assoc] using hs) hr hf
/-- The last spare of a kind at a place makes the module degraded, and the host is told (R17). -/
theorem State.useSpare_last {k : UnitKind} {place unit : Nat} (h : s.mgmt.usedAt k place + 1 = sparesOf k) :
    (s.useSpare k place unit).mgmt.degraded = true ∧ (s.useSpare k place unit).out = s.out ++ [.exhausted k place] := by
  simp [State.useSpare_eq, Mgmt.spareUsed, h]
/-- A report begins with its nonce and the chip id (R344). -/
theorem State.report_take (s : State) (vf : Nat) {nonce : List Byte} (l : List Byte) (h : nonce.length = 32) :
    (s.report vf nonce ++ l).take 34 = nonce ++ bytesOf 2 s.chip := by
  simp only [State.report, List.append_assoc]
  rw [← List.append_assoc]
  exact List.take_left' (by simp [h])

theorem execAttestationRequest_eq (s : State) (vf : Nat) {nonce : List Byte} (h : nonce.length = 32) : execAttestationRequest vf nonce s =
    .next { s with mgmt := { s.mgmt with report := s.report vf nonce ++ Config.signature (s.report vf nonce) } } := by
  simp [execAttestationRequest, h]

/-- Settles O47: each clause by the lemma about its event. -/
theorem serviceEvents : Obligations.ServiceEvents := by
  intro s sid chip vf place unit cause x j im g f m a gi ftid tag index kind l rest nonce bytes key gives asReset keeps spares n left waits idle uses rk reports hd name refused
  have free : left ↔ 0 < s.mgmt.sparesFree kind place := Mgmt.sparesFree_pos.symm
  have noneFree : ¬left → ¬0 < s.mgmt.sparesFree kind place := fun h e => h (free.2 e)
  have replace : kind ≠ .module → exec (.spareReplacement kind place unit) s = .next (s.replaceUnit kind place unit) := fun h => by
    show execSpareReplacement kind place unit s = _
    simp [execSpareReplacement, h]
  have fails : exec (.unitFailure kind ⟨place, unit⟩ cause l) s = .next (s.unitFailure kind place unit cause l) := rfl
  refine ⟨⟨_, rfl, s.asReset_moduleReset, s.moduleReset_mem⟩, ⟨_, rfl, s.asReset_criticalReset⟩, fun h => ⟨_, rfl, s.asReset_moduleReset, State.usedAt_moduleReset h⟩,
    fun h1 h2 => ⟨_, rfl, fun c h => State.criticalReset_tells h1 h2 h⟩, ⟨_, rfl, rfl⟩, fun _ hg hf hb ha hs hl he => ⟨_, rfl, State.linkReset_host hg hf hb ha hs hl he⟩,
    fun _ hg hf hb hs => ⟨_, rfl, State.linkReset_waiting hg hf hb hs⟩, exec_powerThermalLimit s, ⟨_, rfl, rfl⟩, fun hw hl => ?spare,
    fun hw => congrArg Host.Outcome.next (State.unitFailure_of_waiting hw), fun hw hl => ⟨fun hk => ⟨s, ?none, rfl⟩, ⟨_, fails, State.unitFailure_failed hw (noneFree hl)⟩,
      fun hx hs h1 h2 => ⟨_, fails, State.unitFailure_slice hw (noneFree hl) hx hs h1 h2⟩⟩,
    fun hk hl hi => ⟨s.useSpare kind place unit, ?replaced, ?idle⟩, fun hk hl hi => ⟨_, replace hk, ?busy⟩,
    fun hx hi hj h1 h2 h3 h4 h5 h6 => ⟨_, congrArg Host.Outcome.next (State.sendImage_eq hx hi hj h1 h2 h3 h4 h5 h6), ?sent⟩,
    fun hx hs => ⟨⟨_, congrArg Host.Outcome.next (State.imageAnswer_refused hs), ?refused⟩,
      fun hst hj => ⟨_, congrArg Host.Outcome.next (State.imageAnswer_restored hs hst), State.freeSent_slice hx, State.freeSent_job hj⟩⟩,
    ⟨_, rfl, s.receiveImage_cases chip ftid tag bytes⟩, fun h => ⟨_, rfl, State.receiveImage_refused h⟩,
    fun h => ⟨_, execAttestationRequest_eq s vf h, s.report_take vf _ h, rfl⟩⟩
  case spare =>
    have hk : kind ≠ .module := by rintro rfl; exact absurd hl (Nat.not_lt_zero _)
    rw [fails, replace hk, State.unitFailure_of_spare hw (free.1 hl)]
  case none => rw [replace hk, State.replaceUnit_of_none hw (noneFree hl)]
  case replaced => rw [replace hk, State.replaceUnit_of_idle (hl.imp_left free.1) hi]
  case idle =>
    refine ⟨?_, ?_, ?_, ?_, State.useSpare_last⟩ <;> rw [State.useSpare_eq]
    · exact Mgmt.usedAt_spareUsed _
    · exact Mgmt.not_mem_spareUsed _
    · rintro rfl
      exact Mgmt.physicalCore_spareUsed _
  case busy =>
    have hl := hl.imp_left free.1
    have ⟨hm, he⟩ := State.replaceUnit_mgmt hl hi
    exact ⟨hm, he, fun hx hr hc e => by subst hc; exact State.slice?_replaceUnit_core hl hi hx hr e⟩
  case sent =>
    have hx' : (s.emit (.image chip (s.tenant (keyVf j.rk)).ftid (keyTag j.rk) (Config.reseal chip im.bytes))).slice? sid = some x := hx
    exact ⟨State.modSlice_out .., by simp [State.slice?_modSlice, hx']⟩
  case refused => exact ⟨by simp [State.slice?_modSlice, hx], State.modSlice_out ..⟩

end Sys2Proof.Machine
end

section
/-!
The shutter windows, the special registers and the state after module reset (R82, R83, R151, R346, R425, R426, R447).
-/

namespace Sys2Proof.Machine

variable {s t : State} {x : X} {i : Instr}

/-! ### Shutter windows (R83, R151) -/

/-- The windows begin 5,600 cycles apart, one after the other: the 5,600 cycles that a cycle lies in tell whose window may be open. -/
theorem window_open_iff {g c : Nat} (hg : g < 16) : (c + 89600 - 5600 * g) % 89600 < 2100 ↔ c / 5600 % 16 = g ∧ c % 5600 < 2100 := by
  rcases Nat.lt_trichotomy (c / 5600 % 16) g with h | h | h <;> omega
theorem wswin_eq (c : Nat) : wswin c =
    if c % 5600 < 2100 then c / 5600 % 16 * 2 ^ 28 else (c / 5600 + 1) % 16 * 2 ^ 28 + (5600 - c % 5600) := by
  unfold wswin
  dsimp only
  split
  · next g hg =>
    have hlt : g < 16 := List.mem_range.1 (List.mem_of_find?_eq_some hg)
    have hp := List.find?_some hg
    simp only [Bool.and_eq_true, decide_eq_true_eq] at hp
    rw [if_pos (by omega)]
    omega
  · next hn =>
    have hp := List.find?_range_eq_none.1 hn (c / 5600 % 16) (Nat.mod_lt _ (by decide))
    simp only [Bool.not_eq_true', Bool.and_eq_false_iff, decide_eq_false_iff_not] at hp
    rw [if_neg (by omega)]
    omega

/-- Settles O57: the first 2,100 of the 5,600 cycles that a cycle lies in are a window, of the group that they belong to; past it the next window to begin is that of the next 5,600. -/
theorem shutterRegister : Obligations.ShutterRegister := by
  intro x s lane v now opens
  have hv : v = if now % 5600 < 2100 then now / 5600 % 16 * 2 ^ 28 else (now / 5600 + 1) % 16 * 2 ^ 28 + (5600 - now % 5600) := wswin_eq now
  have hopens : ∀ {g c}, g < 16 → (opens g c ↔ c / 5600 % 16 = g ∧ c % 5600 < 2100) := window_open_iff
  have lt16 : ∀ n : Nat, n % 16 < 16 := fun _ => Nat.mod_lt _ (by decide)
  by_cases h : now % 5600 < 2100
  · rw [if_pos h] at hv
    exact ⟨now / 5600 % 16, 0, by rw [hv, Nat.add_zero], lt16 _, by omega, (hopens (lt16 _)).2 ⟨rfl, h⟩, fun _ _ hi => absurd hi (Nat.not_lt_zero _), fun _ => rfl⟩
  · rw [if_neg h] at hv
    refine ⟨(now / 5600 + 1) % 16, 5600 - now % 5600, hv, lt16 _, by omega, ?next, fun i g hi hg ho => ?before, fun ⟨g, hg, ho⟩ => ?now⟩
    case next =>
      rw [hopens (lt16 _)]
      omega
    case before =>
      rw [hopens hg] at ho
      omega
    case now => exact absurd ((hopens hg).1 ho).2 h

/-! ### MOVS and the special registers (R82, R425, R426) -/

@[simp] theorem State.charged_chip (s : State) (x : X) (i : Instr) : (s.charged x i).chip = s.chip := by
  simp [State.charged, charge, apply_ite State.chip]
/-- What an instruction reads as it was before its pair: its slice, group and core as it finds them, unless the cursor brings older ones (R69). -/
theorem mkX_was {c : Cursor} {h : Hdr} (e : mkX c i h s = some x) : x.was = c.src.getD ⟨x.x, x.g, s.core x.x.core⟩ := by
  unfold mkX at e
  split at e
  · cases e
  · split at e
    · cases e
    · split at e
      · cases e; rfl
      · cases e
theorem State.clear_was (e : s.clear i = some x) (hs : x.cur.src = none) : x.was = ⟨x.x, x.g, s.core x.x.core⟩ := by
  obtain ⟨c, h, -, -, hx, -⟩ := State.clear_spec e
  rw [mkX_was hx, ← (mkX_spec hx).1, hs]
  rfl
/-- A copy channel's write pointer as the slice sees it (R82, R234). -/
theorem X.special_cw (x : X) (s : State) {c : Nat} (hc : c < 4) (lane : Nat) : x.special s (0x08 + c) lane =
    ((x.was.core.chans.getD c Chan.reset).cw + 2 ^ 64 - x.was.slice.views.getD c 0 % 2 ^ 64) % 2 ^ 64 := by
  obtain rfl | rfl | rfl | rfl : c = 0 ∨ c = 1 ∨ c = 2 ∨ c = 3 := by omega
  all_goals simp only [X.special]

/-- MOVS is an instruction of fixed latency that writes the value it reads once it has paid for its issue. -/
theorem exec_movs {h : Hdr} {vd : Bool} {src : MovsSrc} {d : Nat} (e : s.clear (.movs h vd src d) = some x) :
    ∃ t, exec (.movs h vd src d) s = .next t ∧ x.wroteInt t (!vd) src.wide d 4 fun L => x.movsValue (s.charged x (.movs h vd src d)) src L := by
  let i : Instr := .movs h vd src d
  let ev : Eval := fun x => .ok (x.alu (!vd) fun L => dstWr (!vd) src.wide d L (x.movsValue (s.charged x i) src L))
  have hx : exec i s = issueFixed i 4 ev s := by
    show execMovs h vd src d s = _
    rw [issueFixed_clear e 4 ev rfl, execMovs, issue_clear e]
    rfl
  exact completes_int (f := fun x L => x.movsValue (s.charged x i) src L) hx (fun _ _ => rfl) x e

/-! ### SETS and sr.chk (R447) -/

theorem RegWr.apply_chk (g : Group) (w : RegWr) (b : Bool) : w.apply { g with chk := b } = { w.apply g with chk := b } := by
  cases w with
  | am i x => simp only [RegWr.apply]; split <;> rfl
  | _ => rfl
theorem Group.mend_chk (g : Group) (e : EccWord) (b : Bool) : ({ g with chk := b } : Group).mend e = { g.mend e with chk := b } := by
  unfold Group.mend; split <;> rfl
theorem RegWr.store_chk (g : Group) (w : RegWr) (b : Bool) : w.store { g with chk := b } = { w.store g with chk := b } := by
  cases w <;> simp only [RegWr.store, RegWr.apply_chk, Group.mend_chk]
theorem applyAll_chk (g : Group) (ws : List RegWr) (b : Bool) : applyAll { g with chk := b } ws = { applyAll g ws with chk := b } := by
  induction ws generalizing g with
  | nil => rfl
  | cons w ws ih => exact (congrArg (fun k => applyAll k ws) (RegWr.store_chk g w b)).trans (ih _)
/-- A group with another sr.chk reads as before at every cycle. -/
theorem Group.reg_view_chk (g : Group) (b : Bool) (cycle sn : Nat) (c : Cls) (n lane : Nat) :
    (({ g with chk := b } : Group).view cycle).reg sn c n lane = (g.view cycle).reg sn c n lane := by
  rw [Group.view_eq, Group.view_eq, applyAll_chk]
  rfl

/-- The state after sr.chk of a strand's group is written. -/
def State.setChk (s : State) (r : StrandRef) (b : Bool) : State := s.modGroup r.sid r.gi fun g => { g with chk := b }
theorem State.reg_setChk (s : State) (q : StrandRef) (b : Bool) (r : StrandRef) (cycle : Nat) (c : Cls) (n lane : Nat) :
    (s.setChk q b).reg r cycle c n lane = s.reg r cycle c n lane := by
  unfold State.reg State.groupAt
  rw [State.setChk, State.group?_modGroup]
  by_cases h : q.sid = r.sid ∧ q.gi = r.gi
  · rw [if_pos h]
    cases s.group? r.sid r.gi with
    | none => rfl
    | some g => exact g.reg_view_chk ..
  · rw [if_neg h]
theorem State.sameMachine_setChk (s : State) (r : StrandRef) (b : Bool) : sameMachine s (s.setChk r b) := by
  simp [sameMachine, State.setChk]
/-- A group of a state has its like in every state that is like it. -/
theorem State.Like.group (h : s.Like t) {sid gi : Nat} {g : Group} (hg : s.group? sid gi = some g) : ∃ k, t.group? sid gi = some k ∧ g.Like k := by
  have hk := h.2 sid gi
  rw [hg] at hk
  cases e : t.group? sid gi with
  | none => rw [e] at hk; exact hk.elim
  | some k => rw [e] at hk; exact ⟨k, rfl, hk⟩

/-- The state after an instruction that writes sr.chk has issued. -/
def State.afterChk (s : State) (x : X) (i : Instr) (b : Bool) : State := ((s.charged x i).setChk x.cur.who b).issued x i
theorem X.sameRegs_afterChk (s : State) (x : X) (i : Instr) (b : Bool) : x.sameRegs s (s.afterChk x i b) := by
  have hc := State.like_charged s x i
  have hi := State.like_issued ((s.charged x i).setChk x.cur.who b) x i
  exact ⟨fun cycle c n lane => (hi.reg ..).trans ((State.reg_setChk ..).trans (hc.reg ..)), hc.1.trans ((State.sameMachine_setChk ..).trans hi.1)⟩
theorem State.afterChk_chk (e : s.clear i = some x) (b : Bool) :
    ∃ g, (s.afterChk x i b).group? x.cur.who.sid x.cur.who.gi = some g ∧ g.chk = b := by
  obtain ⟨k, hk, -⟩ := (State.like_charged s x i).group (State.clear_group e).1
  have hset : ((s.charged x i).setChk x.cur.who b).group? x.cur.who.sid x.cur.who.gi = some { k with chk := b } := by
    simp [State.setChk, State.group?_modGroup, hk]
  obtain ⟨g, hg, hl⟩ := (State.like_issued _ x i).group hset
  exact ⟨g, hg, hl.shared.1⟩

theorem exec_sets {h : Hdr} {n a : Nat} (e : s.clear (.sets h n a) = some x) : exec (.sets h n a) s =
    .next (if x.isArm then s.trapped x 192 0 0 else s.afterChk x (.sets h n a) (bitAt (x.gr a) 0)) := by
  show execSets h n a s = _
  rw [execSets, issue_clear e]
  cases x.isArm <;> rfl
theorem bitAt_eq_testBit (n i : Nat) : bitAt n i = n.testBit i := by
  rw [bitAt, Nat.testBit_eq_decide_div_mod_eq]
  rfl

/-- Settles O32: MOVS gives the values of `X.special`, each of which is the field that the statement names, and SETS changes nothing that a register reads. -/
theorem specialRegisters : Obligations.SpecialRegisters := by
  intro h vd src d n a c s x u L y g
  refine ⟨fun e => ⟨exec_movs e, fun hs => ?was⟩, fun e => ?sets, ?values, fun hc => X.special_cw x u hc L, fun k => ⟨rfl, rfl⟩, rfl⟩
  case was =>
    have hw := State.clear_was e hs
    exact ⟨congrArg Before.slice hw, congrArg Before.group hw, congrArg Before.core hw⟩
  case sets =>
    rw [exec_sets e]
    cases x.isArm with
    | true => exact rfl
    | false =>
      obtain ⟨g, hg, hchk⟩ := State.afterChk_chk e (bitAt (x.gr a) 0)
      exact ⟨_, g, rfl, X.sameRegs_afterChk .., hg, hchk.trans (bitAt_eq_testBit _ 0)⟩
  case values =>
    simp only [List.forall_mem_cons]
    exact ⟨rfl, rfl, rfl, rfl, rfl, rfl, rfl, State.charged_chip .., rfl, rfl, rfl, rfl, rfl, fun _ he => absurd he List.not_mem_nil⟩

/-! ### Module reset (R5, R82, R346) -/

/-- After module reset nothing is possible: no slice, core, queue, job or harness asks for an event. -/
theorem State.schedule_reset : State.reset.schedule = none := by
  have h : State.reset.candidateEvents = [] := rfl
  rw [State.schedule, h]
  rfl
/-- With no event possible and no bay occupied the first step after module reset lets a cycle pass. -/
theorem step_reset : step State.reset = .next State.reset.tick := by
  show State.reset.advance = _
  rw [State.advance, State.schedule_reset]
  rfl

/-- Settles O59: the fields as module reset leaves them, and the first step by what it is. -/
theorem resetState : Obligations.ResetState :=
  ⟨State.reset_memOk, rfl, rfl, rfl, rfl, rfl, rfl, rfl, rfl, rfl, rfl, fun _ => rfl, fun _ => ⟨rfl, rfl⟩, State.reset.tick, step_reset, rfl,
    State.memOk_of_eq rfl rfl State.reset_memOk⟩

end Sys2Proof.Machine
end
